-- ==== Sys2Proof/Word.lean ====
section
/-! DEFINITION. The words of the machine and their widths (00_scope.md R6). -/

namespace Sys2Proof

/-- A word register's contents: `WLEN` = 384 bits (00_scope.md R6, 10_state.md R100). -/
abbrev Word := BitVec 384

/-- One host-port access, a limb: `LIMB` = 32 bits (00_scope.md R6). -/
abbrev Limb := BitVec 32

/-- A command word: `CMDLEN` = 32 bits (00_scope.md R6, 30_encoding.md R300). -/
abbrev CmdWord := BitVec 32

/-- A register field of a command word: the 6-bit base index of an operand (30_encoding.md R300). -/
abbrev Reg := BitVec 6

end Sys2Proof
end

