-- ==== Sys2Proof/Config.lean ====
section
/-! DEFINITION. What is fixed for the machine: the hardwired curve constants (00_scope.md R2, R7; 10_state.md R109)
and the free values, constants without a body that stand for what the spec leaves unspecified. -/

namespace Sys2Proof.Config

/-- `baseModulus`, 381 bits (00_scope.md R7; the spec takes the value from general knowledge, log 10). -/
def p : Nat :=
  0x1a0111ea397fe69a4b1ba7b6434bacd764774b84f38512bf6730d2a0f6b0f6241eabfffeb153ffffb9feffffffffaaab

/-- `subgroupOrder`, 255 bits (00_scope.md R7; the spec takes the value from general knowledge, log 10). -/
def r : Nat := 0x73eda753299d7d483339d80809a1d80553bda402fffe5bfeffffffff00000001

/-- The curve parameter |x|, 64 bits (00_scope.md R7). -/
def X : Nat := 0xd201000000010000

/-- The number of word registers, `NW` (00_scope.md R6). -/
def numRegs : Nat := 64

/-- The size in bytes of the host window, `WINDOW` (00_scope.md R6, 20_memory.md R200). -/
def windowBytes : Nat := 4096

/-- FREE VALUE (log 3, DESIGN CHOICE): the 32-bit value a host read returns where the spec leaves it unspecified
(20_memory.md R203: a `W` limb read while BUSY, or never written since reset). Applied to the draw counter. -/
opaque hostDraw : Nat → Limb

/-- FREE VALUE (log 4, DESIGN CHOICE): what `W[i]` holds after a reset inside a run (70_reset_and_hazards.md R700),
not necessarily the same after two resets (10_state.md R116). Applied to the draw counter and the register index. -/
opaque resetDraw : Nat → Nat → Word

end Sys2Proof.Config
end

