-- ==== Sys2Proof/Syntax.lean ====
section
/-! DEFINITION. The commands, one constructor for each row of spec/opcode_table.json (30_encoding.md R301 to R303).
A constructor is named after the row's mnemonic without the dot; its operands stand in the order RD, RA, RB, RC of R303,
each the 6-bit base index of the operand in the register file, and `sn` is the sign bit of `pmul` (R304). -/

namespace Sys2Proof

/-- A command of the core (30_encoding.md R303; the rule of each is in its docstring). -/
inductive Instr where
  /-- `fzero.1` (R402): RD := the additive identity. -/
  | fzero1 (rd : Reg)
  /-- `fzero.2` (R421): RD := the additive identity. -/
  | fzero2 (rd : Reg)
  /-- `fzero.6` (R441): RD := the additive identity. -/
  | fzero6 (rd : Reg)
  /-- `fzero.12` (R461): RD := the additive identity. -/
  | fzero12 (rd : Reg)
  /-- `fone.1` (R403): RD := the multiplicative identity. -/
  | fone1 (rd : Reg)
  /-- `fone.2` (R422): RD := the multiplicative identity. -/
  | fone2 (rd : Reg)
  /-- `fone.6` (R442): RD := the multiplicative identity. -/
  | fone6 (rd : Reg)
  /-- `fone.12` (R462): RD := the multiplicative identity. -/
  | fone12 (rd : Reg)
  /-- `fadd.1` (R404): RD := RA + RB. -/
  | fadd1 (rd ra rb : Reg)
  /-- `fadd.2` (R423): RD := RA + RB. -/
  | fadd2 (rd ra rb : Reg)
  /-- `fadd.6` (R443): RD := RA + RB. -/
  | fadd6 (rd ra rb : Reg)
  /-- `fadd.12` (R463): RD := RA + RB. -/
  | fadd12 (rd ra rb : Reg)
  /-- `fsub.1` (R405): RD := RA - RB. -/
  | fsub1 (rd ra rb : Reg)
  /-- `fsub.2` (R424): RD := RA - RB. -/
  | fsub2 (rd ra rb : Reg)
  /-- `fsub.6` (R444): RD := RA - RB. -/
  | fsub6 (rd ra rb : Reg)
  /-- `fsub.12` (R464): RD := RA - RB. -/
  | fsub12 (rd ra rb : Reg)
  /-- `fneg.1` (R406): RD := -RA. -/
  | fneg1 (rd ra : Reg)
  /-- `fneg.2` (R425): RD := -RA. -/
  | fneg2 (rd ra : Reg)
  /-- `fneg.6` (R445): RD := -RA. -/
  | fneg6 (rd ra : Reg)
  /-- `fneg.12` (R465): RD := -RA. -/
  | fneg12 (rd ra : Reg)
  /-- `fmul.1` (R407): RD := RA * RB. -/
  | fmul1 (rd ra rb : Reg)
  /-- `fmul.2` (R426): RD := RA * RB. -/
  | fmul2 (rd ra rb : Reg)
  /-- `fmul.6` (R446): RD := RA * RB. -/
  | fmul6 (rd ra rb : Reg)
  /-- `fmul.12` (R466): RD := RA * RB. -/
  | fmul12 (rd ra rb : Reg)
  /-- `finv.1` (R408): RD := the inverse of RA. -/
  | finv1 (rd ra : Reg)
  /-- `finv.2` (R427): RD := the inverse of RA. -/
  | finv2 (rd ra : Reg)
  /-- `finv.6` (R447): RD := the inverse of RA. -/
  | finv6 (rd ra : Reg)
  /-- `finv.12` (R467): RD := the inverse of RA. -/
  | finv12 (rd ra : Reg)
  /-- `fpow.1` (R410): RD := RA to the power W[RB]. -/
  | fpow1 (rd ra rb : Reg)
  /-- `fpow.2` (R428): RD := RA to the power W[RB]. -/
  | fpow2 (rd ra rb : Reg)
  /-- `fpow.6` (R448): RD := RA to the power W[RB]. -/
  | fpow6 (rd ra rb : Reg)
  /-- `fpow.12` (R468): RD := RA to the power W[RB]. -/
  | fpow12 (rd ra rb : Reg)
  /-- `fmulnr.2` (R429): RD := RA times the non-residue. -/
  | fmulnr2 (rd ra : Reg)
  /-- `fmulnr.6` (R449): RD := RA times the non-residue. -/
  | fmulnr6 (rd ra : Reg)
  /-- `fmulnr.12` (R469): reads RA, then always raises UndefinedOperation. -/
  | fmulnr12 (rd ra : Reg)
  /-- `feq.1` (R411): FLAG := (RA = RB). -/
  | feq1 (ra rb : Reg)
  /-- `feq.2` (R430): FLAG := (RA = RB). -/
  | feq2 (ra rb : Reg)
  /-- `feq.6` (R450): FLAG := (RA = RB). -/
  | feq6 (ra rb : Reg)
  /-- `feq.12` (R470): FLAG := (RA = RB). -/
  | feq12 (ra rb : Reg)
  /-- `fisone.1` (R412): FLAG := (RA is one). -/
  | fisone1 (ra : Reg)
  /-- `fisone.2` (R431): FLAG := (RA is one). -/
  | fisone2 (ra : Reg)
  /-- `fisone.6` (R451): FLAG := (RA is one). -/
  | fisone6 (ra : Reg)
  /-- `fisone.12` (R471): FLAG := (RA is one). -/
  | fisone12 (ra : Reg)
  /-- `padd.1` (R512): RD := the point RA + the point RB. -/
  | padd1 (rd ra rb : Reg)
  /-- `padd.2` (R513): RD := the point RA + the point RB. -/
  | padd2 (rd ra rb : Reg)
  /-- `padd.12` (R514): RD := the point RA + the point RB. -/
  | padd12 (rd ra rb : Reg)
  /-- `pdbl.1` (R515): RD := twice the point RA. -/
  | pdbl1 (rd ra : Reg)
  /-- `pdbl.2` (R516): RD := twice the point RA. -/
  | pdbl2 (rd ra : Reg)
  /-- `pdbl.12` (R517): RD := twice the point RA. -/
  | pdbl12 (rd ra : Reg)
  /-- `pneg.1` (R518): RD := minus the point RA. -/
  | pneg1 (rd ra : Reg)
  /-- `pneg.2` (R519): RD := minus the point RA. -/
  | pneg2 (rd ra : Reg)
  /-- `pneg.12` (R520): RD := minus the point RA. -/
  | pneg12 (rd ra : Reg)
  /-- `pmul.1` (R521): RD := W[RA] times the point RB, negated scalar when SN. -/
  | pmul1 (rd ra rb : Reg) (sn : Bool)
  /-- `pmul.2` (R522): RD := W[RA] times the point RB, negated scalar when SN. -/
  | pmul2 (rd ra rb : Reg) (sn : Bool)
  /-- `pmul.12` (R523): RD := W[RA] times the point RB, negated scalar when SN. -/
  | pmul12 (rd ra rb : Reg) (sn : Bool)
  /-- `poncurve.1` (R524): FLAG := the point RA is on the curve. -/
  | poncurve1 (ra : Reg)
  /-- `poncurve.2` (R525): FLAG := the point RA is on the curve. -/
  | poncurve2 (ra : Reg)
  /-- `poncurve.12` (R526): FLAG := the point RA is on the curve. -/
  | poncurve12 (ra : Reg)
  /-- `pinsubgrp.1` (R527): FLAG := the point RA is in the subgroup. -/
  | pinsubgrp1 (ra : Reg)
  /-- `pinsubgrp.2` (R528): FLAG := the point RA is in the subgroup. -/
  | pinsubgrp2 (ra : Reg)
  /-- `pinsubgrp.12` (R529): FLAG := the point RA is in the subgroup. -/
  | pinsubgrp12 (ra : Reg)
  /-- `untwist` (R542): RD := the level-12 image of the G2 point RA. -/
  | untwist (rd ra : Reg)
  /-- `dbleval` (R543): RD := the tangent line at the G2 point RA, evaluated at the G1 point RB. -/
  | dbleval (rd ra rb : Reg)
  /-- `addeval` (R544): RD := the line through the G2 points RA and RB, evaluated at the G1 point RC. -/
  | addeval (rd ra rb rc : Reg)
  /-- `miller` (R546): RD := the Miller value of the G1 point RA and the G2 point RB. -/
  | miller (rd ra rb : Reg)
  /-- `pairing` (R548): RD := the Miller value, or zero for rejected points. -/
  | pairing (rd ra rb : Reg)
  /-- `finalexp` (R551): RD := RA to the power (p^12 - 1)/r. -/
  | finalexp (rd ra : Reg)
  /-- `sqrt.1` (R571): RD := a square root of RA. -/
  | sqrt1 (rd ra : Reg)
  /-- `sqrt.2` (R573): RD := a square root of RA. -/
  | sqrt2 (rd ra : Reg)
  /-- `compress.1` (R580): RD := the compressed encoding of the point RA. -/
  | compress1 (rd ra : Reg)
  /-- `compress.2` (R582): RD := the compressed encoding of the point RA. -/
  | compress2 (rd ra : Reg)
  /-- `decompress.1` (R581): RD := the point encoded by RA. -/
  | decompress1 (rd ra : Reg)
  /-- `decompress.2` (R583): RD := the point encoded by RA. -/
  | decompress2 (rd ra : Reg)
deriving DecidableEq, Repr

end Sys2Proof
end

