-- ==== Sys2Proof/WellFormed.lean ====
section
/-! DEFINITION. What each command's operands occupy (30_encoding.md R303) and when a command is well formed: every
operand lies inside the register file (R305 step 4, R307). -/

namespace Sys2Proof

/-- The base index and the size in registers of the operand a command writes, if it writes registers
(30_encoding.md R303, column RD). -/
def Instr.dest : Instr → Option (Reg × Nat)
  | .fzero1 rd => some (rd, 1)
  | .fzero2 rd => some (rd, 2)
  | .fzero6 rd => some (rd, 6)
  | .fzero12 rd => some (rd, 12)
  | .fone1 rd => some (rd, 1)
  | .fone2 rd => some (rd, 2)
  | .fone6 rd => some (rd, 6)
  | .fone12 rd => some (rd, 12)
  | .fadd1 rd _ _ => some (rd, 1)
  | .fadd2 rd _ _ => some (rd, 2)
  | .fadd6 rd _ _ => some (rd, 6)
  | .fadd12 rd _ _ => some (rd, 12)
  | .fsub1 rd _ _ => some (rd, 1)
  | .fsub2 rd _ _ => some (rd, 2)
  | .fsub6 rd _ _ => some (rd, 6)
  | .fsub12 rd _ _ => some (rd, 12)
  | .fneg1 rd _ => some (rd, 1)
  | .fneg2 rd _ => some (rd, 2)
  | .fneg6 rd _ => some (rd, 6)
  | .fneg12 rd _ => some (rd, 12)
  | .fmul1 rd _ _ => some (rd, 1)
  | .fmul2 rd _ _ => some (rd, 2)
  | .fmul6 rd _ _ => some (rd, 6)
  | .fmul12 rd _ _ => some (rd, 12)
  | .finv1 rd _ => some (rd, 1)
  | .finv2 rd _ => some (rd, 2)
  | .finv6 rd _ => some (rd, 6)
  | .finv12 rd _ => some (rd, 12)
  | .fpow1 rd _ _ => some (rd, 1)
  | .fpow2 rd _ _ => some (rd, 2)
  | .fpow6 rd _ _ => some (rd, 6)
  | .fpow12 rd _ _ => some (rd, 12)
  | .fmulnr2 rd _ => some (rd, 2)
  | .fmulnr6 rd _ => some (rd, 6)
  | .fmulnr12 rd _ => some (rd, 12)
  | .feq1 _ _ => none
  | .feq2 _ _ => none
  | .feq6 _ _ => none
  | .feq12 _ _ => none
  | .fisone1 _ => none
  | .fisone2 _ => none
  | .fisone6 _ => none
  | .fisone12 _ => none
  | .padd1 rd _ _ => some (rd, 3)
  | .padd2 rd _ _ => some (rd, 5)
  | .padd12 rd _ _ => some (rd, 25)
  | .pdbl1 rd _ => some (rd, 3)
  | .pdbl2 rd _ => some (rd, 5)
  | .pdbl12 rd _ => some (rd, 25)
  | .pneg1 rd _ => some (rd, 3)
  | .pneg2 rd _ => some (rd, 5)
  | .pneg12 rd _ => some (rd, 25)
  | .pmul1 rd _ _ _ => some (rd, 3)
  | .pmul2 rd _ _ _ => some (rd, 5)
  | .pmul12 rd _ _ _ => some (rd, 25)
  | .poncurve1 _ => none
  | .poncurve2 _ => none
  | .poncurve12 _ => none
  | .pinsubgrp1 _ => none
  | .pinsubgrp2 _ => none
  | .pinsubgrp12 _ => none
  | .untwist rd _ => some (rd, 25)
  | .dbleval rd _ _ => some (rd, 12)
  | .addeval rd _ _ _ => some (rd, 12)
  | .miller rd _ _ => some (rd, 12)
  | .pairing rd _ _ => some (rd, 12)
  | .finalexp rd _ => some (rd, 12)
  | .sqrt1 rd _ => some (rd, 1)
  | .sqrt2 rd _ => some (rd, 2)
  | .compress1 rd _ => some (rd, 1)
  | .compress2 rd _ => some (rd, 2)
  | .decompress1 rd _ => some (rd, 3)
  | .decompress2 rd _ => some (rd, 5)

/-- The base indices and sizes in registers of the operands a command reads, in the order RA, RB, RC
(30_encoding.md R303; 60_exceptions.md R611 step 2). -/
def Instr.sources : Instr → List (Reg × Nat)
  | .fzero1 _ => []
  | .fzero2 _ => []
  | .fzero6 _ => []
  | .fzero12 _ => []
  | .fone1 _ => []
  | .fone2 _ => []
  | .fone6 _ => []
  | .fone12 _ => []
  | .fadd1 _ ra rb => [(ra, 1), (rb, 1)]
  | .fadd2 _ ra rb => [(ra, 2), (rb, 2)]
  | .fadd6 _ ra rb => [(ra, 6), (rb, 6)]
  | .fadd12 _ ra rb => [(ra, 12), (rb, 12)]
  | .fsub1 _ ra rb => [(ra, 1), (rb, 1)]
  | .fsub2 _ ra rb => [(ra, 2), (rb, 2)]
  | .fsub6 _ ra rb => [(ra, 6), (rb, 6)]
  | .fsub12 _ ra rb => [(ra, 12), (rb, 12)]
  | .fneg1 _ ra => [(ra, 1)]
  | .fneg2 _ ra => [(ra, 2)]
  | .fneg6 _ ra => [(ra, 6)]
  | .fneg12 _ ra => [(ra, 12)]
  | .fmul1 _ ra rb => [(ra, 1), (rb, 1)]
  | .fmul2 _ ra rb => [(ra, 2), (rb, 2)]
  | .fmul6 _ ra rb => [(ra, 6), (rb, 6)]
  | .fmul12 _ ra rb => [(ra, 12), (rb, 12)]
  | .finv1 _ ra => [(ra, 1)]
  | .finv2 _ ra => [(ra, 2)]
  | .finv6 _ ra => [(ra, 6)]
  | .finv12 _ ra => [(ra, 12)]
  | .fpow1 _ ra rb => [(ra, 1), (rb, 1)]
  | .fpow2 _ ra rb => [(ra, 2), (rb, 1)]
  | .fpow6 _ ra rb => [(ra, 6), (rb, 1)]
  | .fpow12 _ ra rb => [(ra, 12), (rb, 1)]
  | .fmulnr2 _ ra => [(ra, 2)]
  | .fmulnr6 _ ra => [(ra, 6)]
  | .fmulnr12 _ ra => [(ra, 12)]
  | .feq1 ra rb => [(ra, 1), (rb, 1)]
  | .feq2 ra rb => [(ra, 2), (rb, 2)]
  | .feq6 ra rb => [(ra, 6), (rb, 6)]
  | .feq12 ra rb => [(ra, 12), (rb, 12)]
  | .fisone1 ra => [(ra, 1)]
  | .fisone2 ra => [(ra, 2)]
  | .fisone6 ra => [(ra, 6)]
  | .fisone12 ra => [(ra, 12)]
  | .padd1 _ ra rb => [(ra, 3), (rb, 3)]
  | .padd2 _ ra rb => [(ra, 5), (rb, 5)]
  | .padd12 _ ra rb => [(ra, 25), (rb, 25)]
  | .pdbl1 _ ra => [(ra, 3)]
  | .pdbl2 _ ra => [(ra, 5)]
  | .pdbl12 _ ra => [(ra, 25)]
  | .pneg1 _ ra => [(ra, 3)]
  | .pneg2 _ ra => [(ra, 5)]
  | .pneg12 _ ra => [(ra, 25)]
  | .pmul1 _ ra rb _ => [(ra, 1), (rb, 3)]
  | .pmul2 _ ra rb _ => [(ra, 1), (rb, 5)]
  | .pmul12 _ ra rb _ => [(ra, 1), (rb, 25)]
  | .poncurve1 ra => [(ra, 3)]
  | .poncurve2 ra => [(ra, 5)]
  | .poncurve12 ra => [(ra, 25)]
  | .pinsubgrp1 ra => [(ra, 3)]
  | .pinsubgrp2 ra => [(ra, 5)]
  | .pinsubgrp12 ra => [(ra, 25)]
  | .untwist _ ra => [(ra, 5)]
  | .dbleval _ ra rb => [(ra, 5), (rb, 3)]
  | .addeval _ ra rb rc => [(ra, 5), (rb, 5), (rc, 3)]
  | .miller _ ra rb => [(ra, 3), (rb, 5)]
  | .pairing _ ra rb => [(ra, 3), (rb, 5)]
  | .finalexp _ ra => [(ra, 12)]
  | .sqrt1 _ ra => [(ra, 1)]
  | .sqrt2 _ ra => [(ra, 2)]
  | .compress1 _ ra => [(ra, 3)]
  | .compress2 _ ra => [(ra, 5)]
  | .decompress1 _ ra => [(ra, 1)]
  | .decompress2 _ ra => [(ra, 2)]

/-- All register operands of a command, the destination first. -/
def Instr.operands (i : Instr) : List (Reg × Nat) := i.dest.toList ++ i.sources

/-- An operand of `n` registers at base `b` lies inside the register file: `b + n ≤ 64` (30_encoding.md R307). -/
def operandInRange (o : Reg × Nat) : Bool := decide (o.1.toNat + o.2 ≤ Config.numRegs)

/-- A command is well formed when every operand lies inside the register file (30_encoding.md R305 step 4). The other
checks of R305 (operation, level, unused fields) are on the command word: a term of `Instr` has only the fields its
command uses. -/
def Instr.wellFormed (i : Instr) : Bool := i.operands.all operandInRange

end Sys2Proof
end

