-- ==== Sys2Proof/Decode.lean ====
section
/-! DEFINITION. Decoding of a command word (30_encoding.md R305), total and rejecting by name, and the encoder
written from the same tables (R300 to R303). A command is one 32-bit word; it is never fetched from bytes, so there is
no byte order to choose (20_memory.md R205, R212). -/

namespace Sys2Proof

/-! ## The fields of a command word (30_encoding.md R300) -/

/-- `OP`, bits 31:26. -/
def opOf (c : CmdWord) : BitVec 6 := c.extractLsb' 26 6
/-- `LV`, bits 25:24. -/
def lvOf (c : CmdWord) : BitVec 2 := c.extractLsb' 24 2
/-- `RD`, bits 23:18. -/
def rdOf (c : CmdWord) : Reg := c.extractLsb' 18 6
/-- `RA`, bits 17:12. -/
def raOf (c : CmdWord) : Reg := c.extractLsb' 12 6
/-- `RB`, bits 11:6. -/
def rbOf (c : CmdWord) : Reg := c.extractLsb' 6 6
/-- `RC`, bits 5:0. -/
def rcOf (c : CmdWord) : Reg := c.extractLsb' 0 6

/-- Why a word is not a legal command: the steps 1 to 4 of 30_encoding.md R305. All of them are the one error
IllegalCommand of the machine (60_exceptions.md R608). -/
inductive Reject where
  /-- Step 1: `OP` is not in the table of R301. -/
  | reservedOp
  /-- Step 2: `LV` is not legal for `OP` (R303). -/
  | illegalLevel
  /-- Step 3: a field the command does not use is not zero (R306). -/
  | unusedField
  /-- Step 4: an operand reaches past `W[63]` (R307). -/
  | operandRange
deriving DecidableEq, Repr

/-- The command `i`, unless one of the fields it does not use is nonzero (30_encoding.md R305 step 3). -/
def unused (fields : List Reg) (i : Instr) : Except Reject Instr :=
  if fields.all (· == 0) then .ok i else .error .unusedField

/-- `pmul` uses bit 0 of `RC` as `SN`; bits 5:1 must be zero (30_encoding.md R303, R305 step 3). -/
def signed (rc : Reg) (i : Bool → Instr) : Except Reject Instr :=
  if rc.extractLsb' 1 5 == 0 then .ok (i (rc.getLsbD 0)) else .error .unusedField

/-- The answer for one operation by its level code (30_encoding.md R302): `LV` = 0, 1, 2, 3 is level 1, 2, 6, 12. -/
def byLevel (lv : Nat) (l1 l2 l6 l12 : Except Reject Instr) : Except Reject Instr :=
  match lv with
  | 0 => l1
  | 1 => l2
  | 2 => l6
  | 3 => l12
  | _ => .error .illegalLevel

/-- A level code that is not legal for the operation (30_encoding.md R305 step 2). -/
def noLevel : Except Reject Instr := .error .illegalLevel

/-- Steps 1 to 3 of 30_encoding.md R305: the opcode map of R301, the legal levels and the unused fields of R303. -/
def selectCommand (op lv : Nat) (rd ra rb rc : Reg) : Except Reject Instr :=
  match op with
  | 0x01 => byLevel lv
      (unused [ra, rb, rc] (.fzero1 rd))
      (unused [ra, rb, rc] (.fzero2 rd))
      (unused [ra, rb, rc] (.fzero6 rd))
      (unused [ra, rb, rc] (.fzero12 rd))
  | 0x02 => byLevel lv
      (unused [ra, rb, rc] (.fone1 rd))
      (unused [ra, rb, rc] (.fone2 rd))
      (unused [ra, rb, rc] (.fone6 rd))
      (unused [ra, rb, rc] (.fone12 rd))
  | 0x03 => byLevel lv
      (unused [rc] (.fadd1 rd ra rb))
      (unused [rc] (.fadd2 rd ra rb))
      (unused [rc] (.fadd6 rd ra rb))
      (unused [rc] (.fadd12 rd ra rb))
  | 0x04 => byLevel lv
      (unused [rc] (.fsub1 rd ra rb))
      (unused [rc] (.fsub2 rd ra rb))
      (unused [rc] (.fsub6 rd ra rb))
      (unused [rc] (.fsub12 rd ra rb))
  | 0x05 => byLevel lv
      (unused [rb, rc] (.fneg1 rd ra))
      (unused [rb, rc] (.fneg2 rd ra))
      (unused [rb, rc] (.fneg6 rd ra))
      (unused [rb, rc] (.fneg12 rd ra))
  | 0x06 => byLevel lv
      (unused [rc] (.fmul1 rd ra rb))
      (unused [rc] (.fmul2 rd ra rb))
      (unused [rc] (.fmul6 rd ra rb))
      (unused [rc] (.fmul12 rd ra rb))
  | 0x07 => byLevel lv
      (unused [rb, rc] (.finv1 rd ra))
      (unused [rb, rc] (.finv2 rd ra))
      (unused [rb, rc] (.finv6 rd ra))
      (unused [rb, rc] (.finv12 rd ra))
  | 0x08 => byLevel lv
      (unused [rc] (.fpow1 rd ra rb))
      (unused [rc] (.fpow2 rd ra rb))
      (unused [rc] (.fpow6 rd ra rb))
      (unused [rc] (.fpow12 rd ra rb))
  | 0x09 => byLevel lv
      noLevel
      (unused [rb, rc] (.fmulnr2 rd ra))
      (unused [rb, rc] (.fmulnr6 rd ra))
      (unused [rb, rc] (.fmulnr12 rd ra))
  | 0x0A => byLevel lv
      (unused [rd, rc] (.feq1 ra rb))
      (unused [rd, rc] (.feq2 ra rb))
      (unused [rd, rc] (.feq6 ra rb))
      (unused [rd, rc] (.feq12 ra rb))
  | 0x0B => byLevel lv
      (unused [rd, rb, rc] (.fisone1 ra))
      (unused [rd, rb, rc] (.fisone2 ra))
      (unused [rd, rb, rc] (.fisone6 ra))
      (unused [rd, rb, rc] (.fisone12 ra))
  | 0x10 => byLevel lv
      (unused [rc] (.padd1 rd ra rb))
      (unused [rc] (.padd2 rd ra rb))
      noLevel
      (unused [rc] (.padd12 rd ra rb))
  | 0x11 => byLevel lv
      (unused [rb, rc] (.pdbl1 rd ra))
      (unused [rb, rc] (.pdbl2 rd ra))
      noLevel
      (unused [rb, rc] (.pdbl12 rd ra))
  | 0x12 => byLevel lv
      (unused [rb, rc] (.pneg1 rd ra))
      (unused [rb, rc] (.pneg2 rd ra))
      noLevel
      (unused [rb, rc] (.pneg12 rd ra))
  | 0x13 => byLevel lv
      (signed rc (.pmul1 rd ra rb))
      (signed rc (.pmul2 rd ra rb))
      noLevel
      (signed rc (.pmul12 rd ra rb))
  | 0x14 => byLevel lv
      (unused [rd, rb, rc] (.poncurve1 ra))
      (unused [rd, rb, rc] (.poncurve2 ra))
      noLevel
      (unused [rd, rb, rc] (.poncurve12 ra))
  | 0x15 => byLevel lv
      (unused [rd, rb, rc] (.pinsubgrp1 ra))
      (unused [rd, rb, rc] (.pinsubgrp2 ra))
      noLevel
      (unused [rd, rb, rc] (.pinsubgrp12 ra))
  | 0x20 => byLevel lv
      (unused [rb, rc] (.untwist rd ra))
      noLevel
      noLevel
      noLevel
  | 0x21 => byLevel lv
      (unused [rc] (.dbleval rd ra rb))
      noLevel
      noLevel
      noLevel
  | 0x22 => byLevel lv
      (unused [] (.addeval rd ra rb rc))
      noLevel
      noLevel
      noLevel
  | 0x23 => byLevel lv
      (unused [rc] (.miller rd ra rb))
      noLevel
      noLevel
      noLevel
  | 0x24 => byLevel lv
      (unused [rc] (.pairing rd ra rb))
      noLevel
      noLevel
      noLevel
  | 0x25 => byLevel lv
      (unused [rb, rc] (.finalexp rd ra))
      noLevel
      noLevel
      noLevel
  | 0x30 => byLevel lv
      (unused [rb, rc] (.sqrt1 rd ra))
      (unused [rb, rc] (.sqrt2 rd ra))
      noLevel
      noLevel
  | 0x31 => byLevel lv
      (unused [rb, rc] (.compress1 rd ra))
      (unused [rb, rc] (.compress2 rd ra))
      noLevel
      noLevel
  | 0x32 => byLevel lv
      (unused [rb, rc] (.decompress1 rd ra))
      (unused [rb, rc] (.decompress2 rd ra))
      noLevel
      noLevel
  | _ => .error .reservedOp

/-- Decoding (30_encoding.md R305): the command, or the first step that rejects the word. -/
def decodeCommand (c : CmdWord) : Except Reject Instr :=
  match selectCommand (opOf c).toNat (lvOf c).toNat (rdOf c) (raOf c) (rbOf c) (rcOf c) with
  | .ok i => if i.wellFormed then .ok i else .error .operandRange
  | .error e => .error e

/-- The legal command a word stands for, if it stands for one. -/
def decode (c : CmdWord) : Option Instr :=
  match decodeCommand c with
  | .ok i => some i
  | .error _ => none

/-- The command the decoder reads from the bits `w` of an opcode-table row of `nbits` bits. Every row is one 32-bit
word (30_encoding.md R310). -/
def decodeTableWord (nbits w : Nat) : Option Instr := decode (BitVec.ofNat 32 (w % 2 ^ nbits))

/-! ## The encoder -/

/-- A command word from its six fields (30_encoding.md R300). -/
def cmdWord (op : BitVec 6) (lv : BitVec 2) (rd ra rb rc : Reg) : CmdWord := op ++ lv ++ rd ++ ra ++ rb ++ rc

/-- `SN` as the field `RC` of `pmul`: bit 0, bits 5:1 zero (30_encoding.md R303, R304). -/
def signField (sn : Bool) : Reg := if sn then 1 else 0

/-- The one word of a command (30_encoding.md R301 to R303, R306: a field the command does not use is zero). -/
def encode : Instr → CmdWord
  | .fzero1 rd => cmdWord 0x01 0 rd 0 0 0
  | .fzero2 rd => cmdWord 0x01 1 rd 0 0 0
  | .fzero6 rd => cmdWord 0x01 2 rd 0 0 0
  | .fzero12 rd => cmdWord 0x01 3 rd 0 0 0
  | .fone1 rd => cmdWord 0x02 0 rd 0 0 0
  | .fone2 rd => cmdWord 0x02 1 rd 0 0 0
  | .fone6 rd => cmdWord 0x02 2 rd 0 0 0
  | .fone12 rd => cmdWord 0x02 3 rd 0 0 0
  | .fadd1 rd ra rb => cmdWord 0x03 0 rd ra rb 0
  | .fadd2 rd ra rb => cmdWord 0x03 1 rd ra rb 0
  | .fadd6 rd ra rb => cmdWord 0x03 2 rd ra rb 0
  | .fadd12 rd ra rb => cmdWord 0x03 3 rd ra rb 0
  | .fsub1 rd ra rb => cmdWord 0x04 0 rd ra rb 0
  | .fsub2 rd ra rb => cmdWord 0x04 1 rd ra rb 0
  | .fsub6 rd ra rb => cmdWord 0x04 2 rd ra rb 0
  | .fsub12 rd ra rb => cmdWord 0x04 3 rd ra rb 0
  | .fneg1 rd ra => cmdWord 0x05 0 rd ra 0 0
  | .fneg2 rd ra => cmdWord 0x05 1 rd ra 0 0
  | .fneg6 rd ra => cmdWord 0x05 2 rd ra 0 0
  | .fneg12 rd ra => cmdWord 0x05 3 rd ra 0 0
  | .fmul1 rd ra rb => cmdWord 0x06 0 rd ra rb 0
  | .fmul2 rd ra rb => cmdWord 0x06 1 rd ra rb 0
  | .fmul6 rd ra rb => cmdWord 0x06 2 rd ra rb 0
  | .fmul12 rd ra rb => cmdWord 0x06 3 rd ra rb 0
  | .finv1 rd ra => cmdWord 0x07 0 rd ra 0 0
  | .finv2 rd ra => cmdWord 0x07 1 rd ra 0 0
  | .finv6 rd ra => cmdWord 0x07 2 rd ra 0 0
  | .finv12 rd ra => cmdWord 0x07 3 rd ra 0 0
  | .fpow1 rd ra rb => cmdWord 0x08 0 rd ra rb 0
  | .fpow2 rd ra rb => cmdWord 0x08 1 rd ra rb 0
  | .fpow6 rd ra rb => cmdWord 0x08 2 rd ra rb 0
  | .fpow12 rd ra rb => cmdWord 0x08 3 rd ra rb 0
  | .fmulnr2 rd ra => cmdWord 0x09 1 rd ra 0 0
  | .fmulnr6 rd ra => cmdWord 0x09 2 rd ra 0 0
  | .fmulnr12 rd ra => cmdWord 0x09 3 rd ra 0 0
  | .feq1 ra rb => cmdWord 0x0A 0 0 ra rb 0
  | .feq2 ra rb => cmdWord 0x0A 1 0 ra rb 0
  | .feq6 ra rb => cmdWord 0x0A 2 0 ra rb 0
  | .feq12 ra rb => cmdWord 0x0A 3 0 ra rb 0
  | .fisone1 ra => cmdWord 0x0B 0 0 ra 0 0
  | .fisone2 ra => cmdWord 0x0B 1 0 ra 0 0
  | .fisone6 ra => cmdWord 0x0B 2 0 ra 0 0
  | .fisone12 ra => cmdWord 0x0B 3 0 ra 0 0
  | .padd1 rd ra rb => cmdWord 0x10 0 rd ra rb 0
  | .padd2 rd ra rb => cmdWord 0x10 1 rd ra rb 0
  | .padd12 rd ra rb => cmdWord 0x10 3 rd ra rb 0
  | .pdbl1 rd ra => cmdWord 0x11 0 rd ra 0 0
  | .pdbl2 rd ra => cmdWord 0x11 1 rd ra 0 0
  | .pdbl12 rd ra => cmdWord 0x11 3 rd ra 0 0
  | .pneg1 rd ra => cmdWord 0x12 0 rd ra 0 0
  | .pneg2 rd ra => cmdWord 0x12 1 rd ra 0 0
  | .pneg12 rd ra => cmdWord 0x12 3 rd ra 0 0
  | .pmul1 rd ra rb sn => cmdWord 0x13 0 rd ra rb (signField sn)
  | .pmul2 rd ra rb sn => cmdWord 0x13 1 rd ra rb (signField sn)
  | .pmul12 rd ra rb sn => cmdWord 0x13 3 rd ra rb (signField sn)
  | .poncurve1 ra => cmdWord 0x14 0 0 ra 0 0
  | .poncurve2 ra => cmdWord 0x14 1 0 ra 0 0
  | .poncurve12 ra => cmdWord 0x14 3 0 ra 0 0
  | .pinsubgrp1 ra => cmdWord 0x15 0 0 ra 0 0
  | .pinsubgrp2 ra => cmdWord 0x15 1 0 ra 0 0
  | .pinsubgrp12 ra => cmdWord 0x15 3 0 ra 0 0
  | .untwist rd ra => cmdWord 0x20 0 rd ra 0 0
  | .dbleval rd ra rb => cmdWord 0x21 0 rd ra rb 0
  | .addeval rd ra rb rc => cmdWord 0x22 0 rd ra rb rc
  | .miller rd ra rb => cmdWord 0x23 0 rd ra rb 0
  | .pairing rd ra rb => cmdWord 0x24 0 rd ra rb 0
  | .finalexp rd ra => cmdWord 0x25 0 rd ra 0 0
  | .sqrt1 rd ra => cmdWord 0x30 0 rd ra 0 0
  | .sqrt2 rd ra => cmdWord 0x30 1 rd ra 0 0
  | .compress1 rd ra => cmdWord 0x31 0 rd ra 0 0
  | .compress2 rd ra => cmdWord 0x31 1 rd ra 0 0
  | .decompress1 rd ra => cmdWord 0x32 0 rd ra 0 0
  | .decompress2 rd ra => cmdWord 0x32 1 rd ra 0 0

end Sys2Proof
end

