-- ==== Sys2Proof/Machine/State.lean ====
section
/-! DEFINITION. The state of the core, the reasons a step can stop, and the state after reset. -/

namespace Sys2Proof.Machine

/-- The error kinds of 60_exceptions.md R601, in the order of their codes 1 to 10. An error is no stop: the command
completes and reports its code (R610). -/
inductive Err where
  /-- Code 1, raised by `compress` (R602). -/
  | invalidSubgroup
  /-- Code 2, raised by `decompress` (R603). -/
  | malformedEncoding
  /-- Code 3, raised by `sqrt` and `decompress` (R604). -/
  | noSquareRoot
  /-- Code 4, reserved: no command raises it (R605). -/
  | inconsistentAggregateTypes
  /-- Code 5, reserved: no command raises it (R606). -/
  | emptyAggregateInput
  /-- Code 6, raised by `fmulnr.12` (R607). -/
  | undefinedOperation
  /-- Code 7, raised by the decoding of a word that is no legal command (R608). -/
  | illegalCommand
  /-- Code 8, raised by the read of a field coefficient or of a flag word (R609). -/
  | nonCanonicalOperand
  /-- Code 9, raised by the inverse of zero (R612). -/
  | inverseOfZero
  /-- Code 10, raised by the pairing family on a point at infinity (R613). -/
  | infinityOperand
deriving DecidableEq, Repr

/-- What the outside world does next (20_memory.md R202, R210; 70_reset_and_hazards.md R700, R721). The model's own
type: a list of events is one interleaving of the host, the sequencer and the reset input (log 5). -/
inductive Event where
  /-- The host reads 4 bytes at an offset of the window: `MemRead(addr, 4)` (20_memory.md R203). -/
  | hostRead (addr : Nat)
  /-- The host writes 4 bytes at an offset of the window: `MemWrite(addr, 4, v)` (20_memory.md R204). -/
  | hostWrite (addr : Nat) (v : Limb)
  /-- The sequencer takes its step: it completes the command in progress, if there is one (10_state.md R114). -/
  | sequencer
  /-- The reset input is applied (70_reset_and_hazards.md R700). -/
  | reset
deriving DecidableEq, Repr

/-- The word register file `W[0]` .. `W[63]` (10_state.md R100). -/
abbrev Regs := Vector Word 64

/-- The state of the core. `schedule`, `readData` and `draws` are the model's own fields, not the spec's. -/
structure State where
  /-- The word registers (10_state.md R100). -/
  w : Regs
  /-- The "written" mark of each limb of each register, bit `k` for limb `k` (10_state.md R104). -/
  written : Vector (BitVec 12) 64
  /-- `CMDR`, the last accepted command word (10_state.md R111). -/
  cmdr : CmdWord
  /-- `STATUS.BUSY` (10_state.md R112). -/
  busy : Bool
  /-- `STATUS.DONE` (10_state.md R112). -/
  done : Bool
  /-- `STATUS.ERR` (10_state.md R112). -/
  err : Bool
  /-- `STATUS.FLAG` (10_state.md R112, R113). -/
  flag : Bool
  /-- `STATUS.ERRCODE` (10_state.md R112). -/
  errcode : BitVec 4
  /-- The model's own: what the outside world does, in order (log 5). -/
  schedule : List Event
  /-- The model's own: the value the last host read returned (log 8). -/
  readData : Limb
  /-- The model's own: how many free values were taken so far (log 3). -/
  draws : Nat
deriving DecidableEq, Repr

/-- The reasons the model stops with a fault. -/
inductive Fault where
  /-- Raised by a host access of `Event.hostRead` or `Event.hostWrite` that is no transaction of the port: misaligned, or
  outside the window (20_memory.md R202, 93_implementation_defined.md U9; log 7). Safe: the model stops where the spec
  leaves the hardware's behaviour unspecified. No command raises it. -/
  | windowAccess (addr : Nat)
deriving DecidableEq, Repr

/-- The reasons the model refuses. -/
inductive Refusal where
  /-- Raised by an arm of `exec` whose instruction has no meaning yet; safe. Every instruction has one, so no arm
  raises it. -/
  | notModelled (mnemonic : String)
deriving DecidableEq, Repr

/-- The state after reset (10_state.md R116): control and status 0, marks cleared. The spec leaves `W` unspecified; the
model names 0 (DESIGN CHOICE, unsafe, log 1). Nothing is scheduled (log 5). -/
def State.reset : State where
  w := Vector.replicate 64 0
  written := Vector.replicate 64 0
  cmdr := 0
  busy := false
  done := false
  err := false
  flag := false
  errcode := 0
  schedule := []
  readData := 0
  draws := 0

end Sys2Proof.Machine
end

