-- ==== Sys2Proof/Machine/Field.lean ====
section
/-! DEFINITION. The field tower: Fp, Fp2, Fp6, Fp12 and their arithmetic (00_scope.md R10 to R12, 40_field_fp.md to
43_field_fp12.md). Elements are canonical by construction: a base-field element is a number below `p`
(00_scope.md R11). Arithmetic is on unbounded integers, then reduced mod `p` (40_field_fp.md R401). -/

namespace Sys2Proof.Machine

open Sys2Proof.Config (p r)

/-- What a computation of a command gives: a value, or the first error raised (60_exceptions.md R610, R611). -/
abbrev Res (α : Type) := Except Err α

theorem p_pos : 0 < p := by decide

/-! ## The four sets (00_scope.md R11) -/

/-- A level-1 element: an integer in `[0, p)`. -/
abbrev Fp := Fin p

/-- A level-2 element `a0 + a1 u`, `u^2 = -1`. -/
structure Fp2 where
  a0 : Fp
  a1 : Fp
deriving DecidableEq, Repr

/-- A level-6 element `b0 + b1 v + b2 v^2`, `v^3 = u + 1`. -/
structure Fp6 where
  b0 : Fp2
  b1 : Fp2
  b2 : Fp2
deriving DecidableEq, Repr

/-- A level-12 element `c0 + c1 w`, `w^2 = v`. -/
structure Fp12 where
  c0 : Fp6
  c1 : Fp6
deriving DecidableEq, Repr

/-! ## Level 1 (40_field_fp.md) -/

/-- `n mod p` as a level-1 element (00_scope.md R10). -/
def fpOfNat (n : Nat) : Fp := ⟨n % p, Nat.mod_lt _ p_pos⟩

def fpZero : Fp := fpOfNat 0
def fpOne : Fp := fpOfNat 1

/-- `a +_1 b` (R404). -/
def fpAdd (a b : Fp) : Fp := fpOfNat (a.val + b.val)

/-- `a -_1 b` (R405): the least non-negative residue of the difference. -/
def fpSub (a b : Fp) : Fp := fpOfNat (a.val + (p - b.val))

/-- `neg_1(a) = (0 - a) mod p` (R406). -/
def fpNeg (a : Fp) : Fp := fpOfNat (p - a.val)

/-- `a *_1 b`, the canonical product (R407; 00_scope.md R9: no Montgomery form is visible). -/
def fpMul (a b : Fp) : Fp := fpOfNat (a.val * b.val)

/-! ## Generic power (40_field_fp.md R409)

Over any multiplication: the exponent's bits low to high, the base squared at each step, the accumulator multiplied on a
set bit. `fuel` bounds the number of bits. -/

/-- The loop of R409. -/
def powLoop {α : Type} (mul : α → α → α) : Nat → α → α → Nat → α
  | 0, acc, _, _ => acc
  | fuel + 1, acc, base, e =>
    if e = 0 then acc
    else powLoop mul fuel (if e % 2 = 1 then mul acc base else acc) (mul base base) (e / 2)

/-- `pow(a, e)` (R409): one for `e = 0`, whatever `a` is. The loop runs once for each bit of `e`. -/
def powWith {α : Type} (one : α) (mul : α → α → α) (a : α) (e : Nat) : α :=
  powLoop mul (e.log2 + 1) one a e

/-- `pow_1` (R409, R410). -/
def fpPow (a : Fp) (e : Nat) : Fp := powWith fpOne fpMul a e

/-- `inv_1` (R408): InverseOfZero at 0, else `a^(p-2) mod p`, the form R408 allows a model (log 9). -/
def fpInv (a : Fp) : Res Fp := if a = fpZero then .error .inverseOfZero else .ok (fpPow a (p - 2))

/-! ## Level 2 (41_field_fp2.md) -/

def fp2Zero : Fp2 := ⟨fpZero, fpZero⟩
def fp2One : Fp2 := ⟨fpOne, fpZero⟩

/-- `+_2` (R423). -/
def fp2Add (a b : Fp2) : Fp2 := ⟨fpAdd a.a0 b.a0, fpAdd a.a1 b.a1⟩

/-- `-_2` (R424). -/
def fp2Sub (a b : Fp2) : Fp2 := ⟨fpSub a.a0 b.a0, fpSub a.a1 b.a1⟩

/-- `neg_2` (R425). -/
def fp2Neg (a : Fp2) : Fp2 := ⟨fpNeg a.a0, fpNeg a.a1⟩

/-- `*_2` (R426), the formula printed there. -/
def fp2Mul (a b : Fp2) : Fp2 :=
  ⟨fpSub (fpMul a.a0 b.a0) (fpMul a.a1 b.a1), fpAdd (fpMul a.a1 b.a0) (fpMul a.a0 b.a1)⟩

/-- `inv_2` (R427), the conjugate over the norm. -/
def fp2Inv (a : Fp2) : Res Fp2 := do
  let f ← fpInv (fpAdd (fpMul a.a0 a.a0) (fpMul a.a1 a.a1))
  return ⟨fpMul a.a0 f, fpMul (fpNeg a.a1) f⟩

/-- `nr_2`, times `u + 1` (R429). -/
def fp2MulNr (a : Fp2) : Fp2 := ⟨fpSub a.a0 a.a1, fpAdd a.a1 a.a0⟩

/-- `conj_2` (R432). -/
def fp2Conj (a : Fp2) : Fp2 := ⟨a.a0, fpNeg a.a1⟩

/-- `pow_2` (R428). -/
def fp2Pow (a : Fp2) (e : Nat) : Fp2 := powWith fp2One fp2Mul a e

/-! ## Level 6 (42_field_fp6.md) -/

def fp6Zero : Fp6 := ⟨fp2Zero, fp2Zero, fp2Zero⟩
def fp6One : Fp6 := ⟨fp2One, fp2Zero, fp2Zero⟩

/-- `+_6` (R443). -/
def fp6Add (a b : Fp6) : Fp6 := ⟨fp2Add a.b0 b.b0, fp2Add a.b1 b.b1, fp2Add a.b2 b.b2⟩

/-- `-_6` (R444). -/
def fp6Sub (a b : Fp6) : Fp6 := ⟨fp2Sub a.b0 b.b0, fp2Sub a.b1 b.b1, fp2Sub a.b2 b.b2⟩

/-- `neg_6` (R445). -/
def fp6Neg (a : Fp6) : Fp6 := ⟨fp2Neg a.b0, fp2Neg a.b1, fp2Neg a.b2⟩

/-- `*_6` (R446), the three Karatsuba lines printed there (log 11). -/
def fp6Mul (a b : Fp6) : Fp6 :=
  let t0 := fp2Mul a.b0 b.b0
  let t1 := fp2Mul a.b1 b.b1
  let t2 := fp2Mul a.b2 b.b2
  ⟨fp2Add t0 (fp2MulNr (fp2Sub (fp2Sub (fp2Mul (fp2Add a.b1 a.b2) (fp2Add b.b1 b.b2)) t1) t2)),
   fp2Add (fp2Sub (fp2Sub (fp2Mul (fp2Add a.b0 a.b1) (fp2Add b.b0 b.b1)) t0) t1) (fp2MulNr t2),
   fp2Add (fp2Sub (fp2Sub (fp2Mul (fp2Add a.b0 a.b2) (fp2Add b.b0 b.b2)) t0) t2) t1⟩

/-- `nr_6`, times `v` (R449). -/
def fp6MulNr (a : Fp6) : Fp6 := ⟨fp2MulNr a.b2, a.b0, a.b1⟩

/-- The three numerators `t0, t1, t2` of the level-6 inverse (R447). -/
def fp6InvParts (a : Fp6) : Fp6 :=
  ⟨fp2Sub (fp2Mul a.b0 a.b0) (fp2MulNr (fp2Mul a.b1 a.b2)),
   fp2Sub (fp2MulNr (fp2Mul a.b2 a.b2)) (fp2Mul a.b0 a.b1),
   fp2Sub (fp2Mul a.b1 a.b1) (fp2Mul a.b0 a.b2)⟩

/-- `norm` of the level-6 inverse (R447). -/
def fp6Norm (a : Fp6) : Fp2 :=
  let t := fp6InvParts a
  fp2Add (fp2Mul a.b0 t.b0) (fp2MulNr (fp2Add (fp2Mul a.b2 t.b1) (fp2Mul a.b1 t.b2)))

/-- `inv_6` (R447). -/
def fp6Inv (a : Fp6) : Res Fp6 := do
  let t := fp6InvParts a
  let f ← fp2Inv (fp6Norm a)
  return ⟨fp2Mul t.b0 f, fp2Mul t.b1 f, fp2Mul t.b2 f⟩

/-! ## Level 12 (43_field_fp12.md) -/

def fp12Zero : Fp12 := ⟨fp6Zero, fp6Zero⟩
def fp12One : Fp12 := ⟨fp6One, fp6Zero⟩

/-- `+_12` (R463). -/
def fp12Add (a b : Fp12) : Fp12 := ⟨fp6Add a.c0 b.c0, fp6Add a.c1 b.c1⟩

/-- `-_12` (R464). -/
def fp12Sub (a b : Fp12) : Fp12 := ⟨fp6Sub a.c0 b.c0, fp6Sub a.c1 b.c1⟩

/-- `neg_12` (R465). -/
def fp12Neg (a : Fp12) : Fp12 := ⟨fp6Neg a.c0, fp6Neg a.c1⟩

/-- `*_12` (R466). -/
def fp12Mul (a b : Fp12) : Fp12 :=
  ⟨fp6Add (fp6Mul a.c0 b.c0) (fp6MulNr (fp6Mul a.c1 b.c1)),
   fp6Add (fp6Mul a.c1 b.c0) (fp6Mul a.c0 b.c1)⟩

/-- `inv_12` (R467). -/
def fp12Inv (a : Fp12) : Res Fp12 := do
  let factor ← fp6Inv (fp6Sub (fp6Mul a.c0 a.c0) (fp6MulNr (fp6Mul a.c1 a.c1)))
  return ⟨fp6Mul a.c0 factor, fp6Mul (fp6Neg a.c1) factor⟩

/-- `lift_{2→12}` (00_scope.md R12). -/
def lift2 (a : Fp2) : Fp12 := ⟨⟨a, fp2Zero, fp2Zero⟩, fp6Zero⟩

/-- `lift_{1→12}` (00_scope.md R12). -/
def lift1 (a : Fp) : Fp12 := lift2 ⟨a, fpZero⟩

/-! ## The shared capability set (00_scope.md R12)

One record for each level, over which the level-generic rules are written once. -/

/-- A level of the tower: how many coefficients an element has (L, 00_scope.md R11), its arithmetic, its flattening, and
how an element is built from a reader of its coefficients, asked in ascending order (10_state.md R106). -/
structure Level (α : Type) where
  size : Nat
  zero : α
  one : α
  add : α → α → α
  sub : α → α → α
  neg : α → α
  mul : α → α → α
  inv : α → Res α
  flat : α → List Fp
  build : (Nat → Res Fp) → Res α

def fp2Flat (a : Fp2) : List Fp := [a.a0, a.a1]
def fp6Flat (a : Fp6) : List Fp := fp2Flat a.b0 ++ fp2Flat a.b1 ++ fp2Flat a.b2
def fp12Flat (a : Fp12) : List Fp := fp6Flat a.c0 ++ fp6Flat a.c1

def fp2Build (g : Nat → Res Fp) : Res Fp2 := do
  let a0 ← g 0
  let a1 ← g 1
  return ⟨a0, a1⟩

def fp6Build (g : Nat → Res Fp) : Res Fp6 := do
  let b0 ← fp2Build g
  let b1 ← fp2Build fun k => g (k + 2)
  let b2 ← fp2Build fun k => g (k + 4)
  return ⟨b0, b1, b2⟩

def fp12Build (g : Nat → Res Fp) : Res Fp12 := do
  let c0 ← fp6Build g
  let c1 ← fp6Build fun k => g (k + 6)
  return ⟨c0, c1⟩

/-- Level 1, Fp (40_field_fp.md). -/
def lv1 : Level Fp where
  size := 1
  zero := fpZero
  one := fpOne
  add := fpAdd
  sub := fpSub
  neg := fpNeg
  mul := fpMul
  inv := fpInv
  flat a := [a]
  build g := g 0

/-- Level 2, Fp2 (41_field_fp2.md). -/
def lv2 : Level Fp2 where
  size := 2
  zero := fp2Zero
  one := fp2One
  add := fp2Add
  sub := fp2Sub
  neg := fp2Neg
  mul := fp2Mul
  inv := fp2Inv
  flat := fp2Flat
  build := fp2Build

/-- Level 6, Fp6 (42_field_fp6.md). -/
def lv6 : Level Fp6 where
  size := 6
  zero := fp6Zero
  one := fp6One
  add := fp6Add
  sub := fp6Sub
  neg := fp6Neg
  mul := fp6Mul
  inv := fp6Inv
  flat := fp6Flat
  build := fp6Build

/-- Level 12, Fp12 (43_field_fp12.md). -/
def lv12 : Level Fp12 where
  size := 12
  zero := fp12Zero
  one := fp12One
  add := fp12Add
  sub := fp12Sub
  neg := fp12Neg
  mul := fp12Mul
  inv := fp12Inv
  flat := fp12Flat
  build := fp12Build

/-- `pow_L` (40_field_fp.md R409). -/
def pow {α : Type} (F : Level α) (a : α) (e : Nat) : α := powWith F.one F.mul a e

/-- `2 *_L e` (00_scope.md R12). -/
def twice {α : Type} (F : Level α) (e : α) : α := F.add e e

/-- `3 *_L e` (00_scope.md R12). -/
def thrice {α : Type} (F : Level α) (e : α) : α := F.add (F.add e e) e

/-- `4 *_L e` (00_scope.md R12). -/
def fourTimes {α : Type} (F : Level α) (e : α) : α := F.add (F.add (F.add e e) e) e

end Sys2Proof.Machine
end

