-- ==== Sys2Proof/Machine/Flags.lean ====
section
/-! DEFINITION. `STATUS`, its fields put together as the host reads it, and the write of FLAG (10_state.md R112, R113). -/

namespace Sys2Proof.Machine

/-- One status bit as a 32-bit word with the bit in place 0. -/
def bitWord (b : Bool) : Limb := if b then 1 else 0

/-- The word a host read of `STATUS` returns (10_state.md R112): BUSY bit 0, DONE bit 1, ERR bit 2, FLAG bit 3, ERRCODE
bits 11:8; bits 7:4 and 31:12 are 0. -/
def statusWord (s : State) : Limb :=
  bitWord s.busy ||| bitWord s.done <<< 1 ||| bitWord s.err <<< 2 ||| bitWord s.flag <<< 3 |||
    s.errcode.setWidth 32 <<< 8

/-- `FLAG <- b` (10_state.md R113). -/
def setFlag (s : State) (b : Bool) : State := { s with flag := b }

end Sys2Proof.Machine
end

