-- ==== Sys2Proof/Machine/Ops.lean ====
section
/-! DEFINITION. The named operations over the registers: reads and writes of `W`, acceptance and completion of a
command, the raise mechanism, the host's transactions and the reset input. -/

namespace Sys2Proof.Machine

/-- The three outcomes of a step of this machine. -/
abbrev StepResult := Host.Outcome State Fault Refusal

/-! ## The word register file (10_state.md R100, R104) -/

/-- `W[i]` (`RdWord`, 10_state.md R104). No well-formed command reads past `W[63]` (30_encoding.md R307, log 12). A
register that nothing has written holds its reset value (log 2). -/
def readWord (w : Regs) (i : Nat) : Word := w[i]?.getD 0

/-- `W[i] <- v` by a command: the register and all 12 of its "written" marks (10_state.md R104). -/
def writeWord (s : State) (i : Nat) (v : Word) : State :=
  { s with w := s.w.setIfInBounds i v, written := s.written.setIfInBounds i (BitVec.allOnes 12) }

/-- Writes consecutive registers from base `b` in ascending order. -/
def writeBlock (s : State) (b : Nat) : List Word → State
  | [] => s
  | v :: vs => writeBlock (writeWord s b v) (b + 1) vs

/-! ## Acceptance, completion, errors (10_state.md R111, R114; 60_exceptions.md R610) -/

/-- The error code of 60_exceptions.md R601. -/
def Err.code : Err → BitVec 4
  | .invalidSubgroup => 1
  | .malformedEncoding => 2
  | .noSquareRoot => 3
  | .inconsistentAggregateTypes => 4
  | .emptyAggregateInput => 5
  | .undefinedOperation => 6
  | .illegalCommand => 7
  | .nonCanonicalOperand => 8
  | .inverseOfZero => 9
  | .infinityOperand => 10

/-- Acceptance of command `c` (10_state.md R111). It also ends the life of an earlier error (60_exceptions.md R617):
there is no other return from one. -/
def accept (s : State) (c : CmdWord) : State :=
  { s with cmdr := c, busy := true, done := false, err := false, errcode := 0 }

/-- `raise E`, the one exception mechanism (60_exceptions.md R610): no register, no FLAG; STATUS records the code. -/
def raiseError (s : State) (e : Err) : State :=
  { s with busy := false, done := true, err := true, errcode := e.code }

/-- The status of a completion without error (10_state.md R114). ERR and ERRCODE were cleared at acceptance (log 13). -/
def finish (s : State) : State := { s with busy := false, done := true }

/-- What a command that does not raise writes: one block of registers, or FLAG (10_state.md R113). -/
inductive Effect where
  | regs (base : Nat) (ws : List Word)
  | flag (b : Bool)
deriving DecidableEq, Repr

/-- The writes of a command (00_scope.md R14: after all its reads). -/
def applyEffect (s : State) : Effect → State
  | .regs b ws => writeBlock s b ws
  | .flag b => setFlag s b

/-- The completion step for what the command's rule gives (10_state.md R114). -/
def complete (s : State) : Res Effect → State
  | .ok e => finish (applyEffect s e)
  | .error e => raiseError s e

/-- Execution of the command `i` whose rule is `body`: an operand past `W[63]` is IllegalCommand before any register is
read (30_encoding.md R305 step 4, R307; log 12), else the rule runs and completes. -/
def runCommand (i : Instr) (s : State) (body : Regs → Res Effect) : StepResult :=
  .next (if i.wellFormed then complete s (body s.w) else raiseError s .illegalCommand)

/-! ## Limbs (20_memory.md R201, R205) -/

/-- Bits `[32k+31 : 32k]` of a register: limb `k`, limb 0 least significant. -/
def getLimb (x : Word) (k : Nat) : Limb := x.extractLsb' (32 * k) 32

/-- `x` with limb `k` replaced by `v`, the other bits unchanged. -/
def setLimb (x : Word) (k : Nat) (v : Limb) : Word :=
  (x &&& ~~~((0xFFFFFFFF : Word) <<< (32 * k))) ||| (v.setWidth 384 <<< (32 * k))

/-- The register an offset `≥ 0x400` of the window belongs to (20_memory.md R203). -/
def limbReg (addr : Nat) : Nat := (addr - 0x400) / 48

/-- The limb of that register (20_memory.md R203). -/
def limbIndex (addr : Nat) : Nat := (addr - 0x400) % 48 / 4

/-- The "written" marks of `W[i]`, bit `k` for limb `k`. -/
def marks (s : State) (i : Nat) : BitVec 12 := s.written[i]?.getD 0

/-- Writes one limb of a register and marks it written (20_memory.md R204). -/
def writeLimb (s : State) (i k : Nat) (v : Limb) : State :=
  { s with
    w := s.w.setIfInBounds i (setLimb (readWord s.w i) k v)
    written := s.written.setIfInBounds i (marks s i ||| 1#12 <<< k) }

/-! ## The host's transactions (20_memory.md R202 to R204) -/

/-- A transaction of the port: aligned, inside the window (20_memory.md R202). -/
def isTransaction (addr : Nat) : Bool := addr % 4 == 0 && decide (addr < Config.windowBytes)

/-- The value of a host read, or `none` where the spec leaves it unspecified: a limb of `W` while BUSY, or one never
written since reset (20_memory.md R203). -/
def windowRead (s : State) (addr : Nat) : Option Limb :=
  if addr = 0 then some s.cmdr
  else if addr = 4 then some (statusWord s)
  else if addr < 0x400 then some 0
  else if s.busy then none
  else if (marks s (limbReg addr)).getLsbD (limbIndex addr) then
    some (getLimb (readWord s.w (limbReg addr)) (limbIndex addr))
  else none

/-- `MemRead(addr, 4)` (20_memory.md R203): no architectural state changes; the answer goes to the model's `readData`,
an unspecified answer is a free value (log 3). -/
def hostRead (s : State) (addr : Nat) : State :=
  match windowRead s addr with
  | some v => { s with readData := v }
  | none => { s with readData := Config.hostDraw s.draws, draws := s.draws + 1 }

/-- `MemWrite(addr, 4, v)` (20_memory.md R204, 70_reset_and_hazards.md R710). -/
def hostWrite (s : State) (addr : Nat) (v : Limb) : State :=
  if addr = 0 then (if s.busy then s else accept s v)
  else if addr < 0x400 then s
  else if s.busy then s
  else writeLimb s (limbReg addr) (limbIndex addr) v

/-! ## Reset (70_reset_and_hazards.md R700) -/

/-- The reset input, applied inside a run: control and status as in 10_state.md R116, marks cleared, every `W[i]` a free
value (log 4). A command in progress is abandoned. The outside world's own fields are not the core's and stay. -/
def applyReset (s : State) : State :=
  { s with
    w := Vector.ofFn fun i => Config.resetDraw s.draws i.val
    written := Vector.replicate 64 0
    cmdr := 0, busy := false, done := false, err := false, flag := false, errcode := 0
    draws := s.draws + 1 }

end Sys2Proof.Machine
end

