-- ==== Sys2Proof/Machine/Operands.lean ====
section
/-! DEFINITION. The operand forms: how a command reads and writes field elements, points, flag words and scalars
(10_state.md R101 to R108). -/

namespace Sys2Proof.Machine

open Sys2Proof.Config (p)

/-! ## Field elements (10_state.md R105, R106) -/

/-- `RdFp(i)`: a coefficient, or NonCanonicalOperand when the word is not below `p` (10_state.md R105). -/
def rdFp (w : Regs) (i : Nat) : Res Fp :=
  if h : (readWord w i).toNat < p then .ok ⟨(readWord w i).toNat, h⟩ else .error .nonCanonicalOperand

/-- `RdF(L, i)`: the coefficients in ascending index order (10_state.md R106). -/
def rdF {α : Type} (F : Level α) (w : Regs) (i : Nat) : Res α := F.build fun k => rdFp w (i + k)

/-- A coefficient zero-extended to a register's width (10_state.md R106). -/
def fpWord (a : Fp) : Word := BitVec.ofNat 384 a.val

/-- The words of an element, in flattening order (10_state.md R101). -/
def elemWords {α : Type} (F : Level α) (e : α) : List Word := (F.flat e).map fpWord

/-- `WrF(L, i, e)` (10_state.md R106). -/
def wrF {α : Type} (F : Level α) (rd : Reg) (e : α) : Effect := .regs rd.toNat (elemWords F e)

/-! ## Points (10_state.md R102, R107, R108) -/

/-- A point: coordinates of one level and the "is point at infinity" flag (10_state.md R102). -/
structure Point (α : Type) where
  x : α
  y : α
  inf : Bool
deriving DecidableEq, Repr

/-- The number of registers of a level-L point, `2L + 1` (10_state.md R102). -/
def pointSize {α : Type} (F : Level α) : Nat := 2 * F.size + 1

/-- The flag word of a point: 0 or 1, else NonCanonicalOperand (10_state.md R107). -/
def rdInf (w : Regs) (i : Nat) : Res Bool :=
  if 1 < (readWord w i).toNat then .error .nonCanonicalOperand else .ok ((readWord w i).toNat == 1)

/-- `RdPt(L, i)`: x, then y, then the flag word; the coordinates of an infinity operand are checked too
(10_state.md R108). -/
def rdPt {α : Type} (F : Level α) (w : Regs) (i : Nat) : Res (Point α) := do
  let x ← rdF F w i
  let y ← rdF F w (i + F.size)
  let inf ← rdInf w (i + 2 * F.size)
  return ⟨x, y, inf⟩

/-- The flag word a command writes (10_state.md R107). -/
def infWord (inf : Bool) : Word := if inf then 1 else 0

/-- The words of a point: x, y, flag word (10_state.md R102). -/
def pointWords {α : Type} (F : Level α) (P : Point α) : List Word :=
  elemWords F P.x ++ elemWords F P.y ++ [infWord P.inf]

/-- `WrPt(L, i, P)` (10_state.md R108). -/
def wrPt {α : Type} (F : Level α) (rd : Reg) (P : Point α) : Effect := .regs rd.toNat (pointWords F P)

/-- `INF_L`, the point at infinity a command creates (10_state.md R108). -/
def infPoint {α : Type} (F : Level α) : Point α := ⟨F.zero, F.zero, true⟩

/-! ## Scalars, exponents, encodings (10_state.md R103) -/

/-- A scalar, an exponent or an encoding: a whole register as an unsigned 384-bit integer, no range check
(10_state.md R103, 60_exceptions.md R609). -/
def rdScalar (w : Regs) (i : Nat) : Nat := (readWord w i).toNat

end Sys2Proof.Machine
end

