-- ==== Sys2Proof/Machine/Curve.lean ====
section
/-! DEFINITION. The group law and the two point tests (44_curve_point.md R500 to R511), written once over a level. -/

namespace Sys2Proof.Machine

open Sys2Proof.Config (p r)

/-- `dbl_L` (R502). InverseOfZero for a finite point with `y = 0`. -/
def dblPoint {α : Type} (F : Level α) (P : Point α) : Res (Point α) :=
  if P.inf then .ok P
  else do
    let d ← F.inv (twice F P.y)
    let slope := F.mul (F.mul (thrice F P.x) P.x) d
    let x3 := F.sub (F.sub (F.mul slope slope) P.x) P.x
    let y3 := F.sub (F.mul (F.sub P.x x3) slope) P.y
    return ⟨x3, y3, false⟩

/-- `add_L` (R503), the tests in the order written there. -/
def addPoint {α : Type} [DecidableEq α] (F : Level α) (P Q : Point α) : Res (Point α) :=
  if P.inf then .ok Q
  else if Q.inf then .ok P
  else if P.x = Q.x ∧ P.y = Q.y then dblPoint F P
  else if P.x = Q.x then .ok (infPoint F)
  else do
    let d ← F.inv (F.sub Q.x P.x)
    let slope := F.mul (F.sub Q.y P.y) d
    let x3 := F.sub (F.sub (F.mul slope slope) P.x) Q.x
    let y3 := F.sub (F.mul (F.sub P.x x3) slope) P.y
    return ⟨x3, y3, false⟩

/-- `pneg_L` (R504), also on an infinity operand. -/
def negPoint {α : Type} (F : Level α) (P : Point α) : Point α := ⟨P.x, F.neg P.y, P.inf⟩

/-- The accumulation of R506: the base is added when the low bit of what is left of the scalar is set. -/
def mulAdd {α : Type} [DecidableEq α] (F : Level α) (acc base : Point α) (k : Nat) : Res (Point α) :=
  if k % 2 = 1 then addPoint F acc base else .ok acc

/-- The doubling of R506: the base is not doubled when nothing is left of the scalar. -/
def mulDouble {α : Type} (F : Level α) (base : Point α) (k : Nat) : Res (Point α) :=
  if k = 0 then .ok base else dblPoint F base

/-- The loop of R506. `fuel` bounds the number of bits of the scalar. -/
def mulLoop {α : Type} [DecidableEq α] (F : Level α) : Nat → Point α → Point α → Nat → Res (Point α)
  | 0, acc, _, _ => .ok acc
  | fuel + 1, acc, base, k =>
    if k = 0 then .ok acc
    else do
      let acc ← mulAdd F acc base k
      let base ← mulDouble F base (k / 2)
      mulLoop F fuel acc base (k / 2)

/-- `mul_L(k, SN, P)` (R506): the scalar is not reduced; the loop runs once for each bit of `k`. -/
def mulPoint {α : Type} [DecidableEq α] (F : Level α) (k : Nat) (sn : Bool) (P : Point α) : Res (Point α) :=
  mulLoop F (k.log2 + 1) (infPoint F) (if sn then negPoint F P else P) k

/-- The constant of the curve equation at level 1: 4 (R510). -/
def curveB1 : Fp := fourTimes lv1 fpOne

/-- At level 2: `nr_2(4) = (4, 4)`, that is `4 (u + 1)` (R510). -/
def curveB2 : Fp2 := fp2MulNr (fourTimes lv2 fp2One)

/-- At level 12: 4 (R510). -/
def curveB12 : Fp12 := fourTimes lv12 fp12One

/-- `oncurve_L` (R510) with curve constant `b`: false for infinity. -/
def onCurve {α : Type} [DecidableEq α] (F : Level α) (b : α) (P : Point α) : Bool :=
  !P.inf && decide (F.mul P.y P.y = F.add (F.mul (F.mul P.x P.x) P.x) b)

/-- `insub_L` (R511): `r P` is the point at infinity. It does not test the curve equation, and may raise for a point off
the curve. -/
def inSubgroup {α : Type} [DecidableEq α] (F : Level α) (P : Point α) : Res Bool := do
  let Q ← mulPoint F r false P
  return Q.inf

end Sys2Proof.Machine
end

