-- ==== Sys2Proof/Machine/Codec.lean ====
section
/-! DEFINITION. Square roots and the compressed encodings (46_codec.md R570 to R577). -/

namespace Sys2Proof.Machine

open Sys2Proof.Config (p)

/-- `ts_sqrt(n)` (R570): Euler's criterion, then `n^((p+1)/4)`. For this `p` the exponent `s` is 1, so the general loop is
never reached and R570 lets a model omit it (log 11). Zero has no root here. -/
def tsSqrt (n : Fp) : Res Fp :=
  if fpPow n ((p - 1) / 2) = fpOne then .ok (fpPow n ((p + 1) / 4)) else .error .noSquareRoot

/-- `(p - 1, 0)`, that is -1 at level 2 (R572). -/
def fp2MinusOne : Fp2 := fp2Neg fp2One

/-- `fp2_sqrt(a)` (R572). -/
def fp2Sqrt (a : Fp2) : Res Fp2 :=
  let a1 := fp2Pow a ((p - 3) / 4)
  let x0 := fp2Mul a1 a
  let alpha := fp2Mul a1 x0
  if fp2Mul (fp2Conj alpha) alpha = fp2MinusOne then .error .noSquareRoot
  else if alpha = fp2MinusOne then .ok ⟨fpNeg x0.a1, x0.a0⟩
  else .ok (fp2Mul (fp2Pow (fp2Add alpha fp2One) ((p - 1) / 2)) x0)

/-- `sign_1(y)`: `2 y > p` (R574). -/
def sign1 (y : Fp) : Bool := decide (p < 2 * y.val)

/-- `sign_2(y)`: the sign of `y.a1`, or of `y.a0` when `y.a1` is 0 (R574). -/
def sign2 (y : Fp2) : Bool := if y.a1 = fpZero then sign1 y.a0 else sign1 y.a1

/-- The compression flag C of an encoded word, bit 383 (R575, R576). -/
def flagC (z : Word) : Bool := z.getLsbD 383

/-- The infinity flag I, bit 382 (R575, R576). -/
def flagI (z : Word) : Bool := z.getLsbD 382

/-- The y-sign flag S, bit 381 (R575, R576). -/
def flagS (z : Word) : Bool := z.getLsbD 381

/-- The coordinate field, bits 380:0 (R575, R576). -/
def coordField (z : Word) : Nat := (z.extractLsb' 0 381).toNat

/-- The first word of the encoding of a point that is not infinity: C = 1, I = 0, S, the coordinate (R575, R576). -/
def encodedWord (sign : Bool) (x : Fp) : Word :=
  BitVec.ofNat 384 (2 ^ 383 + (if sign then 2 ^ 381 else 0) + x.val)

/-- The first word of the encoding of infinity: C = 1, I = 1, every other bit 0 (R577). -/
def infEncoding : Word := BitVec.ofNat 384 (2 ^ 383 + 2 ^ 382)

/-- The encoding of a G1 point (R580). InvalidSubgroup outside the subgroup. -/
def compressG1 (P : Point Fp) : Res (List Word) := do
  let member ← inSubgroup lv1 P
  if !member then .error .invalidSubgroup
  else if P.inf then .ok [infEncoding]
  else .ok [encodedWord (sign1 P.y) P.x]

/-- The encoding of a G2 point: the flagged `x.a1`, then `x.a0` (R582). -/
def compressG2 (P : Point Fp2) : Res (List Word) := do
  let member ← inSubgroup lv2 P
  if !member then .error .invalidSubgroup
  else if P.inf then .ok [infEncoding, 0]
  else .ok [encodedWord (sign2 P.y) P.x.a1, fpWord P.x.a0]

/-- The root with the given sign (R581). -/
def withSign1 (y : Fp) (sign : Bool) : Fp := if sign1 y = sign then y else fpNeg y

/-- The root with the given sign (R583). -/
def withSign2 (y : Fp2) (sign : Bool) : Fp2 := if sign2 y = sign then y else fp2Neg y

/-- The G1 point of an encoding (R581). -/
def decompressG1 (z : Word) : Res (Point Fp) :=
  if !flagC z then .error .malformedEncoding
  else if flagI z then
    if flagS z || coordField z != 0 then .error .malformedEncoding else .ok (infPoint lv1)
  else if h : coordField z < p then do
    let x : Fp := ⟨coordField z, h⟩
    let y ← tsSqrt (fpAdd (fpMul (fpMul x x) x) curveB1)
    return ⟨x, withSign1 y (flagS z), false⟩
  else .error .malformedEncoding

/-- The G2 point of an encoding, first word `z1`, second word `z0` (R583). -/
def decompressG2 (z1 z0 : Word) : Res (Point Fp2) :=
  if !flagC z1 then .error .malformedEncoding
  else if z0.extractLsb' 381 3 != 0 then .error .malformedEncoding
  else if flagI z1 then
    if flagS z1 || coordField z1 != 0 || z0.toNat != 0 then .error .malformedEncoding else .ok (infPoint lv2)
  else if h : coordField z1 < p ∧ z0.toNat < p then do
    let x : Fp2 := ⟨⟨z0.toNat, h.2⟩, ⟨coordField z1, h.1⟩⟩
    let y ← fp2Sqrt (fp2Add (fp2Mul (fp2Mul x x) x) curveB2)
    return ⟨x, withSign2 y (flagS z1), false⟩
  else .error .malformedEncoding

end Sys2Proof.Machine
end

