-- ==== Sys2Proof/Machine/PairingEngine.lean ====
section
/-! DEFINITION. The pairing engine: untwist, line evaluations, Miller loop, final exponentiation
(45_pairing.md R540 to R552). -/

namespace Sys2Proof.Machine

open Sys2Proof.Config (p r X)

/-- `w^2 = v` as a level-12 element: word 2 is 1 (45_pairing.md R541, 43_field_fp12.md R460). -/
def wSquared : Fp12 := ⟨⟨fp2Zero, fp2One, fp2Zero⟩, fp6Zero⟩

/-- `w^3 = v w` as a level-12 element: word 8 is 1 (45_pairing.md R541, 43_field_fp12.md R460). -/
def wCubed : Fp12 := ⟨fp6Zero, ⟨fp2Zero, fp2One, fp2Zero⟩⟩

/-- `untw(Q)` of a finite G2 point (R541): the coordinate in the constant slot, divided by `w^2` or `w^3`. -/
def untwistPoint (Q : Point Fp2) : Res (Point Fp12) := do
  let i2 ← fp12Inv wSquared
  let i3 ← fp12Inv wCubed
  return ⟨fp12Mul (lift2 Q.x) i2, fp12Mul (lift2 Q.y) i3, false⟩

/-- The line through `T` with the given slope, evaluated at the G1 point `P`: `P.y - P.x slope - v` with the intercept
`v = T.y - slope T.x` (R543, R544). -/
def lineAt (T : Point Fp12) (slope : Fp12) (P : Point Fp) : Fp12 :=
  fp12Sub (fp12Sub (lift1 P.y) (fp12Mul (lift1 P.x) slope)) (fp12Sub T.y (fp12Mul slope T.x))

/-- `dbl_eval(R, P)` (R543). -/
def dblEval (R : Point Fp2) (P : Point Fp) : Res Fp12 :=
  if R.inf || P.inf then .error .infinityOperand
  else do
    let wR ← untwistPoint R
    let d ← fp12Inv (twice lv12 wR.y)
    return lineAt wR (fp12Mul (fp12Mul (thrice lv12 wR.x) wR.x) d) P

/-- `add_eval(R, Q, P)` (R544): the vertical line when `R = -Q`; no fallback to the tangent when `R = Q`. -/
def addEval (R Q : Point Fp2) (P : Point Fp) : Res Fp12 :=
  if R.inf || Q.inf || P.inf then .error .infinityOperand
  else do
    let wR ← untwistPoint R
    let wQ ← untwistPoint Q
    if wR.x = wQ.x ∧ wR.y = fp12Neg wQ.y then return fp12Sub (lift1 P.x) wR.x
    else
      let d ← fp12Inv (fp12Sub wQ.x wR.x)
      return lineAt wQ (fp12Mul (fp12Sub wQ.y wR.y) d) P

/-- `MILLER_BITS`: the 63 bits of `X` below its top bit, most significant first (00_scope.md R8). -/
def millerBits : List Bool := (List.range 63).map fun k => X.testBit (62 - k)

/-- The loop of R545 over the bits that remain, with accumulator `f` and running point `R`. The line is evaluated at the
old `R`; `dblEval` and `addEval` raise InfinityOperand when `R` is infinity. -/
def millerLoop (P : Point Fp) (Q : Point Fp2) : List Bool → Fp12 → Point Fp2 → Res Fp12
  | [], f, _ => .ok f
  | b :: bs, f, R => do
    let l ← dblEval R P
    let f := fp12Mul (fp12Mul f f) l
    let R ← dblPoint lv2 R
    if b then
      let l ← addEval R Q P
      let R' ← addPoint lv2 R Q
      millerLoop P Q bs (fp12Mul f l) R'
    else millerLoop P Q bs f R

/-- `miller_fn(P, Q)` (R545). -/
def millerFn (P : Point Fp) (Q : Point Fp2) : Res Fp12 := millerLoop P Q millerBits fp12One Q

/-- The two subgroup checks of `pairing`, P first (R548). -/
def bothMembers (P : Point Fp) (Q : Point Fp2) : Res Bool := do
  let member ← inSubgroup lv1 P
  if member then inSubgroup lv2 Q else .ok false

/-- The value of `pairing` (R548): `zero_12` for an input that is infinity, off the curve or outside the subgroup, the
checks in the order printed there. -/
def pairingFn (P : Point Fp) (Q : Point Fp2) : Res Fp12 :=
  if P.inf || Q.inf then .ok fp12Zero
  else if !onCurve lv1 curveB1 P then .ok fp12Zero
  else if !onCurve lv2 curveB2 Q then .ok fp12Zero
  else do
    let member ← bothMembers P Q
    if member then millerFn P Q else .ok fp12Zero

/-- `FE_EXP = (p^12 - 1)/r`, an exact division (00_scope.md R8, R552). -/
def feExp : Nat := (p ^ 12 - 1) / r

/-- `final_exp(f)` (R550). -/
def finalExp (f : Fp12) : Fp12 := pow lv12 f feExp

end Sys2Proof.Machine
end

