-- ==== Sys2Proof/Machine/Rules.lean ====
section
/-! DEFINITION. The rules of the commands, written once over a level: every read first, in the order RA, RB, RC, then
the operation, then the one write (00_scope.md R14, 60_exceptions.md R611). A meaning is one of these at one level. -/

namespace Sys2Proof.Machine

/-! ## Field elements (40_field_fp.md to 43_field_fp12.md) -/

/-- A command without a source: `WrF(L, RD, c)`. -/
def constRule {α : Type} (F : Level α) (c : α) (rd : Reg) : Regs → Res Effect := fun _ => .ok (wrF F rd c)

/-- A command with one element source. -/
def unaryRule {α : Type} (F : Level α) (f : α → Res α) (rd ra : Reg) : Regs → Res Effect := fun w => do
  let a ← rdF F w ra.toNat
  let c ← f a
  return wrF F rd c

/-- A command with two element sources. -/
def binaryRule {α : Type} (F : Level α) (f : α → α → α) (rd ra rb : Reg) : Regs → Res Effect := fun w => do
  let a ← rdF F w ra.toNat
  let b ← rdF F w rb.toNat
  return wrF F rd (f a b)

/-- `fpow.L`: the base, then the exponent register (R410, R428, R448, R468). -/
def powRule {α : Type} (F : Level α) (rd ra rb : Reg) : Regs → Res Effect := fun w => do
  let a ← rdF F w ra.toNat
  return wrF F rd (pow F a (rdScalar w rb.toNat))

/-- `feq.L` (R411, R430, R450, R470). -/
def eqRule {α : Type} [DecidableEq α] (F : Level α) (ra rb : Reg) : Regs → Res Effect := fun w => do
  let a ← rdF F w ra.toNat
  let b ← rdF F w rb.toNat
  return .flag (decide (a = b))

/-- `fisone.L` (R412, R431, R451, R471). -/
def isOneRule {α : Type} [DecidableEq α] (F : Level α) (ra : Reg) : Regs → Res Effect := fun w => do
  let a ← rdF F w ra.toNat
  return .flag (decide (a = F.one))

/-! ## Points (44_curve_point.md) -/

/-- `padd.L` (R512 to R514). -/
def paddRule {α : Type} [DecidableEq α] (F : Level α) (rd ra rb : Reg) : Regs → Res Effect := fun w => do
  let P ← rdPt F w ra.toNat
  let Q ← rdPt F w rb.toNat
  let S ← addPoint F P Q
  return wrPt F rd S

/-- `pdbl.L` (R515 to R517). -/
def pdblRule {α : Type} (F : Level α) (rd ra : Reg) : Regs → Res Effect := fun w => do
  let P ← rdPt F w ra.toNat
  let D ← dblPoint F P
  return wrPt F rd D

/-- `pneg.L` (R518 to R520). -/
def pnegRule {α : Type} (F : Level α) (rd ra : Reg) : Regs → Res Effect := fun w => do
  let P ← rdPt F w ra.toNat
  return wrPt F rd (negPoint F P)

/-- `pmul.L`: the scalar register RA and the point RB (R521 to R523). -/
def pmulRule {α : Type} [DecidableEq α] (F : Level α) (rd ra rb : Reg) (sn : Bool) : Regs → Res Effect := fun w => do
  let P ← rdPt F w rb.toNat
  let M ← mulPoint F (rdScalar w ra.toNat) sn P
  return wrPt F rd M

/-- `poncurve.L` with the curve constant of the level (R524 to R526). -/
def poncurveRule {α : Type} [DecidableEq α] (F : Level α) (b : α) (ra : Reg) : Regs → Res Effect := fun w => do
  let P ← rdPt F w ra.toNat
  return .flag (onCurve F b P)

/-- `pinsubgrp.L` (R527 to R529). -/
def pinsubgrpRule {α : Type} [DecidableEq α] (F : Level α) (ra : Reg) : Regs → Res Effect := fun w => do
  let P ← rdPt F w ra.toNat
  let b ← inSubgroup F P
  return .flag b

/-! ## The pairing engine (45_pairing.md) -/

/-- `untwist` (R542). -/
def untwistRule (rd ra : Reg) : Regs → Res Effect := fun w => do
  let Q ← rdPt lv2 w ra.toNat
  if Q.inf then .error .infinityOperand
  else do
    let U ← untwistPoint Q
    return wrPt lv12 rd U

/-- `dbleval` (R543). -/
def dblevalRule (rd ra rb : Reg) : Regs → Res Effect := fun w => do
  let R ← rdPt lv2 w ra.toNat
  let P ← rdPt lv1 w rb.toNat
  let l ← dblEval R P
  return wrF lv12 rd l

/-- `addeval` (R544). -/
def addevalRule (rd ra rb rc : Reg) : Regs → Res Effect := fun w => do
  let R ← rdPt lv2 w ra.toNat
  let Q ← rdPt lv2 w rb.toNat
  let P ← rdPt lv1 w rc.toNat
  let l ← addEval R Q P
  return wrF lv12 rd l

/-- `miller` (R546). -/
def millerRule (rd ra rb : Reg) : Regs → Res Effect := fun w => do
  let P ← rdPt lv1 w ra.toNat
  let Q ← rdPt lv2 w rb.toNat
  if P.inf || Q.inf then .error .infinityOperand
  else do
    let f ← millerFn P Q
    return wrF lv12 rd f

/-- `pairing` (R548). -/
def pairingRule (rd ra rb : Reg) : Regs → Res Effect := fun w => do
  let P ← rdPt lv1 w ra.toNat
  let Q ← rdPt lv2 w rb.toNat
  let f ← pairingFn P Q
  return wrF lv12 rd f

/-! ## The point codec (46_codec.md) -/

/-- `compress.1` (R580). -/
def compress1Rule (rd ra : Reg) : Regs → Res Effect := fun w => do
  let P ← rdPt lv1 w ra.toNat
  let z ← compressG1 P
  return .regs rd.toNat z

/-- `compress.2` (R582). -/
def compress2Rule (rd ra : Reg) : Regs → Res Effect := fun w => do
  let P ← rdPt lv2 w ra.toNat
  let z ← compressG2 P
  return .regs rd.toNat z

/-- `decompress.1` (R581). -/
def decompress1Rule (rd ra : Reg) : Regs → Res Effect := fun w => do
  let P ← decompressG1 (readWord w ra.toNat)
  return wrPt lv1 rd P

/-- `decompress.2` (R583). -/
def decompress2Rule (rd ra : Reg) : Regs → Res Effect := fun w => do
  let P ← decompressG2 (readWord w ra.toNat) (readWord w (ra.toNat + 1))
  return wrPt lv2 rd P

end Sys2Proof.Machine
end

