-- ==== Sys2Proof/Machine/CurvePoint.lean ====
section
/-! DEFINITION. The curve-point commands (44_curve_point.md R512 to R529). -/

namespace Sys2Proof.Machine

/-- `padd.1` (R512). -/
def execPadd1 (rd ra rb : Reg) (s : State) : StepResult :=
  runCommand (.padd1 rd ra rb) s (paddRule lv1 rd ra rb)

/-- `padd.2` (R513). -/
def execPadd2 (rd ra rb : Reg) (s : State) : StepResult :=
  runCommand (.padd2 rd ra rb) s (paddRule lv2 rd ra rb)

/-- `padd.12` (R514). -/
def execPadd12 (rd ra rb : Reg) (s : State) : StepResult :=
  runCommand (.padd12 rd ra rb) s (paddRule lv12 rd ra rb)

/-- `pdbl.1` (R515). -/
def execPdbl1 (rd ra : Reg) (s : State) : StepResult :=
  runCommand (.pdbl1 rd ra) s (pdblRule lv1 rd ra)

/-- `pdbl.2` (R516). -/
def execPdbl2 (rd ra : Reg) (s : State) : StepResult :=
  runCommand (.pdbl2 rd ra) s (pdblRule lv2 rd ra)

/-- `pdbl.12` (R517). -/
def execPdbl12 (rd ra : Reg) (s : State) : StepResult :=
  runCommand (.pdbl12 rd ra) s (pdblRule lv12 rd ra)

/-- `pneg.1` (R518). -/
def execPneg1 (rd ra : Reg) (s : State) : StepResult :=
  runCommand (.pneg1 rd ra) s (pnegRule lv1 rd ra)

/-- `pneg.2` (R519). -/
def execPneg2 (rd ra : Reg) (s : State) : StepResult :=
  runCommand (.pneg2 rd ra) s (pnegRule lv2 rd ra)

/-- `pneg.12` (R520). -/
def execPneg12 (rd ra : Reg) (s : State) : StepResult :=
  runCommand (.pneg12 rd ra) s (pnegRule lv12 rd ra)

/-- `pmul.1` (R521). -/
def execPmul1 (rd ra rb : Reg) (sn : Bool) (s : State) : StepResult :=
  runCommand (.pmul1 rd ra rb sn) s (pmulRule lv1 rd ra rb sn)

/-- `pmul.2` (R522). -/
def execPmul2 (rd ra rb : Reg) (sn : Bool) (s : State) : StepResult :=
  runCommand (.pmul2 rd ra rb sn) s (pmulRule lv2 rd ra rb sn)

/-- `pmul.12` (R523). -/
def execPmul12 (rd ra rb : Reg) (sn : Bool) (s : State) : StepResult :=
  runCommand (.pmul12 rd ra rb sn) s (pmulRule lv12 rd ra rb sn)

/-- `poncurve.1` (R524). -/
def execPoncurve1 (ra : Reg) (s : State) : StepResult :=
  runCommand (.poncurve1 ra) s (poncurveRule lv1 curveB1 ra)

/-- `poncurve.2` (R525). -/
def execPoncurve2 (ra : Reg) (s : State) : StepResult :=
  runCommand (.poncurve2 ra) s (poncurveRule lv2 curveB2 ra)

/-- `poncurve.12` (R526). -/
def execPoncurve12 (ra : Reg) (s : State) : StepResult :=
  runCommand (.poncurve12 ra) s (poncurveRule lv12 curveB12 ra)

/-- `pinsubgrp.1` (R527). -/
def execPinsubgrp1 (ra : Reg) (s : State) : StepResult :=
  runCommand (.pinsubgrp1 ra) s (pinsubgrpRule lv1 ra)

/-- `pinsubgrp.2` (R528). -/
def execPinsubgrp2 (ra : Reg) (s : State) : StepResult :=
  runCommand (.pinsubgrp2 ra) s (pinsubgrpRule lv2 ra)

/-- `pinsubgrp.12` (R529). -/
def execPinsubgrp12 (ra : Reg) (s : State) : StepResult :=
  runCommand (.pinsubgrp12 ra) s (pinsubgrpRule lv12 ra)

end Sys2Proof.Machine
end

