-- ==== Sys2Proof/Machine/FieldFp.lean ====
section
/-! DEFINITION. The base-field commands, level 1 (40_field_fp.md R402 to R412). -/

namespace Sys2Proof.Machine

/-- `fzero.1` (R402). -/
def execFzero1 (rd : Reg) (s : State) : StepResult :=
  runCommand (.fzero1 rd) s (constRule lv1 fpZero rd)

/-- `fone.1` (R403). -/
def execFone1 (rd : Reg) (s : State) : StepResult :=
  runCommand (.fone1 rd) s (constRule lv1 fpOne rd)

/-- `fadd.1` (R404). -/
def execFadd1 (rd ra rb : Reg) (s : State) : StepResult :=
  runCommand (.fadd1 rd ra rb) s (binaryRule lv1 fpAdd rd ra rb)

/-- `fsub.1` (R405). -/
def execFsub1 (rd ra rb : Reg) (s : State) : StepResult :=
  runCommand (.fsub1 rd ra rb) s (binaryRule lv1 fpSub rd ra rb)

/-- `fneg.1` (R406). -/
def execFneg1 (rd ra : Reg) (s : State) : StepResult :=
  runCommand (.fneg1 rd ra) s (unaryRule lv1 (fun a => .ok (fpNeg a)) rd ra)

/-- `fmul.1` (R407). -/
def execFmul1 (rd ra rb : Reg) (s : State) : StepResult :=
  runCommand (.fmul1 rd ra rb) s (binaryRule lv1 fpMul rd ra rb)

/-- `finv.1` (R408): InverseOfZero for the zero element. -/
def execFinv1 (rd ra : Reg) (s : State) : StepResult :=
  runCommand (.finv1 rd ra) s (unaryRule lv1 fpInv rd ra)

/-- `fpow.1` (R410). -/
def execFpow1 (rd ra rb : Reg) (s : State) : StepResult :=
  runCommand (.fpow1 rd ra rb) s (powRule lv1 rd ra rb)

/-- `feq.1` (R411). -/
def execFeq1 (ra rb : Reg) (s : State) : StepResult :=
  runCommand (.feq1 ra rb) s (eqRule lv1 ra rb)

/-- `fisone.1` (R412). -/
def execFisone1 (ra : Reg) (s : State) : StepResult :=
  runCommand (.fisone1 ra) s (isOneRule lv1 ra)

end Sys2Proof.Machine
end

