-- ==== Sys2Proof/Machine/FieldFp12.lean ====
section
/-! DEFINITION. The degree-12-extension commands, level 12 (43_field_fp12.md R461 to R471). -/

namespace Sys2Proof.Machine

/-- `fzero.12` (R461). -/
def execFzero12 (rd : Reg) (s : State) : StepResult :=
  runCommand (.fzero12 rd) s (constRule lv12 fp12Zero rd)

/-- `fone.12` (R462). -/
def execFone12 (rd : Reg) (s : State) : StepResult :=
  runCommand (.fone12 rd) s (constRule lv12 fp12One rd)

/-- `fadd.12` (R463). -/
def execFadd12 (rd ra rb : Reg) (s : State) : StepResult :=
  runCommand (.fadd12 rd ra rb) s (binaryRule lv12 fp12Add rd ra rb)

/-- `fsub.12` (R464). -/
def execFsub12 (rd ra rb : Reg) (s : State) : StepResult :=
  runCommand (.fsub12 rd ra rb) s (binaryRule lv12 fp12Sub rd ra rb)

/-- `fneg.12` (R465). -/
def execFneg12 (rd ra : Reg) (s : State) : StepResult :=
  runCommand (.fneg12 rd ra) s (unaryRule lv12 (fun a => .ok (fp12Neg a)) rd ra)

/-- `fmul.12` (R466). -/
def execFmul12 (rd ra rb : Reg) (s : State) : StepResult :=
  runCommand (.fmul12 rd ra rb) s (binaryRule lv12 fp12Mul rd ra rb)

/-- `finv.12` (R467): InverseOfZero for the zero element. -/
def execFinv12 (rd ra : Reg) (s : State) : StepResult :=
  runCommand (.finv12 rd ra) s (unaryRule lv12 fp12Inv rd ra)

/-- `fpow.12` (R468). -/
def execFpow12 (rd ra rb : Reg) (s : State) : StepResult :=
  runCommand (.fpow12 rd ra rb) s (powRule lv12 rd ra rb)

/-- `fmulnr.12` (R469): the operand is read, which may raise first, then UndefinedOperation. -/
def execFmulnr12 (rd ra : Reg) (s : State) : StepResult :=
  runCommand (.fmulnr12 rd ra) s (unaryRule lv12 (fun _ => .error .undefinedOperation) rd ra)

/-- `feq.12` (R470). -/
def execFeq12 (ra rb : Reg) (s : State) : StepResult :=
  runCommand (.feq12 ra rb) s (eqRule lv12 ra rb)

/-- `fisone.12` (R471). -/
def execFisone12 (ra : Reg) (s : State) : StepResult :=
  runCommand (.fisone12 ra) s (isOneRule lv12 ra)

end Sys2Proof.Machine
end

