-- ==== Sys2Proof/Machine/FieldFp2.lean ====
section
/-! DEFINITION. The quadratic-extension commands, level 2 (41_field_fp2.md R421 to R431). -/

namespace Sys2Proof.Machine

/-- `fzero.2` (R421). -/
def execFzero2 (rd : Reg) (s : State) : StepResult :=
  runCommand (.fzero2 rd) s (constRule lv2 fp2Zero rd)

/-- `fone.2` (R422). -/
def execFone2 (rd : Reg) (s : State) : StepResult :=
  runCommand (.fone2 rd) s (constRule lv2 fp2One rd)

/-- `fadd.2` (R423). -/
def execFadd2 (rd ra rb : Reg) (s : State) : StepResult :=
  runCommand (.fadd2 rd ra rb) s (binaryRule lv2 fp2Add rd ra rb)

/-- `fsub.2` (R424). -/
def execFsub2 (rd ra rb : Reg) (s : State) : StepResult :=
  runCommand (.fsub2 rd ra rb) s (binaryRule lv2 fp2Sub rd ra rb)

/-- `fneg.2` (R425). -/
def execFneg2 (rd ra : Reg) (s : State) : StepResult :=
  runCommand (.fneg2 rd ra) s (unaryRule lv2 (fun a => .ok (fp2Neg a)) rd ra)

/-- `fmul.2` (R426). -/
def execFmul2 (rd ra rb : Reg) (s : State) : StepResult :=
  runCommand (.fmul2 rd ra rb) s (binaryRule lv2 fp2Mul rd ra rb)

/-- `finv.2` (R427): InverseOfZero for the zero element. -/
def execFinv2 (rd ra : Reg) (s : State) : StepResult :=
  runCommand (.finv2 rd ra) s (unaryRule lv2 fp2Inv rd ra)

/-- `fpow.2` (R428). -/
def execFpow2 (rd ra rb : Reg) (s : State) : StepResult :=
  runCommand (.fpow2 rd ra rb) s (powRule lv2 rd ra rb)

/-- `fmulnr.2` (R429). -/
def execFmulnr2 (rd ra : Reg) (s : State) : StepResult :=
  runCommand (.fmulnr2 rd ra) s (unaryRule lv2 (fun a => .ok (fp2MulNr a)) rd ra)

/-- `feq.2` (R430). -/
def execFeq2 (ra rb : Reg) (s : State) : StepResult :=
  runCommand (.feq2 ra rb) s (eqRule lv2 ra rb)

/-- `fisone.2` (R431). -/
def execFisone2 (ra : Reg) (s : State) : StepResult :=
  runCommand (.fisone2 ra) s (isOneRule lv2 ra)

end Sys2Proof.Machine
end

