-- ==== Sys2Proof/Machine/FieldFp6.lean ====
section
/-! DEFINITION. The cubic-extension commands, level 6 (42_field_fp6.md R441 to R451). -/

namespace Sys2Proof.Machine

/-- `fzero.6` (R441). -/
def execFzero6 (rd : Reg) (s : State) : StepResult :=
  runCommand (.fzero6 rd) s (constRule lv6 fp6Zero rd)

/-- `fone.6` (R442). -/
def execFone6 (rd : Reg) (s : State) : StepResult :=
  runCommand (.fone6 rd) s (constRule lv6 fp6One rd)

/-- `fadd.6` (R443). -/
def execFadd6 (rd ra rb : Reg) (s : State) : StepResult :=
  runCommand (.fadd6 rd ra rb) s (binaryRule lv6 fp6Add rd ra rb)

/-- `fsub.6` (R444). -/
def execFsub6 (rd ra rb : Reg) (s : State) : StepResult :=
  runCommand (.fsub6 rd ra rb) s (binaryRule lv6 fp6Sub rd ra rb)

/-- `fneg.6` (R445). -/
def execFneg6 (rd ra : Reg) (s : State) : StepResult :=
  runCommand (.fneg6 rd ra) s (unaryRule lv6 (fun a => .ok (fp6Neg a)) rd ra)

/-- `fmul.6` (R446). -/
def execFmul6 (rd ra rb : Reg) (s : State) : StepResult :=
  runCommand (.fmul6 rd ra rb) s (binaryRule lv6 fp6Mul rd ra rb)

/-- `finv.6` (R447): InverseOfZero for the zero element. -/
def execFinv6 (rd ra : Reg) (s : State) : StepResult :=
  runCommand (.finv6 rd ra) s (unaryRule lv6 fp6Inv rd ra)

/-- `fpow.6` (R448). -/
def execFpow6 (rd ra rb : Reg) (s : State) : StepResult :=
  runCommand (.fpow6 rd ra rb) s (powRule lv6 rd ra rb)

/-- `fmulnr.6` (R449). -/
def execFmulnr6 (rd ra : Reg) (s : State) : StepResult :=
  runCommand (.fmulnr6 rd ra) s (unaryRule lv6 (fun a => .ok (fp6MulNr a)) rd ra)

/-- `feq.6` (R450). -/
def execFeq6 (ra rb : Reg) (s : State) : StepResult :=
  runCommand (.feq6 ra rb) s (eqRule lv6 ra rb)

/-- `fisone.6` (R451). -/
def execFisone6 (ra : Reg) (s : State) : StepResult :=
  runCommand (.fisone6 ra) s (isOneRule lv6 ra)

end Sys2Proof.Machine
end

