-- ==== Sys2Proof/Machine/Pairing.lean ====
section
/-! DEFINITION. The pairing-engine commands (45_pairing.md R542 to R551). -/

namespace Sys2Proof.Machine

/-- `untwist` (R542). -/
def execUntwist (rd ra : Reg) (s : State) : StepResult :=
  runCommand (.untwist rd ra) s (untwistRule rd ra)

/-- `dbleval` (R543). -/
def execDbleval (rd ra rb : Reg) (s : State) : StepResult :=
  runCommand (.dbleval rd ra rb) s (dblevalRule rd ra rb)

/-- `addeval` (R544). -/
def execAddeval (rd ra rb rc : Reg) (s : State) : StepResult :=
  runCommand (.addeval rd ra rb rc) s (addevalRule rd ra rb rc)

/-- `miller` (R546). -/
def execMiller (rd ra rb : Reg) (s : State) : StepResult :=
  runCommand (.miller rd ra rb) s (millerRule rd ra rb)

/-- `pairing` (R548). -/
def execPairing (rd ra rb : Reg) (s : State) : StepResult :=
  runCommand (.pairing rd ra rb) s (pairingRule rd ra rb)

/-- `finalexp` (R551). -/
def execFinalexp (rd ra : Reg) (s : State) : StepResult :=
  runCommand (.finalexp rd ra) s (unaryRule lv12 (fun f => .ok (finalExp f)) rd ra)

end Sys2Proof.Machine
end

