-- ==== Sys2Proof/Machine/PointCodec.lean ====
section
/-! DEFINITION. The square-root and point-codec commands (46_codec.md R571 to R583). -/

namespace Sys2Proof.Machine

/-- `sqrt.1` (R571). -/
def execSqrt1 (rd ra : Reg) (s : State) : StepResult :=
  runCommand (.sqrt1 rd ra) s (unaryRule lv1 tsSqrt rd ra)

/-- `sqrt.2` (R573). -/
def execSqrt2 (rd ra : Reg) (s : State) : StepResult :=
  runCommand (.sqrt2 rd ra) s (unaryRule lv2 fp2Sqrt rd ra)

/-- `compress.1` (R580). -/
def execCompress1 (rd ra : Reg) (s : State) : StepResult :=
  runCommand (.compress1 rd ra) s (compress1Rule rd ra)

/-- `compress.2` (R582). -/
def execCompress2 (rd ra : Reg) (s : State) : StepResult :=
  runCommand (.compress2 rd ra) s (compress2Rule rd ra)

/-- `decompress.1` (R581). -/
def execDecompress1 (rd ra : Reg) (s : State) : StepResult :=
  runCommand (.decompress1 rd ra) s (decompress1Rule rd ra)

/-- `decompress.2` (R583). -/
def execDecompress2 (rd ra : Reg) (s : State) : StepResult :=
  runCommand (.decompress2 rd ra) s (decompress2Rule rd ra)

end Sys2Proof.Machine
end

