-- ==== Sys2Proof/Machine/Dispatch.lean ====
section
/-! DEFINITION. One arm per command: each calls its meaning (the completion step of 10_state.md R114). -/

namespace Sys2Proof.Machine

def exec (i : Instr) (s : State) : Host.Outcome State Fault Refusal :=
  match i with
  | .fzero1 rd => Sys2Proof.Machine.execFzero1 rd s
  | .fzero2 rd => Sys2Proof.Machine.execFzero2 rd s
  | .fzero6 rd => Sys2Proof.Machine.execFzero6 rd s
  | .fzero12 rd => Sys2Proof.Machine.execFzero12 rd s
  | .fone1 rd => Sys2Proof.Machine.execFone1 rd s
  | .fone2 rd => Sys2Proof.Machine.execFone2 rd s
  | .fone6 rd => Sys2Proof.Machine.execFone6 rd s
  | .fone12 rd => Sys2Proof.Machine.execFone12 rd s
  | .fadd1 rd ra rb => Sys2Proof.Machine.execFadd1 rd ra rb s
  | .fadd2 rd ra rb => Sys2Proof.Machine.execFadd2 rd ra rb s
  | .fadd6 rd ra rb => Sys2Proof.Machine.execFadd6 rd ra rb s
  | .fadd12 rd ra rb => Sys2Proof.Machine.execFadd12 rd ra rb s
  | .fsub1 rd ra rb => Sys2Proof.Machine.execFsub1 rd ra rb s
  | .fsub2 rd ra rb => Sys2Proof.Machine.execFsub2 rd ra rb s
  | .fsub6 rd ra rb => Sys2Proof.Machine.execFsub6 rd ra rb s
  | .fsub12 rd ra rb => Sys2Proof.Machine.execFsub12 rd ra rb s
  | .fneg1 rd ra => Sys2Proof.Machine.execFneg1 rd ra s
  | .fneg2 rd ra => Sys2Proof.Machine.execFneg2 rd ra s
  | .fneg6 rd ra => Sys2Proof.Machine.execFneg6 rd ra s
  | .fneg12 rd ra => Sys2Proof.Machine.execFneg12 rd ra s
  | .fmul1 rd ra rb => Sys2Proof.Machine.execFmul1 rd ra rb s
  | .fmul2 rd ra rb => Sys2Proof.Machine.execFmul2 rd ra rb s
  | .fmul6 rd ra rb => Sys2Proof.Machine.execFmul6 rd ra rb s
  | .fmul12 rd ra rb => Sys2Proof.Machine.execFmul12 rd ra rb s
  | .finv1 rd ra => Sys2Proof.Machine.execFinv1 rd ra s
  | .finv2 rd ra => Sys2Proof.Machine.execFinv2 rd ra s
  | .finv6 rd ra => Sys2Proof.Machine.execFinv6 rd ra s
  | .finv12 rd ra => Sys2Proof.Machine.execFinv12 rd ra s
  | .fpow1 rd ra rb => Sys2Proof.Machine.execFpow1 rd ra rb s
  | .fpow2 rd ra rb => Sys2Proof.Machine.execFpow2 rd ra rb s
  | .fpow6 rd ra rb => Sys2Proof.Machine.execFpow6 rd ra rb s
  | .fpow12 rd ra rb => Sys2Proof.Machine.execFpow12 rd ra rb s
  | .fmulnr2 rd ra => Sys2Proof.Machine.execFmulnr2 rd ra s
  | .fmulnr6 rd ra => Sys2Proof.Machine.execFmulnr6 rd ra s
  | .fmulnr12 rd ra => Sys2Proof.Machine.execFmulnr12 rd ra s
  | .feq1 ra rb => Sys2Proof.Machine.execFeq1 ra rb s
  | .feq2 ra rb => Sys2Proof.Machine.execFeq2 ra rb s
  | .feq6 ra rb => Sys2Proof.Machine.execFeq6 ra rb s
  | .feq12 ra rb => Sys2Proof.Machine.execFeq12 ra rb s
  | .fisone1 ra => Sys2Proof.Machine.execFisone1 ra s
  | .fisone2 ra => Sys2Proof.Machine.execFisone2 ra s
  | .fisone6 ra => Sys2Proof.Machine.execFisone6 ra s
  | .fisone12 ra => Sys2Proof.Machine.execFisone12 ra s
  | .padd1 rd ra rb => Sys2Proof.Machine.execPadd1 rd ra rb s
  | .padd2 rd ra rb => Sys2Proof.Machine.execPadd2 rd ra rb s
  | .padd12 rd ra rb => Sys2Proof.Machine.execPadd12 rd ra rb s
  | .pdbl1 rd ra => Sys2Proof.Machine.execPdbl1 rd ra s
  | .pdbl2 rd ra => Sys2Proof.Machine.execPdbl2 rd ra s
  | .pdbl12 rd ra => Sys2Proof.Machine.execPdbl12 rd ra s
  | .pneg1 rd ra => Sys2Proof.Machine.execPneg1 rd ra s
  | .pneg2 rd ra => Sys2Proof.Machine.execPneg2 rd ra s
  | .pneg12 rd ra => Sys2Proof.Machine.execPneg12 rd ra s
  | .pmul1 rd ra rb sn => Sys2Proof.Machine.execPmul1 rd ra rb sn s
  | .pmul2 rd ra rb sn => Sys2Proof.Machine.execPmul2 rd ra rb sn s
  | .pmul12 rd ra rb sn => Sys2Proof.Machine.execPmul12 rd ra rb sn s
  | .poncurve1 ra => Sys2Proof.Machine.execPoncurve1 ra s
  | .poncurve2 ra => Sys2Proof.Machine.execPoncurve2 ra s
  | .poncurve12 ra => Sys2Proof.Machine.execPoncurve12 ra s
  | .pinsubgrp1 ra => Sys2Proof.Machine.execPinsubgrp1 ra s
  | .pinsubgrp2 ra => Sys2Proof.Machine.execPinsubgrp2 ra s
  | .pinsubgrp12 ra => Sys2Proof.Machine.execPinsubgrp12 ra s
  | .untwist rd ra => Sys2Proof.Machine.execUntwist rd ra s
  | .dbleval rd ra rb => Sys2Proof.Machine.execDbleval rd ra rb s
  | .addeval rd ra rb rc => Sys2Proof.Machine.execAddeval rd ra rb rc s
  | .miller rd ra rb => Sys2Proof.Machine.execMiller rd ra rb s
  | .pairing rd ra rb => Sys2Proof.Machine.execPairing rd ra rb s
  | .finalexp rd ra => Sys2Proof.Machine.execFinalexp rd ra s
  | .sqrt1 rd ra => Sys2Proof.Machine.execSqrt1 rd ra s
  | .sqrt2 rd ra => Sys2Proof.Machine.execSqrt2 rd ra s
  | .compress1 rd ra => Sys2Proof.Machine.execCompress1 rd ra s
  | .compress2 rd ra => Sys2Proof.Machine.execCompress2 rd ra s
  | .decompress1 rd ra => Sys2Proof.Machine.execDecompress1 rd ra s
  | .decompress2 rd ra => Sys2Proof.Machine.execDecompress2 rd ra s

end Sys2Proof.Machine
end

