-- ==== Sys2Proof/Machine/Sequencer.lean ====
section
/-! DEFINITION. The moves of the agents: the sequencer's completion step, the host's transactions, the reset input. -/

namespace Sys2Proof.Machine

/-- The sequencer's step: with a command in progress, decode it and execute it, or raise IllegalCommand
(10_state.md R114, 30_encoding.md R305); without one the core is idle and waits (60_exceptions.md R635). -/
def sequencerStep (s : State) : StepResult :=
  if s.busy then
    match decode s.cmdr with
    | some i => exec i s
    | none => .next (raiseError s .illegalCommand)
  else .next s

/-- One event of the outside world. A host access that is no transaction of the port is a fault of the model
(20_memory.md R202, log 7). -/
def eventStep (s : State) : Event → StepResult
  | .hostRead addr => if isTransaction addr then .next (hostRead s addr) else .fault (.windowAccess addr)
  | .hostWrite addr v => if isTransaction addr then .next (hostWrite s addr v) else .fault (.windowAccess addr)
  | .sequencer => sequencerStep s
  | .reset => .next (applyReset s)

/-- Takes the next event off the schedule. -/
def popEvent (s : State) (rest : List Event) : State := { s with schedule := rest }

/-- The state in which the sequencer is about to complete the command word `c`: acceptance of `c` (10_state.md R111),
whatever was in progress, and the sequencer's turn next (log 6). -/
def offerCommand (s : State) (c : CmdWord) : State :=
  { accept s c with schedule := .sequencer :: s.schedule }

end Sys2Proof.Machine
end

