-- ==== Sys2Proof/Machine/Step.lean ====
section
/-! DEFINITION. One step of the machine. -/

namespace Sys2Proof.Machine

/-- One step: the next event of the schedule takes place; when the outside world does nothing more, the sequencer moves
by itself (70_reset_and_hazards.md R721, log 5). -/
def step (s : State) : Host.Outcome State Fault Refusal :=
  match s.schedule with
  | [] => sequencerStep s
  | e :: rest => eventStep (popEvent s rest) e

/-- `s` with the command word `w` accepted, so that the very next step completes it (log 6). Every opcode-table row is
one 32-bit word, so the bits from `nbits` up are 0. -/
def State.withFetchWord (s : State) (nbits w : Nat) : State := offerCommand s (BitVec.ofNat 32 (w % 2 ^ nbits))

end Sys2Proof.Machine
end

