-- ==== Sys2Proof/Safety.lean ====
section
/-! DEFINITION. What counts as a safe run: no command reads a register that the host or a command has not written
since reset (70_reset_and_hazards.md R702 step 2). This is where the spec's own model stops with its model-only fault
UnwrittenRead (10_state.md R104, 60_exceptions.md R614); here the command runs on the register's value (log 2). -/

namespace Sys2Proof.Machine

/-- All 12 limbs of `W[i]` have been written since reset (10_state.md R104). -/
def isWritten (s : State) (i : Nat) : Bool := marks s i == BitVec.allOnes 12

/-- Every register of an operand has been written. -/
def operandWritten (s : State) (o : Reg × Nat) : Bool := (List.range o.2).all fun k => isWritten s (o.1.toNat + k)

/-- Every register the command reads has been written (60_exceptions.md R614). -/
def sourcesWritten (i : Instr) (s : State) : Bool := i.sources.all (operandWritten s)

/-- The command in progress, if there is a legal one, reads only written registers. -/
def SafeState (s : State) : Prop := s.busy = true → ∀ i, decode s.cmdr = some i → sourcesWritten i s = true

/-- `k` steps are safe: they pass through safe states only. -/
def SafeRun : Nat → State → Prop
  | 0, s => SafeState s
  | k + 1, s => SafeState s ∧ ∀ t, step s = .next t → SafeRun k t

end Sys2Proof.Machine
end

