-- ==== Sys2Proof/Safety/Reference.lean ====
section
/-! DEFINITION. The terms the statements use: the field tower over `ZMod p` (00_scope.md R11), the group law, the scalar
multiple, the line values and the Miller loop as relations without an inverse function, and what a command leaves in the
state. Nothing here is part of the machine, and nothing here calls the machine's own field or curve functions. -/

namespace Sys2Proof.Reference

open Sys2Proof.Machine
open Sys2Proof.Config (p r)

/-! ## The field tower over `ZMod p` (00_scope.md R11, R12) -/

/-- The base field. -/
abbrev F := ZMod p
/-- Pairs `a0 + a1 u`, `u^2 = -1`. -/
abbrev F2 := F × F
/-- Triples `b0 + b1 v + b2 v^2`, `v^3 = u + 1`. -/
abbrev F6 := F2 × F2 × F2
/-- Pairs `c0 + c1 w`, `w^2 = v`. -/
abbrev F12 := F6 × F6

/-- The product at level 2, from `u^2 = -1`. -/
def mul2 (a b : F2) : F2 := (a.1 * b.1 - a.2 * b.2, a.2 * b.1 + a.1 * b.2)

/-- Times `u + 1` (41_field_fp2.md R429). -/
def timesNr (a : F2) : F2 := (a.1 - a.2, a.2 + a.1)

/-- The product at level 6 as the product of two polynomials in `v` reduced by `v^3 = u + 1`, not the Karatsuba lines
(42_field_fp6.md R446). -/
def mul6 (a b : F6) : F6 :=
  (mul2 a.1 b.1 + timesNr (mul2 a.2.1 b.2.2 + mul2 a.2.2 b.2.1),
   mul2 a.1 b.2.1 + mul2 a.2.1 b.1 + timesNr (mul2 a.2.2 b.2.2),
   mul2 a.1 b.2.2 + mul2 a.2.1 b.2.1 + mul2 a.2.2 b.1)

/-- Times `v` (42_field_fp6.md R449). -/
def timesV (a : F6) : F6 := (timesNr a.2.2, a.1, a.2.1)

/-- The product at level 12, from `w^2 = v` (43_field_fp12.md R466). -/
def mul12 (a b : F12) : F12 := (mul6 a.1 b.1 + timesV (mul6 a.2 b.2), mul6 a.2 b.1 + mul6 a.1 b.2)

/-- A level of the tower: the number of coefficients, one, the product, and the flattening in both directions
(00_scope.md R11). Sums, differences and zero are coefficient by coefficient, those of the product type. -/
structure Tower (α : Type) where
  size : Nat
  one : α
  mul : α → α → α
  ofWords : (Nat → F) → α
  flat : α → List F

def words2 (g : Nat → F) : F2 := (g 0, g 1)
def words6 (g : Nat → F) : F6 := (words2 g, words2 fun k => g (k + 2), words2 fun k => g (k + 4))
def words12 (g : Nat → F) : F12 := (words6 g, words6 fun k => g (k + 6))
def flat2 (a : F2) : List F := [a.1, a.2]
def flat6 (a : F6) : List F := flat2 a.1 ++ flat2 a.2.1 ++ flat2 a.2.2
def flat12 (a : F12) : List F := flat6 a.1 ++ flat6 a.2

def T1 : Tower F where
  size := 1
  one := 1
  mul a b := a * b
  ofWords g := g 0
  flat a := [a]

def T2 : Tower F2 where
  size := 2
  one := (1, 0)
  mul := mul2
  ofWords := words2
  flat := flat2

def T6 : Tower F6 where
  size := 6
  one := ((1, 0), 0, 0)
  mul := mul6
  ofWords := words6
  flat := flat6

def T12 : Tower F12 where
  size := 12
  one := (((1, 0), 0, 0), 0)
  mul := mul12
  ofWords := words12
  flat := flat12

/-- `a` multiplied by itself `n` times (40_field_fp.md R409). -/
def power {α : Type} (T : Tower α) (a : α) : Nat → α
  | 0 => T.one
  | n + 1 => T.mul (power T a n) a

/-- A level-1 value in the constant coefficient of level 12 (00_scope.md R12). -/
def lift (a : F) : F12 := (((a, 0), 0, 0), 0)

/-! ## Points and the group law (44_curve_point.md) -/

/-- `INF_L` (10_state.md R108). -/
def infinity {α : Type} [Zero α] : Point α := ⟨0, 0, true⟩

/-- The negative of a point (R504). -/
def negated {α : Type} [Neg α] (P : Point α) : Point α := ⟨P.x, -P.y, P.inf⟩

/-- `R` is the point on the line of slope `slope` through `P`, with second abscissa `x2`, reflected: the last lines of R502
and R503. -/
def OnChord {α : Type} [AddCommGroup α] (T : Tower α) (slope x2 : α) (P R : Point α) : Prop :=
  R.inf = false ∧ R.x = T.mul slope slope - P.x - x2 ∧ R.y = T.mul (P.x - R.x) slope - P.y

/-- `dbl_L(P)` gives `R` without raising (R502); the slope is the quotient `3 x^2 / 2 y`. -/
def IsDouble {α : Type} [AddCommGroup α] (T : Tower α) (P R : Point α) : Prop :=
  (P.inf = true ∧ R = P) ∨
  (P.inf = false ∧ P.y ≠ 0 ∧ ∃ slope, T.mul slope (P.y + P.y) = T.mul (P.x + P.x + P.x) P.x ∧ OnChord T slope P.x P R)

/-- `add_L(P, Q)` gives `R` without raising (R503). -/
def IsSum {α : Type} [AddCommGroup α] (T : Tower α) (P Q R : Point α) : Prop :=
  (P.inf = true ∧ R = Q) ∨
  (P.inf = false ∧ Q.inf = true ∧ R = P) ∨
  (P.inf = false ∧ Q.inf = false ∧ P.x = Q.x ∧ P.y = Q.y ∧ IsDouble T P R) ∨
  (P.inf = false ∧ Q.inf = false ∧ P.x = Q.x ∧ P.y ≠ Q.y ∧ R = infinity) ∨
  (P.inf = false ∧ Q.inf = false ∧ P.x ≠ Q.x ∧
    ∃ slope, T.mul slope (Q.x - P.x) = Q.y - P.y ∧ OnChord T slope Q.x P R)

/-- The loop of R506 with `k` left of the scalar, accumulator `acc` and base `base` ends in `R` without raising. The base is
not doubled after the last bit. -/
inductive MulRun {α : Type} [AddCommGroup α] (T : Tower α) : Nat → Point α → Point α → Point α → Prop where
  | stop (acc base : Point α) : MulRun T 0 acc base acc
  | last (acc base R : Point α) : IsSum T acc base R → MulRun T 1 acc base R
  | even (k : Nat) (acc base base' R : Point α) : 0 < k → IsDouble T base base' →
      MulRun T k acc base' R → MulRun T (2 * k) acc base R
  | odd (k : Nat) (acc base acc' base' R : Point α) : 0 < k → IsSum T acc base acc' → IsDouble T base base' →
      MulRun T k acc' base' R → MulRun T (2 * k + 1) acc base R

/-- `mul_L(k, SN, P)` gives `R` without raising (R506). -/
def IsMultiple {α : Type} [AddCommGroup α] (T : Tower α) (k : Nat) (sn : Bool) (P R : Point α) : Prop :=
  MulRun T k infinity (if sn then negated P else P) R

/-- `P` satisfies `y^2 = x^3 + b` and is finite (R510). -/
def OnCurve {α : Type} [AddCommGroup α] (T : Tower α) (b : α) (P : Point α) : Prop :=
  P.inf = false ∧ T.mul P.y P.y = T.mul (T.mul P.x P.x) P.x + b

/-- The constants of the three curve equations (R510). -/
def b1 : F := 4
def b2 : F2 := (4, 4)
def b12 : F12 := lift 4

/-! ## The pairing engine (45_pairing.md) -/

/-- The Fp2 constant `H2 = 1/(u + 1)` of 45_pairing.md, `((p+1)/2, (p-1)/2)`. -/
def half2 : F2 := (((p + 1) / 2 : Nat), ((p - 1) / 2 : Nat))

/-- The x coordinate of `untw(Q)` in the closed form of R541: the `v^2` slot of the first half. -/
def untwistX (Q : Point F2) : F12 := ((0, 0, mul2 Q.x half2), 0)

/-- The y coordinate of `untw(Q)` in the closed form of R541: the `v` slot of the second half. -/
def untwistY (Q : Point F2) : F12 := (0, (0, mul2 Q.y half2, 0))

/-- The value at `P` of the line with slope `slope` through the untwisted `Q` (R543, R544). -/
def lineValue (slope : F12) (Q : Point F2) (P : Point F) : F12 :=
  lift P.y - mul12 (lift P.x) slope - (untwistY Q - mul12 slope (untwistX Q))

/-- `dbl_eval(R, P)` on coordinates gives `l` without raising (R543). -/
def IsTangentValue (R : Point F2) (P : Point F) (l : F12) : Prop :=
  R.y ≠ 0 ∧ ∃ slope,
    mul12 slope (untwistY R + untwistY R) = mul12 (untwistX R + untwistX R + untwistX R) (untwistX R) ∧
    l = lineValue slope R P

/-- `add_eval(R, Q, P)` on coordinates gives `l` without raising (R544). -/
def IsSecantValue (R Q : Point F2) (P : Point F) (l : F12) : Prop :=
  (R.x = Q.x ∧ R.y = -Q.y ∧ l = lift P.x - untwistX R) ∨
  (R.x ≠ Q.x ∧ ∃ slope, mul12 slope (untwistX Q - untwistX R) = untwistY Q - untwistY R ∧ l = lineValue slope Q P)

/-- `MILLER_BITS` as 00_scope.md R8 prints them, most significant first. -/
def printedBits : List Bool :=
  "101001000000001000000000000000000000000000000010000000000000000".toList.map fun c => c == '1'

/-- The loop of R545 over the remaining bits, from accumulator `f` and running point `R`, ends in `g` without raising. -/
inductive MillerRun (P : Point F) (Q : Point F2) : List Bool → F12 → Point F2 → F12 → Prop where
  | done (f : F12) (R : Point F2) : MillerRun P Q [] f R f
  | bit0 (bs : List Bool) (f l g : F12) (R R' : Point F2) : R.inf = false → IsTangentValue R P l → IsDouble T2 R R' →
      MillerRun P Q bs (mul12 (mul12 f f) l) R' g → MillerRun P Q (false :: bs) f R g
  | bit1 (bs : List Bool) (f l l' g : F12) (R R' R'' : Point F2) : R.inf = false → IsTangentValue R P l →
      IsDouble T2 R R' → R'.inf = false → IsSecantValue R' Q P l' → IsSum T2 R' Q R'' →
      MillerRun P Q bs (mul12 (mul12 (mul12 f f) l) l') R'' g → MillerRun P Q (true :: bs) f R g

/-- `miller_fn(P, Q)` gives `f` without raising (R545). -/
def IsMiller (P : Point F) (Q : Point F2) (f : F12) : Prop := MillerRun P Q printedBits T12.one Q f

/-! ## Encodings (46_codec.md) -/

/-- `sign_1(y)` (R574). -/
def sign1Of (y : F) : Nat := if p < 2 * y.val then 1 else 0

/-- `sign_2(y)` (R574). -/
def sign2Of (y : F2) : Nat := if y.2 = 0 then sign1Of y.1 else sign1Of y.2

/-- The first word of the encoding of a finite point: C, I = 0, S and the coordinate (R575, R576). -/
def codeWord (sign : Nat) (x : F) : Nat := 2 ^ 383 + sign * 2 ^ 381 + x.val

/-! ## What a command reads -/

/-- `W[i]` as an unsigned integer (10_state.md R100). -/
def wval (s : State) (i : Nat) : Nat := (readWord s.w i).toNat

/-- An element of `n` coefficients at base `b`: inside the register file (30_encoding.md R307), every word below `p`
(10_state.md R105). -/
def ElemOk (s : State) (b n : Nat) : Prop := b + n ≤ 64 ∧ ∀ k < n, wval s (b + k) < p

/-- A point of level `n` at base `b`: inside the register file, coordinates below `p`, flag word 0 or 1
(10_state.md R102, R107, R108). -/
def PointOk (s : State) (b n : Nat) : Prop :=
  b + (2 * n + 1) ≤ 64 ∧ (∀ k < 2 * n, wval s (b + k) < p) ∧ wval s (b + 2 * n) ≤ 1

/-- The element at base `b` (10_state.md R101). -/
def elemAt {α : Type} (T : Tower α) (s : State) (b : Nat) : α := T.ofWords fun k => (wval s (b + k) : F)

/-- The point at base `b` (10_state.md R102). -/
def pointAt {α : Type} (T : Tower α) (s : State) (b : Nat) : Point α :=
  ⟨elemAt T s b, elemAt T s (b + T.size), wval s (b + 2 * T.size) == 1⟩

/-- The words of an element (10_state.md R106). -/
def wordsOf {α : Type} (T : Tower α) (a : α) : List Nat := (T.flat a).map ZMod.val

/-- The words of a point (10_state.md R102, R107). -/
def wordsOfPoint {α : Type} (T : Tower α) (P : Point α) : List Nat :=
  wordsOf T P.x ++ wordsOf T P.y ++ [if P.inf then 1 else 0]

/-! ## What a command leaves -/

/-- Completion without error that touches no register, no mark, no FLAG: BUSY falls, DONE rises, the rest stays
(10_state.md R114). ERR and ERRCODE stay as acceptance left them. -/
structure Finished (s t : State) : Prop where
  busy : t.busy = false
  done : t.done = true
  err : t.err = s.err
  errcode : t.errcode = s.errcode
  cmdr : t.cmdr = s.cmdr
  schedule : t.schedule = s.schedule
  readData : t.readData = s.readData
  draws : t.draws = s.draws

/-- The command completed without error, wrote the words `vs` from base `b` on, marked those registers written, and left
every other register, every other mark, FLAG and all the rest as it was: result and frame in one. -/
structure Wrote (s t : State) (b : Nat) (vs : List Nat) : Prop extends Finished s t where
  value : ∀ k < vs.length, wval t (b + k) = vs.getD k 0
  mark : ∀ k < vs.length, marks t (b + k) = BitVec.allOnes 12
  other : ∀ i < 64, i < b ∨ b + vs.length ≤ i → wval t i = wval s i
  otherMark : ∀ i < 64, i < b ∨ b + vs.length ≤ i → marks t i = marks s i
  flag : t.flag = s.flag

/-- The command completed without error and wrote FLAG, and nothing else changed (10_state.md R113). -/
structure Flagged (s t : State) (b : Bool) : Prop extends Finished s t where
  flag : t.flag = b
  same : ∀ i < 64, wval t i = wval s i
  sameMark : ∀ i < 64, marks t i = marks s i

/-- The command ended by `raise` with this code: STATUS records it, nothing else changed (60_exceptions.md R610). -/
structure Raised (s t : State) (code : Nat) : Prop where
  busy : t.busy = false
  done : t.done = true
  err : t.err = true
  errcode : t.errcode.toNat = code
  flag : t.flag = s.flag
  cmdr : t.cmdr = s.cmdr
  same : ∀ i < 64, wval t i = wval s i
  sameMark : ∀ i < 64, marks t i = marks s i
  schedule : t.schedule = s.schedule
  readData : t.readData = s.readData
  draws : t.draws = s.draws

end Sys2Proof.Reference
end

