-- ==== Sys2Proof/Certificates/Slice0/Obligations.lean ====
section
/-! DEFINITION. The statements for the provers. Those about a command say what it reads, what it writes (`Wrote`, `Flagged`,
`Raised` of Safety/Reference.lean hold the result and the frame together), and that it completes, for every state and every
operand inside the register file. -/

open Sys2Proof
open Sys2Proof.Machine
open Sys2Proof.Reference

namespace Sys2Proof.Reference

/-! ## The shapes of the statements about commands -/

/-- A command word from the numbers of its fields (30_encoding.md R300). -/
def commandWord (op lv : Nat) (rd ra rb rc : Reg) : CmdWord :=
  BitVec.ofNat 32
    (op * 2 ^ 26 + lv * 2 ^ 24 + rd.toNat * 2 ^ 18 + ra.toNat * 2 ^ 12 + rb.toNat * 2 ^ 6 + rc.toNat)

/-- The word `c` decodes to `i`, and `i` in state `s` answers a next state with the property `post`. -/
def Completes (c : CmdWord) (i : Instr) (s : State) (post : State → Prop) : Prop :=
  decode c = some i ∧ ∃ t, exec i s = .next t ∧ post t

/-- A command without a source writes the words `vs`. -/
def ConstantGives (op lv : Nat) (mk : Reg → Instr) (vs : List Nat) : Prop :=
  ∀ (s : State) (rd : Reg), rd.toNat + vs.length ≤ 64 →
    Completes (commandWord op lv rd 0 0 0) (mk rd) s fun t => Wrote s t rd.toNat vs

/-- A command of level `n` whose word `k` depends on the words `k` of its two sources only. -/
def WordwiseGives (n op lv : Nat) (mk : Reg → Reg → Reg → Instr) (g : Nat → Nat → Nat) : Prop :=
  ∀ (s : State) (rd ra rb : Reg), rd.toNat + n ≤ 64 → ElemOk s ra.toNat n → ElemOk s rb.toNat n →
    Completes (commandWord op lv rd ra rb 0) (mk rd ra rb) s fun t =>
      Wrote s t rd.toNat ((List.range n).map fun k => g (wval s (ra.toNat + k)) (wval s (rb.toNat + k)))

/-- A command with one element source. -/
def UnaryGives {α : Type} (T : Tower α) (op lv : Nat) (mk : Reg → Reg → Instr) (g : α → α) : Prop :=
  ∀ (s : State) (rd ra : Reg), rd.toNat + T.size ≤ 64 → ElemOk s ra.toNat T.size →
    Completes (commandWord op lv rd ra 0 0) (mk rd ra) s fun t =>
      Wrote s t rd.toNat (wordsOf T (g (elemAt T s ra.toNat)))

/-- A command with two element sources. -/
def BinaryGives {α : Type} (T : Tower α) (op lv : Nat) (mk : Reg → Reg → Reg → Instr) (g : α → α → α) : Prop :=
  ∀ (s : State) (rd ra rb : Reg), rd.toNat + T.size ≤ 64 → ElemOk s ra.toNat T.size → ElemOk s rb.toNat T.size →
    Completes (commandWord op lv rd ra rb 0) (mk rd ra rb) s fun t =>
      Wrote s t rd.toNat (wordsOf T (g (elemAt T s ra.toNat) (elemAt T s rb.toNat)))

/-- `finv.L`: the element whose product with the source is one, and InverseOfZero at zero. -/
def InverseGives {α : Type} [Zero α] (T : Tower α) (lv : Nat) (mk : Reg → Reg → Instr) : Prop :=
  ∀ (s : State) (rd ra : Reg), rd.toNat + T.size ≤ 64 → ElemOk s ra.toNat T.size →
    (elemAt T s ra.toNat ≠ 0 → Completes (commandWord 0x07 lv rd ra 0 0) (mk rd ra) s fun t =>
      ∃ c, T.mul (elemAt T s ra.toNat) c = T.one ∧ Wrote s t rd.toNat (wordsOf T c)) ∧
    (elemAt T s ra.toNat = 0 → ∃ t, exec (mk rd ra) s = .next t ∧ Raised s t 9)

/-- `fpow.L`: the base multiplied by itself, the exponent a whole register. -/
def PowerGives {α : Type} (T : Tower α) (lv : Nat) (mk : Reg → Reg → Reg → Instr) : Prop :=
  ∀ (s : State) (rd ra rb : Reg), rd.toNat + T.size ≤ 64 → ElemOk s ra.toNat T.size →
    Completes (commandWord 0x08 lv rd ra rb 0) (mk rd ra rb) s fun t =>
      Wrote s t rd.toNat (wordsOf T (power T (elemAt T s ra.toNat) (wval s rb.toNat)))

/-- `feq.L`: FLAG says whether all words agree. -/
def EqualityGives (n lv : Nat) (mk : Reg → Reg → Instr) : Prop :=
  ∀ (s : State) (ra rb : Reg), ElemOk s ra.toNat n → ElemOk s rb.toNat n →
    Completes (commandWord 0x0A lv 0 ra rb 0) (mk ra rb) s fun t =>
      ∃ b, Flagged s t b ∧ (b = true ↔ ∀ k < n, wval s (ra.toNat + k) = wval s (rb.toNat + k))

/-- `fisone.L`: FLAG says whether the words are 1, 0, .., 0. -/
def IsOneGives (n lv : Nat) (mk : Reg → Instr) : Prop :=
  ∀ (s : State) (ra : Reg), ElemOk s ra.toNat n →
    Completes (commandWord 0x0B lv 0 ra 0 0) (mk ra) s fun t =>
      ∃ b, Flagged s t b ∧ (b = true ↔ ∀ k < n, wval s (ra.toNat + k) = if k = 0 then 1 else 0)

/-- The one case in which `add_L` raises (44_curve_point.md R503): a doubling of a point with `y = 0`. -/
def SumUndefined {α : Type} [Zero α] (P Q : Point α) : Prop :=
  P.inf = false ∧ Q.inf = false ∧ P.x = Q.x ∧ P.y = Q.y ∧ P.y = 0

/-- `padd.L`. -/
def PaddGives {α : Type} [AddCommGroup α] (T : Tower α) (lv : Nat) (mk : Reg → Reg → Reg → Instr) : Prop :=
  ∀ (s : State) (rd ra rb : Reg), rd.toNat + (2 * T.size + 1) ≤ 64 → PointOk s ra.toNat T.size →
    PointOk s rb.toNat T.size →
    (¬SumUndefined (pointAt T s ra.toNat) (pointAt T s rb.toNat) →
      Completes (commandWord 0x10 lv rd ra rb 0) (mk rd ra rb) s fun t =>
        ∃ R, IsSum T (pointAt T s ra.toNat) (pointAt T s rb.toNat) R ∧ Wrote s t rd.toNat (wordsOfPoint T R)) ∧
    (SumUndefined (pointAt T s ra.toNat) (pointAt T s rb.toNat) →
      ∃ t, exec (mk rd ra rb) s = .next t ∧ Raised s t 9)

/-- `pdbl.L`. -/
def PdblGives {α : Type} [AddCommGroup α] (T : Tower α) (lv : Nat) (mk : Reg → Reg → Instr) : Prop :=
  ∀ (s : State) (rd ra : Reg), rd.toNat + (2 * T.size + 1) ≤ 64 → PointOk s ra.toNat T.size →
    ((pointAt T s ra.toNat).inf = true ∨ (pointAt T s ra.toNat).y ≠ 0 →
      Completes (commandWord 0x11 lv rd ra 0 0) (mk rd ra) s fun t =>
        ∃ R, IsDouble T (pointAt T s ra.toNat) R ∧ Wrote s t rd.toNat (wordsOfPoint T R)) ∧
    ((pointAt T s ra.toNat).inf = false ∧ (pointAt T s ra.toNat).y = 0 →
      ∃ t, exec (mk rd ra) s = .next t ∧ Raised s t 9)

/-- `pneg.L`. -/
def PnegGives {α : Type} [AddCommGroup α] (T : Tower α) (lv : Nat) (mk : Reg → Reg → Instr) : Prop :=
  ∀ (s : State) (rd ra : Reg), rd.toNat + (2 * T.size + 1) ≤ 64 → PointOk s ra.toNat T.size →
    Completes (commandWord 0x12 lv rd ra 0 0) (mk rd ra) s fun t =>
      Wrote s t rd.toNat (wordsOfPoint T (negated (pointAt T s ra.toNat)))

/-- `pmul.L`: the multiple by the whole scalar register, negated point for SN = 1; InverseOfZero when the loop of R506 meets
a doubling with `y = 0`. -/
def PmulGives {α : Type} [AddCommGroup α] (T : Tower α) (lv : Nat) (mk : Reg → Reg → Reg → Bool → Instr) : Prop :=
  ∀ (s : State) (rd ra rb : Reg) (sn : Bool), rd.toNat + (2 * T.size + 1) ≤ 64 → PointOk s rb.toNat T.size →
    (∀ R, IsMultiple T (wval s ra.toNat) sn (pointAt T s rb.toNat) R →
      Completes (commandWord 0x13 lv rd ra rb (if sn then 1 else 0)) (mk rd ra rb sn) s fun t =>
        Wrote s t rd.toNat (wordsOfPoint T R)) ∧
    ((¬∃ R, IsMultiple T (wval s ra.toNat) sn (pointAt T s rb.toNat) R) →
      ∃ t, exec (mk rd ra rb sn) s = .next t ∧ Raised s t 9)

/-- `poncurve.L` with the curve constant `c`. -/
def OnCurveGives {α : Type} [AddCommGroup α] (T : Tower α) (c : α) (lv : Nat) (mk : Reg → Instr) : Prop :=
  ∀ (s : State) (ra : Reg), PointOk s ra.toNat T.size →
    Completes (commandWord 0x14 lv 0 ra 0 0) (mk ra) s fun t =>
      ∃ b, Flagged s t b ∧ (b = true ↔ OnCurve T c (pointAt T s ra.toNat))

/-- `pinsubgrp.L`: FLAG is the infinity flag of the multiple by the subgroup order. -/
def SubgroupGives {α : Type} [AddCommGroup α] (T : Tower α) (lv : Nat) (mk : Reg → Instr) : Prop :=
  ∀ (s : State) (ra : Reg), PointOk s ra.toNat T.size →
    (∀ R, IsMultiple T Config.r false (pointAt T s ra.toNat) R →
      Completes (commandWord 0x15 lv 0 ra 0 0) (mk ra) s fun t => Flagged s t R.inf) ∧
    ((¬∃ R, IsMultiple T Config.r false (pointAt T s ra.toNat) R) →
      ∃ t, exec (mk ra) s = .next t ∧ Raised s t 9)

/-! ## The tables of the spec -/

/-- A row of the tables of 30_encoding.md R301 and R303: the operation, its legal level codes, and for a level code the
sizes of the operands in the fields RD, RA, RB, RC; 0 where the field is not used. -/
structure TableRow where
  op : Nat
  levels : List Nat
  sizes : Nat → Nat × Nat × Nat × Nat

/-- The level of a level code (R302). -/
def levelOf (lv : Nat) : Nat := [1, 2, 6, 12].getD lv 0

/-- The size of a point at a level code (R303). -/
def pointLevel (lv : Nat) : Nat := 2 * levelOf lv + 1

/-- The table of R301 and R303. -/
def table : List TableRow :=
  [⟨0x01, [0, 1, 2, 3], fun v => (levelOf v, 0, 0, 0)⟩, ⟨0x02, [0, 1, 2, 3], fun v => (levelOf v, 0, 0, 0)⟩,
   ⟨0x03, [0, 1, 2, 3], fun v => (levelOf v, levelOf v, levelOf v, 0)⟩,
   ⟨0x04, [0, 1, 2, 3], fun v => (levelOf v, levelOf v, levelOf v, 0)⟩,
   ⟨0x05, [0, 1, 2, 3], fun v => (levelOf v, levelOf v, 0, 0)⟩,
   ⟨0x06, [0, 1, 2, 3], fun v => (levelOf v, levelOf v, levelOf v, 0)⟩,
   ⟨0x07, [0, 1, 2, 3], fun v => (levelOf v, levelOf v, 0, 0)⟩,
   ⟨0x08, [0, 1, 2, 3], fun v => (levelOf v, levelOf v, 1, 0)⟩,
   ⟨0x09, [1, 2, 3], fun v => (levelOf v, levelOf v, 0, 0)⟩,
   ⟨0x0A, [0, 1, 2, 3], fun v => (0, levelOf v, levelOf v, 0)⟩, ⟨0x0B, [0, 1, 2, 3], fun v => (0, levelOf v, 0, 0)⟩,
   ⟨0x10, [0, 1, 3], fun v => (pointLevel v, pointLevel v, pointLevel v, 0)⟩,
   ⟨0x11, [0, 1, 3], fun v => (pointLevel v, pointLevel v, 0, 0)⟩,
   ⟨0x12, [0, 1, 3], fun v => (pointLevel v, pointLevel v, 0, 0)⟩,
   ⟨0x13, [0, 1, 3], fun v => (pointLevel v, 1, pointLevel v, 0)⟩,
   ⟨0x14, [0, 1, 3], fun v => (0, pointLevel v, 0, 0)⟩, ⟨0x15, [0, 1, 3], fun v => (0, pointLevel v, 0, 0)⟩,
   ⟨0x20, [0], fun _ => (25, 5, 0, 0)⟩, ⟨0x21, [0], fun _ => (12, 5, 3, 0)⟩, ⟨0x22, [0], fun _ => (12, 5, 5, 3)⟩,
   ⟨0x23, [0], fun _ => (12, 3, 5, 0)⟩, ⟨0x24, [0], fun _ => (12, 3, 5, 0)⟩, ⟨0x25, [0], fun _ => (12, 12, 0, 0)⟩,
   ⟨0x30, [0, 1], fun v => (levelOf v, levelOf v, 0, 0)⟩, ⟨0x31, [0, 1], fun v => (levelOf v, pointLevel v, 0, 0)⟩,
   ⟨0x32, [0, 1], fun v => (pointLevel v, levelOf v, 0, 0)⟩]

/-- A field with base `b` that holds an operand of `n` registers stays inside the register file; one that is not used is 0
(R305 steps 3 and 4). -/
def FieldLegal (b n : Nat) : Prop := if n = 0 then b = 0 else b + n ≤ 64

/-- The word `c` passes the steps 1 to 4 of R305. -/
def LegalWord (c : CmdWord) : Prop :=
  ∃ row ∈ table, row.op = c.toNat / 2 ^ 26 ∧ c.toNat / 2 ^ 24 % 4 ∈ row.levels ∧
    FieldLegal (c.toNat / 2 ^ 18 % 64) (row.sizes (c.toNat / 2 ^ 24 % 4)).1 ∧
    FieldLegal (c.toNat / 2 ^ 12 % 64) (row.sizes (c.toNat / 2 ^ 24 % 4)).2.1 ∧
    FieldLegal (c.toNat / 2 ^ 6 % 64) (row.sizes (c.toNat / 2 ^ 24 % 4)).2.2.1 ∧
    (if row.op = 0x13 then c.toNat % 64 < 2 else FieldLegal (c.toNat % 64) (row.sizes (c.toNat / 2 ^ 24 % 4)).2.2.2)

/-- The source operands read with the range check of `RdFp` and of the flag word (60_exceptions.md R609): every source but
the exponent of `fpow`, the scalar of `pmul` and the encoding of `decompress`. -/
def checkedSources : Instr → List (Reg × Nat)
  | .fpow1 _ ra _ => [(ra, 1)]
  | .fpow2 _ ra _ => [(ra, 2)]
  | .fpow6 _ ra _ => [(ra, 6)]
  | .fpow12 _ ra _ => [(ra, 12)]
  | .pmul1 _ _ rb _ => [(rb, 3)]
  | .pmul2 _ _ rb _ => [(rb, 5)]
  | .pmul12 _ _ rb _ => [(rb, 25)]
  | .decompress1 _ _ => []
  | .decompress2 _ _ => []
  | i => i.sources

/-- An operand of 3, 5 or 25 registers is a point, any other an element (10_state.md R101, R102). -/
def isPointSize (n : Nat) : Bool := n == 3 || n == 5 || n == 25

/-- Every word of the operand is in range: coefficients below `p`, a flag word 0 or 1. -/
def Canonical (s : State) (b n : Nat) : Prop :=
  if isPointSize n then (∀ k < n - 1, wval s (b + k) < Config.p) ∧ wval s (b + (n - 1)) ≤ 1
  else ∀ k < n, wval s (b + k) < Config.p

/-- The codes of the column "commands that can raise it" of 60_exceptions.md R601 for a legal command, `pairing` and its
code 8 included (R618). -/
def codesOf : Instr → List Nat
  | .fzero1 _ | .fzero2 _ | .fzero6 _ | .fzero12 _ | .fone1 _ | .fone2 _ | .fone6 _ | .fone12 _ => []
  | .finv1 .. | .finv2 .. | .finv6 .. | .finv12 .. => [8, 9]
  | .fmulnr12 .. => [6, 8]
  | .padd1 .. | .padd2 .. | .padd12 .. | .pdbl1 .. | .pdbl2 .. | .pdbl12 .. => [8, 9]
  | .pmul1 .. | .pmul2 .. | .pmul12 .. | .pinsubgrp1 .. | .pinsubgrp2 .. | .pinsubgrp12 .. => [8, 9]
  | .untwist .. => [8, 10]
  | .dbleval .. | .addeval .. | .miller .. => [8, 9, 10]
  | .sqrt1 .. | .sqrt2 .. => [3, 8]
  | .compress1 .. | .compress2 .. => [1, 8, 9]
  | .decompress1 .. | .decompress2 .. => [2, 3]
  | _ => [8]

/-- The predicate commands of 10_state.md R113. -/
def isPredicate : Instr → Bool
  | .feq1 .. | .feq2 .. | .feq6 .. | .feq12 .. | .fisone1 .. | .fisone2 .. | .fisone6 .. | .fisone12 .. => true
  | .poncurve1 .. | .poncurve2 .. | .poncurve12 .. | .pinsubgrp1 .. | .pinsubgrp2 .. | .pinsubgrp12 .. => true
  | _ => false

/-! ## States and events -/

/-- The architectural state is the same: registers, marks, CMDR and STATUS. -/
def SameCore (s t : State) : Prop :=
  t.w = s.w ∧ t.written = s.written ∧ t.cmdr = s.cmdr ∧ t.busy = s.busy ∧ t.done = s.done ∧ t.err = s.err ∧
    t.flag = s.flag ∧ t.errcode = s.errcode

/-- The fields of STATUS agree with one another (10_state.md R112; 60_exceptions.md R601, R610). -/
def StatusInv (s : State) : Prop :=
  ¬(s.busy = true ∧ s.done = true) ∧ (s.err = true → s.done = true) ∧ (s.err = false ↔ s.errcode = 0) ∧
    s.errcode.toNat ∈ [0, 1, 2, 3, 6, 7, 8, 9, 10]

/-- STATUS as a number (10_state.md R112). -/
def statusNumber (s : State) : Nat :=
  (if s.busy then 1 else 0) + (if s.done then 2 else 0) + (if s.err then 4 else 0) + (if s.flag then 8 else 0) +
    256 * s.errcode.toNat

/-- A host transaction: a read or a write of an aligned offset inside the window (20_memory.md R202). -/
def IsHostAccess (e : Event) : Prop :=
  (∃ a, e = .hostRead a ∧ a % 4 = 0 ∧ a < 4096) ∨ ∃ a v, e = .hostWrite a v ∧ a % 4 = 0 ∧ a < 4096

/-- The offset of limb `k` of `W[i]` (20_memory.md R201). -/
def limbAddr (i k : Nat) : Nat := 0x400 + 48 * i + 4 * k

/-- Limb `k` of the value `v` (20_memory.md R201, R205). -/
def limbOf (v k : Nat) : Nat := v / 2 ^ (32 * k) % 2 ^ 32

/-! ## G1 as Mathlib's elliptic curve -/

/-- `y^2 = x^3 + 4` over the base field (00_scope.md R7). -/
def E1 : WeierstrassCurve.Affine F := ⟨0, 0, 0, 0, 4⟩

/-- The three registers at base `b` hold the point `P` of the curve (10_state.md R102). -/
def Represents (s : State) (b : Nat) : E1.Point → Prop
  | .zero => PointOk s b 1 ∧ wval s (b + 2) = 1
  | .some x y _ => b + 3 ≤ 64 ∧ wval s b = x.val ∧ wval s (b + 1) = y.val ∧ wval s (b + 2) = 0

end Sys2Proof.Reference

/-! # Encoding -/

/-- R305, R306: decoding the word of a legal command gives the command back, with every operand. -/
def Obligations.DecodeEncode : Prop := ∀ i : Instr, i.wellFormed = true → decode (encode i) = some i

/-- R306: "This keeps every legal command to a single bit pattern per (operation, operands)": a word that decodes is the word
of the command it decodes to, and that command's operands are inside the register file. -/
def Obligations.LegalWordIsUnique : Prop := ∀ (c : CmdWord) (i : Instr), decode c = some i → encode i = c ∧ i.wellFormed = true

/-- R305, R307, R309: a word decodes exactly when it passes the four steps, read off the tables of R301 and R303. -/
def Obligations.DecodesIffLegal : Prop := ∀ c : CmdWord, (decode c).isSome = true ↔ LegalWord c

/-- The words of the examples of R311, R404, R411, R546 and R581 decode to the commands they stand for; the all-zero word of
R309 and the word of the missing `fmulnr.1` of R413 decode to none. -/
def Obligations.SpecWordsDecode : Prop :=
  decode 0x1B00C600 = some (.fmul12 0 12 24) ∧ decode 0x8800C456 = some (.addeval 0 12 17 22) ∧
  decode 0x4D283141 = some (.pmul2 10 3 5 true) ∧ decode 0x0C080040 = some (.fadd1 2 0 1) ∧
  decode 0x8C2000C0 = some (.miller 8 0 3) ∧ decode 0xC8103000 = some (.decompress1 4 3) ∧
  decode 0x28000040 = some (.feq1 0 1) ∧
  decode 0x00000000 = none ∧ decode 0x24000000 = none

/-! # The machine -/

/-- R114: the completion step executes the command in CMDR. With nothing scheduled the sequencer moves by itself; with its
turn scheduled the turn is used up. -/
def Obligations.StepRunsDecodedCommand : Prop :=
  ∀ (s : State) (i : Instr), s.busy = true → decode s.cmdr = some i →
    (s.schedule = [] → step s = exec i s) ∧
    (∀ rest, s.schedule = .sequencer :: rest → step s = exec i { s with schedule := rest })

/-- R305, R608: an illegal word completes with IllegalCommand, without a read or a write of a register. -/
def Obligations.IllegalCommandRaises : Prop :=
  ∀ s : State, s.busy = true → s.schedule = [] → ¬LegalWord s.cmdr → ∃ t, step s = .next t ∧ Raised s t 7

/-- R111: acceptance of a command, and a write of CMD that is ignored while a command runs. -/
def Obligations.AcceptanceOfCommand : Prop :=
  ∀ (s : State) (c : CmdWord) (rest : List Event), s.schedule = .hostWrite 0 c :: rest →
    (s.busy = false → step s = .next
      { s with schedule := rest, cmdr := c, busy := true, done := false, err := false, errcode := 0 }) ∧
    (s.busy = true → step s = .next { s with schedule := rest })

/-- R114, R610, R113, R303: whatever a command does, it completes; it raises one error and changes STATUS only, or it writes
exactly the block of registers that R303 gives its RD, or, for a predicate command, which has no RD, it writes FLAG. -/
def Obligations.CommandOutcomes : Prop :=
  ∀ (i : Instr) (s : State), ∃ t, exec i s = .next t ∧
    ((∃ c, Raised s t c) ∨
     (∃ rd n ws, i.dest = some (rd, n) ∧ ws.length = n ∧ Wrote s t rd.toNat ws) ∨
     (i.dest = none ∧ isPredicate i = true ∧ ∃ b, Flagged s t b))

/-- R609, R611 step 2: a legal command reports NonCanonicalOperand exactly when a word of a range-checked source is out of
range, whatever else is wrong with its operands. -/
def Obligations.NonCanonicalIffOutOfRange : Prop :=
  ∀ (i : Instr) (s : State), i.wellFormed = true → s.err = false →
    ((∃ o ∈ checkedSources i, ¬Canonical s o.1.toNat o.2) ↔ ∃ t, exec i s = .next t ∧ Raised s t 8)

/-- R601, R618: a legal command raises no error but those of its line; `pairing` is in PairingNeverRaises. -/
def Obligations.ErrorsOfTheTable : Prop :=
  ∀ (i : Instr) (s t : State) (c : Nat), i.wellFormed = true → s.err = false → (∀ rd ra rb, i ≠ .pairing rd ra rb) →
    exec i s = .next t → Raised s t c → c ∈ codesOf i

/-- R105, R107: what a command writes as coefficients and flag words is in range. The commands that write an encoding are
not meant. -/
def Obligations.ResultsAreCanonical : Prop :=
  ∀ (i : Instr) (s t : State) (rd : Reg) (n : Nat), s.err = false → i.dest = some (rd, n) →
    (∀ r a, i ≠ .compress1 r a ∧ i ≠ .compress2 r a) → exec i s = .next t → t.err = false → Canonical t rd.toNat n

/-- R115, R614, R636: error, destination and FLAG depend on the command and on the registers it reads, and on nothing else
of the state, so what a register that is not read holds after reset never shows. -/
def Obligations.ResultDependsOnSourcesOnly : Prop :=
  ∀ (i : Instr) (s s' t t' : State), s.err = false → s'.err = false → s.errcode = s'.errcode →
    (∀ o ∈ i.sources, ∀ k < o.2, wval s (o.1.toNat + k) = wval s' (o.1.toNat + k)) →
    exec i s = .next t → exec i s' = .next t' →
    t.err = t'.err ∧ t.errcode = t'.errcode ∧
    (t.err = false → i.dest = none → t.flag = t'.flag) ∧
    (t.err = false → ∀ rd n, i.dest = some (rd, n) → ∀ k < n, wval t (rd.toNat + k) = wval t' (rd.toNat + k))

/-- R112, R601, R610: BUSY and DONE are never both 1, ERR is set at a completion only, ERRCODE is 0 exactly when ERR is 0 and
never holds a reserved code: every step keeps it. -/
def Obligations.StepKeepsStatusInv : Prop := ∀ s t : State, StatusInv s → step s = .next t → StatusInv t

/-- R116: after reset STATUS is consistent. -/
def Obligations.ResetHasStatusInv : Prop := StatusInv State.reset

/-- R116: the values the spec gives for reset: CMDR, STATUS and the marks. It says nothing of `W`, whose reset value the spec
leaves unspecified (log 1). -/
def Obligations.ResetValues : Prop :=
  State.reset.cmdr = 0 ∧ State.reset.busy = false ∧ State.reset.done = false ∧ State.reset.err = false ∧
  State.reset.flag = false ∧ State.reset.errcode = 0 ∧ ∀ i < 64, marks State.reset i = 0

/-- R700: the reset input, at any time, also while a command runs: control and status as in R116, all marks cleared. What the
registers hold is unspecified and not stated. -/
def Obligations.ResetEvent : Prop :=
  ∀ (s : State) (rest : List Event), s.schedule = .reset :: rest → ∃ t, step s = .next t ∧ t.cmdr = 0 ∧ t.busy = false ∧
    t.done = false ∧ t.err = false ∧ t.flag = false ∧ t.errcode = 0 ∧ (∀ i < 64, marks t i = 0) ∧ t.schedule = rest

/-- R203: a host read changes nothing of the core; it returns CMDR, STATUS, 0, or the limb of an idle core's written
register. -/
def Obligations.HostReadReturns : Prop :=
  ∀ (s : State) (a : Nat) (rest : List Event), s.schedule = .hostRead a :: rest → a % 4 = 0 → a < 4096 →
    ∃ t, step s = .next t ∧ SameCore s t ∧ t.schedule = rest ∧
      (a = 0 → t.readData = s.cmdr) ∧
      (a = 4 → t.readData.toNat = statusNumber s) ∧
      (8 ≤ a → a < 0x400 → t.readData = 0) ∧
      (∀ i < 64, ∀ k < 12, a = limbAddr i k → s.busy = false → (marks s i).getLsbD k = true →
        t.readData.toNat = limbOf (wval s i) k)

/-- R204, R205: a host write of a limb of an idle core replaces that limb, marks it written, and changes nothing else; a write
to STATUS or to a reserved offset is ignored. -/
def Obligations.HostWriteStores : Prop :=
  ∀ (s : State) (a : Nat) (v : Limb) (rest : List Event), s.schedule = .hostWrite a v :: rest → a % 4 = 0 → a < 4096 →
    (4 ≤ a → a < 0x400 → step s = .next { s with schedule := rest }) ∧
    (∀ i < 64, ∀ k < 12, a = limbAddr i k → s.busy = false → ∃ t, step s = .next t ∧
      (∀ j < 64, ∀ l < 12, limbOf (wval t j) l = if j = i ∧ l = k then v.toNat else limbOf (wval s j) l) ∧
      (∀ j < 64, ∀ l < 12, (marks t j).getLsbD l = ((j == i && l == k) || (marks s j).getLsbD l)) ∧
      t.cmdr = s.cmdr ∧ t.busy = s.busy ∧ t.done = s.done ∧ t.err = s.err ∧ t.flag = s.flag ∧ t.errcode = s.errcode ∧
      t.schedule = rest ∧ t.readData = s.readData ∧ t.draws = s.draws)

/-- R207, R312: the twelve limb writes of a register load its value, and no other register changes. -/
def Obligations.TwelveWritesLoadRegister : Prop :=
  ∀ (s : State) (i : Nat) (v : Word) (rest : List Event), i < 64 → s.busy = false →
    s.schedule = ((List.range 12).map fun k => .hostWrite (limbAddr i k) (BitVec.ofNat 32 (limbOf v.toNat k))) ++ rest →
    ∃ t, Host.Core.run core 12 s = .next t ∧ wval t i = v.toNat ∧ marks t i = BitVec.allOnes 12 ∧
      (∀ j < 64, j ≠ i → wval t j = wval s j ∧ marks t j = marks s j) ∧
      t.cmdr = s.cmdr ∧ t.busy = false ∧ t.done = s.done ∧ t.err = s.err ∧ t.flag = s.flag ∧ t.errcode = s.errcode ∧
      t.schedule = rest

/-- R710: while a command runs, every host access leaves the core as it is; CMD reads as the running command, and STATUS as
BUSY with the FLAG of before. -/
def Obligations.BusyHazard : Prop :=
  ∀ (s : State) (e : Event) (rest : List Event), StatusInv s → s.busy = true → s.schedule = e :: rest → IsHostAccess e →
    ∃ t, step s = .next t ∧ SameCore s t ∧ t.schedule = rest ∧
      (e = .hostRead 0 → t.readData = s.cmdr) ∧
      (e = .hostRead 4 → t.readData.toNat = 1 + if s.flag then 8 else 0)

/-- R710, R720, R721: however many host accesses come while a command runs, the command then completes as if none had come:
the completion is that of the same registers and the same CMDR. -/
def Obligations.BusyRunIsUndisturbed : Prop :=
  ∀ (s : State) (es : List Event) (i : Instr), s.busy = true → decode s.cmdr = some i → (∀ e ∈ es, IsHostAccess e) →
    s.schedule = es → ∃ u t, Host.Core.run core es.length s = .next u ∧ SameCore s u ∧ u.schedule = [] ∧
      step u = .next t ∧ exec i u = .next t ∧ t.busy = false ∧ t.done = true

/-- R720, R721: an accepted command completes, legal or not: left alone, a busy core falls idle in one step. -/
def Obligations.BusyCoreCompletes : Prop :=
  ∀ s : State, s.busy = true → s.schedule = [] → ∃ t, step s = .next t ∧ t.busy = false ∧ t.done = true ∧ t.cmdr = s.cmdr

/-- R111, R114, R610: from the host's write of CMD to the completion in two steps: after a command that does not raise,
STATUS reads DONE without ERR; after one that raises, DONE, ERR and the code. -/
def Obligations.CommandFromHostWrite : Prop :=
  ∀ (s : State) (i : Instr), i.wellFormed = true → s.busy = false →
    s.schedule = [.hostWrite 0 (encode i), .sequencer] →
    ∃ t, Host.Core.run core 2 s = .next t ∧ t.cmdr = encode i ∧
      ((t.err = false ∧ statusNumber t % 8 = 2 ∧ t.errcode = 0) ∨
       (t.err = true ∧ t.errcode ≠ 0 ∧ t.flag = s.flag ∧ statusNumber t = 6 + 256 * t.errcode.toNat + if s.flag then 8 else 0))

/-- R617, R712: in an idle core ERR, ERRCODE, DONE and FLAG stay until the next acceptance or reset. -/
def Obligations.StatusPersistsWhileIdle : Prop :=
  ∀ s t : State, s.busy = false → (∀ c rest, s.schedule ≠ .hostWrite 0 c :: rest) →
    (∀ rest, s.schedule ≠ .reset :: rest) → step s = .next t →
    t.busy = false ∧ t.done = s.done ∧ t.err = s.err ∧ t.errcode = s.errcode ∧ t.flag = s.flag ∧ t.cmdr = s.cmdr

/-- MODEL'S CHOICE, log 7 (20_memory.md R202 leaves it open): a host access that is misaligned or outside the window stops the
model with a fault, and nothing else does. -/
def Obligations.FaultOnlyOutsideThePort : Prop :=
  ∀ (s : State) (f : Fault), step s = .fault f ↔ ∃ a rest, f = .windowAccess a ∧ ¬(a % 4 = 0 ∧ a < 4096) ∧
    (s.schedule = .hostRead a :: rest ∨ ∃ v, s.schedule = .hostWrite a v :: rest)

/-! # Field commands -/

/-- R402, R403, R421, R422, R441, R442, R461, R462: `fzero` and `fone` at the four levels. -/
def Obligations.IdentitiesWritten : Prop :=
  ConstantGives 0x01 0 .fzero1 [0] ∧ ConstantGives 0x01 1 .fzero2 [0, 0] ∧
  ConstantGives 0x01 2 .fzero6 [0, 0, 0, 0, 0, 0] ∧ ConstantGives 0x01 3 .fzero12 [0, 0, 0, 0, 0, 0, 0, 0, 0, 0, 0, 0] ∧
  ConstantGives 0x02 0 .fone1 [1] ∧ ConstantGives 0x02 1 .fone2 [1, 0] ∧
  ConstantGives 0x02 2 .fone6 [1, 0, 0, 0, 0, 0] ∧ ConstantGives 0x02 3 .fone12 [1, 0, 0, 0, 0, 0, 0, 0, 0, 0, 0, 0]

/-- R404, R423, R443, R463, R405, R424, R444, R464: `fadd` and `fsub` at the four levels: each word is the sum, or the
difference, mod `p`, the least residue. -/
def Obligations.AddSubAreWordwise : Prop :=
  WordwiseGives 1 0x03 0 .fadd1 (fun a b => (a + b) % Config.p) ∧
  WordwiseGives 2 0x03 1 .fadd2 (fun a b => (a + b) % Config.p) ∧
  WordwiseGives 6 0x03 2 .fadd6 (fun a b => (a + b) % Config.p) ∧
  WordwiseGives 12 0x03 3 .fadd12 (fun a b => (a + b) % Config.p) ∧
  WordwiseGives 1 0x04 0 .fsub1 (fun a b => (((a : Int) - b) % Config.p).toNat) ∧
  WordwiseGives 2 0x04 1 .fsub2 (fun a b => (((a : Int) - b) % Config.p).toNat) ∧
  WordwiseGives 6 0x04 2 .fsub6 (fun a b => (((a : Int) - b) % Config.p).toNat) ∧
  WordwiseGives 12 0x04 3 .fsub12 (fun a b => (((a : Int) - b) % Config.p).toNat)

/-- R406, R425, R445, R465: `fneg` at the four levels is the additive inverse. -/
def Obligations.NegGives : Prop :=
  UnaryGives T1 0x05 0 .fneg1 (fun a => -a) ∧ UnaryGives T2 0x05 1 .fneg2 (fun a => -a) ∧
  UnaryGives T6 0x05 2 .fneg6 (fun a => -a) ∧ UnaryGives T12 0x05 3 .fneg12 (fun a => -a)

/-- R407, R426, R446, R466: `fmul` at the four levels is the product in the tower; at level 6 the product of the polynomials,
which the machine computes by Karatsuba's lines. -/
def Obligations.MulGives : Prop :=
  BinaryGives T1 0x06 0 .fmul1 (fun a b => a * b) ∧ BinaryGives T2 0x06 1 .fmul2 mul2 ∧
  BinaryGives T6 0x06 2 .fmul6 mul6 ∧ BinaryGives T12 0x06 3 .fmul12 mul12

/-- R408, R427, R447, R467, R612: `finv` at the four levels: for every nonzero source the inverse, InverseOfZero at zero and
only there. -/
def Obligations.InverseGivesOrRaises : Prop :=
  InverseGives T1 0 .finv1 ∧ InverseGives T2 1 .finv2 ∧ InverseGives T6 2 .finv6 ∧ InverseGives T12 3 .finv12

/-- R409, R410, R428, R448, R468: `fpow` at the four levels is repeated multiplication. -/
def Obligations.PowerIsRepeatedMultiplication : Prop :=
  PowerGives T1 0 .fpow1 ∧ PowerGives T2 1 .fpow2 ∧ PowerGives T6 2 .fpow6 ∧ PowerGives T12 3 .fpow12

/-- R429, R449: `fmulnr.2` multiplies by `u + 1`, `fmulnr.6` by `v`. -/
def Obligations.NonResidueGives : Prop :=
  UnaryGives T2 0x09 1 .fmulnr2 (fun a => mul2 a (1, 1)) ∧
  UnaryGives T6 0x09 2 .fmulnr6 (fun a => mul6 a (0, (1, 0), 0))

/-- R469, R607: `fmulnr.12` is legal and always ends with UndefinedOperation once its operand is read. -/
def Obligations.NonResidueTwelveRaises : Prop :=
  ∀ (s : State) (rd ra : Reg), rd.toNat + 12 ≤ 64 → ElemOk s ra.toNat 12 →
    Completes (commandWord 0x09 3 rd ra 0 0) (.fmulnr12 rd ra) s fun t => Raised s t 6

/-- R411, R430, R450, R470, R412, R431, R451, R471: `feq` and `fisone` at the four levels. -/
def Obligations.ComparisonSetsFlag : Prop :=
  EqualityGives 1 0 .feq1 ∧ EqualityGives 2 1 .feq2 ∧ EqualityGives 6 2 .feq6 ∧ EqualityGives 12 3 .feq12 ∧
  IsOneGives 1 0 .fisone1 ∧ IsOneGives 2 1 .fisone2 ∧ IsOneGives 6 2 .fisone6 ∧ IsOneGives 12 3 .fisone12

/-! # Point commands -/

/-- R503, R512, R513, R514: `padd` at the three levels. -/
def Obligations.PointAdditionGives : Prop := PaddGives T1 0 .padd1 ∧ PaddGives T2 1 .padd2 ∧ PaddGives T12 3 .padd12

/-- R502, R515, R516, R517: `pdbl` at the three levels. -/
def Obligations.PointDoublingGives : Prop := PdblGives T1 0 .pdbl1 ∧ PdblGives T2 1 .pdbl2 ∧ PdblGives T12 3 .pdbl12

/-- R504, R518, R519, R520: `pneg` at the three levels, an operand at infinity included. -/
def Obligations.PointNegationGives : Prop := PnegGives T1 0 .pneg1 ∧ PnegGives T2 1 .pneg2 ∧ PnegGives T12 3 .pneg12

/-- R506, R521, R522, R523: `pmul` at the three levels. -/
def Obligations.PointMultipleGives : Prop := PmulGives T1 0 .pmul1 ∧ PmulGives T2 1 .pmul2 ∧ PmulGives T12 3 .pmul12

/-- R510, R524, R525, R526: `poncurve` at the three levels, with the three curve constants. -/
def Obligations.OnCurveSetsFlag : Prop :=
  OnCurveGives T1 b1 0 .poncurve1 ∧ OnCurveGives T2 b2 1 .poncurve2 ∧ OnCurveGives T12 b12 3 .poncurve12

/-- R511, R527, R528, R529: `pinsubgrp` at the three levels. -/
def Obligations.SubgroupSetsFlag : Prop :=
  SubgroupGives T1 0 .pinsubgrp1 ∧ SubgroupGives T2 1 .pinsubgrp2 ∧ SubgroupGives T12 3 .pinsubgrp12

/-- R500, R503, R512: on points of G1's curve `padd.1` is the addition of the curve's group, as Mathlib defines it, and never
raises. -/
def Obligations.PaddIsGroupAddition : Prop :=
  ∀ [Fact (Nat.Prime Config.p)] (s : State) (rd ra rb : Reg) (P Q : E1.Point), rd.toNat + 3 ≤ 64 →
    Represents s ra.toNat P → Represents s rb.toNat Q →
    ∃ t ws, exec (.padd1 rd ra rb) s = .next t ∧ ws.length = 3 ∧ Wrote s t rd.toNat ws ∧ Represents t rd.toNat (P + Q)

/-- R506, R521: on points of G1's curve `pmul.1` is the multiple of the group by the whole scalar register, negative for SN = 1,
and never raises. -/
def Obligations.PmulIsGroupMultiple : Prop :=
  ∀ [Fact (Nat.Prime Config.p)] (s : State) (rd ra rb : Reg) (sn : Bool) (P : E1.Point), rd.toNat + 3 ≤ 64 →
    Represents s rb.toNat P →
    ∃ t ws, exec (.pmul1 rd ra rb sn) s = .next t ∧ ws.length = 3 ∧ Wrote s t rd.toNat ws ∧
      Represents t rd.toNat (if sn then -(wval s ra.toNat • P) else wval s ra.toNat • P)

/-- R511, R527: on points of G1's curve `pinsubgrp.1` decides whether `r P` is the zero of the group, and never raises. -/
def Obligations.SubgroupTestIsGroupTest : Prop :=
  ∀ [Fact (Nat.Prime Config.p)] (s : State) (ra : Reg) (P : E1.Point), Represents s ra.toNat P →
    ∃ t b, exec (.pinsubgrp1 ra) s = .next t ∧ Flagged s t b ∧ (b = true ↔ Config.r • P = 0)

/-! # The pairing engine -/

/-- R541, R542: `untwist` writes the closed form; a point at infinity raises InfinityOperand. -/
def Obligations.UntwistGives : Prop :=
  ∀ (s : State) (rd ra : Reg), rd.toNat + 25 ≤ 64 → PointOk s ra.toNat 2 →
    ((pointAt T2 s ra.toNat).inf = false → Completes (commandWord 0x20 0 rd ra 0 0) (.untwist rd ra) s fun t =>
      Wrote s t rd.toNat (wordsOfPoint T12 ⟨untwistX (pointAt T2 s ra.toNat), untwistY (pointAt T2 s ra.toNat), false⟩)) ∧
    ((pointAt T2 s ra.toNat).inf = true → ∃ t, exec (.untwist rd ra) s = .next t ∧ Raised s t 10)

/-- R543: `dbleval` writes the value of the tangent line; InfinityOperand first, then InverseOfZero for `R.y = 0`. -/
def Obligations.TangentValueGives : Prop :=
  ∀ (s : State) (rd ra rb : Reg), rd.toNat + 12 ≤ 64 → PointOk s ra.toNat 2 → PointOk s rb.toNat 1 →
    let R := pointAt T2 s ra.toNat
    let P := pointAt T1 s rb.toNat
    (R.inf = false ∧ P.inf = false ∧ R.y ≠ 0 →
      Completes (commandWord 0x21 0 rd ra rb 0) (.dbleval rd ra rb) s fun t =>
        ∃ l, IsTangentValue R P l ∧ Wrote s t rd.toNat (wordsOf T12 l)) ∧
    (R.inf = true ∨ P.inf = true → ∃ t, exec (.dbleval rd ra rb) s = .next t ∧ Raised s t 10) ∧
    (R.inf = false ∧ P.inf = false ∧ R.y = 0 → ∃ t, exec (.dbleval rd ra rb) s = .next t ∧ Raised s t 9)

/-- R544: `addeval` writes the value of the secant line, or of the vertical line when `R = -Q`; InfinityOperand first, then
InverseOfZero when the abscissas agree otherwise (no tangent when `R = Q`). -/
def Obligations.SecantValueGives : Prop :=
  ∀ (s : State) (rd ra rb rc : Reg), rd.toNat + 12 ≤ 64 → PointOk s ra.toNat 2 → PointOk s rb.toNat 2 →
    PointOk s rc.toNat 1 →
    let R := pointAt T2 s ra.toNat
    let Q := pointAt T2 s rb.toNat
    let P := pointAt T1 s rc.toNat
    (R.inf = false ∧ Q.inf = false ∧ P.inf = false ∧ (R.x = Q.x → R.y = -Q.y) →
      Completes (commandWord 0x22 0 rd ra rb rc) (.addeval rd ra rb rc) s fun t =>
        ∃ l, IsSecantValue R Q P l ∧ Wrote s t rd.toNat (wordsOf T12 l)) ∧
    (R.inf = true ∨ Q.inf = true ∨ P.inf = true → ∃ t, exec (.addeval rd ra rb rc) s = .next t ∧ Raised s t 10) ∧
    (R.inf = false ∧ Q.inf = false ∧ P.inf = false ∧ R.x = Q.x ∧ R.y ≠ -Q.y →
      ∃ t, exec (.addeval rd ra rb rc) s = .next t ∧ Raised s t 9)

/-- R545, R546: `miller` writes the value of the Miller loop when the loop meets no infinity and no zero denominator; an operand
at infinity is InfinityOperand, another failure of the loop InfinityOperand or InverseOfZero. -/
def Obligations.MillerGives : Prop :=
  ∀ (s : State) (rd ra rb : Reg), rd.toNat + 12 ≤ 64 → PointOk s ra.toNat 1 → PointOk s rb.toNat 2 →
    let P := pointAt T1 s ra.toNat
    let Q := pointAt T2 s rb.toNat
    (P.inf = false → Q.inf = false → ∀ f, IsMiller P Q f →
      Completes (commandWord 0x23 0 rd ra rb 0) (.miller rd ra rb) s fun t => Wrote s t rd.toNat (wordsOf T12 f)) ∧
    (P.inf = true ∨ Q.inf = true → ∃ t, exec (.miller rd ra rb) s = .next t ∧ Raised s t 10) ∧
    (P.inf = false → Q.inf = false → (¬∃ f, IsMiller P Q f) →
      ∃ t c, exec (.miller rd ra rb) s = .next t ∧ Raised s t c ∧ (c = 9 ∨ c = 10))

/-- R548: `pairing` of an input that is at infinity, off its curve or outside the subgroup completes without error and writes
twelve zero words. -/
def Obligations.PairingRejectsWithZero : Prop :=
  ∀ (s : State) (rd ra rb : Reg), rd.toNat + 12 ≤ 64 → PointOk s ra.toNat 1 → PointOk s rb.toNat 2 →
    let P := pointAt T1 s ra.toNat
    let Q := pointAt T2 s rb.toNat
    (P.inf = true ∨ Q.inf = true ∨ ¬OnCurve T1 b1 P ∨ ¬OnCurve T2 b2 Q ∨
      (∃ A, IsMultiple T1 Config.r false P A ∧ A.inf = false) ∨
      (∃ A B, IsMultiple T1 Config.r false P A ∧ A.inf = true ∧ IsMultiple T2 Config.r false Q B ∧ B.inf = false)) →
    Completes (commandWord 0x24 0 rd ra rb 0) (.pairing rd ra rb) s fun t =>
      Wrote s t rd.toNat [0, 0, 0, 0, 0, 0, 0, 0, 0, 0, 0, 0]

/-- R548: `pairing` of two points on their curves and in the subgroup writes the value of the Miller loop. -/
def Obligations.PairingAcceptedGives : Prop :=
  ∀ (s : State) (rd ra rb : Reg) (A : Point F) (B : Point F2) (f : F12), rd.toNat + 12 ≤ 64 → PointOk s ra.toNat 1 →
    PointOk s rb.toNat 2 → OnCurve T1 b1 (pointAt T1 s ra.toNat) → OnCurve T2 b2 (pointAt T2 s rb.toNat) →
    IsMultiple T1 Config.r false (pointAt T1 s ra.toNat) A → A.inf = true →
    IsMultiple T2 Config.r false (pointAt T2 s rb.toNat) B → B.inf = true →
    IsMiller (pointAt T1 s ra.toNat) (pointAt T2 s rb.toNat) f →
    Completes (commandWord 0x24 0 rd ra rb 0) (.pairing rd ra rb) s fun t => Wrote s t rd.toNat (wordsOf T12 f)

/-- R548, R618: once its operands are read, `pairing` never raises: it completes for every pair of points, on the curves or
not. -/
def Obligations.PairingNeverRaises : Prop :=
  ∀ (s : State) (rd ra rb : Reg), rd.toNat + 12 ≤ 64 → PointOk s ra.toNat 1 → PointOk s rb.toNat 2 →
    ∃ t ws, exec (.pairing rd ra rb) s = .next t ∧ ws.length = 12 ∧ Wrote s t rd.toNat ws

/-- R550, R551, R552: `finalexp` raises to the exact quotient of `p^12 - 1` by `r`. -/
def Obligations.FinalExpGives : Prop :=
  ∃ e : Nat, e * Config.r = Config.p ^ 12 - 1 ∧ UnaryGives T12 0x25 0 .finalexp (fun f => power T12 f e)

/-- R7, R8, R552: `r` and `p` come from `X` by the BLS12 formulas; the exponent of `finalexp` is the exact quotient and has the
4314 bits, the low 64 bits and the residue printed; the Miller bits are those printed. -/
def Obligations.ConstantsOfTheSpec : Prop :=
  Config.r = Config.X ^ 4 - Config.X ^ 2 + 1 ∧
  3 * (Config.p + Config.X) = (Config.X + 1) ^ 2 * Config.r ∧
  feExp * Config.r = Config.p ^ 12 - 1 ∧ 2 ^ 4313 ≤ feExp ∧ feExp < 2 ^ 4314 ∧ feExp % 2 ^ 64 = 0xc0bcb9b55df57510 ∧
  feExp % 1000003 = 672869 ∧ millerBits = printedBits

/-! # Square roots and encodings -/

/-- R570, R571: `sqrt.1` writes the root `n^((p+1)/4)` of a nonzero square and raises NoSquareRoot for zero and for a
non-residue. -/
def Obligations.SquareRootOneGives : Prop :=
  ∀ (s : State) (rd ra : Reg), ElemOk s ra.toNat 1 →
    let n := elemAt T1 s ra.toNat
    (n ≠ 0 ∧ IsSquare n → Completes (commandWord 0x30 0 rd ra 0 0) (.sqrt1 rd ra) s fun t =>
      ∃ y : F, y * y = n ∧ y = n ^ ((Config.p + 1) / 4) ∧ Wrote s t rd.toNat [y.val]) ∧
    (n = 0 ∨ ¬IsSquare n → ∃ t, exec (.sqrt1 rd ra) s = .next t ∧ Raised s t 3)

/-- R572, R573: `sqrt.2` writes a root of every square, zero included, the particular root of R572, and raises NoSquareRoot for
every other element. -/
def Obligations.SquareRootTwoGives : Prop :=
  ∀ (s : State) (rd ra : Reg), rd.toNat + 2 ≤ 64 → ElemOk s ra.toNat 2 →
    let a := elemAt T2 s ra.toNat
    let alpha := power T2 a ((Config.p - 1) / 2)
    let x0 := power T2 a ((Config.p + 1) / 4)
    ((∃ z, mul2 z z = a) → Completes (commandWord 0x30 1 rd ra 0 0) (.sqrt2 rd ra) s fun t =>
      ∃ y : F2, mul2 y y = a ∧ Wrote s t rd.toNat (wordsOf T2 y) ∧
        y = if alpha = -T2.one then (-x0.2, x0.1) else mul2 (power T2 (alpha + T2.one) ((Config.p - 1) / 2)) x0) ∧
    ((¬∃ z, mul2 z z = a) → ∃ t, exec (.sqrt2 rd ra) s = .next t ∧ Raised s t 3)

/-- R574, R575, R577, R580: `compress.1`. -/
def Obligations.CompressOneGives : Prop :=
  ∀ (s : State) (rd ra : Reg), PointOk s ra.toNat 1 →
    let P := pointAt T1 s ra.toNat
    (∀ R, IsMultiple T1 Config.r false P R → R.inf = true →
      Completes (commandWord 0x31 0 rd ra 0 0) (.compress1 rd ra) s fun t =>
        Wrote s t rd.toNat [if P.inf then 2 ^ 383 + 2 ^ 382 else codeWord (sign1Of P.y) P.x]) ∧
    (∀ R, IsMultiple T1 Config.r false P R → R.inf = false →
      ∃ t, exec (.compress1 rd ra) s = .next t ∧ Raised s t 1) ∧
    ((¬∃ R, IsMultiple T1 Config.r false P R) → ∃ t, exec (.compress1 rd ra) s = .next t ∧ Raised s t 9)

/-- R574, R576, R577, R582: `compress.2`, the flagged `x.a1` first. -/
def Obligations.CompressTwoGives : Prop :=
  ∀ (s : State) (rd ra : Reg), rd.toNat + 2 ≤ 64 → PointOk s ra.toNat 2 →
    let P := pointAt T2 s ra.toNat
    (∀ R, IsMultiple T2 Config.r false P R → R.inf = true →
      Completes (commandWord 0x31 1 rd ra 0 0) (.compress2 rd ra) s fun t =>
        Wrote s t rd.toNat (if P.inf then [2 ^ 383 + 2 ^ 382, 0] else [codeWord (sign2Of P.y) P.x.2, P.x.1.val])) ∧
    (∀ R, IsMultiple T2 Config.r false P R → R.inf = false →
      ∃ t, exec (.compress2 rd ra) s = .next t ∧ Raised s t 1) ∧
    ((¬∃ R, IsMultiple T2 Config.r false P R) → ∃ t, exec (.compress2 rd ra) s = .next t ∧ Raised s t 9)

/-- R574, R575, R577, R581: `decompress.1` on every word: the three malformed patterns, infinity, the root with the encoded
sign, and NoSquareRoot. -/
def Obligations.DecompressOneGives : Prop :=
  ∀ (s : State) (rd ra : Reg), rd.toNat + 3 ≤ 64 →
    let z : Nat := wval s ra.toNat
    let c : Nat := z / 2 ^ 383 % 2
    let i : Nat := z / 2 ^ 382 % 2
    let sg : Nat := z / 2 ^ 381 % 2
    let x : Nat := z % 2 ^ 381
    (c = 0 ∨ (i = 1 ∧ (sg = 1 ∨ x ≠ 0)) ∨ (i = 0 ∧ Config.p ≤ x) →
      ∃ t, exec (.decompress1 rd ra) s = .next t ∧ Raised s t 2) ∧
    (c = 1 ∧ i = 1 ∧ sg = 0 ∧ x = 0 → Completes (commandWord 0x32 0 rd ra 0 0) (.decompress1 rd ra) s fun t =>
      Wrote s t rd.toNat [0, 0, 1]) ∧
    (c = 1 ∧ i = 0 ∧ x < Config.p ∧ IsSquare ((x : F) * x * x + 4) →
      Completes (commandWord 0x32 0 rd ra 0 0) (.decompress1 rd ra) s fun t =>
        ∃ y : F, y * y = (x : F) * x * x + 4 ∧ sign1Of y = sg ∧ Wrote s t rd.toNat [x, y.val, 0]) ∧
    (c = 1 ∧ i = 0 ∧ x < Config.p ∧ ¬IsSquare ((x : F) * x * x + 4) →
      ∃ t, exec (.decompress1 rd ra) s = .next t ∧ Raised s t 3)

/-- R574, R576, R577, R583: `decompress.2` on every pair of words. -/
def Obligations.DecompressTwoGives : Prop :=
  ∀ (s : State) (rd ra : Reg), rd.toNat + 5 ≤ 64 → ra.toNat + 2 ≤ 64 →
    let z1 : Nat := wval s ra.toNat
    let z0 : Nat := wval s (ra.toNat + 1)
    let c : Nat := z1 / 2 ^ 383 % 2
    let i : Nat := z1 / 2 ^ 382 % 2
    let sg : Nat := z1 / 2 ^ 381 % 2
    let x1 : Nat := z1 % 2 ^ 381
    let x : F2 := ((z0 : F), (x1 : F))
    (c = 0 ∨ 2 ^ 381 ≤ z0 ∨ (i = 1 ∧ (sg = 1 ∨ x1 ≠ 0 ∨ z0 ≠ 0)) ∨ (i = 0 ∧ (Config.p ≤ x1 ∨ Config.p ≤ z0)) →
      ∃ t, exec (.decompress2 rd ra) s = .next t ∧ Raised s t 2) ∧
    (c = 1 ∧ i = 1 ∧ sg = 0 ∧ x1 = 0 ∧ z0 = 0 →
      Completes (commandWord 0x32 1 rd ra 0 0) (.decompress2 rd ra) s fun t => Wrote s t rd.toNat [0, 0, 0, 0, 1]) ∧
    (c = 1 ∧ i = 0 ∧ x1 < Config.p ∧ z0 < Config.p ∧ (∃ y, mul2 y y = mul2 (mul2 x x) x + b2) →
      Completes (commandWord 0x32 1 rd ra 0 0) (.decompress2 rd ra) s fun t =>
        ∃ y : F2, mul2 y y = mul2 (mul2 x x) x + b2 ∧ sign2Of y = sg ∧
          Wrote s t rd.toNat [z0, x1, y.1.val, y.2.val, 0]) ∧
    (c = 1 ∧ i = 0 ∧ x1 < Config.p ∧ z0 < Config.p ∧ (¬∃ y, mul2 y y = mul2 (mul2 x x) x + b2) →
      ∃ t, exec (.decompress2 rd ra) s = .next t ∧ Raised s t 3)

/-- R584: "for every point P in the correct subgroup, decompress(compress(P)) equals P, for both G1 and G2": the encoding that
`compress` leaves at RD, decompressed from there, is the point again; for infinity it is the canonical one. -/
def Obligations.RoundTrip : Prop :=
  (∀ (s : State) (rd ra re : Reg) (R : Point F), re.toNat + 3 ≤ 64 → PointOk s ra.toNat 1 →
    IsMultiple T1 Config.r false (pointAt T1 s ra.toNat) R → R.inf = true →
    (pointAt T1 s ra.toNat).inf = true ∨ OnCurve T1 b1 (pointAt T1 s ra.toNat) →
    ∃ t u, exec (.compress1 rd ra) s = .next t ∧ exec (.decompress1 re rd) t = .next u ∧
      Wrote t u re.toNat
        (wordsOfPoint T1 (if (pointAt T1 s ra.toNat).inf then infinity else pointAt T1 s ra.toNat))) ∧
  (∀ (s : State) (rd ra re : Reg) (R : Point F2), rd.toNat + 2 ≤ 64 → re.toNat + 5 ≤ 64 → PointOk s ra.toNat 2 →
    IsMultiple T2 Config.r false (pointAt T2 s ra.toNat) R → R.inf = true →
    (pointAt T2 s ra.toNat).inf = true ∨ OnCurve T2 b2 (pointAt T2 s ra.toNat) →
    ∃ t u, exec (.compress2 rd ra) s = .next t ∧ exec (.decompress2 re rd) t = .next u ∧
      Wrote t u re.toNat
        (wordsOfPoint T2 (if (pointAt T2 s ra.toNat).inf then infinity else pointAt T2 s ra.toNat)))
end

