-- ==== Sys2Proof/Laws/Prime.lean ====
section
/-! SUPPORT. The base modulus and the subgroup order are prime (00_scope.md R7), by Lucas's criterion: each prime factor of `n - 1` is certified in
turn, down to factors small enough for `norm_num`. -/

namespace Sys2Proof.Laws

/-- `acc * b ^ e % n` by square and multiply, on numbers only; `fuel` bounds the number of bits of `e`. -/
def modPow (n : Nat) : Nat → Nat → Nat → Nat → Nat
  | 0, acc, _, _ => acc
  | fuel + 1, acc, b, e =>
    if e = 0 then acc else modPow n fuel (if e % 2 = 1 then acc * b % n else acc) (b * b % n) (e / 2)

theorem modPow_cast (n fuel acc b e : Nat) (he : e < 2 ^ fuel) :
    ((modPow n fuel acc b e : Nat) : ZMod n) = (acc : ZMod n) * (b : ZMod n) ^ e := by
  induction fuel generalizing acc b e with
  | zero =>
    have : e = 0 := by simpa using he
    simp [modPow, this]
  | succ fuel ih =>
    rw [modPow]
    split
    next h => simp [h]
    next h =>
      rw [ih _ _ _ (by rw [pow_succ] at he; omega)]
      have hb : (b : ZMod n) ^ e = (b : ZMod n) ^ (e % 2) * ((b : ZMod n) * b) ^ (e / 2) := by
        rw [← pow_two, ← pow_mul, ← pow_add, Nat.mod_add_div]
      rw [hb]
      rcases Nat.mod_two_eq_zero_or_one e with h2 | h2 <;> simp [h2, mul_assoc]

/-- Lucas's criterion on numbers: `a` has order `n - 1` modulo `n`, whose prime factors are all among `fs`. -/
theorem prime_of_lucas (n a : Nat) (fs : List Nat) (hn : 1 < n) (hs : n < 2 ^ 400)
    (hprod : fs.prod = n - 1) (hprime : ∀ f ∈ fs, f.Prime)
    (h1 : modPow n 400 1 a (n - 1) = 1)
    (hne : ∀ f ∈ fs, modPow n 400 1 a ((n - 1) / f) % n ≠ 1) : n.Prime := by
  refine lucas_primality n (a : ZMod n) ?_ ?_
  · have h := modPow_cast n 400 1 a (n - 1) (by omega)
    rw [h1] at h
    simpa using h.symm
  · intro q hq hdvd heq
    have hmem : q ∈ fs := by
      rw [← hprod] at hdvd
      obtain ⟨f, hf, hqf⟩ := (Nat.Prime.prime hq).dvd_prod_iff.mp hdvd
      rwa [(Nat.prime_dvd_prime_iff_eq hq (hprime f hf)).mp hqf]
    have h := modPow_cast n 400 1 a ((n - 1) / q) (lt_of_le_of_lt (Nat.div_le_self _ _) (by omega))
    simp only [Nat.cast_one, one_mul, heq] at h
    apply hne q hmem
    have h' := (ZMod.natCast_eq_natCast_iff' _ 1 n).mp (by simpa using h)
    rwa [Nat.mod_eq_of_lt hn] at h'

theorem prime_a : (13090036741).Prime := by
  refine prime_of_lucas _ 10
    [2, 2, 3, 5, 11, 47, 421987]
    (by decide +kernel) (by decide +kernel) (by decide +kernel) ?_ (by decide +kernel) (by decide +kernel)
  simp only [List.forall_mem_cons, List.not_mem_nil, false_implies, implies_true, and_true]
  exact ⟨by norm_num, by norm_num, by norm_num, by norm_num, by norm_num, by norm_num, by norm_num⟩

theorem prime_b : (3819663927398918131021).Prime := by
  refine prime_of_lucas _ 6
    [2, 2, 3, 3, 5, 19, 113, 755057, 13090036741]
    (by decide +kernel) (by decide +kernel) (by decide +kernel) ?_ (by decide +kernel) (by decide +kernel)
  simp only [List.forall_mem_cons, List.not_mem_nil, false_implies, implies_true, and_true]
  exact ⟨by norm_num, by norm_num, by norm_num, by norm_num, by norm_num, by norm_num, by norm_num, by norm_num, prime_a⟩

theorem prime_c : (51376543).Prime := by
  refine prime_of_lucas _ 3
    [2, 3, 7, 151, 8101]
    (by decide +kernel) (by decide +kernel) (by decide +kernel) ?_ (by decide +kernel) (by decide +kernel)
  simp only [List.forall_mem_cons, List.not_mem_nil, false_implies, implies_true, and_true]
  exact ⟨by norm_num, by norm_num, by norm_num, by norm_num, by norm_num⟩

theorem prime_d : (43670061551).Prime := by
  refine prime_of_lucas _ 7
    [2, 5, 5, 17, 51376543]
    (by decide +kernel) (by decide +kernel) (by decide +kernel) ?_ (by decide +kernel) (by decide +kernel)
  simp only [List.forall_mem_cons, List.not_mem_nil, false_implies, implies_true, and_true]
  exact ⟨by norm_num, by norm_num, by norm_num, by norm_num, prime_c⟩

theorem prime_e : (1125266252156850182658904441386709967).Prime := by
  refine prime_of_lucas _ 5
    [2, 3373, 43670061551, 3819663927398918131021]
    (by decide +kernel) (by decide +kernel) (by decide +kernel) ?_ (by decide +kernel) (by decide +kernel)
  simp only [List.forall_mem_cons, List.not_mem_nil, false_implies, implies_true, and_true]
  exact ⟨by norm_num, by norm_num, prime_d, prime_b⟩

theorem prime_f : (927093389).Prime := by
  refine prime_of_lucas _ 3
    [2, 2, 13, 409, 43591]
    (by decide +kernel) (by decide +kernel) (by decide +kernel) ?_ (by decide +kernel) (by decide +kernel)
  simp only [List.forall_mem_cons, List.not_mem_nil, false_implies, implies_true, and_true]
  exact ⟨by norm_num, by norm_num, by norm_num, by norm_num, by norm_num⟩

theorem prime_g : (64881703735777).Prime := by
  refine prime_of_lucas _ 5
    [2, 2, 2, 2, 2, 3, 3, 3, 3, 3, 3, 3, 927093389]
    (by decide +kernel) (by decide +kernel) (by decide +kernel) ?_ (by decide +kernel) (by decide +kernel)
  simp only [List.forall_mem_cons, List.not_mem_nil, false_implies, implies_true, and_true]
  exact ⟨by norm_num, by norm_num, by norm_num, by norm_num, by norm_num, by norm_num, by norm_num, by norm_num, by norm_num, by norm_num, by norm_num, by norm_num, prime_f⟩

theorem prime_h : (92691255082156974996979).Prime := by
  refine prime_of_lucas _ 3
    [2, 3, 31, 467, 16447, 64881703735777]
    (by decide +kernel) (by decide +kernel) (by decide +kernel) ?_ (by decide +kernel) (by decide +kernel)
  simp only [List.forall_mem_cons, List.not_mem_nil, false_implies, implies_true, and_true]
  exact ⟨by norm_num, by norm_num, by norm_num, by norm_num, by norm_num, prime_g⟩

theorem prime_i : (1686913).Prime := by
  refine prime_of_lucas _ 10
    [2, 2, 2, 2, 2, 2, 2, 3, 23, 191]
    (by decide +kernel) (by decide +kernel) (by decide +kernel) ?_ (by decide +kernel) (by decide +kernel)
  simp only [List.forall_mem_cons, List.not_mem_nil, false_implies, implies_true, and_true]
  exact ⟨by norm_num, by norm_num, by norm_num, by norm_num, by norm_num, by norm_num, by norm_num, by norm_num, by norm_num, by norm_num⟩

theorem prime_j : (475709467).Prime := by
  refine prime_of_lucas _ 2
    [2, 3, 47, 1686913]
    (by decide +kernel) (by decide +kernel) (by decide +kernel) ?_ (by decide +kernel) (by decide +kernel)
  simp only [List.forall_mem_cons, List.not_mem_nil, false_implies, implies_true, and_true]
  exact ⟨by norm_num, by norm_num, by norm_num, prime_i⟩

theorem prime_k : (15778400344354997994418419698270088123916926905054652752758194827714659).Prime := by
  refine prime_of_lucas _ 2
    [2, 3, 53, 475709467, 92691255082156974996979, 1125266252156850182658904441386709967]
    (by decide +kernel) (by decide +kernel) (by decide +kernel) ?_ (by decide +kernel) (by decide +kernel)
  simp only [List.forall_mem_cons, List.not_mem_nil, false_implies, implies_true, and_true]
  exact ⟨by norm_num, by norm_num, by norm_num, prime_j, prime_h, prime_e⟩

theorem prime_l : (52437899).Prime := by
  refine prime_of_lucas _ 2
    [2, 43, 609743]
    (by decide +kernel) (by decide +kernel) (by decide +kernel) ?_ (by decide +kernel) (by decide +kernel)
  simp only [List.forall_mem_cons, List.not_mem_nil, false_implies, implies_true, and_true]
  exact ⟨by norm_num, by norm_num, by norm_num⟩

theorem prime_m : (9272813673901).Prime := by
  refine prime_of_lucas _ 2
    [2, 2, 3, 5, 5, 7, 7577, 582767]
    (by decide +kernel) (by decide +kernel) (by decide +kernel) ?_ (by decide +kernel) (by decide +kernel)
  simp only [List.forall_mem_cons, List.not_mem_nil, false_implies, implies_true, and_true]
  exact ⟨by norm_num, by norm_num, by norm_num, by norm_num, by norm_num, by norm_num, by norm_num, by norm_num⟩

theorem prime_n : (1928745244171409).Prime := by
  refine prime_of_lucas _ 3
    [2, 2, 2, 2, 13, 9272813673901]
    (by decide +kernel) (by decide +kernel) (by decide +kernel) ?_ (by decide +kernel) (by decide +kernel)
  simp only [List.forall_mem_cons, List.not_mem_nil, false_implies, implies_true, and_true]
  exact ⟨by norm_num, by norm_num, by norm_num, by norm_num, by norm_num, prime_m⟩

theorem prime_o : (7259797099061183477).Prime := by
  refine prime_of_lucas _ 2
    [2, 2, 941, 1928745244171409]
    (by decide +kernel) (by decide +kernel) (by decide +kernel) ?_ (by decide +kernel) (by decide +kernel)
  simp only [List.forall_mem_cons, List.not_mem_nil, false_implies, implies_true, and_true]
  exact ⟨by norm_num, by norm_num, by norm_num, prime_n⟩

theorem prime_p : (2584487767265781317813).Prime := by
  refine prime_of_lucas _ 2
    [2, 2, 89, 7259797099061183477]
    (by decide +kernel) (by decide +kernel) (by decide +kernel) ?_ (by decide +kernel) (by decide +kernel)
  simp only [List.forall_mem_cons, List.not_mem_nil, false_implies, implies_true, and_true]
  exact ⟨by norm_num, by norm_num, by norm_num, prime_o⟩

theorem p_prime : (Config.p).Prime := by
  refine prime_of_lucas _ 2
    [2, 3, 3, 11, 23, 47, 10177, 859267, 52437899, 2584487767265781317813, 15778400344354997994418419698270088123916926905054652752758194827714659]
    (by decide +kernel) (by decide +kernel) (by decide +kernel) ?_ (by decide +kernel) (by decide +kernel)
  simp only [List.forall_mem_cons, List.not_mem_nil, false_implies, implies_true, and_true]
  exact ⟨by norm_num, by norm_num, by norm_num, by norm_num, by norm_num, by norm_num, by norm_num, by norm_num, prime_l, prime_p, prime_k⟩

theorem prime_r : (2653753).Prime := by
  refine prime_of_lucas _ 5
    [2, 2, 2, 3, 110573]
    (by decide +kernel) (by decide +kernel) (by decide +kernel) ?_ (by decide +kernel) (by decide +kernel)
  simp only [List.forall_mem_cons, List.not_mem_nil, false_implies, implies_true, and_true]
  exact ⟨by norm_num, by norm_num, by norm_num, by norm_num, by norm_num⟩

theorem prime_s : (63690073).Prime := by
  refine prime_of_lucas _ 7
    [2, 2, 2, 3, 2653753]
    (by decide +kernel) (by decide +kernel) (by decide +kernel) ?_ (by decide +kernel) (by decide +kernel)
  simp only [List.forall_mem_cons, List.not_mem_nil, false_implies, implies_true, and_true]
  exact ⟨by norm_num, by norm_num, by norm_num, by norm_num, prime_r⟩

theorem prime_t : (254760293).Prime := by
  refine prime_of_lucas _ 2
    [2, 2, 63690073]
    (by decide +kernel) (by decide +kernel) (by decide +kernel) ?_ (by decide +kernel) (by decide +kernel)
  simp only [List.forall_mem_cons, List.not_mem_nil, false_implies, implies_true, and_true]
  exact ⟨by norm_num, by norm_num, prime_s⟩

theorem prime_u : (2508409).Prime := by
  refine prime_of_lucas _ 11
    [2, 2, 2, 3, 3, 3, 3, 7, 7, 79]
    (by decide +kernel) (by decide +kernel) (by decide +kernel) ?_ (by decide +kernel) (by decide +kernel)
  simp only [List.forall_mem_cons, List.not_mem_nil, false_implies, implies_true, and_true]
  exact ⟨by norm_num, by norm_num, by norm_num, by norm_num, by norm_num, by norm_num, by norm_num, by norm_num, by norm_num, by norm_num⟩

theorem prime_v : (2529403).Prime := by
  refine prime_of_lucas _ 2
    [2, 3, 23, 18329]
    (by decide +kernel) (by decide +kernel) (by decide +kernel) ?_ (by decide +kernel) (by decide +kernel)
  simp only [List.forall_mem_cons, List.not_mem_nil, false_implies, implies_true, and_true]
  exact ⟨by norm_num, by norm_num, by norm_num, by norm_num⟩

theorem r_prime : (Config.r).Prime := by
  refine prime_of_lucas _ 7
    [2, 2, 2, 2, 2, 2, 2, 2, 2, 2, 2, 2, 2, 2, 2, 2, 2, 2, 2, 2, 2, 2, 2, 2, 2, 2, 2, 2, 2, 2, 2, 2, 3, 11, 19, 10177, 125527, 859267, 906349, 906349, 2508409, 2529403, 52437899, 254760293, 254760293]
    (by decide +kernel) (by decide +kernel) (by decide +kernel) ?_ (by decide +kernel) (by decide +kernel)
  simp only [List.forall_mem_cons, List.not_mem_nil, false_implies, implies_true, and_true]
  exact ⟨by norm_num, by norm_num, by norm_num, by norm_num, by norm_num, by norm_num, by norm_num, by norm_num, by norm_num, by norm_num, by norm_num, by norm_num, by norm_num, by norm_num, by norm_num, by norm_num, by norm_num, by norm_num, by norm_num, by norm_num, by norm_num, by norm_num, by norm_num, by norm_num, by norm_num, by norm_num, by norm_num, by norm_num, by norm_num, by norm_num, by norm_num, by norm_num, by norm_num, by norm_num, by norm_num, by norm_num, by norm_num, by norm_num, by norm_num, by norm_num, prime_u, prime_v, prime_l, prime_t, prime_t⟩

end Sys2Proof.Laws
end

