-- ==== Sys2Proof/Laws/Field.lean ====
section
/-! SUPPORT. The machine's field tower is the reference tower over `ZMod p`: every operation of every level commutes with
the map that reads a canonical coefficient as an element of `ZMod p`. -/

namespace Sys2Proof.Laws

open Sys2Proof.Machine
open Sys2Proof.Reference
open Sys2Proof.Config (p)

/-! ## Level 1 -/

/-- A canonical coefficient as an element of `ZMod p`. -/
def toF (a : Fp) : F := (a.val : F)

theorem toF_fpOfNat (n : Nat) : toF (fpOfNat n) = (n : F) := by
  simp only [toF, fpOfNat]
  exact ZMod.natCast_mod n p

theorem val_toF (a : Fp) : (toF a).val = a.val := ZMod.val_cast_of_lt a.isLt

theorem toF_injective : Function.Injective toF := fun a b h => by
  apply Fin.ext
  rw [← val_toF a, ← val_toF b, h]

theorem cast_p : ((p : Nat) : F) = 0 := ZMod.natCast_self p

theorem toF_zero : toF fpZero = 0 := by rw [fpZero, toF_fpOfNat, Nat.cast_zero]
theorem toF_one : toF fpOne = 1 := by rw [fpOne, toF_fpOfNat, Nat.cast_one]

theorem toF_add (a b : Fp) : toF (fpAdd a b) = toF a + toF b := by
  rw [fpAdd, toF_fpOfNat, Nat.cast_add]; rfl

theorem toF_sub (a b : Fp) : toF (fpSub a b) = toF a - toF b := by
  rw [fpSub, toF_fpOfNat, Nat.cast_add, Nat.cast_sub b.isLt.le, cast_p, zero_sub, ← sub_eq_add_neg]; rfl

theorem toF_neg (a : Fp) : toF (fpNeg a) = -toF a := by
  rw [fpNeg, toF_fpOfNat, Nat.cast_sub a.isLt.le, cast_p, zero_sub]; rfl

theorem toF_mul (a b : Fp) : toF (fpMul a b) = toF a * toF b := by
  rw [fpMul, toF_fpOfNat, Nat.cast_mul]; rfl

/-! ## Levels 2, 6 and 12 -/

def toF2 (a : Fp2) : F2 := (toF a.a0, toF a.a1)
def toF6 (a : Fp6) : F6 := (toF2 a.b0, toF2 a.b1, toF2 a.b2)
def toF12 (a : Fp12) : F12 := (toF6 a.c0, toF6 a.c1)

theorem toF2_injective : Function.Injective toF2 := fun a b h => by
  cases a; cases b
  simp only [toF2, Prod.mk.injEq] at h
  rw [toF_injective h.1, toF_injective h.2]

theorem toF6_injective : Function.Injective toF6 := fun a b h => by
  cases a; cases b
  simp only [toF6, Prod.mk.injEq] at h
  rw [toF2_injective h.1, toF2_injective h.2.1, toF2_injective h.2.2]

theorem toF12_injective : Function.Injective toF12 := fun a b h => by
  cases a; cases b
  simp only [toF12, Prod.mk.injEq] at h
  rw [toF6_injective h.1, toF6_injective h.2]

theorem toF2_zero : toF2 fp2Zero = 0 := by simp only [toF2, fp2Zero, toF_zero]; rfl
theorem toF2_one : toF2 fp2One = T2.one := by simp only [toF2, fp2One, toF_zero, toF_one]; rfl
theorem toF2_add (a b : Fp2) : toF2 (fp2Add a b) = toF2 a + toF2 b := by
  simp only [toF2, fp2Add, toF_add, Prod.mk_add_mk]
theorem toF2_sub (a b : Fp2) : toF2 (fp2Sub a b) = toF2 a - toF2 b := by
  simp only [toF2, fp2Sub, toF_sub, Prod.mk_sub_mk]
theorem toF2_neg (a : Fp2) : toF2 (fp2Neg a) = -toF2 a := by
  simp only [toF2, fp2Neg, toF_neg, Prod.neg_mk]
theorem toF2_mul (a b : Fp2) : toF2 (fp2Mul a b) = mul2 (toF2 a) (toF2 b) := by
  simp only [toF2, fp2Mul, mul2, toF_add, toF_sub, toF_mul]
theorem toF2_mulNr (a : Fp2) : toF2 (fp2MulNr a) = timesNr (toF2 a) := by
  simp only [toF2, fp2MulNr, timesNr, toF_add, toF_sub]

theorem toF6_zero : toF6 fp6Zero = 0 := by simp only [toF6, fp6Zero, toF2_zero]; rfl
theorem toF6_one : toF6 fp6One = T6.one := by simp only [toF6, fp6One, toF2_zero, toF2_one]; rfl
theorem toF6_add (a b : Fp6) : toF6 (fp6Add a b) = toF6 a + toF6 b := by
  simp only [toF6, fp6Add, toF2_add, Prod.mk_add_mk]
theorem toF6_sub (a b : Fp6) : toF6 (fp6Sub a b) = toF6 a - toF6 b := by
  simp only [toF6, fp6Sub, toF2_sub, Prod.mk_sub_mk]
theorem toF6_neg (a : Fp6) : toF6 (fp6Neg a) = -toF6 a := by
  simp only [toF6, fp6Neg, toF2_neg, Prod.neg_mk]
theorem toF6_mulNr (a : Fp6) : toF6 (fp6MulNr a) = timesV (toF6 a) := by
  simp only [toF6, fp6MulNr, timesV, toF2_mulNr]

/-- The three Karatsuba lines are the product of the polynomials (42_field_fp6.md R446). -/
theorem toF6_mul (a b : Fp6) : toF6 (fp6Mul a b) = mul6 (toF6 a) (toF6 b) := by
  simp only [toF6, fp6Mul, mul6, toF2_add, toF2_sub, toF2_mul, toF2_mulNr, mul2, timesNr, Prod.ext_iff,
    Prod.fst_add, Prod.snd_add, Prod.fst_sub, Prod.snd_sub]
  refine ⟨⟨?_, ?_⟩, ⟨?_, ?_⟩, ?_, ?_⟩ <;> ring

theorem toF12_zero : toF12 fp12Zero = 0 := by simp only [toF12, fp12Zero, toF6_zero]; rfl
theorem toF12_one : toF12 fp12One = T12.one := by simp only [toF12, fp12One, toF6_zero, toF6_one]; rfl
theorem toF12_add (a b : Fp12) : toF12 (fp12Add a b) = toF12 a + toF12 b := by
  simp only [toF12, fp12Add, toF6_add, Prod.mk_add_mk]
theorem toF12_sub (a b : Fp12) : toF12 (fp12Sub a b) = toF12 a - toF12 b := by
  simp only [toF12, fp12Sub, toF6_sub, Prod.mk_sub_mk]
theorem toF12_neg (a : Fp12) : toF12 (fp12Neg a) = -toF12 a := by
  simp only [toF12, fp12Neg, toF6_neg, Prod.neg_mk]
theorem toF12_mul (a b : Fp12) : toF12 (fp12Mul a b) = mul12 (toF12 a) (toF12 b) := by
  simp only [toF12, fp12Mul, mul12, toF6_add, toF6_mul, toF6_mulNr]

/-! ## The reference products are commutative and associative, with a one -/

theorem mul2_comm (a b : F2) : mul2 a b = mul2 b a := by
  simp only [mul2, Prod.mk.injEq]; constructor <;> ring

theorem mul2_assoc (a b c : F2) : mul2 (mul2 a b) c = mul2 a (mul2 b c) := by
  simp only [mul2, Prod.mk.injEq]; constructor <;> ring

theorem mul2_add (a b c : F2) : mul2 a (b + c) = mul2 a b + mul2 a c := by
  simp only [mul2, Prod.fst_add, Prod.snd_add, Prod.mk_add_mk, Prod.mk.injEq]; constructor <;> ring

theorem add_mul2 (a b c : F2) : mul2 (a + b) c = mul2 a c + mul2 b c := by
  rw [mul2_comm, mul2_add, mul2_comm c, mul2_comm c]

theorem mul2_one (a : F2) : mul2 a (1, 0) = a := by simp [mul2]
theorem mul2_zero (a : F2) : mul2 a 0 = 0 := by simp [mul2]

theorem timesNr_mul2 (a b : F2) : mul2 (timesNr a) b = timesNr (mul2 a b) := by
  simp only [mul2, timesNr, Prod.mk.injEq]; constructor <;> ring

theorem timesNr_add (a b : F2) : timesNr (a + b) = timesNr a + timesNr b := by
  simp only [timesNr, Prod.fst_add, Prod.snd_add, Prod.mk_add_mk, Prod.mk.injEq]; constructor <;> ring

theorem timesNr_zero : timesNr 0 = 0 := by simp [timesNr]

theorem mul6_comm (a b : F6) : mul6 a b = mul6 b a := by
  simp only [mul6, mul2_comm b.1, mul2_comm b.2.1, mul2_comm b.2.2, Prod.mk.injEq]
  refine ⟨?_, ?_, ?_⟩
  · rw [add_comm (mul2 a.2.1 b.2.2)]
  · rw [add_comm (mul2 a.1 b.2.1)]
  · abel

theorem mul2_timesNr (a b : F2) : mul2 a (timesNr b) = timesNr (mul2 a b) := by
  rw [mul2_comm, timesNr_mul2, mul2_comm]

theorem mul6_add (a b c : F6) : mul6 a (b + c) = mul6 a b + mul6 a c := by
  simp only [mul6, Prod.fst_add, Prod.snd_add, mul2_add, timesNr_add, Prod.mk_add_mk, Prod.mk.injEq]
  refine ⟨?_, ?_, ?_⟩ <;> abel

theorem add_mul6 (a b c : F6) : mul6 (a + b) c = mul6 a c + mul6 b c := by
  rw [mul6_comm, mul6_add, mul6_comm c, mul6_comm c]

theorem mul6_assoc (a b c : F6) : mul6 (mul6 a b) c = mul6 a (mul6 b c) := by
  simp only [mul6, mul2_add, add_mul2, timesNr_add, timesNr_mul2, mul2_timesNr, mul2_assoc, Prod.mk.injEq]
  refine ⟨?_, ?_, ?_⟩ <;> abel

theorem mul6_one (a : F6) : mul6 a ((1, 0), 0, 0) = a := by
  simp [mul6, mul2_one, mul2_zero, timesNr_zero]

theorem mul6_zero (a : F6) : mul6 a 0 = 0 := by
  simp [mul6, mul2_zero, timesNr_zero]

theorem timesV_mul6 (a b : F6) : mul6 (timesV a) b = timesV (mul6 a b) := by
  simp only [mul6, timesV, timesNr_add, timesNr_mul2, Prod.mk.injEq]
  refine ⟨?_, ?_, ?_⟩ <;> abel

theorem mul6_timesV (a b : F6) : mul6 a (timesV b) = timesV (mul6 a b) := by
  rw [mul6_comm, timesV_mul6, mul6_comm]

theorem timesV_add (a b : F6) : timesV (a + b) = timesV a + timesV b := by
  simp only [timesV, Prod.fst_add, Prod.snd_add, timesNr_add, Prod.mk_add_mk]

theorem timesV_zero : timesV 0 = 0 := by simp [timesV, timesNr_zero]

theorem mul12_comm (a b : F12) : mul12 a b = mul12 b a := by
  simp only [mul12, mul6_comm b.1, mul6_comm b.2, Prod.mk.injEq, true_and]
  rw [add_comm]

theorem mul12_add (a b c : F12) : mul12 a (b + c) = mul12 a b + mul12 a c := by
  simp only [mul12, Prod.fst_add, Prod.snd_add, mul6_add, timesV_add, Prod.mk_add_mk, Prod.mk.injEq]
  refine ⟨?_, ?_⟩ <;> abel

theorem add_mul12 (a b c : F12) : mul12 (a + b) c = mul12 a c + mul12 b c := by
  rw [mul12_comm, mul12_add, mul12_comm c, mul12_comm c]

theorem mul12_assoc (a b c : F12) : mul12 (mul12 a b) c = mul12 a (mul12 b c) := by
  simp only [mul12, mul6_add, add_mul6, timesV_add, timesV_mul6, mul6_timesV, mul6_assoc, Prod.mk.injEq]
  refine ⟨?_, ?_⟩ <;> abel

theorem mul12_one (a : F12) : mul12 a (((1, 0), 0, 0), 0) = a := by
  simp [mul12, mul6_one, mul6_zero, timesV_zero]

theorem mul12_zero (a : F12) : mul12 a 0 = 0 := by simp [mul12, mul6_zero, timesV_zero]

/-! ## One record for the four levels -/

/-- The level `L` of the machine is the reference level `T`, through the map `f`. -/
structure Link {α β : Type} [AddCommGroup β] (L : Level α) (T : Tower β) (f : α → β) : Prop where
  injective : Function.Injective f
  size : L.size = T.size
  zero : f L.zero = 0
  one : f L.one = T.one
  add : ∀ a b, f (L.add a b) = f a + f b
  sub : ∀ a b, f (L.sub a b) = f a - f b
  neg : ∀ a, f (L.neg a) = -f a
  mul : ∀ a b, f (L.mul a b) = T.mul (f a) (f b)
  flat : ∀ a, T.flat (f a) = (L.flat a).map toF
  length : ∀ a, (L.flat a).length = T.size
  build : ∀ g : Nat → Res Fp, ∀ h : Nat → Fp, (∀ k < T.size, g k = .ok (h k)) →
    ∃ a, L.build g = .ok a ∧ f a = T.ofWords fun k => toF (h k)
  buildError : ∀ g : Nat → Res Fp, ∀ e : Err, (∀ k < T.size, ∀ e', g k = .error e' → e' = e) →
    (∃ k < T.size, g k = .error e) → L.build g = .error e
  mulComm : ∀ a b, T.mul a b = T.mul b a
  mulAssoc : ∀ a b c, T.mul (T.mul a b) c = T.mul a (T.mul b c)
  mulOne : ∀ a, T.mul a T.one = a
  mulAdd : ∀ a b c, T.mul a (b + c) = T.mul a b + T.mul a c

/-- Level 1. -/
theorem link1 : Link lv1 T1 toF where
  injective := toF_injective
  size := rfl
  zero := toF_zero
  one := toF_one
  add := toF_add
  sub := toF_sub
  neg := toF_neg
  mul := toF_mul
  flat _ := rfl
  length _ := rfl
  build g h hg := ⟨h 0, hg 0 (by decide), rfl⟩
  buildError g e _ h := by
    obtain ⟨k, hk, h⟩ := h
    have : k = 0 := by simp only [T1] at hk; omega
    rw [this] at h
    exact h
  mulComm := mul_comm
  mulAssoc := mul_assoc
  mulOne := mul_one
  mulAdd := mul_add

/-- Either every one of the first `n` answers is a value, or the first bad one is an error. -/
theorem all_ok_or_error (g : Nat → Res Fp) (n : Nat) :
    (∃ h : Nat → Fp, ∀ k < n, g k = .ok (h k)) ∨ ∃ k < n, ∃ e, g k = .error e := by
  by_cases hx : ∃ k < n, ∃ e, g k = .error e
  · exact .inr hx
  · refine .inl ⟨fun k => match g k with | .ok a => a | .error _ => fpZero, fun k hk => ?_⟩
    cases hgk : g k with
    | ok a => simp only [hgk]
    | error e => exact absurd ⟨k, hk, e, hgk⟩ hx

theorem fp2Build_ok (g : Nat → Res Fp) (h : Nat → Fp) (hg : ∀ k < 2, g k = .ok (h k)) :
    fp2Build g = .ok ⟨h 0, h 1⟩ := by
  simp only [fp2Build, hg 0 (by omega), hg 1 (by omega)]; rfl

theorem fp6Build_ok (g : Nat → Res Fp) (h : Nat → Fp) (hg : ∀ k < 6, g k = .ok (h k)) :
    fp6Build g = .ok ⟨⟨h 0, h 1⟩, ⟨h 2, h 3⟩, ⟨h 4, h 5⟩⟩ := by
  rw [fp6Build, fp2Build_ok g h (fun k hk => hg k (by omega)),
    fp2Build_ok (fun k => g (k + 2)) (fun k => h (k + 2)) (fun k hk => hg _ (by omega)),
    fp2Build_ok (fun k => g (k + 4)) (fun k => h (k + 4)) (fun k hk => hg _ (by omega))]
  rfl

theorem fp12Build_ok (g : Nat → Res Fp) (h : Nat → Fp) (hg : ∀ k < 12, g k = .ok (h k)) :
    fp12Build g = .ok ⟨⟨⟨h 0, h 1⟩, ⟨h 2, h 3⟩, ⟨h 4, h 5⟩⟩, ⟨⟨h 6, h 7⟩, ⟨h 8, h 9⟩, ⟨h 10, h 11⟩⟩⟩ := by
  rw [fp12Build, fp6Build_ok g h (fun k hk => hg k (by omega)),
    fp6Build_ok (fun k => g (k + 6)) (fun k => h (k + 6)) (fun k hk => hg _ (by omega))]
  rfl

theorem fp2Build_error (g : Nat → Res Fp) (e : Err) (hu : ∀ k < 2, ∀ e', g k = .error e' → e' = e)
    (hx : ∃ k < 2, g k = .error e) : fp2Build g = .error e := by
  obtain ⟨k, hk, hx⟩ := hx
  cases h0 : g 0 with
  | error e' => rw [fp2Build, h0, hu 0 (by omega) e' h0]; rfl
  | ok a =>
    have : k = 1 := by
      rcases Nat.lt_or_ge k 1 with h | h
      · have : k = 0 := by omega
        rw [this, h0] at hx; cases hx
      · omega
    rw [this] at hx
    simp only [fp2Build, h0, hx]; rfl

theorem fp6Build_error (g : Nat → Res Fp) (e : Err) (hu : ∀ k < 6, ∀ e', g k = .error e' → e' = e)
    (hx : ∃ k < 6, g k = .error e) : fp6Build g = .error e := by
  rw [fp6Build]
  rcases all_ok_or_error g 2 with ⟨h, hg⟩ | ⟨k, hk, e', hk'⟩
  · rw [fp2Build_ok g h hg]
    rcases all_ok_or_error (fun k => g (k + 2)) 2 with ⟨h', hg'⟩ | ⟨k, hk, e', hk'⟩
    · rw [fp2Build_ok _ h' hg']
      obtain ⟨k, hk, hx⟩ := hx
      have h4 : 4 ≤ k := by
        by_contra hc
        rcases Nat.lt_or_ge k 2 with h2 | h2
        · rw [hg k h2] at hx; cases hx
        · have := hg' (k - 2) (by omega)
          rw [show k - 2 + 2 = k by omega] at this
          rw [this] at hx; cases hx
      have := fp2Build_error (fun k => g (k + 4)) e (fun j hj => hu _ (by omega))
        ⟨k - 4, by omega, by rw [show k - 4 + 4 = k by omega]; exact hx⟩
      rw [this]; rfl
    · have he : e' = e := hu _ (by omega) e' hk'
      rw [fp2Build_error (fun k => g (k + 2)) e (fun j hj => hu _ (by omega)) ⟨k, hk, he ▸ hk'⟩]
      rfl
  · have he : e' = e := hu _ (by omega) e' hk'
    rw [fp2Build_error g e (fun j hj => hu _ (by omega)) ⟨k, hk, he ▸ hk'⟩]
    rfl

theorem fp12Build_error (g : Nat → Res Fp) (e : Err) (hu : ∀ k < 12, ∀ e', g k = .error e' → e' = e)
    (hx : ∃ k < 12, g k = .error e) : fp12Build g = .error e := by
  rw [fp12Build]
  rcases all_ok_or_error g 6 with ⟨h, hg⟩ | ⟨k, hk, e', hk'⟩
  · rw [fp6Build_ok g h hg]
    obtain ⟨k, hk, hx⟩ := hx
    have h6 : 6 ≤ k := by
      by_contra hc
      rw [hg k (by omega)] at hx; cases hx
    have := fp6Build_error (fun k => g (k + 6)) e (fun j hj => hu _ (by omega))
      ⟨k - 6, by omega, by rw [show k - 6 + 6 = k by omega]; exact hx⟩
    rw [this]; rfl
  · have he : e' = e := hu _ (by omega) e' hk'
    rw [fp6Build_error g e (fun j hj => hu _ (by omega)) ⟨k, hk, he ▸ hk'⟩]
    rfl

/-- Level 2. -/
theorem link2 : Link lv2 T2 toF2 where
  injective := toF2_injective
  size := rfl
  zero := toF2_zero
  one := toF2_one
  add := toF2_add
  sub := toF2_sub
  neg := toF2_neg
  mul := toF2_mul
  flat _ := rfl
  length _ := rfl
  build g h hg := ⟨_, fp2Build_ok g h hg, rfl⟩
  buildError := fp2Build_error
  mulComm := mul2_comm
  mulAssoc := mul2_assoc
  mulOne := mul2_one
  mulAdd := mul2_add

/-- Level 6. -/
theorem link6 : Link lv6 T6 toF6 where
  injective := toF6_injective
  size := rfl
  zero := toF6_zero
  one := toF6_one
  add := toF6_add
  sub := toF6_sub
  neg := toF6_neg
  mul := toF6_mul
  flat _ := rfl
  length _ := rfl
  build g h hg := ⟨_, fp6Build_ok g h hg, rfl⟩
  buildError := fp6Build_error
  mulComm := mul6_comm
  mulAssoc := mul6_assoc
  mulOne := mul6_one
  mulAdd := mul6_add

/-- Level 12. -/
theorem link12 : Link lv12 T12 toF12 where
  injective := toF12_injective
  size := rfl
  zero := toF12_zero
  one := toF12_one
  add := toF12_add
  sub := toF12_sub
  neg := toF12_neg
  mul := toF12_mul
  flat _ := rfl
  length _ := rfl
  build g h hg := ⟨_, fp12Build_ok g h hg, rfl⟩
  buildError := fp12Build_error
  mulComm := mul12_comm
  mulAssoc := mul12_assoc
  mulOne := mul12_one
  mulAdd := mul12_add

end Sys2Proof.Laws
end

