-- ==== Sys2Proof/Laws/Inverse.lean ====
section
/-! SUPPORT. Powers and inverses of the four levels. The tower is a tower of fields: -1 has no square root in Fp, `u + 1` is
no cube and no square in Fp2, so each norm vanishes at zero only (41_field_fp2.md R427, 42_field_fp6.md R447,
43_field_fp12.md R467). -/

namespace Sys2Proof.Laws

open Sys2Proof.Machine
open Sys2Proof.Reference
open Sys2Proof.Config (p)

/-! ## Powers (40_field_fp.md R409) -/

theorem power_add {α β : Type} [AddCommGroup β] {L : Level α} {T : Tower β} {f : α → β} (link : Link L T f) (a : β)
    (m n : Nat) : power T a (m + n) = T.mul (power T a m) (power T a n) := by
  induction n with
  | zero => rw [Nat.add_zero, power, link.mulOne]
  | succ n ih => rw [← Nat.add_assoc, power, power, ih, link.mulAssoc]

theorem power_mul_self {α β : Type} [AddCommGroup β] {L : Level α} {T : Tower β} {f : α → β} (link : Link L T f) (a : β)
    (n : Nat) : power T (T.mul a a) n = power T a (2 * n) := by
  induction n with
  | zero => rfl
  | succ n ih =>
    rw [power, ih, show 2 * (n + 1) = 2 * n + 1 + 1 by omega, power, power, link.mulAssoc]

theorem powLoop_eq {α β : Type} [AddCommGroup β] {L : Level α} {T : Tower β} {f : α → β} (link : Link L T f)
    (fuel : Nat) (acc base : α) (e : Nat) (he : e < 2 ^ fuel) :
    f (powLoop L.mul fuel acc base e) = T.mul (f acc) (power T (f base) e) := by
  induction fuel generalizing acc base e with
  | zero =>
    have : e = 0 := by simpa using he
    rw [this, powLoop, power, link.mulOne]
  | succ fuel ih =>
    rw [powLoop]
    split
    next h => rw [h, power, link.mulOne]
    next h =>
      rw [ih _ _ _ (by rw [pow_succ] at he; omega), link.mul, power_mul_self link]
      rcases Nat.mod_two_eq_zero_or_one e with h2 | h2
      · rw [if_neg (by omega), show 2 * (e / 2) = e by omega]
      · rw [if_pos h2, link.mul, link.mulAssoc]
        congr 1
        conv_rhs => rw [show e = 2 * (e / 2) + 1 by omega, power, link.mulComm]

/-- The generic power is repeated multiplication. -/
theorem pow_eq_power {α β : Type} [AddCommGroup β] {L : Level α} {T : Tower β} {f : α → β} (link : Link L T f)
    (a : α) (e : Nat) : f (Machine.pow L a e) = power T (f a) e := by
  rw [Machine.pow, powWith, powLoop_eq link _ _ _ _ Nat.lt_log2_self, link.one, link.mulComm, link.mulOne]

theorem power1_eq (a : F) (n : Nat) : power T1 a n = a ^ n := by
  induction n with
  | zero => rfl
  | succ n ih => rw [power, ih, pow_succ]; rfl

theorem toF_pow (a : Fp) (e : Nat) : toF (fpPow a e) = toF a ^ e := by
  rw [← power1_eq]; exact pow_eq_power link1 a e

/-! ## Level 1 -/

theorem toF_eq_zero {a : Fp} : toF a = 0 ↔ a = fpZero := by
  rw [← toF_zero]; exact toF_injective.eq_iff

theorem fpInv_of_ne (a : Fp) (h : toF a ≠ 0) : ∃ c, fpInv a = .ok c ∧ toF a * toF c = 1 := by
  have : Fact (Nat.Prime p) := ⟨p_prime⟩
  refine ⟨fpPow a (p - 2), by rw [fpInv, if_neg (fun h' => h (toF_eq_zero.mpr h'))], ?_⟩
  rw [toF_pow, ← pow_succ', show p - 2 + 1 = p - 1 by decide]
  exact ZMod.pow_card_sub_one_eq_one h

/-! ## Level 2: the norm `a0^2 + a1^2` -/

theorem neg_one_not_square (x : F) : x ^ 2 ≠ -1 + 0 * x := by
  have : Fact (Nat.Prime p) := ⟨p_prime⟩
  intro h
  rw [zero_mul, add_zero] at h
  exact ZMod.mod_four_ne_three_of_sq_eq_neg_one h (by decide)

/-- Level 2 as a quadratic algebra of Mathlib. -/
abbrev K2 := QuadraticAlgebra F (-1) 0

def toK (a : F2) : K2 := ⟨a.1, a.2⟩

theorem toK_injective : Function.Injective toK := fun a b h => by
  cases a; cases b
  simpa [toK] using h

theorem toK_zero : toK 0 = 0 := rfl
theorem toK_one : toK (1, 0) = 1 := rfl
theorem toK_add (a b : F2) : toK (a + b) = toK a + toK b := rfl
theorem toK_sub (a b : F2) : toK (a - b) = toK a - toK b := rfl
theorem toK_neg (a : F2) : toK (-a) = -toK a := rfl
theorem toK_mul (a b : F2) : toK (mul2 a b) = toK a * toK b := by
  simp only [toK, mul2, QuadraticAlgebra.mk_mul_mk, QuadraticAlgebra.mk.injEq]
  constructor <;> ring

/-- The element `u + 1`. -/
def nrK : K2 := ⟨1, 1⟩

theorem toK_timesNr (a : F2) : toK (timesNr a) = nrK * toK a := by
  simp only [toK, timesNr, nrK, QuadraticAlgebra.mk_mul_mk, QuadraticAlgebra.mk.injEq]
  constructor <;> ring

theorem toK_eq_zero {a : F2} : toK a = 0 ↔ a = 0 := by
  rw [← toK_zero]; exact toK_injective.eq_iff

theorem norm2_ne (a : F2) (h : a ≠ 0) : a.1 * a.1 + a.2 * a.2 ≠ 0 := by
  have : Fact (Nat.Prime p) := ⟨p_prime⟩
  have : Fact (∀ x : F, x ^ 2 ≠ -1 + 0 * x) := ⟨neg_one_not_square⟩
  intro hn
  apply h
  rw [← toK_eq_zero, ← QuadraticAlgebra.norm_eq_zero_iff_eq_zero, QuadraticAlgebra.norm_def]
  simp only [toK]
  linear_combination hn

theorem toF2_eq_zero {a : Fp2} : toF2 a = 0 ↔ a = fp2Zero := by
  rw [← toF2_zero]; exact toF2_injective.eq_iff

theorem fp2Inv_of_ne (a : Fp2) (h : toF2 a ≠ 0) : ∃ c, fp2Inv a = .ok c ∧ mul2 (toF2 a) (toF2 c) = (1, 0) := by
  have hn := norm2_ne (toF2 a) h
  obtain ⟨c, hc, h1⟩ := fpInv_of_ne (fpAdd (fpMul a.a0 a.a0) (fpMul a.a1 a.a1))
    (by rw [toF_add, toF_mul, toF_mul]; exact hn)
  refine ⟨⟨fpMul a.a0 c, fpMul (fpNeg a.a1) c⟩, by rw [fp2Inv, hc]; rfl, ?_⟩
  rw [toF_add, toF_mul, toF_mul] at h1
  simp only [toF2, mul2, toF_mul, toF_neg, Prod.mk.injEq]
  constructor
  · linear_combination h1
  · ring

/-! ## Level 6: the norm to level 2 -/

/-- The norm of `b0 + b1 v + b2 v^2` to level 2. -/
def normK (x y z : K2) : K2 := x ^ 3 + nrK * y ^ 3 + nrK ^ 2 * z ^ 3 - 3 * nrK * x * y * z

theorem norm_nrK : QuadraticAlgebra.norm nrK = 2 := by
  rw [QuadraticAlgebra.norm_def]
  simp only [nrK]
  ring

theorem two_pow_ne_one (e : Nat) (he : e < 2 ^ 400) (h : modPow p 400 1 2 e % p ≠ 1) : (2 : F) ^ e ≠ 1 := by
  intro h1
  have hm := modPow_cast p 400 1 2 e he
  rw [Nat.cast_one, one_mul, Nat.cast_ofNat, h1] at hm
  apply h
  have h' := (ZMod.natCast_eq_natCast_iff' _ 1 p).mp (hm.trans Nat.cast_one.symm)
  rwa [Nat.mod_eq_of_lt (show 1 < p by decide)] at h'

theorem two_ne_zero_F : (2 : F) ≠ 0 := by
  intro h
  have h' := (ZMod.natCast_eq_natCast_iff' 2 0 p).mp (by simpa using h)
  revert h'
  decide

/-- 2 is no cube in Fp, so `u + 1`, of norm 2, is no cube in Fp2. -/
theorem nrK_not_cube (x : K2) : x ^ 3 ≠ nrK := by
  have : Fact (Nat.Prime p) := ⟨p_prime⟩
  intro h
  have h2 : (QuadraticAlgebra.norm x) ^ 3 = 2 := by rw [← map_pow, h, norm_nrK]
  have h0 : QuadraticAlgebra.norm x ≠ 0 := by
    intro h0
    rw [h0] at h2
    exact two_ne_zero_F (by rw [← h2]; ring)
  apply two_pow_ne_one ((p - 1) / 3) (by decide +kernel) (by decide +kernel)
  rw [← h2, ← pow_mul, show 3 * ((p - 1) / 3) = p - 1 by decide]
  exact ZMod.pow_card_sub_one_eq_one h0

/-- 2 is no square in Fp, so `u + 1` is no square in Fp2. -/
theorem nrK_not_square (x : K2) : x ^ 2 ≠ nrK := by
  have : Fact (Nat.Prime p) := ⟨p_prime⟩
  intro h
  have h2 : (QuadraticAlgebra.norm x) ^ 2 = 2 := by rw [← map_pow, h, norm_nrK]
  have h0 : QuadraticAlgebra.norm x ≠ 0 := by
    intro h0
    rw [h0] at h2
    exact two_ne_zero_F (by rw [← h2]; ring)
  apply two_pow_ne_one ((p - 1) / 2) (by decide +kernel) (by decide +kernel)
  rw [← h2, ← pow_mul, show 2 * ((p - 1) / 2) = p - 1 by decide]
  exact ZMod.pow_card_sub_one_eq_one h0

theorem normK_linear (x y : K2) (h : normK x y 0 = 0) : x = 0 ∧ y = 0 := by
  have : Fact (Nat.Prime p) := ⟨p_prime⟩
  have : Fact (∀ x : F, x ^ 2 ≠ -1 + 0 * x) := ⟨neg_one_not_square⟩
  have h3 : x ^ 3 + nrK * y ^ 3 = 0 := by rw [← h, normK]; ring
  by_cases hy : y = 0
  · rw [hy] at h3
    exact ⟨by simpa using h3, hy⟩
  · exfalso
    apply nrK_not_cube (-x / y)
    field_simp
    linear_combination (-1 : K2) * h3

/-- The level-6 norm is zero only for the zero element. -/
theorem normK_eq_zero (x y z : K2) (h : normK x y z = 0) : x = 0 ∧ y = 0 ∧ z = 0 := by
  have : Fact (Nat.Prime p) := ⟨p_prime⟩
  have : Fact (∀ x : F, x ^ 2 ≠ -1 + 0 * x) := ⟨neg_one_not_square⟩
  by_cases hz : z = 0
  · rw [hz] at h
    obtain ⟨hx, hy⟩ := normK_linear x y h
    exact ⟨hx, hy, hz⟩
  · exfalso
    have hm : normK (nrK * z ^ 2 - x * y) (x * z - y ^ 2) 0 = 0 := by
      have : normK (nrK * z ^ 2 - x * y) (x * z - y ^ 2) 0 = normK x y z * (nrK * z ^ 3 - y ^ 3) := by
        simp only [normK]; ring
      rw [this, h, zero_mul]
    obtain ⟨h1, h2⟩ := normK_linear _ _ hm
    apply nrK_not_cube (y / z)
    field_simp
    have h3 : z * (nrK * z ^ 2) = z * (x * y) := by rw [sub_eq_zero.mp h1]
    linear_combination (-1 : K2) * h3 - y * h2

theorem toF6_eq_zero {a : Fp6} : toF6 a = 0 ↔ a = fp6Zero := by
  rw [← toF6_zero]; exact toF6_injective.eq_iff

/-- The three numerators, over the reference tower. -/
theorem mul6_parts (a : Fp6) :
    mul6 (toF6 a) (toF6 (fp6InvParts a)) = (toF2 (fp6Norm a), 0, 0) := by
  simp only [toF6, fp6InvParts, fp6Norm, mul6, toF2_add, toF2_sub, toF2_mul, toF2_mulNr, mul2, timesNr, Prod.ext_iff,
    Prod.fst_add, Prod.snd_add, Prod.fst_sub, Prod.snd_sub, Prod.fst_zero, Prod.snd_zero]
  refine ⟨⟨?_, ?_⟩, ⟨?_, ?_⟩, ?_, ?_⟩ <;> ring

theorem toK_norm (a : Fp6) : toK (toF2 (fp6Norm a)) = normK (toK (toF2 a.b0)) (toK (toF2 a.b1)) (toK (toF2 a.b2)) := by
  simp only [fp6Norm, fp6InvParts, toF2_add, toF2_sub, toF2_mul, toF2_mulNr, toK_add, toK_sub, toK_mul, toK_timesNr, normK]
  ring

theorem fp6Inv_of_ne (a : Fp6) (h : toF6 a ≠ 0) : ∃ c, fp6Inv a = .ok c ∧ mul6 (toF6 a) (toF6 c) = T6.one := by
  have hn : toF2 (fp6Norm a) ≠ 0 := by
    intro h0
    apply h
    have := toK_norm a
    rw [h0, toK_zero] at this
    obtain ⟨h1, h2, h3⟩ := normK_eq_zero _ _ _ this.symm
    rw [toK_eq_zero] at h1 h2 h3
    simp only [toF6, h1, h2, h3]; rfl
  obtain ⟨c, hc, h1⟩ := fp2Inv_of_ne _ hn
  have hval : toF6 ⟨fp2Mul (fp6InvParts a).b0 c, fp2Mul (fp6InvParts a).b1 c, fp2Mul (fp6InvParts a).b2 c⟩ =
      mul6 (toF6 (fp6InvParts a)) (toF2 c, 0, 0) := by
    simp only [toF6, mul6, toF2_mul, mul2_zero, timesNr_zero, add_zero, zero_add]
  refine ⟨_, by rw [fp6Inv, hc]; rfl, ?_⟩
  rw [hval, ← mul6_assoc, mul6_parts]
  simp only [mul6, h1, mul2_comm 0, mul2_zero, timesNr_zero, add_zero]
  rfl

/-! ## Level 12: the norm to level 6 -/

theorem normK_mul (a b : F6) :
    normK (toK (mul6 a b).1) (toK (mul6 a b).2.1) (toK (mul6 a b).2.2) =
      normK (toK a.1) (toK a.2.1) (toK a.2.2) * normK (toK b.1) (toK b.2.1) (toK b.2.2) := by
  simp only [mul6, toK_add, toK_mul, toK_timesNr, normK]
  ring

/-- `v` is no square at level 6: the norm of `c0^2 - v c1^2` is zero only for zero. -/
theorem norm12_ne (a b : F6) (h : mul6 a a = timesV (mul6 b b)) : a = 0 ∧ b = 0 := by
  have : Fact (Nat.Prime p) := ⟨p_prime⟩
  have : Fact (∀ x : F, x ^ 2 ≠ -1 + 0 * x) := ⟨neg_one_not_square⟩
  have hzero : ∀ c : F6, normK (toK c.1) (toK c.2.1) (toK c.2.2) = 0 → c = 0 := by
    intro c hc
    obtain ⟨h1, h2, h3⟩ := normK_eq_zero _ _ _ hc
    rw [toK_eq_zero] at h1 h2 h3
    exact Prod.ext h1 (Prod.ext h2 h3)
  have hv : ∀ c : F6, normK (toK (timesV c).1) (toK (timesV c).2.1) (toK (timesV c).2.2) =
      nrK * normK (toK c.1) (toK c.2.1) (toK c.2.2) := by
    intro c
    simp only [timesV, toK_timesNr, normK]
    ring
  have hn := normK_mul a a
  rw [h, hv, normK_mul] at hn
  by_cases hb : normK (toK b.1) (toK b.2.1) (toK b.2.2) = 0
  · rw [hb, mul_zero, mul_zero, zero_eq_mul_self] at hn
    exact ⟨hzero a hn, hzero b hb⟩
  · exfalso
    apply nrK_not_square (normK (toK a.1) (toK a.2.1) (toK a.2.2) / normK (toK b.1) (toK b.2.1) (toK b.2.2))
    rw [div_pow, div_eq_iff (pow_ne_zero 2 hb)]
    linear_combination (-1 : K2) * hn

theorem toF12_eq_zero {a : Fp12} : toF12 a = 0 ↔ a = fp12Zero := by
  rw [← toF12_zero]; exact toF12_injective.eq_iff

theorem mul6_neg (a b : F6) : mul6 a (-b) = -mul6 a b := by
  rw [eq_neg_iff_add_eq_zero, ← mul6_add, neg_add_cancel, mul6_zero]

theorem timesV_neg (a : F6) : timesV (-a) = -timesV a := by
  rw [eq_neg_iff_add_eq_zero, ← timesV_add, neg_add_cancel, timesV_zero]

theorem neg_mul6 (a b : F6) : mul6 (-a) b = -mul6 a b := by
  rw [mul6_comm, mul6_neg, mul6_comm]

/-- The conjugate over the norm is the inverse at level 12. -/
theorem mul12_conjugate (x y c : F6) (h : mul6 (mul6 x x - timesV (mul6 y y)) c = T6.one) :
    mul12 (x, y) (mul6 x c, mul6 (-y) c) = T12.one := by
  have h1 : mul6 x (mul6 x c) + timesV (mul6 y (mul6 (-y) c)) = T6.one := by
    rw [← h, sub_eq_add_neg, add_mul6, neg_mul6, neg_mul6, mul6_neg, timesV_neg, timesV_mul6, mul6_assoc, mul6_assoc]
  have h2 : mul6 y (mul6 x c) + mul6 x (mul6 (-y) c) = 0 := by
    rw [neg_mul6, mul6_neg, ← mul6_assoc, ← mul6_assoc, mul6_comm y x, add_neg_cancel]
  simp only [mul12, h1, h2]
  rfl

theorem fp12Inv_of_ne (a : Fp12) (h : toF12 a ≠ 0) : ∃ c, fp12Inv a = .ok c ∧ mul12 (toF12 a) (toF12 c) = T12.one := by
  have hd : toF6 (fp6Sub (fp6Mul a.c0 a.c0) (fp6MulNr (fp6Mul a.c1 a.c1))) =
      mul6 (toF6 a.c0) (toF6 a.c0) - timesV (mul6 (toF6 a.c1) (toF6 a.c1)) := by
    rw [toF6_sub, toF6_mulNr, toF6_mul, toF6_mul]
  obtain ⟨c, hc, h1⟩ := fp6Inv_of_ne (fp6Sub (fp6Mul a.c0 a.c0) (fp6MulNr (fp6Mul a.c1 a.c1))) (by
    rw [hd]
    intro h0
    obtain ⟨h1, h2⟩ := norm12_ne _ _ (sub_eq_zero.mp h0)
    exact h (Prod.ext h1 h2))
  refine ⟨⟨fp6Mul a.c0 c, fp6Mul (fp6Neg a.c1) c⟩, by rw [fp12Inv, hc]; rfl, ?_⟩
  rw [hd] at h1
  simp only [toF12, toF6_mul, toF6_neg]
  exact mul12_conjugate _ _ _ h1

/-! ## One statement for the four levels -/

/-- The inverse of a level: InverseOfZero at zero, the inverse element elsewhere (60_exceptions.md R612). -/
structure HasInverse {α β : Type} [AddCommGroup β] (L : Level α) (T : Tower β) (f : α → β) : Prop where
  zero : ∀ a, f a = 0 → L.inv a = .error .inverseOfZero
  ne : ∀ a, f a ≠ 0 → ∃ c, L.inv a = .ok c ∧ T.mul (f a) (f c) = T.one

theorem inverse1 : HasInverse lv1 T1 toF where
  zero a h := by
    have := toF_eq_zero.mp h
    exact if_pos this
  ne := fpInv_of_ne

theorem inverse2 : HasInverse lv2 T2 toF2 where
  zero a h := by rw [toF2_eq_zero.mp h]; decide +kernel
  ne := fp2Inv_of_ne

theorem inverse6 : HasInverse lv6 T6 toF6 where
  zero a h := by rw [toF6_eq_zero.mp h]; decide +kernel
  ne := fp6Inv_of_ne

theorem inverse12 : HasInverse lv12 T12 toF12 where
  zero a h := by rw [toF12_eq_zero.mp h]; decide +kernel
  ne := fp12Inv_of_ne

end Sys2Proof.Laws
end

