-- ==== Sys2Proof/Laws/State.lean ====
section
/-! SUPPORT. One lemma for each field and each update of the state, so that no later proof unfolds a record update. -/

namespace Sys2Proof.Machine

@[simp] theorem writeWord_w (s : State) (i : Nat) (v : Word) : (writeWord s i v).w = s.w.setIfInBounds i v := rfl
@[simp] theorem writeWord_written (s : State) (i : Nat) (v : Word) : (writeWord s i v).written = s.written.setIfInBounds i (BitVec.allOnes 12) := rfl
@[simp] theorem writeWord_cmdr (s : State) (i : Nat) (v : Word) : (writeWord s i v).cmdr = s.cmdr := rfl
@[simp] theorem writeWord_busy (s : State) (i : Nat) (v : Word) : (writeWord s i v).busy = s.busy := rfl
@[simp] theorem writeWord_done (s : State) (i : Nat) (v : Word) : (writeWord s i v).done = s.done := rfl
@[simp] theorem writeWord_err (s : State) (i : Nat) (v : Word) : (writeWord s i v).err = s.err := rfl
@[simp] theorem writeWord_flag (s : State) (i : Nat) (v : Word) : (writeWord s i v).flag = s.flag := rfl
@[simp] theorem writeWord_errcode (s : State) (i : Nat) (v : Word) : (writeWord s i v).errcode = s.errcode := rfl
@[simp] theorem writeWord_schedule (s : State) (i : Nat) (v : Word) : (writeWord s i v).schedule = s.schedule := rfl
@[simp] theorem writeWord_readData (s : State) (i : Nat) (v : Word) : (writeWord s i v).readData = s.readData := rfl
@[simp] theorem writeWord_draws (s : State) (i : Nat) (v : Word) : (writeWord s i v).draws = s.draws := rfl

@[simp] theorem setFlag_w (s : State) (b : Bool) : (setFlag s b).w = s.w := rfl
@[simp] theorem setFlag_written (s : State) (b : Bool) : (setFlag s b).written = s.written := rfl
@[simp] theorem setFlag_cmdr (s : State) (b : Bool) : (setFlag s b).cmdr = s.cmdr := rfl
@[simp] theorem setFlag_busy (s : State) (b : Bool) : (setFlag s b).busy = s.busy := rfl
@[simp] theorem setFlag_done (s : State) (b : Bool) : (setFlag s b).done = s.done := rfl
@[simp] theorem setFlag_err (s : State) (b : Bool) : (setFlag s b).err = s.err := rfl
@[simp] theorem setFlag_flag (s : State) (b : Bool) : (setFlag s b).flag = b := rfl
@[simp] theorem setFlag_errcode (s : State) (b : Bool) : (setFlag s b).errcode = s.errcode := rfl
@[simp] theorem setFlag_schedule (s : State) (b : Bool) : (setFlag s b).schedule = s.schedule := rfl
@[simp] theorem setFlag_readData (s : State) (b : Bool) : (setFlag s b).readData = s.readData := rfl
@[simp] theorem setFlag_draws (s : State) (b : Bool) : (setFlag s b).draws = s.draws := rfl

@[simp] theorem accept_w (s : State) (c : CmdWord) : (accept s c).w = s.w := rfl
@[simp] theorem accept_written (s : State) (c : CmdWord) : (accept s c).written = s.written := rfl
@[simp] theorem accept_cmdr (s : State) (c : CmdWord) : (accept s c).cmdr = c := rfl
@[simp] theorem accept_busy (s : State) (c : CmdWord) : (accept s c).busy = true := rfl
@[simp] theorem accept_done (s : State) (c : CmdWord) : (accept s c).done = false := rfl
@[simp] theorem accept_err (s : State) (c : CmdWord) : (accept s c).err = false := rfl
@[simp] theorem accept_flag (s : State) (c : CmdWord) : (accept s c).flag = s.flag := rfl
@[simp] theorem accept_errcode (s : State) (c : CmdWord) : (accept s c).errcode = 0 := rfl
@[simp] theorem accept_schedule (s : State) (c : CmdWord) : (accept s c).schedule = s.schedule := rfl
@[simp] theorem accept_readData (s : State) (c : CmdWord) : (accept s c).readData = s.readData := rfl
@[simp] theorem accept_draws (s : State) (c : CmdWord) : (accept s c).draws = s.draws := rfl

@[simp] theorem raiseError_w (s : State) (e : Err) : (raiseError s e).w = s.w := rfl
@[simp] theorem raiseError_written (s : State) (e : Err) : (raiseError s e).written = s.written := rfl
@[simp] theorem raiseError_cmdr (s : State) (e : Err) : (raiseError s e).cmdr = s.cmdr := rfl
@[simp] theorem raiseError_busy (s : State) (e : Err) : (raiseError s e).busy = false := rfl
@[simp] theorem raiseError_done (s : State) (e : Err) : (raiseError s e).done = true := rfl
@[simp] theorem raiseError_err (s : State) (e : Err) : (raiseError s e).err = true := rfl
@[simp] theorem raiseError_flag (s : State) (e : Err) : (raiseError s e).flag = s.flag := rfl
@[simp] theorem raiseError_errcode (s : State) (e : Err) : (raiseError s e).errcode = e.code := rfl
@[simp] theorem raiseError_schedule (s : State) (e : Err) : (raiseError s e).schedule = s.schedule := rfl
@[simp] theorem raiseError_readData (s : State) (e : Err) : (raiseError s e).readData = s.readData := rfl
@[simp] theorem raiseError_draws (s : State) (e : Err) : (raiseError s e).draws = s.draws := rfl

@[simp] theorem finish_w (s : State) : (finish s).w = s.w := rfl
@[simp] theorem finish_written (s : State) : (finish s).written = s.written := rfl
@[simp] theorem finish_cmdr (s : State) : (finish s).cmdr = s.cmdr := rfl
@[simp] theorem finish_busy (s : State) : (finish s).busy = false := rfl
@[simp] theorem finish_done (s : State) : (finish s).done = true := rfl
@[simp] theorem finish_err (s : State) : (finish s).err = s.err := rfl
@[simp] theorem finish_flag (s : State) : (finish s).flag = s.flag := rfl
@[simp] theorem finish_errcode (s : State) : (finish s).errcode = s.errcode := rfl
@[simp] theorem finish_schedule (s : State) : (finish s).schedule = s.schedule := rfl
@[simp] theorem finish_readData (s : State) : (finish s).readData = s.readData := rfl
@[simp] theorem finish_draws (s : State) : (finish s).draws = s.draws := rfl

@[simp] theorem writeLimb_w (s : State) (i k : Nat) (v : Limb) : (writeLimb s i k v).w = s.w.setIfInBounds i (setLimb (readWord s.w i) k v) := rfl
@[simp] theorem writeLimb_written (s : State) (i k : Nat) (v : Limb) : (writeLimb s i k v).written = s.written.setIfInBounds i (marks s i ||| 1#12 <<< k) := rfl
@[simp] theorem writeLimb_cmdr (s : State) (i k : Nat) (v : Limb) : (writeLimb s i k v).cmdr = s.cmdr := rfl
@[simp] theorem writeLimb_busy (s : State) (i k : Nat) (v : Limb) : (writeLimb s i k v).busy = s.busy := rfl
@[simp] theorem writeLimb_done (s : State) (i k : Nat) (v : Limb) : (writeLimb s i k v).done = s.done := rfl
@[simp] theorem writeLimb_err (s : State) (i k : Nat) (v : Limb) : (writeLimb s i k v).err = s.err := rfl
@[simp] theorem writeLimb_flag (s : State) (i k : Nat) (v : Limb) : (writeLimb s i k v).flag = s.flag := rfl
@[simp] theorem writeLimb_errcode (s : State) (i k : Nat) (v : Limb) : (writeLimb s i k v).errcode = s.errcode := rfl
@[simp] theorem writeLimb_schedule (s : State) (i k : Nat) (v : Limb) : (writeLimb s i k v).schedule = s.schedule := rfl
@[simp] theorem writeLimb_readData (s : State) (i k : Nat) (v : Limb) : (writeLimb s i k v).readData = s.readData := rfl
@[simp] theorem writeLimb_draws (s : State) (i k : Nat) (v : Limb) : (writeLimb s i k v).draws = s.draws := rfl

@[simp] theorem applyReset_w (s : State) : (applyReset s).w = Vector.ofFn fun i => Config.resetDraw s.draws i.val := by rw [applyReset]
@[simp] theorem applyReset_written (s : State) : (applyReset s).written = Vector.replicate 64 0 := by rw [applyReset]
@[simp] theorem applyReset_cmdr (s : State) : (applyReset s).cmdr = 0 := by rw [applyReset]
@[simp] theorem applyReset_busy (s : State) : (applyReset s).busy = false := by rw [applyReset]
@[simp] theorem applyReset_done (s : State) : (applyReset s).done = false := by rw [applyReset]
@[simp] theorem applyReset_err (s : State) : (applyReset s).err = false := by rw [applyReset]
@[simp] theorem applyReset_flag (s : State) : (applyReset s).flag = false := by rw [applyReset]
@[simp] theorem applyReset_errcode (s : State) : (applyReset s).errcode = 0 := by rw [applyReset]
@[simp] theorem applyReset_schedule (s : State) : (applyReset s).schedule = s.schedule := by rw [applyReset]
@[simp] theorem applyReset_readData (s : State) : (applyReset s).readData = s.readData := by rw [applyReset]
@[simp] theorem applyReset_draws (s : State) : (applyReset s).draws = s.draws + 1 := by rw [applyReset]

@[simp] theorem popEvent_w (s : State) (rest : List Event) : (popEvent s rest).w = s.w := rfl
@[simp] theorem popEvent_written (s : State) (rest : List Event) : (popEvent s rest).written = s.written := rfl
@[simp] theorem popEvent_cmdr (s : State) (rest : List Event) : (popEvent s rest).cmdr = s.cmdr := rfl
@[simp] theorem popEvent_busy (s : State) (rest : List Event) : (popEvent s rest).busy = s.busy := rfl
@[simp] theorem popEvent_done (s : State) (rest : List Event) : (popEvent s rest).done = s.done := rfl
@[simp] theorem popEvent_err (s : State) (rest : List Event) : (popEvent s rest).err = s.err := rfl
@[simp] theorem popEvent_flag (s : State) (rest : List Event) : (popEvent s rest).flag = s.flag := rfl
@[simp] theorem popEvent_errcode (s : State) (rest : List Event) : (popEvent s rest).errcode = s.errcode := rfl
@[simp] theorem popEvent_schedule (s : State) (rest : List Event) : (popEvent s rest).schedule = rest := rfl
@[simp] theorem popEvent_readData (s : State) (rest : List Event) : (popEvent s rest).readData = s.readData := rfl
@[simp] theorem popEvent_draws (s : State) (rest : List Event) : (popEvent s rest).draws = s.draws := rfl

@[simp] theorem offerCommand_w (s : State) (c : CmdWord) : (offerCommand s c).w = s.w := rfl
@[simp] theorem offerCommand_written (s : State) (c : CmdWord) : (offerCommand s c).written = s.written := rfl
@[simp] theorem offerCommand_cmdr (s : State) (c : CmdWord) : (offerCommand s c).cmdr = c := rfl
@[simp] theorem offerCommand_busy (s : State) (c : CmdWord) : (offerCommand s c).busy = true := rfl
@[simp] theorem offerCommand_done (s : State) (c : CmdWord) : (offerCommand s c).done = false := rfl
@[simp] theorem offerCommand_err (s : State) (c : CmdWord) : (offerCommand s c).err = false := rfl
@[simp] theorem offerCommand_flag (s : State) (c : CmdWord) : (offerCommand s c).flag = s.flag := rfl
@[simp] theorem offerCommand_errcode (s : State) (c : CmdWord) : (offerCommand s c).errcode = 0 := rfl
@[simp] theorem offerCommand_schedule (s : State) (c : CmdWord) : (offerCommand s c).schedule = .sequencer :: s.schedule := rfl
@[simp] theorem offerCommand_readData (s : State) (c : CmdWord) : (offerCommand s c).readData = s.readData := rfl
@[simp] theorem offerCommand_draws (s : State) (c : CmdWord) : (offerCommand s c).draws = s.draws := rfl

/-! `writeBlock` writes the registers and their marks only. -/

@[simp] theorem writeBlock_cmdr (s : State) (b : Nat) (ws : List Word) : (writeBlock s b ws).cmdr = s.cmdr := by
  induction ws generalizing s b with
  | nil => rfl
  | cons v vs ih => simp [writeBlock, ih]
@[simp] theorem writeBlock_busy (s : State) (b : Nat) (ws : List Word) : (writeBlock s b ws).busy = s.busy := by
  induction ws generalizing s b with
  | nil => rfl
  | cons v vs ih => simp [writeBlock, ih]
@[simp] theorem writeBlock_done (s : State) (b : Nat) (ws : List Word) : (writeBlock s b ws).done = s.done := by
  induction ws generalizing s b with
  | nil => rfl
  | cons v vs ih => simp [writeBlock, ih]
@[simp] theorem writeBlock_err (s : State) (b : Nat) (ws : List Word) : (writeBlock s b ws).err = s.err := by
  induction ws generalizing s b with
  | nil => rfl
  | cons v vs ih => simp [writeBlock, ih]
@[simp] theorem writeBlock_flag (s : State) (b : Nat) (ws : List Word) : (writeBlock s b ws).flag = s.flag := by
  induction ws generalizing s b with
  | nil => rfl
  | cons v vs ih => simp [writeBlock, ih]
@[simp] theorem writeBlock_errcode (s : State) (b : Nat) (ws : List Word) : (writeBlock s b ws).errcode = s.errcode := by
  induction ws generalizing s b with
  | nil => rfl
  | cons v vs ih => simp [writeBlock, ih]
@[simp] theorem writeBlock_schedule (s : State) (b : Nat) (ws : List Word) : (writeBlock s b ws).schedule = s.schedule := by
  induction ws generalizing s b with
  | nil => rfl
  | cons v vs ih => simp [writeBlock, ih]
@[simp] theorem writeBlock_readData (s : State) (b : Nat) (ws : List Word) : (writeBlock s b ws).readData = s.readData := by
  induction ws generalizing s b with
  | nil => rfl
  | cons v vs ih => simp [writeBlock, ih]
@[simp] theorem writeBlock_draws (s : State) (b : Nat) (ws : List Word) : (writeBlock s b ws).draws = s.draws := by
  induction ws generalizing s b with
  | nil => rfl
  | cons v vs ih => simp [writeBlock, ih]

/-! A host read changes only the model's own fields (20_memory.md R203). -/

@[simp] theorem hostRead_w (s : State) (addr : Nat) : (hostRead s addr).w = s.w := by
  unfold hostRead; split <;> rfl
@[simp] theorem hostRead_written (s : State) (addr : Nat) : (hostRead s addr).written = s.written := by
  unfold hostRead; split <;> rfl
@[simp] theorem hostRead_cmdr (s : State) (addr : Nat) : (hostRead s addr).cmdr = s.cmdr := by
  unfold hostRead; split <;> rfl
@[simp] theorem hostRead_busy (s : State) (addr : Nat) : (hostRead s addr).busy = s.busy := by
  unfold hostRead; split <;> rfl
@[simp] theorem hostRead_done (s : State) (addr : Nat) : (hostRead s addr).done = s.done := by
  unfold hostRead; split <;> rfl
@[simp] theorem hostRead_err (s : State) (addr : Nat) : (hostRead s addr).err = s.err := by
  unfold hostRead; split <;> rfl
@[simp] theorem hostRead_flag (s : State) (addr : Nat) : (hostRead s addr).flag = s.flag := by
  unfold hostRead; split <;> rfl
@[simp] theorem hostRead_errcode (s : State) (addr : Nat) : (hostRead s addr).errcode = s.errcode := by
  unfold hostRead; split <;> rfl
@[simp] theorem hostRead_schedule (s : State) (addr : Nat) : (hostRead s addr).schedule = s.schedule := by
  unfold hostRead; split <;> rfl

end Sys2Proof.Machine
end

