-- ==== Sys2Proof/Laws/Regs.lean ====
section
/-! SUPPORT. What the register operations do: reads after `writeWord`, `writeBlock` and `writeLimb`, and the limbs of a
register. -/

namespace Sys2Proof.Machine

/-! ## The register file -/

theorem readWord_of_lt (w : Regs) (i : Nat) (h : i < 64) : readWord w i = w[i] := by
  simp [readWord, h]

theorem readWord_of_ge (w : Regs) (i : Nat) (h : 64 ≤ i) : readWord w i = 0 := by
  simp [readWord, Nat.not_lt.mpr h]

/-- Two register files that read alike everywhere are equal. -/
theorem regs_ext {w w' : Regs} (h : ∀ i < 64, readWord w i = readWord w' i) : w = w' := by
  apply Vector.ext
  intro i hi
  rw [← readWord_of_lt w i hi, ← readWord_of_lt w' i hi]
  exact h i hi

/-- A write of one register is seen there and nowhere else. -/
theorem readWord_setIfInBounds (w : Regs) (i j : Nat) (v : Word) (hj : j < 64) :
    readWord (w.setIfInBounds i v) j = if j = i then v else readWord w j := by
  rw [readWord_of_lt _ _ hj, readWord_of_lt _ _ hj, Vector.getElem_setIfInBounds]
  simp only [eq_comm]

/-- The same for the marks. -/
theorem marks_setIfInBounds (s : State) (i j : Nat) (m : BitVec 12) (hj : j < 64) :
    (s.written.setIfInBounds i m)[j]?.getD 0 = if j = i then m else marks s j := by
  have h1 : (s.written.setIfInBounds i m)[j]?.getD 0 = (s.written.setIfInBounds i m)[j] := by simp [hj]
  have h2 : marks s j = s.written[j] := by simp [marks, hj]
  rw [h1, h2, Vector.getElem_setIfInBounds]
  simp only [eq_comm]

theorem readWord_writeWord (s : State) (i j : Nat) (v : Word) (hj : j < 64) :
    readWord (writeWord s i v).w j = if j = i then v else readWord s.w j :=
  readWord_setIfInBounds s.w i j v hj

theorem marks_writeWord (s : State) (i j : Nat) (v : Word) (hj : j < 64) :
    marks (writeWord s i v) j = if j = i then BitVec.allOnes 12 else marks s j :=
  marks_setIfInBounds s i j _ hj

/-- All that `writeBlock` does to the registers: the block holds the words, the rest is as before. -/
theorem readWord_writeBlock (s : State) (b : Nat) (ws : List Word) (j : Nat) (hj : j < 64) :
    readWord (writeBlock s b ws).w j =
      if b ≤ j ∧ j < b + ws.length then ws.getD (j - b) 0 else readWord s.w j := by
  induction ws generalizing s b with
  | nil =>
    rw [writeBlock, if_neg (by simp only [List.length_nil]; omega)]
  | cons v vs ih =>
    rw [writeBlock, ih, readWord_writeWord _ _ _ _ hj]
    by_cases h1 : j = b
    · subst h1
      simp
    · by_cases h2 : b ≤ j ∧ j < b + (v :: vs).length
      · have h3 : b + 1 ≤ j ∧ j < b + 1 + vs.length := by simp only [List.length_cons] at h2; omega
        have h4 : j - b = (j - (b + 1)) + 1 := by omega
        rw [if_pos h2, if_pos h3, h4, List.getD_cons_succ]
      · have h3 : ¬(b + 1 ≤ j ∧ j < b + 1 + vs.length) := by simp only [List.length_cons] at h2; omega
        rw [if_neg h2, if_neg h3, if_neg h1]

/-- All that `writeBlock` does to the marks. -/
theorem marks_writeBlock (s : State) (b : Nat) (ws : List Word) (j : Nat) (hj : j < 64) :
    marks (writeBlock s b ws) j =
      if b ≤ j ∧ j < b + ws.length then BitVec.allOnes 12 else marks s j := by
  induction ws generalizing s b with
  | nil =>
    rw [writeBlock, if_neg (by simp only [List.length_nil]; omega)]
  | cons v vs ih =>
    rw [writeBlock, ih, marks_writeWord _ _ _ _ hj]
    simp only [List.length_cons]
    by_cases h1 : j = b
    · subst h1
      simp
    · by_cases h2 : b ≤ j ∧ j < b + (vs.length + 1)
      · rw [if_pos h2, if_pos (by omega)]
      · rw [if_neg h2, if_neg (by omega), if_neg h1]

/-! ## Limbs (20_memory.md R205) -/

/-- The bits of `setLimb`: the 32 bits of limb `k` come from `v`, the others stay. -/
theorem getLsbD_setLimb (x : Word) (k : Nat) (v : Limb) (i : Nat) (hi : i < 384) :
    (setLimb x k v).getLsbD i =
      if 32 * k ≤ i ∧ i < 32 * k + 32 then v.getLsbD (i - 32 * k) else x.getLsbD i := by
  have hmask : ∀ n, (0xFFFFFFFF : Word).getLsbD n = decide (n < 32) := by
    intro n
    rw [show (0xFFFFFFFF : Word) = (BitVec.allOnes 32).setWidth 384 by decide]
    simp only [BitVec.getLsbD_setWidth, BitVec.getLsbD_allOnes]
    by_cases h : n < 32 <;> simp [h]; omega
  simp only [setLimb, BitVec.getLsbD_or, BitVec.getLsbD_and, BitVec.getLsbD_not, BitVec.getLsbD_shiftLeft,
    BitVec.getLsbD_setWidth, hmask, hi, decide_true, Bool.true_and]
  by_cases h1 : i < 32 * k
  · have h2 : ¬(32 * k ≤ i ∧ i < 32 * k + 32) := by omega
    rw [if_neg h2]
    simp [h1]
  · by_cases h3 : i < 32 * k + 32
    · have h4 : i - 32 * k < 32 := by omega
      have h5 : i - 32 * k < 384 := by omega
      rw [if_pos ⟨by omega, h3⟩]
      simp [h1, h4, h5]
    · have h2 : ¬(32 * k ≤ i ∧ i < 32 * k + 32) := by omega
      have h4 : ¬(i - 32 * k < 32) := by omega
      have h5 : v.getLsbD (i - 32 * k) = false := BitVec.getLsbD_of_ge _ _ (by omega)
      rw [if_neg h2]
      simp [h1, h4, h5]

/-- Reading limb `j` after writing limb `k`. -/
theorem getLimb_setLimb (x : Word) (j k : Nat) (v : Limb) (hj : j < 12) (hk : k < 12) :
    getLimb (setLimb x k v) j = if j = k then v else getLimb x j := by
  apply BitVec.eq_of_getLsbD_eq
  intro i hi
  by_cases h : j = k
  · subst h
    rw [if_pos rfl, getLimb, BitVec.getLsbD_extractLsb', getLsbD_setLimb _ _ _ _ (by omega)]
    simp [hi]
  · rw [if_neg h, getLimb, getLimb, BitVec.getLsbD_extractLsb', BitVec.getLsbD_extractLsb',
      getLsbD_setLimb _ _ _ _ (by omega), if_neg (by omega)]

/-- A register is its limbs (20_memory.md R207). -/
theorem word_ext_limbs {x y : Word} (h : ∀ k < 12, getLimb x k = getLimb y k) : x = y := by
  apply BitVec.eq_of_getLsbD_eq
  intro i hi
  have hk := congrArg (fun l : Limb => l.getLsbD (i % 32)) (h (i / 32) (by omega))
  simp only [getLimb, BitVec.getLsbD_extractLsb'] at hk
  have h1 : i % 32 < 32 := Nat.mod_lt _ (by decide)
  have h2 : 32 * (i / 32) + i % 32 = i := Nat.div_add_mod i 32
  simpa [h1, h2] using hk

theorem readWord_writeLimb (s : State) (i k j : Nat) (v : Limb) (hj : j < 64) :
    readWord (writeLimb s i k v).w j = if j = i then setLimb (readWord s.w i) k v else readWord s.w j :=
  readWord_setIfInBounds s.w i j _ hj

theorem marks_writeLimb (s : State) (i k j : Nat) (v : Limb) (hj : j < 64) :
    marks (writeLimb s i k v) j = if j = i then marks s i ||| 1#12 <<< k else marks s j :=
  marks_setIfInBounds s i j _ hj

end Sys2Proof.Machine
end

