-- ==== Sys2Proof/Laws/Operands.lean ====
section
/-! SUPPORT. What the operand forms read and write (10_state.md R105 to R108), and what a completion leaves in the state,
in the terms of Safety/Reference.lean. -/

namespace Sys2Proof.Laws

open Sys2Proof.Machine
open Sys2Proof.Reference
open Sys2Proof.Config (p)

/-- A computation goes on after a value. -/
theorem ok_bind {γ δ : Type} (a : γ) (g : γ → Res δ) : (Except.ok a >>= g : Res δ) = g a := rfl

/-- A computation ends at an error. -/
theorem error_bind {γ δ : Type} (e : Err) (g : γ → Res δ) : (Except.error e >>= g : Res δ) = .error e := rfl

variable {α β : Type} [AddCommGroup β] {L : Level α} {T : Tower β} {f : α → β}

/-! ## Reading -/

theorem rdFp_ok (w : Regs) (i : Nat) (h : (readWord w i).toNat < p) : rdFp w i = .ok ⟨(readWord w i).toNat, h⟩ :=
  dif_pos h

theorem rdFp_error (w : Regs) (i : Nat) (h : ¬(readWord w i).toNat < p) : rdFp w i = .error .nonCanonicalOperand :=
  dif_neg h

theorem rdFp_only_error (w : Regs) (i : Nat) (e : Err) (h : rdFp w i = .error e) : e = .nonCanonicalOperand := by
  rw [rdFp] at h
  split at h
  · cases h
  · exact (Except.error.inj h).symm

/-- A canonical element is read as the reference element at that base. -/
theorem rdF_ok (link : Link L T f) (s : State) (b : Nat) (h : ∀ k < T.size, wval s (b + k) < p) :
    ∃ a, rdF L s.w b = .ok a ∧ f a = elemAt T s b := by
  obtain ⟨a, h1, h2⟩ := link.build (fun k => rdFp s.w (b + k)) (fun k => fpOfNat (wval s (b + k))) (fun k hk => by
    rw [rdFp_ok _ _ (h k hk)]
    exact congrArg _ (Fin.ext (Nat.mod_eq_of_lt (h k hk)).symm))
  exact ⟨a, h1, by rw [h2, elemAt]; simp only [toF_fpOfNat]⟩

/-- An element with a word that is not canonical raises NonCanonicalOperand. -/
theorem rdF_error (link : Link L T f) (s : State) (b : Nat) (h : ∃ k < T.size, ¬wval s (b + k) < p) :
    rdF L s.w b = .error .nonCanonicalOperand := by
  obtain ⟨k, hk, h⟩ := h
  exact link.buildError _ _ (fun k _ e' he => rdFp_only_error _ _ _ he) ⟨k, hk, rdFp_error _ _ h⟩

/-- A read of an element gives the reference element or raises NonCanonicalOperand. -/
theorem rdF_cases (link : Link L T f) (s : State) (b : Nat) :
    (∃ a, rdF L s.w b = .ok a ∧ f a = elemAt T s b ∧ ∀ k < T.size, wval s (b + k) < p) ∨
    (rdF L s.w b = .error .nonCanonicalOperand ∧ ∃ k < T.size, ¬wval s (b + k) < p) := by
  by_cases h : ∀ k < T.size, wval s (b + k) < p
  · obtain ⟨a, h1, h2⟩ := rdF_ok link s b h
    exact .inl ⟨a, h1, h2, h⟩
  · have h' : ∃ k < T.size, ¬wval s (b + k) < p := by
      simpa only [not_forall, exists_prop] using h
    exact .inr ⟨rdF_error link s b h', h'⟩

/-- A point of the machine in the reference tower. -/
def mapPoint (f : α → β) (P : Point α) : Point β := ⟨f P.x, f P.y, P.inf⟩

omit [AddCommGroup β] in
theorem mapPoint_injective (hf : Function.Injective f) : Function.Injective (mapPoint f) := fun P Q h => by
  cases P; cases Q
  simp only [mapPoint, Point.mk.injEq] at h
  rw [hf h.1, hf h.2.1, h.2.2]

/-- A point with canonical coordinates and a flag word 0 or 1 is read as the reference point at that base. -/
theorem rdPt_ok (link : Link L T f) (s : State) (b : Nat) (h : PointOk s b T.size) :
    ∃ P, rdPt L s.w b = .ok P ∧ mapPoint f P = pointAt T s b := by
  obtain ⟨hb, hc, hf⟩ := h
  obtain ⟨x, hx, hx'⟩ := rdF_ok link s b (fun k hk => hc k (by omega))
  obtain ⟨y, hy, hy'⟩ := rdF_ok link s (b + T.size) (fun k hk => by
    rw [Nat.add_assoc]; exact hc _ (by omega))
  refine ⟨⟨x, y, wval s (b + 2 * T.size) == 1⟩, ?_, by rw [mapPoint, hx', hy']; rfl⟩
  simp only [rdPt, link.size, hx, hy]
  have : rdInf s.w (b + 2 * T.size) = .ok (wval s (b + 2 * T.size) == 1) := if_neg (by exact Nat.not_lt.mpr hf)
  rw [this]
  rfl

/-- A point with a coordinate that is not canonical, or a flag word above 1, raises NonCanonicalOperand. -/
theorem rdPt_error (link : Link L T f) (s : State) (b : Nat)
    (h : (∃ k < 2 * T.size, ¬wval s (b + k) < p) ∨ ¬wval s (b + 2 * T.size) ≤ 1) :
    rdPt L s.w b = .error .nonCanonicalOperand := by
  rcases rdF_cases link s b with ⟨x, hx, -, hcx⟩ | ⟨hx, -⟩
  · rcases rdF_cases link s (b + T.size) with ⟨y, hy, -, hcy⟩ | ⟨hy, -⟩
    · have hf : ¬wval s (b + 2 * T.size) ≤ 1 := by
        rcases h with ⟨k, hk, hn⟩ | h
        · exfalso
          by_cases hks : k < T.size
          · exact hn (hcx k hks)
          · have := hcy (k - T.size) (by omega)
            rw [show b + T.size + (k - T.size) = b + k by omega] at this
            exact hn this
        · exact h
      have : rdInf s.w (b + 2 * T.size) = .error .nonCanonicalOperand := if_pos (by exact Nat.not_le.mp hf)
      simp only [rdPt, link.size, hx, hy, this]
      rfl
    · simp only [rdPt, link.size, hx, hy]
      rfl
  · rw [rdPt, hx]
    rfl

/-! ## Writing -/

theorem fpWord_toNat (a : Fp) : (fpWord a).toNat = a.val :=
  (BitVec.toNat_ofNat ..).trans (Nat.mod_eq_of_lt (a.isLt.trans (by decide +kernel)))

theorem elemWords_toNat (link : Link L T f) (a : α) : (elemWords L a).map BitVec.toNat = wordsOf T (f a) := by
  rw [elemWords, wordsOf, link.flat, List.map_map, List.map_map]
  apply List.map_congr_left
  intro c _
  simp only [Function.comp_apply, fpWord_toNat, val_toF]

theorem pointWords_toNat (link : Link L T f) (P : Point α) :
    (pointWords L P).map BitVec.toNat = wordsOfPoint T (mapPoint f P) := by
  rcases P with ⟨x, y, inf⟩
  have hf : (infWord inf).toNat = if inf = true then 1 else 0 := by cases inf <;> rfl
  simp only [pointWords, wordsOfPoint, List.map_append, elemWords_toNat link, List.map_cons, List.map_nil, hf]
  rfl

theorem elemWords_length (link : Link L T f) (a : α) : (elemWords L a).length = T.size := by
  rw [elemWords, List.length_map, link.length]

theorem pointWords_length (link : Link L T f) (P : Point α) : (pointWords L P).length = 2 * T.size + 1 := by
  simp only [pointWords, List.length_append, elemWords_length link, List.length_singleton]
  omega

/-! ## What a completion leaves -/

/-- The completion with a block write. -/
theorem wrote_of_regs (s : State) (b : Nat) (ws : List Word) (h : b + ws.length ≤ 64) :
    Wrote s (complete s (.ok (.regs b ws))) b (ws.map BitVec.toNat) where
  busy := rfl
  done := rfl
  err := by simp [complete, applyEffect]
  errcode := by simp [complete, applyEffect]
  cmdr := by simp [complete, applyEffect]
  schedule := by simp [complete, applyEffect]
  readData := by simp [complete, applyEffect]
  draws := by simp [complete, applyEffect]
  flag := by simp [complete, applyEffect]
  value k hk := by
    rw [List.length_map] at hk
    change (readWord (writeBlock s b ws).w (b + k)).toNat = _
    rw [readWord_writeBlock _ _ _ _ (by omega), if_pos (by omega), Nat.add_sub_cancel_left]
    simp [List.getD_eq_getElem?_getD, hk]
  mark k hk := by
    rw [List.length_map] at hk
    change marks (writeBlock s b ws) (b + k) = _
    rw [marks_writeBlock _ _ _ _ (by omega), if_pos (by omega)]
  other i hi ho := by
    rw [List.length_map] at ho
    change (readWord (writeBlock s b ws).w i).toNat = _
    rw [readWord_writeBlock _ _ _ _ hi, if_neg (by omega)]
    rfl
  otherMark i hi ho := by
    rw [List.length_map] at ho
    change marks (writeBlock s b ws) i = _
    rw [marks_writeBlock _ _ _ _ hi, if_neg (by omega)]

/-- The completion of a predicate command. -/
theorem flagged_of_flag (s : State) (b : Bool) : Flagged s (complete s (.ok (.flag b))) b where
  busy := rfl
  done := rfl
  err := rfl
  errcode := rfl
  cmdr := rfl
  schedule := rfl
  readData := rfl
  draws := rfl
  flag := rfl
  same _ _ := rfl
  sameMark _ _ := rfl

/-- The completion of a command that raises. -/
theorem raised_of_error (s : State) (e : Err) : Raised s (complete s (.error e)) e.code.toNat where
  busy := rfl
  done := rfl
  err := rfl
  errcode := rfl
  cmdr := rfl
  schedule := rfl
  readData := rfl
  draws := rfl
  flag := rfl
  same _ _ := rfl
  sameMark _ _ := rfl

/-- A well-formed command runs its rule on the registers. -/
theorem runCommand_wellFormed (i : Instr) (s : State) (body : Regs → Res Effect) (h : i.wellFormed = true) :
    runCommand i s body = .next (complete s (body s.w)) := by
  rw [runCommand, if_pos h]

/-- A term that is no legal command raises IllegalCommand. -/
theorem runCommand_illFormed (i : Instr) (s : State) (body : Regs → Res Effect) (h : i.wellFormed = false) :
    runCommand i s body = .next (raiseError s .illegalCommand) := by
  rw [runCommand, h]; rfl

/-- Every command answers a next state. -/
theorem runCommand_next (i : Instr) (s : State) (body : Regs → Res Effect) : ∃ t, runCommand i s body = .next t :=
  ⟨_, rfl⟩

end Sys2Proof.Laws
end

