-- ==== Sys2Proof/Laws/Curve.lean ====
section
/-! SUPPORT. Doubling, addition and the scalar loop of the machine are the relations of Safety/Reference.lean
(44_curve_point.md R502 to R506), and the only error they raise is InverseOfZero. -/

namespace Sys2Proof.Laws

open Sys2Proof.Machine
open Sys2Proof.Reference
open Sys2Proof.Config (p)

/-! ## No level has characteristic 2 -/

theorem add_self_F {a : F} (h : a + a = 0) : a = 0 := by
  have : Fact (Nat.Prime p) := ⟨p_prime⟩
  rw [← two_mul] at h
  exact (mul_eq_zero.mp h).resolve_left two_ne_zero_F

theorem add_self_prod {γ δ : Type} [AddCommGroup γ] [AddCommGroup δ] (hγ : ∀ a : γ, a + a = 0 → a = 0)
    (hδ : ∀ a : δ, a + a = 0 → a = 0) (a : γ × δ) (h : a + a = 0) : a = 0 :=
  Prod.ext (hγ _ (congrArg Prod.fst h)) (hδ _ (congrArg Prod.snd h))

theorem add_self_F2 (a : F2) (h : a + a = 0) : a = 0 := add_self_prod (fun _ => add_self_F) (fun _ => add_self_F) a h
theorem add_self_F6 (a : F6) (h : a + a = 0) : a = 0 :=
  add_self_prod add_self_F2 (add_self_prod add_self_F2 add_self_F2) a h
theorem add_self_F12 (a : F12) (h : a + a = 0) : a = 0 := add_self_prod add_self_F6 add_self_F6 a h

/-- A level on which the group law is defined: linked to the reference, with inverses, of odd characteristic. -/
structure CurveLink {α β : Type} [AddCommGroup β] (L : Level α) (T : Tower β) (f : α → β) : Prop where
  link : Link L T f
  inv : HasInverse L T f
  addSelf : ∀ a : β, a + a = 0 → a = 0

theorem curve1 : CurveLink lv1 T1 toF := ⟨link1, inverse1, fun _ => add_self_F⟩
theorem curve2 : CurveLink lv2 T2 toF2 := ⟨link2, inverse2, add_self_F2⟩
theorem curve12 : CurveLink lv12 T12 toF12 := ⟨link12, inverse12, add_self_F12⟩

variable {α β : Type} [AddCommGroup β] {L : Level α} {T : Tower β} {f : α → β}

/-- A quotient: with `d c = 1`, the equation `s d = n` has the one solution `s = n c`. -/
theorem quotient_unique (link : Link L T f) {d c n s : β} (h : T.mul d c = T.one) : T.mul s d = n ↔ s = T.mul n c := by
  constructor
  · intro hs
    rw [← hs, link.mulAssoc, h, link.mulOne]
  · intro hs
    rw [hs, link.mulAssoc, link.mulComm c, h, link.mulOne]

/-- An inverse gives a value or raises InverseOfZero. -/
theorem inv_cases (inv : HasInverse L T f) (a : α) :
    (f a ≠ 0 ∧ ∃ c, L.inv a = .ok c ∧ T.mul (f a) (f c) = T.one) ∨ (f a = 0 ∧ L.inv a = .error .inverseOfZero) := by
  by_cases h : f a = 0
  · exact .inr ⟨h, inv.zero a h⟩
  · exact .inl ⟨h, inv.ne a h⟩

theorem f_twice (link : Link L T f) (a : α) : f (twice L a) = f a + f a := link.add a a
theorem f_thrice (link : Link L T f) (a : α) : f (thrice L a) = f a + f a + f a := by
  rw [thrice, link.add, link.add]

/-! ## Doubling (R502) -/

/-- All that doubling does. -/
theorem dblPoint_cases (c : CurveLink L T f) (P : Point α) :
    (∃ R, dblPoint L P = .ok R ∧ IsDouble T (mapPoint f P) (mapPoint f R)) ∨
    (P.inf = false ∧ f P.y = 0 ∧ dblPoint L P = .error .inverseOfZero) := by
  cases hP : P.inf
  · rcases inv_cases c.inv (twice L P.y) with ⟨hne, d, hd, h1⟩ | ⟨h0, herr⟩
    · refine .inl ⟨_, by rw [dblPoint, hP, hd]; rfl, .inr ⟨hP, ?_, ?_⟩⟩
      · intro hy
        apply hne
        change f P.y = 0 at hy
        rw [f_twice c.link, hy, add_zero]
      · rw [f_twice c.link] at h1
        refine ⟨_, (quotient_unique c.link h1).mpr rfl, rfl, ?_, ?_⟩
        · simp only [mapPoint, c.link.sub, c.link.mul, f_thrice c.link]
        · simp only [mapPoint, c.link.sub, c.link.mul, f_thrice c.link]
    · refine .inr ⟨rfl, c.addSelf _ (by rw [← f_twice c.link, h0]), ?_⟩
      rw [dblPoint, hP, herr]
      rfl
  · exact .inl ⟨P, if_pos hP, .inl ⟨hP, rfl⟩⟩

theorem isDouble_unique (c : CurveLink L T f) (P : Point α) {R R' : Point β} (h : IsDouble T (mapPoint f P) R)
    (h' : IsDouble T (mapPoint f P) R') : R = R' := by
  rcases h with ⟨hi, h⟩ | ⟨hi, hy, s, hs, h1, h2, h3⟩
  · rcases h' with ⟨_, h'⟩ | ⟨hi', _⟩
    · rw [h, h']
    · rw [hi] at hi'; cases hi'
  · rcases h' with ⟨hi', _⟩ | ⟨_, _, s', hs', h1', h2', h3'⟩
    · rw [hi] at hi'; cases hi'
    · have hne : f (twice L P.y) ≠ 0 := fun h0 => hy (c.addSelf _ (by rw [f_twice c.link] at h0; exact h0))
      obtain ⟨d, _, hd⟩ := c.inv.ne _ hne
      rw [f_twice c.link] at hd
      have e := (quotient_unique c.link hd).mp hs
      have e' := (quotient_unique c.link hd).mp hs'
      have hss : s = s' := e.trans e'.symm
      cases R; cases R'
      simp only at h1 h2 h3 h1' h2' h3'
      subst hss h1 h2 h1' h2' h3 h3'
      rfl

/-- Doubling is the relation of the reference. -/
theorem dblPoint_iff (c : CurveLink L T f) (P : Point α) (R : Point β) :
    IsDouble T (mapPoint f P) R ↔ ∃ R0, dblPoint L P = .ok R0 ∧ mapPoint f R0 = R := by
  rcases dblPoint_cases c P with ⟨R0, h0, hd⟩ | ⟨hi, hy, he⟩
  · constructor
    · exact fun h => ⟨R0, h0, isDouble_unique c P hd h⟩
    · rintro ⟨R1, h1, rfl⟩
      rw [h0] at h1
      cases h1
      exact hd
  · constructor
    · rintro (⟨hi', _⟩ | ⟨_, hy', _⟩)
      · exact absurd (hi.symm.trans hi') (by decide)
      · exact absurd hy hy'
    · rintro ⟨R1, h1, _⟩
      rw [he] at h1
      cases h1

/-! ## Addition (R503) -/

theorem mapPoint_infinity (link : Link L T f) : mapPoint f (infPoint L) = infinity := by
  simp only [mapPoint, infPoint, infinity, link.zero]

theorem mapPoint_negPoint (link : Link L T f) (P : Point α) : mapPoint f (negPoint L P) = negated (mapPoint f P) := by
  simp only [mapPoint, negPoint, negated, link.neg]

theorem isSum_unique (c : CurveLink L T f) (P Q : Point α) {R R' : Point β}
    (h : IsSum T (mapPoint f P) (mapPoint f Q) R) (h' : IsSum T (mapPoint f P) (mapPoint f Q) R') : R = R' := by
  rcases h with ⟨h1, h⟩ | ⟨h1, h2, h⟩ | ⟨h1, h2, h3, h4, h⟩ | ⟨h1, h2, h3, h4, h⟩ | ⟨h1, h2, h3, s, hs, ha, hb, hc⟩ <;>
  rcases h' with ⟨g1, g⟩ | ⟨g1, g2, g⟩ | ⟨g1, g2, g3, g4, g⟩ | ⟨g1, g2, g3, g4, g⟩ | ⟨g1, g2, g3, s', gs, ga, gb, gc⟩ <;>
  first
    | exact h.trans g.symm
    | exact isDouble_unique c P h g
    | exact absurd (h1.symm.trans g1) (by decide)
    | exact absurd (h2.symm.trans g2) (by decide)
    | exact absurd h4 g4
    | exact absurd g4 h4
    | exact absurd h3 g3
    | exact absurd g3 h3
    | skip
  have hne : f (L.sub Q.x P.x) ≠ 0 := by
    rw [c.link.sub]
    exact fun h => h3 (sub_eq_zero.mp h).symm
  obtain ⟨d, _, hd⟩ := c.inv.ne _ hne
  rw [c.link.sub] at hd
  have hss : s = s' := ((quotient_unique c.link hd).mp hs).trans ((quotient_unique c.link hd).mp gs).symm
  cases R; cases R'
  simp only at ha hb hc ga gb gc
  subst hss ha hb ga gb hc gc
  rfl

variable [DecidableEq α]

/-- All that addition does. -/
theorem addPoint_cases (c : CurveLink L T f) (P Q : Point α) :
    (∃ R, addPoint L P Q = .ok R ∧ IsSum T (mapPoint f P) (mapPoint f Q) (mapPoint f R)) ∨
    (P.inf = false ∧ Q.inf = false ∧ f P.x = f Q.x ∧ f P.y = f Q.y ∧ f P.y = 0 ∧
      addPoint L P Q = .error .inverseOfZero) := by
  cases hP : P.inf
  · cases hQ : Q.inf
    · by_cases hx : P.x = Q.x
      · by_cases hy : P.y = Q.y
        · have hadd : addPoint L P Q = dblPoint L P := by
            rw [addPoint, hP, hQ]; simp only [Bool.false_eq_true, if_false]; rw [if_pos ⟨hx, hy⟩]
          rw [hadd]
          rcases dblPoint_cases c P with ⟨R, h, hd⟩ | ⟨hi, h0, he⟩
          · exact .inl ⟨R, h, .inr (.inr (.inl ⟨hP, hQ, congrArg f hx, congrArg f hy, hd⟩))⟩
          · exact .inr ⟨rfl, rfl, congrArg f hx, congrArg f hy, h0, he⟩
        · refine .inl ⟨infPoint L, ?_, .inr (.inr (.inr (.inl ⟨hP, hQ, congrArg f hx, fun h => hy (c.link.injective h),
            mapPoint_infinity c.link⟩)))⟩
          rw [addPoint, hP, hQ]
          simp only [Bool.false_eq_true, if_false]
          rw [if_neg (fun h => hy h.2), if_pos hx]
      · have hne : f (L.sub Q.x P.x) ≠ 0 := by
          rw [c.link.sub]
          exact fun h => hx (c.link.injective (sub_eq_zero.mp h).symm)
        obtain ⟨d, hd, h1⟩ := c.inv.ne _ hne
        have hslope : ∀ s', s' = L.mul (L.sub Q.y P.y) d → (addPoint L P Q = .ok ⟨L.sub (L.sub (L.mul s' s') P.x) Q.x,
            L.sub (L.mul (L.sub P.x (L.sub (L.sub (L.mul s' s') P.x) Q.x)) s') P.y, false⟩) := by
          rintro _ rfl
          rw [addPoint, hP, hQ]
          simp only [Bool.false_eq_true, if_false]
          rw [if_neg (fun h => hx h.1), if_neg hx, hd]
          rfl
        refine .inl ⟨_, hslope _ rfl, .inr (.inr (.inr (.inr ⟨hP, hQ, fun h => hx (c.link.injective h), ?_⟩)))⟩
        rw [c.link.sub] at h1
        refine ⟨_, (quotient_unique c.link h1).mpr rfl, rfl, ?_, ?_⟩
        · simp only [mapPoint, c.link.sub, c.link.mul]
        · simp only [mapPoint, c.link.sub, c.link.mul]
    · refine .inl ⟨P, ?_, .inr (.inl ⟨hP, hQ, rfl⟩)⟩
      rw [addPoint, hP, hQ]
      rfl
  · exact .inl ⟨Q, if_pos hP, .inl ⟨hP, rfl⟩⟩

/-- Addition is the relation of the reference. -/
theorem addPoint_iff (c : CurveLink L T f) (P Q : Point α) (R : Point β) :
    IsSum T (mapPoint f P) (mapPoint f Q) R ↔ ∃ R0, addPoint L P Q = .ok R0 ∧ mapPoint f R0 = R := by
  rcases addPoint_cases c P Q with ⟨R0, h0, hd⟩ | ⟨hP, hQ, hx, hy, h0, he⟩
  · constructor
    · exact fun h => ⟨R0, h0, isSum_unique c P Q hd h⟩
    · rintro ⟨R1, h1, rfl⟩
      rw [h0] at h1
      cases h1
      exact hd
  · constructor
    · intro h
      exfalso
      rcases h with ⟨h1, _⟩ | ⟨_, h2, _⟩ | ⟨_, _, _, _, h⟩ | ⟨_, _, _, h4, _⟩ | ⟨_, _, h3, _⟩
      · exact absurd (hP.symm.trans h1) (by decide)
      · exact absurd (hQ.symm.trans h2) (by decide)
      · rcases h with ⟨h1, _⟩ | ⟨_, h1, _⟩
        · exact absurd (hP.symm.trans h1) (by decide)
        · exact h1 h0
      · exact h4 hy
      · exact h3 hx
    · rintro ⟨R1, h1, _⟩
      rw [he] at h1
      cases h1

/-! ## The scalar loop (R506) -/

/-- One pass through the loop, on an odd or an even scalar. -/
theorem mulAdd_even (acc base : Point α) (k : Nat) (h : k % 2 = 0) : mulAdd L acc base k = .ok acc :=
  if_neg (by omega)

omit [AddCommGroup β] in
theorem mulAdd_odd (acc base : Point α) (k : Nat) (h : k % 2 = 1) : mulAdd L acc base k = addPoint L acc base :=
  if_pos h

theorem mulLoop_zero (fuel : Nat) (acc base : Point α) : mulLoop L fuel acc base 0 = .ok acc := by
  cases fuel <;> rfl

theorem mulRun_zero {acc base R : Point β} (h : MulRun T 0 acc base R) : R = acc := by
  generalize hk : (0 : Nat) = k at h
  cases h with
  | stop => rfl
  | last => omega
  | even k' => omega
  | odd k' => omega

/-- The loop is the relation of the reference. -/
theorem mulLoop_iff (c : CurveLink L T f) (fuel k : Nat) (hk : k < 2 ^ fuel) (acc base : Point α) (R : Point β) :
    MulRun T k (mapPoint f acc) (mapPoint f base) R ↔ ∃ R0, mulLoop L fuel acc base k = .ok R0 ∧ mapPoint f R0 = R := by
  induction fuel generalizing k acc base with
  | zero =>
    have hk0 : k = 0 := by simpa using hk
    subst hk0
    constructor
    · exact fun h => ⟨acc, rfl, (mulRun_zero h).symm⟩
    · rintro ⟨R0, h, rfl⟩
      cases h
      exact .stop _ _
  | succ fuel ih =>
    have hk2 : k / 2 < 2 ^ fuel := by rw [pow_succ] at hk; omega
    by_cases h0 : k = 0
    · subst h0
      rw [mulLoop_zero]
      constructor
      · exact fun h => ⟨acc, rfl, (mulRun_zero h).symm⟩
      · rintro ⟨R0, h, rfl⟩
        cases h
        exact .stop _ _
    rw [mulLoop, if_neg h0]
    constructor
    · intro h
      cases h with
      | stop => exact absurd rfl h0
      | last _ _ _ hs =>
        obtain ⟨R0, h1, h2⟩ := (addPoint_iff c acc base R).mp hs
        refine ⟨R0, ?_, h2⟩
        rw [mulAdd_odd _ _ _ rfl, h1]
        exact mulLoop_zero fuel R0 base
      | even k' _ _ base' _ hpos hd hrun =>
        obtain ⟨B0, h1, h2⟩ := (dblPoint_iff c base base').mp hd
        subst h2
        obtain ⟨R0, h3, h4⟩ := (ih k' (by omega) acc B0).mp hrun
        refine ⟨R0, ?_, h4⟩
        rw [mulAdd_even _ _ _ (by omega), show 2 * k' / 2 = k' by omega, mulDouble, if_neg (by omega), h1]
        exact h3
      | odd k' _ _ acc' base' _ hpos hs hd hrun =>
        obtain ⟨A0, h1, h2⟩ := (addPoint_iff c acc base acc').mp hs
        subst h2
        obtain ⟨B0, h3, h4⟩ := (dblPoint_iff c base base').mp hd
        subst h4
        obtain ⟨R0, h5, h6⟩ := (ih k' (by omega) A0 B0).mp hrun
        refine ⟨R0, ?_, h6⟩
        rw [mulAdd_odd _ _ _ (by omega), show (2 * k' + 1) / 2 = k' by omega, mulDouble, if_neg (by omega), h1, h3]
        exact h5
    · rintro ⟨R0, h, rfl⟩
      rcases Nat.mod_two_eq_zero_or_one k with hmod | hmod
      · have hz : k / 2 ≠ 0 := by omega
        rw [mulAdd_even _ _ _ hmod, mulDouble, if_neg hz] at h
        cases hdbl : dblPoint L base with
        | error e => rw [hdbl] at h; cases h
        | ok B0 =>
          rw [hdbl] at h
          have hd := (dblPoint_iff c base _).mpr ⟨B0, hdbl, rfl⟩
          have := MulRun.even (k / 2) _ _ _ _ (by omega) hd ((ih (k / 2) hk2 acc B0).mpr ⟨R0, h, rfl⟩)
          rwa [show 2 * (k / 2) = k by omega] at this
      · rw [mulAdd_odd _ _ _ hmod] at h
        cases hadd : addPoint L acc base with
        | error e => rw [hadd] at h; cases h
        | ok A0 =>
          rw [hadd] at h
          have hsum := (addPoint_iff c acc base _).mpr ⟨A0, hadd, rfl⟩
          by_cases hz : k / 2 = 0
          · have hk1 : k = 1 := by omega
            subst hk1
            have : mulLoop L fuel A0 base 0 = .ok R0 := h
            rw [mulLoop_zero] at this
            cases this
            exact .last _ _ _ hsum
          · rw [mulDouble, if_neg hz] at h
            cases hdbl : dblPoint L base with
            | error e => rw [hdbl] at h; cases h
            | ok B0 =>
              rw [hdbl] at h
              have hd := (dblPoint_iff c base _).mpr ⟨B0, hdbl, rfl⟩
              have := MulRun.odd (k / 2) _ _ _ _ _ (by omega) hsum hd ((ih (k / 2) hk2 A0 B0).mpr ⟨R0, h, rfl⟩)
              rwa [show 2 * (k / 2) + 1 = k by omega] at this

/-- The scalar multiple is the relation of the reference. -/
theorem mulPoint_iff (c : CurveLink L T f) (k : Nat) (sn : Bool) (P : Point α) (R : Point β) :
    IsMultiple T k sn (mapPoint f P) R ↔ ∃ R0, mulPoint L k sn P = .ok R0 ∧ mapPoint f R0 = R := by
  rw [IsMultiple, mulPoint, ← mulLoop_iff c _ k Nat.lt_log2_self, mapPoint_infinity c.link]
  cases sn
  · rfl
  · rw [if_pos rfl, if_pos rfl, mapPoint_negPoint c.link]

/-- The only error of the scalar loop. -/
theorem mulLoop_error (c : CurveLink L T f) (fuel k : Nat) (acc base : Point α) (e : Err)
    (h : mulLoop L fuel acc base k = .error e) : e = .inverseOfZero := by
  induction fuel generalizing k acc base with
  | zero => cases h
  | succ fuel ih =>
    rw [mulLoop] at h
    split at h
    · cases h
    · have hadd : ∀ e', mulAdd L acc base k = .error e' → e' = .inverseOfZero := by
        intro e' h'
        rw [mulAdd] at h'
        split at h'
        · rcases addPoint_cases c acc base with ⟨R, h1, _⟩ | ⟨_, _, _, _, _, h1⟩
          · rw [h1] at h'; cases h'
          · rw [h1] at h'; cases h'; rfl
        · cases h'
      have hdbl : ∀ e', mulDouble L base (k / 2) = .error e' → e' = .inverseOfZero := by
        intro e' h'
        rw [mulDouble] at h'
        split at h'
        · cases h'
        · rcases dblPoint_cases c base with ⟨R, h1, _⟩ | ⟨_, _, h1⟩
          · rw [h1] at h'; cases h'
          · rw [h1] at h'; cases h'; rfl
      cases h1 : mulAdd L acc base k with
      | error e' => rw [h1] at h; cases h; exact hadd _ h1
      | ok A =>
        rw [h1] at h
        cases h2 : mulDouble L base (k / 2) with
        | error e' => rw [h2] at h; cases h; exact hdbl _ h2
        | ok B => rw [h2] at h; exact ih _ _ _ h

/-- The subgroup test is the infinity flag of the multiple by the subgroup order (R511). -/
theorem inSubgroup_iff (c : CurveLink L T f) (P : Point α) (b : Bool) :
    inSubgroup L P = .ok b ↔ ∃ R, IsMultiple T Config.r false (mapPoint f P) R ∧ R.inf = b := by
  rw [inSubgroup]
  constructor
  · intro h
    cases hm : mulPoint L Config.r false P with
    | error e => rw [hm] at h; cases h
    | ok Q =>
      rw [hm] at h
      cases h
      exact ⟨_, (mulPoint_iff c _ _ P _).mpr ⟨Q, hm, rfl⟩, rfl⟩
  · rintro ⟨R, hR, rfl⟩
    obtain ⟨Q, hm, rfl⟩ := (mulPoint_iff c _ _ P _).mp hR
    rw [hm]
    rfl

end Sys2Proof.Laws
end

