-- ==== Sys2Proof/Laws/Exec.lean ====
section
/-! SUPPORT. What `exec` is: the operand check, the rule of the command on the registers, the completion. -/

namespace Sys2Proof.Laws

open Sys2Proof.Machine

/-- The rule of each command. -/
def ruleOf : Instr → Regs → Res Effect
  | .fzero1 rd => constRule lv1 fpZero rd
  | .fzero2 rd => constRule lv2 fp2Zero rd
  | .fzero6 rd => constRule lv6 fp6Zero rd
  | .fzero12 rd => constRule lv12 fp12Zero rd
  | .fone1 rd => constRule lv1 fpOne rd
  | .fone2 rd => constRule lv2 fp2One rd
  | .fone6 rd => constRule lv6 fp6One rd
  | .fone12 rd => constRule lv12 fp12One rd
  | .fadd1 rd ra rb => binaryRule lv1 fpAdd rd ra rb
  | .fadd2 rd ra rb => binaryRule lv2 fp2Add rd ra rb
  | .fadd6 rd ra rb => binaryRule lv6 fp6Add rd ra rb
  | .fadd12 rd ra rb => binaryRule lv12 fp12Add rd ra rb
  | .fsub1 rd ra rb => binaryRule lv1 fpSub rd ra rb
  | .fsub2 rd ra rb => binaryRule lv2 fp2Sub rd ra rb
  | .fsub6 rd ra rb => binaryRule lv6 fp6Sub rd ra rb
  | .fsub12 rd ra rb => binaryRule lv12 fp12Sub rd ra rb
  | .fneg1 rd ra => unaryRule lv1 (fun a => .ok (fpNeg a)) rd ra
  | .fneg2 rd ra => unaryRule lv2 (fun a => .ok (fp2Neg a)) rd ra
  | .fneg6 rd ra => unaryRule lv6 (fun a => .ok (fp6Neg a)) rd ra
  | .fneg12 rd ra => unaryRule lv12 (fun a => .ok (fp12Neg a)) rd ra
  | .fmul1 rd ra rb => binaryRule lv1 fpMul rd ra rb
  | .fmul2 rd ra rb => binaryRule lv2 fp2Mul rd ra rb
  | .fmul6 rd ra rb => binaryRule lv6 fp6Mul rd ra rb
  | .fmul12 rd ra rb => binaryRule lv12 fp12Mul rd ra rb
  | .finv1 rd ra => unaryRule lv1 fpInv rd ra
  | .finv2 rd ra => unaryRule lv2 fp2Inv rd ra
  | .finv6 rd ra => unaryRule lv6 fp6Inv rd ra
  | .finv12 rd ra => unaryRule lv12 fp12Inv rd ra
  | .fpow1 rd ra rb => powRule lv1 rd ra rb
  | .fpow2 rd ra rb => powRule lv2 rd ra rb
  | .fpow6 rd ra rb => powRule lv6 rd ra rb
  | .fpow12 rd ra rb => powRule lv12 rd ra rb
  | .fmulnr2 rd ra => unaryRule lv2 (fun a => .ok (fp2MulNr a)) rd ra
  | .fmulnr6 rd ra => unaryRule lv6 (fun a => .ok (fp6MulNr a)) rd ra
  | .fmulnr12 rd ra => unaryRule lv12 (fun _ => .error .undefinedOperation) rd ra
  | .feq1 ra rb => eqRule lv1 ra rb
  | .feq2 ra rb => eqRule lv2 ra rb
  | .feq6 ra rb => eqRule lv6 ra rb
  | .feq12 ra rb => eqRule lv12 ra rb
  | .fisone1 ra => isOneRule lv1 ra
  | .fisone2 ra => isOneRule lv2 ra
  | .fisone6 ra => isOneRule lv6 ra
  | .fisone12 ra => isOneRule lv12 ra
  | .padd1 rd ra rb => paddRule lv1 rd ra rb
  | .padd2 rd ra rb => paddRule lv2 rd ra rb
  | .padd12 rd ra rb => paddRule lv12 rd ra rb
  | .pdbl1 rd ra => pdblRule lv1 rd ra
  | .pdbl2 rd ra => pdblRule lv2 rd ra
  | .pdbl12 rd ra => pdblRule lv12 rd ra
  | .pneg1 rd ra => pnegRule lv1 rd ra
  | .pneg2 rd ra => pnegRule lv2 rd ra
  | .pneg12 rd ra => pnegRule lv12 rd ra
  | .pmul1 rd ra rb sn => pmulRule lv1 rd ra rb sn
  | .pmul2 rd ra rb sn => pmulRule lv2 rd ra rb sn
  | .pmul12 rd ra rb sn => pmulRule lv12 rd ra rb sn
  | .poncurve1 ra => poncurveRule lv1 curveB1 ra
  | .poncurve2 ra => poncurveRule lv2 curveB2 ra
  | .poncurve12 ra => poncurveRule lv12 curveB12 ra
  | .pinsubgrp1 ra => pinsubgrpRule lv1 ra
  | .pinsubgrp2 ra => pinsubgrpRule lv2 ra
  | .pinsubgrp12 ra => pinsubgrpRule lv12 ra
  | .untwist rd ra => untwistRule rd ra
  | .dbleval rd ra rb => dblevalRule rd ra rb
  | .addeval rd ra rb rc => addevalRule rd ra rb rc
  | .miller rd ra rb => millerRule rd ra rb
  | .pairing rd ra rb => pairingRule rd ra rb
  | .finalexp rd ra => unaryRule lv12 (fun f => .ok (finalExp f)) rd ra
  | .sqrt1 rd ra => unaryRule lv1 tsSqrt rd ra
  | .sqrt2 rd ra => unaryRule lv2 fp2Sqrt rd ra
  | .compress1 rd ra => compress1Rule rd ra
  | .compress2 rd ra => compress2Rule rd ra
  | .decompress1 rd ra => decompress1Rule rd ra
  | .decompress2 rd ra => decompress2Rule rd ra

/-- A command checks its operands and runs its rule. -/
theorem exec_eq (i : Instr) (s : State) : exec i s = runCommand i s (ruleOf i) := by cases i <;> rfl

/-- All that a legal command does. -/
theorem exec_wellFormed (i : Instr) (s : State) (h : i.wellFormed = true) :
    exec i s = .next (complete s (ruleOf i s.w)) := by
  rw [exec_eq, runCommand, if_pos h]

/-- A term with an operand past the register file is IllegalCommand. -/
theorem exec_illFormed (i : Instr) (s : State) (h : i.wellFormed = false) :
    exec i s = .next (raiseError s .illegalCommand) := by
  rw [exec_eq, runCommand, h]; rfl

/-- Every command answers a next state, and it is no longer busy but done. -/
theorem exec_next (i : Instr) (s : State) :
    ∃ t, exec i s = .next t ∧ t.busy = false ∧ t.done = true ∧ t.cmdr = s.cmdr ∧ t.schedule = s.schedule := by
  cases h : i.wellFormed
  · exact ⟨_, exec_illFormed i s h, rfl, rfl, rfl, rfl⟩
  · refine ⟨_, exec_wellFormed i s h, ?_⟩
    cases hr : ruleOf i s.w with
    | error e => exact ⟨rfl, rfl, rfl, rfl⟩
    | ok e => cases e <;> simp [complete, applyEffect]

end Sys2Proof.Laws
end

