-- ==== Sys2Proof/Laws/Pairing.lean ====
section
/-! SUPPORT. The untwist, the line values and the Miller loop of the machine are the relations of Safety/Reference.lean
(45_pairing.md R541 to R545), and the errors they raise are InfinityOperand and InverseOfZero. -/

namespace Sys2Proof.Laws

open Sys2Proof.Machine
open Sys2Proof.Reference
open Sys2Proof.Config (p)

/-! ## Untwist (R541) -/

/-- `1/(u + 1)` as the machine holds it. -/
def halfFp2 : Fp2 := ⟨fpOfNat ((p + 1) / 2), fpOfNat ((p - 1) / 2)⟩

theorem toF2_half : toF2 halfFp2 = half2 := by
  simp only [toF2, halfFp2, toF_fpOfNat, half2]

theorem fp12Inv_wSquared : fp12Inv wSquared = .ok ⟨⟨fp2Zero, fp2Zero, halfFp2⟩, fp6Zero⟩ := by decide +kernel

theorem fp12Inv_wCubed : fp12Inv wCubed = .ok ⟨fp6Zero, ⟨fp2Zero, halfFp2, fp2Zero⟩⟩ := by decide +kernel

theorem half2_mul : mul2 half2 (1, 1) = (1, 0) := by
  have h : toF2 (fp2Mul halfFp2 ⟨fpOne, fpOne⟩) = toF2 fp2One := congrArg toF2 (by decide +kernel)
  rw [toF2_mul, toF2_half, toF2_one] at h
  have h1 : toF2 ⟨fpOne, fpOne⟩ = (1, 1) := by simp only [toF2, toF_one]
  rw [h1] at h
  exact h

theorem mul2_half_eq_zero {a : F2} : mul2 a half2 = 0 ↔ a = 0 := by
  constructor
  · intro h
    have : mul2 (mul2 a half2) (1, 1) = 0 := by rw [h, mul2_comm, mul2_zero]
    rwa [mul2_assoc, half2_mul, mul2_one] at this
  · intro h
    rw [h, mul2_comm, mul2_zero]

theorem mul2_half_injective {a b : F2} (h : mul2 a half2 = mul2 b half2) : a = b := by
  rw [← sub_eq_zero, ← mul2_half_eq_zero, sub_eq_add_neg, add_mul2, h, ← add_mul2, add_neg_cancel, mul2_comm, mul2_zero]

theorem toF12_mk (a b : Fp6) : toF12 ⟨a, b⟩ = (toF6 a, toF6 b) := rfl
theorem toF6_mk (a b c : Fp2) : toF6 ⟨a, b, c⟩ = (toF2 a, toF2 b, toF2 c) := rfl

theorem toF12_lift2 (a : Fp2) : toF12 (lift2 a) = ((toF2 a, 0, 0), 0) := by
  rw [lift2, toF12_mk, toF6_mk, toF2_zero, toF6_zero]

theorem toF12_lift1 (a : Fp) : toF12 (lift1 a) = lift (toF a) := by
  rw [lift1, toF12_lift2]
  simp only [toF2, toF_zero]
  rfl

theorem zero_mul2 (a : F2) : mul2 0 a = 0 := by rw [mul2_comm, mul2_zero]

theorem mul12_slotX (a h : F2) : mul12 ((a, 0, 0), 0) ((0, 0, h), 0) = ((0, 0, mul2 a h), 0) := by
  simp only [mul12, mul6_zero, mul6_comm 0, timesV_zero, add_zero]
  simp only [mul6, mul2_zero, zero_mul2, timesNr_zero, add_zero]

theorem mul12_slotY (a h : F2) : mul12 ((a, 0, 0), 0) (0, (0, h, 0)) = (0, (0, mul2 a h, 0)) := by
  simp only [mul12, mul6_zero, mul6_comm 0, timesV_zero, add_zero, zero_add]
  simp only [mul6, mul2_zero, zero_mul2, timesNr_zero, add_zero]

/-- `untw(Q)` is the closed form. -/
theorem untwistPoint_ok (Q : Point Fp2) :
    ∃ U, untwistPoint Q = .ok U ∧ toF12 U.x = untwistX (mapPoint toF2 Q) ∧ toF12 U.y = untwistY (mapPoint toF2 Q) ∧
      U.inf = false := by
  refine ⟨⟨fp12Mul (lift2 Q.x) ⟨⟨fp2Zero, fp2Zero, halfFp2⟩, fp6Zero⟩,
    fp12Mul (lift2 Q.y) ⟨fp6Zero, ⟨fp2Zero, halfFp2, fp2Zero⟩⟩, false⟩, ?_, ?_, ?_, rfl⟩
  · rw [untwistPoint, fp12Inv_wSquared, fp12Inv_wCubed]
    rfl
  · rw [toF12_mul, toF12_lift2, toF12_mk, toF6_mk, toF2_zero, toF6_zero, toF2_half]
    exact mul12_slotX _ _
  · rw [toF12_mul, toF12_lift2, toF12_mk, toF6_zero, toF6_mk, toF2_zero, toF2_half]
    exact mul12_slotY _ _

theorem untwistY_double_eq_zero {Q : Point F2} : untwistY Q + untwistY Q = 0 ↔ Q.y = 0 := by
  constructor
  · intro h
    have h' := add_self_F12 _ h
    simp only [untwistY, Prod.ext_iff, Prod.fst_zero, Prod.snd_zero] at h'
    exact mul2_half_eq_zero.mp (Prod.ext h'.2.2.1.1 h'.2.2.1.2)
  · intro h
    have h' : untwistY Q = 0 := by
      rw [untwistY, h, zero_mul2]
      rfl
    rw [h', add_zero]

theorem untwistX_injective {Q R : Point F2} : untwistX Q = untwistX R ↔ Q.x = R.x := by
  constructor
  · intro h
    simp only [untwistX, Prod.mk.injEq] at h
    exact mul2_half_injective h.1.2.2
  · intro h
    rw [untwistX, untwistX, h]

theorem untwistY_neg {Q R : Point F2} : untwistY Q = -untwistY R ↔ Q.y = -R.y := by
  have hneg : -untwistY R = untwistY (negated R) := by
    have : -mul2 R.y half2 = mul2 (-R.y) half2 := by
      rw [neg_eq_iff_add_eq_zero, ← add_mul2, add_neg_cancel, zero_mul2]
    simp only [untwistY, negated, Prod.neg_mk, neg_zero, this]
  rw [hneg]
  constructor
  · intro h
    simp only [untwistY, negated, Prod.mk.injEq] at h
    exact mul2_half_injective h.2.2.1
  · intro h
    rw [untwistY, untwistY, h, negated]

/-! ## The line values (R543, R544) -/

theorem toF12_lineAt (Q : Point Fp2) (U : Point Fp12) (slope : Fp12) (P : Point Fp)
    (hx : toF12 U.x = untwistX (mapPoint toF2 Q)) (hy : toF12 U.y = untwistY (mapPoint toF2 Q)) :
    toF12 (lineAt U slope P) = lineValue (toF12 slope) (mapPoint toF2 Q) (mapPoint toF P) := by
  simp only [lineAt, lineValue, toF12_sub, toF12_mul, toF12_lift1, hx, hy, mapPoint]

theorem dblEval_inf (R : Point Fp2) (P : Point Fp) (h : R.inf = true ∨ P.inf = true) :
    dblEval R P = .error .infinityOperand := by
  rw [dblEval, if_pos (by simpa using h)]

/-- All that `dbl_eval` does on finite points. -/
theorem dblEval_cases (R : Point Fp2) (P : Point Fp) (hR : R.inf = false) (hP : P.inf = false) :
    (∃ l, dblEval R P = .ok l ∧ IsTangentValue (mapPoint toF2 R) (mapPoint toF P) (toF12 l)) ∨
    (toF2 R.y = 0 ∧ dblEval R P = .error .inverseOfZero) := by
  obtain ⟨U, hU, hx, hy, _⟩ := untwistPoint_ok R
  have hd : dblEval R P = (do
      let d ← fp12Inv (twice lv12 U.y)
      return lineAt U (fp12Mul (fp12Mul (thrice lv12 U.x) U.x) d) P) := by
    rw [dblEval, if_neg (by simp [hR, hP]), hU, ok_bind]
  rw [hd]
  have hyy : toF12 (twice lv12 U.y) = untwistY (mapPoint toF2 R) + untwistY (mapPoint toF2 R) := by
    rw [f_twice link12, hy]
  rcases inv_cases inverse12 (twice lv12 U.y) with ⟨hne, c, hc, h1⟩ | ⟨h0, he⟩
  · have hc' : fp12Inv (twice lv12 U.y) = .ok c := hc
    rw [hc']
    refine .inl ⟨lineAt U (fp12Mul (fp12Mul (thrice lv12 U.x) U.x) c) P, rfl, ?_⟩
    refine ⟨?_, toF12 (fp12Mul (fp12Mul (thrice lv12 U.x) U.x) c), ?_, toF12_lineAt R U _ P hx hy⟩
    · intro h0
      exact hne (by rw [hyy]; exact untwistY_double_eq_zero.mpr h0)
    · rw [← hyy]
      refine (quotient_unique link12 h1).mpr ?_
      rw [toF12_mul, toF12_mul, f_thrice link12, hx]
      rfl
  · have he' : fp12Inv (twice lv12 U.y) = .error .inverseOfZero := he
    rw [he']
    rw [hyy] at h0
    exact .inr ⟨untwistY_double_eq_zero.mp h0, rfl⟩

theorem isTangentValue_unique {R : Point F2} {P : Point F} {l l' : F12} (h : IsTangentValue R P l)
    (h' : IsTangentValue R P l') : l = l' := by
  obtain ⟨hy, s, hs, rfl⟩ := h
  obtain ⟨_, s', hs', rfl⟩ := h'
  have hsurj : ∃ a : Fp12, toF12 a = untwistY R + untwistY R := by
    obtain ⟨a, _, ha⟩ := link12.build (fun k => .ok (fpOfNat ((flat12 (untwistY R + untwistY R)).getD k 0).val))
      (fun k => fpOfNat ((flat12 (untwistY R + untwistY R)).getD k 0).val) (fun _ _ => rfl)
    have : NeZero p := ⟨by decide⟩
    refine ⟨a, ha.trans ?_⟩
    simp only [toF_fpOfNat, ZMod.natCast_val, ZMod.cast_id', id_eq]
    rfl
  obtain ⟨a, ha⟩ := hsurj
  obtain ⟨c, _, hc⟩ := inverse12.ne a (by rw [ha]; exact fun h => hy (untwistY_double_eq_zero.mp h))
  rw [ha] at hc
  rw [(quotient_unique link12 hc).mp hs, (quotient_unique link12 hc).mp hs']

/-- Every reference element of level 12 is the image of a machine element. -/
theorem toF12_surjective (b : F12) : ∃ a : Fp12, toF12 a = b := by
  obtain ⟨a, _, ha⟩ := link12.build (fun k => .ok (fpOfNat ((flat12 b).getD k 0).val))
    (fun k => fpOfNat ((flat12 b).getD k 0).val) (fun _ _ => rfl)
  have : NeZero p := ⟨by decide⟩
  refine ⟨a, ha.trans ?_⟩
  simp only [toF_fpOfNat, ZMod.natCast_val, ZMod.cast_id', id_eq]
  rfl

/-- `dbl_eval` is the relation of the reference. -/
theorem dblEval_iff (R : Point Fp2) (P : Point Fp) (hR : R.inf = false) (hP : P.inf = false) (l : F12) :
    IsTangentValue (mapPoint toF2 R) (mapPoint toF P) l ↔ ∃ l0, dblEval R P = .ok l0 ∧ toF12 l0 = l := by
  rcases dblEval_cases R P hR hP with ⟨l0, h0, hl⟩ | ⟨hy, he⟩
  · constructor
    · exact fun h => ⟨l0, h0, isTangentValue_unique hl h⟩
    · rintro ⟨l1, h1, rfl⟩
      rw [h0] at h1
      cases h1
      exact hl
  · constructor
    · exact fun h => absurd hy h.1
    · rintro ⟨l1, h1, _⟩
      rw [he] at h1
      cases h1

theorem addEval_inf (R Q : Point Fp2) (P : Point Fp) (h : R.inf = true ∨ Q.inf = true ∨ P.inf = true) :
    addEval R Q P = .error .infinityOperand := by
  rw [addEval, if_pos (by simpa [or_assoc] using h)]

/-- All that `add_eval` does on finite points. -/
theorem addEval_cases (R Q : Point Fp2) (P : Point Fp) (hR : R.inf = false) (hQ : Q.inf = false) (hP : P.inf = false) :
    (∃ l, addEval R Q P = .ok l ∧ IsSecantValue (mapPoint toF2 R) (mapPoint toF2 Q) (mapPoint toF P) (toF12 l)) ∨
    (toF2 R.x = toF2 Q.x ∧ toF2 R.y ≠ -toF2 Q.y ∧ addEval R Q P = .error .inverseOfZero) := by
  obtain ⟨U, hU, hUx, hUy, _⟩ := untwistPoint_ok R
  obtain ⟨V, hV, hVx, hVy, _⟩ := untwistPoint_ok Q
  have hd : addEval R Q P = (if U.x = V.x ∧ U.y = fp12Neg V.y then return fp12Sub (lift1 P.x) U.x
      else do
        let d ← fp12Inv (fp12Sub V.x U.x)
        return lineAt V (fp12Mul (fp12Sub V.y U.y) d) P) := by
    rw [addEval, if_neg (by simp [hR, hQ, hP]), hU, hV, ok_bind, ok_bind]
  rw [hd]
  have hxx : U.x = V.x ↔ (mapPoint toF2 R).x = (mapPoint toF2 Q).x := by
    rw [← untwistX_injective, ← hUx, ← hVx, toF12_injective.eq_iff]
  have hyy : U.y = fp12Neg V.y ↔ (mapPoint toF2 R).y = -(mapPoint toF2 Q).y := by
    rw [← untwistY_neg, ← hUy, ← hVy, ← toF12_neg, toF12_injective.eq_iff]
  by_cases hx : U.x = V.x
  · by_cases hy : U.y = fp12Neg V.y
    · rw [if_pos ⟨hx, hy⟩]
      refine .inl ⟨_, rfl, .inl ⟨hxx.mp hx, hyy.mp hy, ?_⟩⟩
      rw [toF12_sub, toF12_lift1, hUx]
      rfl
    · rw [if_neg (fun h => hy h.2)]
      have h0 : toF12 (fp12Sub V.x U.x) = 0 := by rw [toF12_sub, hx, sub_self]
      have he : fp12Inv (fp12Sub V.x U.x) = .error .inverseOfZero := inverse12.zero _ h0
      rw [he]
      exact .inr ⟨hxx.mp hx, fun h => hy (hyy.mpr h), rfl⟩
  · rw [if_neg (fun h => hx h.1)]
    have hne : toF12 (fp12Sub V.x U.x) ≠ 0 := by
      rw [toF12_sub]
      exact fun h => hx (toF12_injective (sub_eq_zero.mp h).symm)
    obtain ⟨c, hc, h1⟩ := inverse12.ne _ hne
    have hc' : fp12Inv (fp12Sub V.x U.x) = .ok c := hc
    rw [hc']
    refine .inl ⟨lineAt V (fp12Mul (fp12Sub V.y U.y) c) P, rfl, ?_⟩
    refine .inr ⟨fun h => hx (hxx.mpr h), toF12 (fp12Mul (fp12Sub V.y U.y) c), ?_, toF12_lineAt Q V _ P hVx hVy⟩
    rw [toF12_sub, hUx, hVx] at h1
    refine (quotient_unique link12 h1).mpr ?_
    rw [toF12_mul, toF12_sub, hUy, hVy]
    rfl

theorem isSecantValue_unique {R Q : Point F2} {P : Point F} {l l' : F12} (h : IsSecantValue R Q P l)
    (h' : IsSecantValue R Q P l') : l = l' := by
  rcases h with ⟨hx, _, rfl⟩ | ⟨hx, s, hs, rfl⟩
  · rcases h' with ⟨_, _, rfl⟩ | ⟨hx', _⟩
    · rfl
    · exact absurd hx hx'
  · rcases h' with ⟨hx', _⟩ | ⟨_, s', hs', rfl⟩
    · exact absurd hx' hx
    · obtain ⟨a, ha⟩ := toF12_surjective (untwistX Q - untwistX R)
      obtain ⟨c, _, hc⟩ := inverse12.ne a (by
        rw [ha]
        exact fun h => hx (untwistX_injective.mp (sub_eq_zero.mp h).symm))
      rw [ha] at hc
      rw [(quotient_unique link12 hc).mp hs, (quotient_unique link12 hc).mp hs']

/-- `add_eval` is the relation of the reference. -/
theorem addEval_iff (R Q : Point Fp2) (P : Point Fp) (hR : R.inf = false) (hQ : Q.inf = false) (hP : P.inf = false)
    (l : F12) :
    IsSecantValue (mapPoint toF2 R) (mapPoint toF2 Q) (mapPoint toF P) l ↔ ∃ l0, addEval R Q P = .ok l0 ∧ toF12 l0 = l := by
  rcases addEval_cases R Q P hR hQ hP with ⟨l0, h0, hl⟩ | ⟨hx, hy, he⟩
  · constructor
    · exact fun h => ⟨l0, h0, isSecantValue_unique hl h⟩
    · rintro ⟨l1, h1, rfl⟩
      rw [h0] at h1
      cases h1
      exact hl
  · constructor
    · rintro (⟨_, hy', _⟩ | ⟨hx', _⟩)
      · exact absurd hy' hy
      · exact absurd hx hx'
    · rintro ⟨l1, h1, _⟩
      rw [he] at h1
      cases h1

/-! ## The Miller loop (R545) -/

theorem millerBits_printed : millerBits = printedBits := by decide +kernel

/-- One pass through the loop. -/
theorem millerLoop_cons (P : Point Fp) (Q : Point Fp2) (b : Bool) (bs : List Bool) (f : Fp12) (R : Point Fp2) (l : Fp12)
    (R' : Point Fp2) (hl : dblEval R P = .ok l) (hR' : dblPoint lv2 R = .ok R') :
    millerLoop P Q (b :: bs) f R = (if b then do
      let l' ← addEval R' Q P
      let R'' ← addPoint lv2 R' Q
      millerLoop P Q bs (fp12Mul (fp12Mul (fp12Mul f f) l) l') R''
    else millerLoop P Q bs (fp12Mul (fp12Mul f f) l) R') := by
  rw [millerLoop, hl]
  change (do
    let R ← dblPoint lv2 R
    if b then do
      let l' ← addEval R Q P
      let R'' ← addPoint lv2 R Q
      millerLoop P Q bs (fp12Mul (fp12Mul (fp12Mul f f) l) l') R''
    else millerLoop P Q bs (fp12Mul (fp12Mul f f) l) R) = _
  rw [hR']
  rfl

/-- The loop is the relation of the reference. -/
theorem millerLoop_iff (P : Point Fp) (Q : Point Fp2) (hP : P.inf = false) (hQ : Q.inf = false) (bs : List Bool)
    (f : Fp12) (R : Point Fp2) (g : F12) :
    MillerRun (mapPoint toF P) (mapPoint toF2 Q) bs (toF12 f) (mapPoint toF2 R) g ↔
      ∃ g0, millerLoop P Q bs f R = .ok g0 ∧ toF12 g0 = g := by
  induction bs generalizing f R with
  | nil =>
    constructor
    · intro h
      cases h
      exact ⟨f, rfl, rfl⟩
    · rintro ⟨g0, h, rfl⟩
      cases h
      exact .done _ _
  | cons b bs ih =>
    constructor
    · intro h
      cases h with
      | bit0 _ _ l _ _ R' hR hl hd hrun =>
        obtain ⟨l0, h1, rfl⟩ := (dblEval_iff R P hR hP l).mp hl
        obtain ⟨R0, h2, rfl⟩ := (dblPoint_iff curve2 R R').mp hd
        rw [← toF12_mul, ← toF12_mul] at hrun
        obtain ⟨g0, h3, h4⟩ := (ih _ _).mp hrun
        exact ⟨g0, by rw [millerLoop_cons P Q _ _ _ _ _ _ h1 h2]; exact h3, h4⟩
      | bit1 _ _ l l' _ _ R' R'' hR hl hd hR' hl' hs hrun =>
        obtain ⟨l0, h1, rfl⟩ := (dblEval_iff R P hR hP l).mp hl
        obtain ⟨R0, h2, rfl⟩ := (dblPoint_iff curve2 R R').mp hd
        obtain ⟨l1, h3, rfl⟩ := (addEval_iff R0 Q P hR' hQ hP l').mp hl'
        obtain ⟨R1, h4, rfl⟩ := (addPoint_iff curve2 R0 Q R'').mp hs
        rw [← toF12_mul, ← toF12_mul, ← toF12_mul] at hrun
        obtain ⟨g0, h5, h6⟩ := (ih _ _).mp hrun
        refine ⟨g0, ?_, h6⟩
        rw [millerLoop_cons P Q _ _ _ _ _ _ h1 h2, if_pos rfl, h3]
        have h4' : addPoint lv2 R0 Q = .ok R1 := h4
        rw [h4']
        exact h5
    · rintro ⟨g0, h, rfl⟩
      cases hRi : R.inf with
      | true =>
        rw [millerLoop, dblEval_inf R P (.inl hRi)] at h
        cases h
      | false =>
        cases h1 : dblEval R P with
        | error e => rw [millerLoop, h1] at h; cases h
        | ok l =>
          have hl := (dblEval_iff R P hRi hP _).mpr ⟨l, h1, rfl⟩
          cases h2 : dblPoint lv2 R with
          | error e =>
            rw [millerLoop, h1] at h
            simp only [bind, Except.bind, h2] at h
            cases h
          | ok R0 =>
            have hd := (dblPoint_iff curve2 R _).mpr ⟨R0, h2, rfl⟩
            rw [millerLoop_cons P Q _ _ _ _ _ _ h1 h2] at h
            cases b with
            | false =>
              have hrun := (ih (fp12Mul (fp12Mul f f) l) R0).mpr ⟨g0, h, rfl⟩
              rw [toF12_mul, toF12_mul] at hrun
              exact .bit0 _ _ _ _ _ _ hRi hl hd hrun
            | true =>
              rw [if_pos rfl] at h
              cases hRi' : R0.inf with
              | true =>
                rw [addEval_inf R0 Q P (.inl hRi')] at h
                cases h
              | false =>
                cases h3 : addEval R0 Q P with
                | error e => rw [h3] at h; cases h
                | ok l' =>
                  have hl' := (addEval_iff R0 Q P hRi' hQ hP _).mpr ⟨l', h3, rfl⟩
                  rw [h3] at h
                  cases h4 : addPoint lv2 R0 Q with
                  | error e =>
                    simp only [bind, Except.bind, h4] at h
                    cases h
                  | ok R1 =>
                    have hs := (addPoint_iff curve2 R0 Q _).mpr ⟨R1, h4, rfl⟩
                    simp only [bind, Except.bind, h4] at h
                    have hrun := (ih (fp12Mul (fp12Mul (fp12Mul f f) l) l') R1).mpr ⟨g0, h, rfl⟩
                    rw [toF12_mul, toF12_mul, toF12_mul] at hrun
                    exact .bit1 _ _ _ _ _ _ _ _ hRi hl hd hRi' hl' hs hrun

/-- The Miller function is the relation of the reference. -/
theorem millerFn_iff (P : Point Fp) (Q : Point Fp2) (hP : P.inf = false) (hQ : Q.inf = false) (g : F12) :
    IsMiller (mapPoint toF P) (mapPoint toF2 Q) g ↔ ∃ g0, millerFn P Q = .ok g0 ∧ toF12 g0 = g := by
  rw [IsMiller, ← toF12_one, ← millerBits_printed]
  exact millerLoop_iff P Q hP hQ millerBits fp12One Q g

end Sys2Proof.Laws
end

