-- ==== Sys2Proof/Laws/Fast.lean ====
section
/-! SUPPORT. Evaluation for the tests and the witnesses: the inverse by Euclid's algorithm instead of a power, so that the
kernel evaluates a scalar multiple by `r` and a Miller loop in seconds, and multiples of a point of order 3 without any
evaluation. -/

namespace Sys2Proof.Laws

open Sys2Proof.Machine
open Sys2Proof.Reference
open Sys2Proof.Config (p r)

/-! ## The inverse -/

/-- Euclid's algorithm on `r0, r1` with the cofactors of the start value, signs left out: the last cofactor, and whether the
number of steps is odd. -/
def euclid : Nat → Nat → Nat → Nat → Nat → Bool → Nat × Bool
  | 0, _, _, s0, _, odd => (s0, odd)
  | fuel + 1, r0, r1, s0, s1, odd =>
    if r1 = 0 then (s0, odd) else euclid fuel r1 (r0 % r1) s1 (s0 + r0 / r1 * s1) (!odd)

/-- A candidate for the inverse; nothing is claimed of it. -/
def candidate (a : Fp) : Fp :=
  match euclid 600 p a.val 0 1 false with
  | (c, true) => fpOfNat c
  | (c, false) => fpOfNat (p - c % p)

/-- The inverse: the candidate if it is one. -/
def fpInvFast (a : Fp) : Res Fp := if fpMul a (candidate a) = fpOne then .ok (candidate a) else fpInv a

theorem fpInv_eq_fast (a : Fp) : fpInv a = fpInvFast a := by
  rw [fpInvFast]
  split
  · next h =>
    have h1 : toF a * toF (candidate a) = 1 := by rw [← toF_mul, h, toF_one]
    obtain ⟨c, hc, h2⟩ := fpInv_of_ne a (fun h0 => by
      rw [h0, zero_mul] at h1
      have : Fact (Nat.Prime p) := ⟨p_prime⟩
      exact zero_ne_one h1)
    rw [hc]
    refine congrArg _ (toF_injective ?_)
    calc toF c = toF a * toF (candidate a) * toF c := by rw [h1, one_mul]
      _ = toF a * toF c * toF (candidate a) := by ring
      _ = toF (candidate a) := by rw [h2, one_mul]
  · rfl

def fp2InvFast (a : Fp2) : Res Fp2 := do
  let f ← fpInvFast (fpAdd (fpMul a.a0 a.a0) (fpMul a.a1 a.a1))
  return ⟨fpMul a.a0 f, fpMul (fpNeg a.a1) f⟩

theorem fp2Inv_eq_fast (a : Fp2) : fp2Inv a = fp2InvFast a := by rw [fp2Inv, fpInv_eq_fast]; rfl

def fp6InvFast (a : Fp6) : Res Fp6 := do
  let f ← fp2InvFast (fp6Norm a)
  return ⟨fp2Mul (fp6InvParts a).b0 f, fp2Mul (fp6InvParts a).b1 f, fp2Mul (fp6InvParts a).b2 f⟩

theorem fp6Inv_eq_fast (a : Fp6) : fp6Inv a = fp6InvFast a := by rw [fp6Inv, fp2Inv_eq_fast]; rfl

def fp12InvFast (a : Fp12) : Res Fp12 := do
  let factor ← fp6InvFast (fp6Sub (fp6Mul a.c0 a.c0) (fp6MulNr (fp6Mul a.c1 a.c1)))
  return ⟨fp6Mul a.c0 factor, fp6Mul (fp6Neg a.c1) factor⟩

theorem fp12Inv_eq_fast (a : Fp12) : fp12Inv a = fp12InvFast a := by rw [fp12Inv, fp6Inv_eq_fast]; rfl

/-! ## The levels -/

def lv1Fast : Level Fp := { lv1 with inv := fpInvFast }
def lv2Fast : Level Fp2 := { lv2 with inv := fp2InvFast }

theorem lv1_eq_fast : lv1 = lv1Fast := by
  rw [lv1Fast, ← show fpInv = fpInvFast from funext fpInv_eq_fast]; rfl

theorem lv2_eq_fast : lv2 = lv2Fast := by
  rw [lv2Fast, ← show fp2Inv = fp2InvFast from funext fp2Inv_eq_fast]; rfl

/-! ## The Miller loop -/

def untwistFast (Q : Point Fp2) : Point Fp12 :=
  ⟨fp12Mul (lift2 Q.x) ⟨⟨fp2Zero, fp2Zero, halfFp2⟩, fp6Zero⟩,
   fp12Mul (lift2 Q.y) ⟨fp6Zero, ⟨fp2Zero, halfFp2, fp2Zero⟩⟩, false⟩

theorem untwistPoint_eq_fast (Q : Point Fp2) : untwistPoint Q = .ok (untwistFast Q) := by
  rw [untwistPoint, fp12Inv_wSquared, ok_bind, fp12Inv_wCubed]; rfl

def dblEvalFast (R : Point Fp2) (P : Point Fp) : Res Fp12 :=
  if R.inf || P.inf then .error .infinityOperand
  else do
    let d ← fp12InvFast (twice lv12 (untwistFast R).y)
    return lineAt (untwistFast R) (fp12Mul (fp12Mul (thrice lv12 (untwistFast R).x) (untwistFast R).x) d) P

theorem dblEval_eq_fast (R : Point Fp2) (P : Point Fp) : dblEval R P = dblEvalFast R P := by
  rw [dblEval, dblEvalFast, untwistPoint_eq_fast, ok_bind, fp12Inv_eq_fast]

def addEvalFast (R Q : Point Fp2) (P : Point Fp) : Res Fp12 :=
  if R.inf || Q.inf || P.inf then .error .infinityOperand
  else if (untwistFast R).x = (untwistFast Q).x ∧ (untwistFast R).y = fp12Neg (untwistFast Q).y then
    .ok (fp12Sub (lift1 P.x) (untwistFast R).x)
  else do
    let d ← fp12InvFast (fp12Sub (untwistFast Q).x (untwistFast R).x)
    return lineAt (untwistFast Q) (fp12Mul (fp12Sub (untwistFast Q).y (untwistFast R).y) d) P

theorem addEval_eq_fast (R Q : Point Fp2) (P : Point Fp) : addEval R Q P = addEvalFast R Q P := by
  rw [addEval, addEvalFast, untwistPoint_eq_fast, untwistPoint_eq_fast, ok_bind, ok_bind, fp12Inv_eq_fast]
  split
  · rfl
  · split <;> rfl

def millerLoopFast (P : Point Fp) (Q : Point Fp2) : List Bool → Fp12 → Point Fp2 → Res Fp12
  | [], f, _ => .ok f
  | b :: bs, f, R => do
    let l ← dblEvalFast R P
    let R' ← dblPoint lv2Fast R
    if b then
      let l' ← addEvalFast R' Q P
      let R'' ← addPoint lv2Fast R' Q
      millerLoopFast P Q bs (fp12Mul (fp12Mul (fp12Mul f f) l) l') R''
    else millerLoopFast P Q bs (fp12Mul (fp12Mul f f) l) R'

theorem millerLoop_eq_fast (P : Point Fp) (Q : Point Fp2) (bs : List Bool) (f : Fp12) (R : Point Fp2) :
    millerLoop P Q bs f R = millerLoopFast P Q bs f R := by
  induction bs generalizing f R with
  | nil => rfl
  | cons b bs ih =>
    simp only [millerLoop, millerLoopFast, ih, dblEval_eq_fast, addEval_eq_fast, ← lv2_eq_fast]

theorem millerFn_eq_fast (P : Point Fp) (Q : Point Fp2) : millerFn P Q = millerLoopFast P Q millerBits fp12One Q :=
  millerLoop_eq_fast P Q millerBits fp12One Q

/-! ## Multiples of a point of small order -/

/-- The points `pts 0`, .., `pts (n-1)` add like the numbers mod `n`. -/
structure Cyclic {α : Type} [DecidableEq α] (L : Level α) (n : Nat) [NeZero n] (pts : Fin n → Point α) : Prop where
  zero : pts 0 = infPoint L
  add : ∀ i j, addPoint L (pts i) (pts j) = .ok (pts (i + j))
  dbl : ∀ i, dblPoint L (pts i) = .ok (pts (i + i))

/-- The multiple is found by multiplying indices. -/
theorem mulLoop_cyclic {α : Type} [DecidableEq α] {L : Level α} {n : Nat} [NeZero n] {pts : Fin n → Point α}
    (h : Cyclic L n pts) (fuel k : Nat) (hk : k < 2 ^ fuel) (i j : Fin n) :
    mulLoop L fuel (pts i) (pts j) k = .ok (pts (Fin.ofNat n (i.val + k * j.val))) := by
  induction fuel generalizing k i j with
  | zero =>
    have : k = 0 := by simpa using hk
    subst this
    simp [mulLoop]
  | succ fuel ih =>
    rw [mulLoop]
    split
    · next h0 => subst h0; simp
    · next h0 =>
      have hadd : mulAdd L (pts i) (pts j) k = .ok (pts (Fin.ofNat n (i.val + k % 2 * j.val))) := by
        rw [mulAdd]
        split
        · next h1 =>
          rw [h.add, h1]
          refine congrArg _ (congrArg _ (Fin.ext ?_))
          simp [Fin.val_add]
        · next h1 => rw [show k % 2 = 0 by omega]; simp
      rw [hadd, ok_bind, mulDouble]
      split
      · next h2 =>
        have h1 : k = 1 := by omega
        subst h1
        rw [ok_bind, show 1 / 2 = 0 from rfl, mulLoop_zero]
      · next h2 =>
        rw [h.dbl, ok_bind, ih (k / 2) (by rw [pow_succ] at hk; omega)]
        refine congrArg _ (congrArg _ (Fin.ext ?_))
        simp only [Fin.ofNat, Fin.val_add, Nat.add_mod, Nat.mul_mod, Nat.mod_mod]
        simp only [← Nat.add_mod, ← Nat.mul_mod]
        refine congrArg (· % n) ?_
        have hd := Nat.div_add_mod k 2
        nlinarith [hd]

theorem mulPoint_cyclic {α : Type} [DecidableEq α] {L : Level α} {n : Nat} [NeZero n] {pts : Fin n → Point α}
    (h : Cyclic L n pts) (k : Nat) (j : Fin n) :
    mulPoint L k false (pts j) = .ok (pts (Fin.ofNat n (k * j.val))) := by
  rw [mulPoint, ← h.zero, if_neg Bool.false_ne_true, mulLoop_cyclic h _ _ Nat.lt_log2_self]
  simp

end Sys2Proof.Laws
end

