-- ==== Sys2Proof/Laws/PerInstr.lean ====
section
/-! SUPPORT. Lemmas per command: its word lies in its row of spec/opcode_table.json. -/

namespace Sys2Proof.Laws.TableRow

/-- The mask and the match of a command's row, copied from spec/opcode_table.json. -/
def row : Instr → CmdWord × CmdWord
  | .fzero1 .. => (0xFF03FFFF, 0x04000000)
  | .fzero2 .. => (0xFF03FFFF, 0x05000000)
  | .fzero6 .. => (0xFF03FFFF, 0x06000000)
  | .fzero12 .. => (0xFF03FFFF, 0x07000000)
  | .fone1 .. => (0xFF03FFFF, 0x08000000)
  | .fone2 .. => (0xFF03FFFF, 0x09000000)
  | .fone6 .. => (0xFF03FFFF, 0x0A000000)
  | .fone12 .. => (0xFF03FFFF, 0x0B000000)
  | .fadd1 .. => (0xFF00003F, 0x0C000000)
  | .fadd2 .. => (0xFF00003F, 0x0D000000)
  | .fadd6 .. => (0xFF00003F, 0x0E000000)
  | .fadd12 .. => (0xFF00003F, 0x0F000000)
  | .fsub1 .. => (0xFF00003F, 0x10000000)
  | .fsub2 .. => (0xFF00003F, 0x11000000)
  | .fsub6 .. => (0xFF00003F, 0x12000000)
  | .fsub12 .. => (0xFF00003F, 0x13000000)
  | .fneg1 .. => (0xFF000FFF, 0x14000000)
  | .fneg2 .. => (0xFF000FFF, 0x15000000)
  | .fneg6 .. => (0xFF000FFF, 0x16000000)
  | .fneg12 .. => (0xFF000FFF, 0x17000000)
  | .fmul1 .. => (0xFF00003F, 0x18000000)
  | .fmul2 .. => (0xFF00003F, 0x19000000)
  | .fmul6 .. => (0xFF00003F, 0x1A000000)
  | .fmul12 .. => (0xFF00003F, 0x1B000000)
  | .finv1 .. => (0xFF000FFF, 0x1C000000)
  | .finv2 .. => (0xFF000FFF, 0x1D000000)
  | .finv6 .. => (0xFF000FFF, 0x1E000000)
  | .finv12 .. => (0xFF000FFF, 0x1F000000)
  | .fpow1 .. => (0xFF00003F, 0x20000000)
  | .fpow2 .. => (0xFF00003F, 0x21000000)
  | .fpow6 .. => (0xFF00003F, 0x22000000)
  | .fpow12 .. => (0xFF00003F, 0x23000000)
  | .fmulnr2 .. => (0xFF000FFF, 0x25000000)
  | .fmulnr6 .. => (0xFF000FFF, 0x26000000)
  | .fmulnr12 .. => (0xFF000FFF, 0x27000000)
  | .feq1 .. => (0xFFFC003F, 0x28000000)
  | .feq2 .. => (0xFFFC003F, 0x29000000)
  | .feq6 .. => (0xFFFC003F, 0x2A000000)
  | .feq12 .. => (0xFFFC003F, 0x2B000000)
  | .fisone1 .. => (0xFFFC0FFF, 0x2C000000)
  | .fisone2 .. => (0xFFFC0FFF, 0x2D000000)
  | .fisone6 .. => (0xFFFC0FFF, 0x2E000000)
  | .fisone12 .. => (0xFFFC0FFF, 0x2F000000)
  | .padd1 .. => (0xFF00003F, 0x40000000)
  | .padd2 .. => (0xFF00003F, 0x41000000)
  | .padd12 .. => (0xFF00003F, 0x43000000)
  | .pdbl1 .. => (0xFF000FFF, 0x44000000)
  | .pdbl2 .. => (0xFF000FFF, 0x45000000)
  | .pdbl12 .. => (0xFF000FFF, 0x47000000)
  | .pneg1 .. => (0xFF000FFF, 0x48000000)
  | .pneg2 .. => (0xFF000FFF, 0x49000000)
  | .pneg12 .. => (0xFF000FFF, 0x4B000000)
  | .pmul1 .. => (0xFF00003E, 0x4C000000)
  | .pmul2 .. => (0xFF00003E, 0x4D000000)
  | .pmul12 .. => (0xFF00003E, 0x4F000000)
  | .poncurve1 .. => (0xFFFC0FFF, 0x50000000)
  | .poncurve2 .. => (0xFFFC0FFF, 0x51000000)
  | .poncurve12 .. => (0xFFFC0FFF, 0x53000000)
  | .pinsubgrp1 .. => (0xFFFC0FFF, 0x54000000)
  | .pinsubgrp2 .. => (0xFFFC0FFF, 0x55000000)
  | .pinsubgrp12 .. => (0xFFFC0FFF, 0x57000000)
  | .untwist .. => (0xFF000FFF, 0x80000000)
  | .dbleval .. => (0xFF00003F, 0x84000000)
  | .addeval .. => (0xFF000000, 0x88000000)
  | .miller .. => (0xFF00003F, 0x8C000000)
  | .pairing .. => (0xFF00003F, 0x90000000)
  | .finalexp .. => (0xFF000FFF, 0x94000000)
  | .sqrt1 .. => (0xFF000FFF, 0xC0000000)
  | .sqrt2 .. => (0xFF000FFF, 0xC1000000)
  | .compress1 .. => (0xFF000FFF, 0xC4000000)
  | .compress2 .. => (0xFF000FFF, 0xC5000000)
  | .decompress1 .. => (0xFF000FFF, 0xC8000000)
  | .decompress2 .. => (0xFF000FFF, 0xC9000000)

/-- The word of the command has the bits that its row fixes. -/
def Statement (i : Instr) : Prop := encode i &&& (row i).1 = (row i).2

theorem and_append {m n : Nat} (a b : BitVec m) (c d : BitVec n) : (a ++ c) &&& (b ++ d) = (a &&& b) ++ (c &&& d) := by
  ext i hi
  simp only [BitVec.getElem_and, BitVec.getElem_append]
  split <;> rfl

/-- Masking a word masks its fields. -/
theorem masked (op : BitVec 6) (lv : BitVec 2) (rd ra rb rc : Reg) (mo : BitVec 6) (ml : BitVec 2) (md ma mb mc : Reg) :
    cmdWord op lv rd ra rb rc &&& cmdWord mo ml md ma mb mc =
      cmdWord (op &&& mo) (lv &&& ml) (rd &&& md) (ra &&& ma) (rb &&& mb) (rc &&& mc) := by
  rw [cmdWord, cmdWord, cmdWord]
  rw [← and_append, ← and_append, ← and_append, ← and_append, ← and_append]

/-- The shape of every row: operation and level fixed, each register field masked or not. -/
theorem masked_word (op : BitVec 6) (lv : BitVec 2) (rd ra rb rc : Reg) (md ma mb mc vd va vb vc : Reg)
    (hd : rd &&& md = vd) (ha : ra &&& ma = va) (hb : rb &&& mb = vb) (hc : rc &&& mc = vc) :
    cmdWord op lv rd ra rb rc &&& cmdWord 63 3 md ma mb mc = cmdWord op lv vd va vb vc := by
  rw [masked, hd, ha, hb, hc]
  congr 1
  · exact BitVec.and_allOnes
  · exact BitVec.and_allOnes

/-- A field in use is not in the mask. -/
theorem used (r : Reg) : r &&& 0 = 0 := BitVec.and_zero

/-- A field not in use is masked and zero. -/
theorem unusedField : (0 : Reg) &&& 63 = 0 := rfl

/-- The sign field of `pmul` has bits 5:1 masked and zero. -/
theorem signField_masked (sn : Bool) : signField sn &&& 62 = 0 := by cases sn <;> rfl

theorem fzero1 (rd : Reg) : Statement (.fzero1 rd) :=
  masked_word _ _ _ _ _ _ _ _ _ _ _ _ _ _ (used _) unusedField unusedField unusedField
theorem fzero2 (rd : Reg) : Statement (.fzero2 rd) :=
  masked_word _ _ _ _ _ _ _ _ _ _ _ _ _ _ (used _) unusedField unusedField unusedField
theorem fzero6 (rd : Reg) : Statement (.fzero6 rd) :=
  masked_word _ _ _ _ _ _ _ _ _ _ _ _ _ _ (used _) unusedField unusedField unusedField
theorem fzero12 (rd : Reg) : Statement (.fzero12 rd) :=
  masked_word _ _ _ _ _ _ _ _ _ _ _ _ _ _ (used _) unusedField unusedField unusedField
theorem fone1 (rd : Reg) : Statement (.fone1 rd) :=
  masked_word _ _ _ _ _ _ _ _ _ _ _ _ _ _ (used _) unusedField unusedField unusedField
theorem fone2 (rd : Reg) : Statement (.fone2 rd) :=
  masked_word _ _ _ _ _ _ _ _ _ _ _ _ _ _ (used _) unusedField unusedField unusedField
theorem fone6 (rd : Reg) : Statement (.fone6 rd) :=
  masked_word _ _ _ _ _ _ _ _ _ _ _ _ _ _ (used _) unusedField unusedField unusedField
theorem fone12 (rd : Reg) : Statement (.fone12 rd) :=
  masked_word _ _ _ _ _ _ _ _ _ _ _ _ _ _ (used _) unusedField unusedField unusedField
theorem fadd1 (rd ra rb : Reg) : Statement (.fadd1 rd ra rb) :=
  masked_word _ _ _ _ _ _ _ _ _ _ _ _ _ _ (used _) (used _) (used _) unusedField
theorem fadd2 (rd ra rb : Reg) : Statement (.fadd2 rd ra rb) :=
  masked_word _ _ _ _ _ _ _ _ _ _ _ _ _ _ (used _) (used _) (used _) unusedField
theorem fadd6 (rd ra rb : Reg) : Statement (.fadd6 rd ra rb) :=
  masked_word _ _ _ _ _ _ _ _ _ _ _ _ _ _ (used _) (used _) (used _) unusedField
theorem fadd12 (rd ra rb : Reg) : Statement (.fadd12 rd ra rb) :=
  masked_word _ _ _ _ _ _ _ _ _ _ _ _ _ _ (used _) (used _) (used _) unusedField
theorem fsub1 (rd ra rb : Reg) : Statement (.fsub1 rd ra rb) :=
  masked_word _ _ _ _ _ _ _ _ _ _ _ _ _ _ (used _) (used _) (used _) unusedField
theorem fsub2 (rd ra rb : Reg) : Statement (.fsub2 rd ra rb) :=
  masked_word _ _ _ _ _ _ _ _ _ _ _ _ _ _ (used _) (used _) (used _) unusedField
theorem fsub6 (rd ra rb : Reg) : Statement (.fsub6 rd ra rb) :=
  masked_word _ _ _ _ _ _ _ _ _ _ _ _ _ _ (used _) (used _) (used _) unusedField
theorem fsub12 (rd ra rb : Reg) : Statement (.fsub12 rd ra rb) :=
  masked_word _ _ _ _ _ _ _ _ _ _ _ _ _ _ (used _) (used _) (used _) unusedField
theorem fneg1 (rd ra : Reg) : Statement (.fneg1 rd ra) :=
  masked_word _ _ _ _ _ _ _ _ _ _ _ _ _ _ (used _) (used _) unusedField unusedField
theorem fneg2 (rd ra : Reg) : Statement (.fneg2 rd ra) :=
  masked_word _ _ _ _ _ _ _ _ _ _ _ _ _ _ (used _) (used _) unusedField unusedField
theorem fneg6 (rd ra : Reg) : Statement (.fneg6 rd ra) :=
  masked_word _ _ _ _ _ _ _ _ _ _ _ _ _ _ (used _) (used _) unusedField unusedField
theorem fneg12 (rd ra : Reg) : Statement (.fneg12 rd ra) :=
  masked_word _ _ _ _ _ _ _ _ _ _ _ _ _ _ (used _) (used _) unusedField unusedField
theorem fmul1 (rd ra rb : Reg) : Statement (.fmul1 rd ra rb) :=
  masked_word _ _ _ _ _ _ _ _ _ _ _ _ _ _ (used _) (used _) (used _) unusedField
theorem fmul2 (rd ra rb : Reg) : Statement (.fmul2 rd ra rb) :=
  masked_word _ _ _ _ _ _ _ _ _ _ _ _ _ _ (used _) (used _) (used _) unusedField
theorem fmul6 (rd ra rb : Reg) : Statement (.fmul6 rd ra rb) :=
  masked_word _ _ _ _ _ _ _ _ _ _ _ _ _ _ (used _) (used _) (used _) unusedField
theorem fmul12 (rd ra rb : Reg) : Statement (.fmul12 rd ra rb) :=
  masked_word _ _ _ _ _ _ _ _ _ _ _ _ _ _ (used _) (used _) (used _) unusedField
theorem finv1 (rd ra : Reg) : Statement (.finv1 rd ra) :=
  masked_word _ _ _ _ _ _ _ _ _ _ _ _ _ _ (used _) (used _) unusedField unusedField
theorem finv2 (rd ra : Reg) : Statement (.finv2 rd ra) :=
  masked_word _ _ _ _ _ _ _ _ _ _ _ _ _ _ (used _) (used _) unusedField unusedField
theorem finv6 (rd ra : Reg) : Statement (.finv6 rd ra) :=
  masked_word _ _ _ _ _ _ _ _ _ _ _ _ _ _ (used _) (used _) unusedField unusedField
theorem finv12 (rd ra : Reg) : Statement (.finv12 rd ra) :=
  masked_word _ _ _ _ _ _ _ _ _ _ _ _ _ _ (used _) (used _) unusedField unusedField
theorem fpow1 (rd ra rb : Reg) : Statement (.fpow1 rd ra rb) :=
  masked_word _ _ _ _ _ _ _ _ _ _ _ _ _ _ (used _) (used _) (used _) unusedField
theorem fpow2 (rd ra rb : Reg) : Statement (.fpow2 rd ra rb) :=
  masked_word _ _ _ _ _ _ _ _ _ _ _ _ _ _ (used _) (used _) (used _) unusedField
theorem fpow6 (rd ra rb : Reg) : Statement (.fpow6 rd ra rb) :=
  masked_word _ _ _ _ _ _ _ _ _ _ _ _ _ _ (used _) (used _) (used _) unusedField
theorem fpow12 (rd ra rb : Reg) : Statement (.fpow12 rd ra rb) :=
  masked_word _ _ _ _ _ _ _ _ _ _ _ _ _ _ (used _) (used _) (used _) unusedField
theorem fmulnr2 (rd ra : Reg) : Statement (.fmulnr2 rd ra) :=
  masked_word _ _ _ _ _ _ _ _ _ _ _ _ _ _ (used _) (used _) unusedField unusedField
theorem fmulnr6 (rd ra : Reg) : Statement (.fmulnr6 rd ra) :=
  masked_word _ _ _ _ _ _ _ _ _ _ _ _ _ _ (used _) (used _) unusedField unusedField
theorem fmulnr12 (rd ra : Reg) : Statement (.fmulnr12 rd ra) :=
  masked_word _ _ _ _ _ _ _ _ _ _ _ _ _ _ (used _) (used _) unusedField unusedField
theorem feq1 (ra rb : Reg) : Statement (.feq1 ra rb) :=
  masked_word _ _ _ _ _ _ _ _ _ _ _ _ _ _ unusedField (used _) (used _) unusedField
theorem feq2 (ra rb : Reg) : Statement (.feq2 ra rb) :=
  masked_word _ _ _ _ _ _ _ _ _ _ _ _ _ _ unusedField (used _) (used _) unusedField
theorem feq6 (ra rb : Reg) : Statement (.feq6 ra rb) :=
  masked_word _ _ _ _ _ _ _ _ _ _ _ _ _ _ unusedField (used _) (used _) unusedField
theorem feq12 (ra rb : Reg) : Statement (.feq12 ra rb) :=
  masked_word _ _ _ _ _ _ _ _ _ _ _ _ _ _ unusedField (used _) (used _) unusedField
theorem fisone1 (ra : Reg) : Statement (.fisone1 ra) :=
  masked_word _ _ _ _ _ _ _ _ _ _ _ _ _ _ unusedField (used _) unusedField unusedField
theorem fisone2 (ra : Reg) : Statement (.fisone2 ra) :=
  masked_word _ _ _ _ _ _ _ _ _ _ _ _ _ _ unusedField (used _) unusedField unusedField
theorem fisone6 (ra : Reg) : Statement (.fisone6 ra) :=
  masked_word _ _ _ _ _ _ _ _ _ _ _ _ _ _ unusedField (used _) unusedField unusedField
theorem fisone12 (ra : Reg) : Statement (.fisone12 ra) :=
  masked_word _ _ _ _ _ _ _ _ _ _ _ _ _ _ unusedField (used _) unusedField unusedField
theorem padd1 (rd ra rb : Reg) : Statement (.padd1 rd ra rb) :=
  masked_word _ _ _ _ _ _ _ _ _ _ _ _ _ _ (used _) (used _) (used _) unusedField
theorem padd2 (rd ra rb : Reg) : Statement (.padd2 rd ra rb) :=
  masked_word _ _ _ _ _ _ _ _ _ _ _ _ _ _ (used _) (used _) (used _) unusedField
theorem padd12 (rd ra rb : Reg) : Statement (.padd12 rd ra rb) :=
  masked_word _ _ _ _ _ _ _ _ _ _ _ _ _ _ (used _) (used _) (used _) unusedField
theorem pdbl1 (rd ra : Reg) : Statement (.pdbl1 rd ra) :=
  masked_word _ _ _ _ _ _ _ _ _ _ _ _ _ _ (used _) (used _) unusedField unusedField
theorem pdbl2 (rd ra : Reg) : Statement (.pdbl2 rd ra) :=
  masked_word _ _ _ _ _ _ _ _ _ _ _ _ _ _ (used _) (used _) unusedField unusedField
theorem pdbl12 (rd ra : Reg) : Statement (.pdbl12 rd ra) :=
  masked_word _ _ _ _ _ _ _ _ _ _ _ _ _ _ (used _) (used _) unusedField unusedField
theorem pneg1 (rd ra : Reg) : Statement (.pneg1 rd ra) :=
  masked_word _ _ _ _ _ _ _ _ _ _ _ _ _ _ (used _) (used _) unusedField unusedField
theorem pneg2 (rd ra : Reg) : Statement (.pneg2 rd ra) :=
  masked_word _ _ _ _ _ _ _ _ _ _ _ _ _ _ (used _) (used _) unusedField unusedField
theorem pneg12 (rd ra : Reg) : Statement (.pneg12 rd ra) :=
  masked_word _ _ _ _ _ _ _ _ _ _ _ _ _ _ (used _) (used _) unusedField unusedField
theorem pmul1 (rd ra rb : Reg) (sn : Bool) : Statement (.pmul1 rd ra rb sn) :=
  masked_word _ _ _ _ _ _ _ _ _ _ _ _ _ _ (used _) (used _) (used _) (signField_masked _)
theorem pmul2 (rd ra rb : Reg) (sn : Bool) : Statement (.pmul2 rd ra rb sn) :=
  masked_word _ _ _ _ _ _ _ _ _ _ _ _ _ _ (used _) (used _) (used _) (signField_masked _)
theorem pmul12 (rd ra rb : Reg) (sn : Bool) : Statement (.pmul12 rd ra rb sn) :=
  masked_word _ _ _ _ _ _ _ _ _ _ _ _ _ _ (used _) (used _) (used _) (signField_masked _)
theorem poncurve1 (ra : Reg) : Statement (.poncurve1 ra) :=
  masked_word _ _ _ _ _ _ _ _ _ _ _ _ _ _ unusedField (used _) unusedField unusedField
theorem poncurve2 (ra : Reg) : Statement (.poncurve2 ra) :=
  masked_word _ _ _ _ _ _ _ _ _ _ _ _ _ _ unusedField (used _) unusedField unusedField
theorem poncurve12 (ra : Reg) : Statement (.poncurve12 ra) :=
  masked_word _ _ _ _ _ _ _ _ _ _ _ _ _ _ unusedField (used _) unusedField unusedField
theorem pinsubgrp1 (ra : Reg) : Statement (.pinsubgrp1 ra) :=
  masked_word _ _ _ _ _ _ _ _ _ _ _ _ _ _ unusedField (used _) unusedField unusedField
theorem pinsubgrp2 (ra : Reg) : Statement (.pinsubgrp2 ra) :=
  masked_word _ _ _ _ _ _ _ _ _ _ _ _ _ _ unusedField (used _) unusedField unusedField
theorem pinsubgrp12 (ra : Reg) : Statement (.pinsubgrp12 ra) :=
  masked_word _ _ _ _ _ _ _ _ _ _ _ _ _ _ unusedField (used _) unusedField unusedField
theorem untwist (rd ra : Reg) : Statement (.untwist rd ra) :=
  masked_word _ _ _ _ _ _ _ _ _ _ _ _ _ _ (used _) (used _) unusedField unusedField
theorem dbleval (rd ra rb : Reg) : Statement (.dbleval rd ra rb) :=
  masked_word _ _ _ _ _ _ _ _ _ _ _ _ _ _ (used _) (used _) (used _) unusedField
theorem addeval (rd ra rb rc : Reg) : Statement (.addeval rd ra rb rc) :=
  masked_word _ _ _ _ _ _ _ _ _ _ _ _ _ _ (used _) (used _) (used _) (used _)
theorem miller (rd ra rb : Reg) : Statement (.miller rd ra rb) :=
  masked_word _ _ _ _ _ _ _ _ _ _ _ _ _ _ (used _) (used _) (used _) unusedField
theorem pairing (rd ra rb : Reg) : Statement (.pairing rd ra rb) :=
  masked_word _ _ _ _ _ _ _ _ _ _ _ _ _ _ (used _) (used _) (used _) unusedField
theorem finalexp (rd ra : Reg) : Statement (.finalexp rd ra) :=
  masked_word _ _ _ _ _ _ _ _ _ _ _ _ _ _ (used _) (used _) unusedField unusedField
theorem sqrt1 (rd ra : Reg) : Statement (.sqrt1 rd ra) :=
  masked_word _ _ _ _ _ _ _ _ _ _ _ _ _ _ (used _) (used _) unusedField unusedField
theorem sqrt2 (rd ra : Reg) : Statement (.sqrt2 rd ra) :=
  masked_word _ _ _ _ _ _ _ _ _ _ _ _ _ _ (used _) (used _) unusedField unusedField
theorem compress1 (rd ra : Reg) : Statement (.compress1 rd ra) :=
  masked_word _ _ _ _ _ _ _ _ _ _ _ _ _ _ (used _) (used _) unusedField unusedField
theorem compress2 (rd ra : Reg) : Statement (.compress2 rd ra) :=
  masked_word _ _ _ _ _ _ _ _ _ _ _ _ _ _ (used _) (used _) unusedField unusedField
theorem decompress1 (rd ra : Reg) : Statement (.decompress1 rd ra) :=
  masked_word _ _ _ _ _ _ _ _ _ _ _ _ _ _ (used _) (used _) unusedField unusedField
theorem decompress2 (rd ra : Reg) : Statement (.decompress2 rd ra) :=
  masked_word _ _ _ _ _ _ _ _ _ _ _ _ _ _ (used _) (used _) unusedField unusedField

end Sys2Proof.Laws.TableRow
end

