-- ==== Sys2Proof/Laws/Step.lean ====
section
/-! SUPPORT. What a step is, case by case: the sequencer's turn, the host's transactions, the reset input. -/

namespace Sys2Proof.Laws

open Sys2Proof.Machine

theorem step_nil (s : State) (h : s.schedule = []) : step s = sequencerStep s := by rw [step, h]

theorem step_cons (s : State) (e : Event) (rest : List Event) (h : s.schedule = e :: rest) :
    step s = eventStep (popEvent s rest) e := by rw [step, h]

theorem sequencerStep_idle (s : State) (h : s.busy = false) : sequencerStep s = .next s := by
  rw [sequencerStep, h]; rfl

theorem sequencerStep_legal (s : State) (i : Instr) (h : s.busy = true) (hd : decode s.cmdr = some i) :
    sequencerStep s = exec i s := by
  rw [sequencerStep, if_pos h, hd]

theorem sequencerStep_illegal (s : State) (h : s.busy = true) (hd : decode s.cmdr = none) :
    sequencerStep s = .next (raiseError s .illegalCommand) := by
  rw [sequencerStep, if_pos h, hd]

/-- The sequencer's turn always answers a next state. -/
theorem sequencerStep_next (s : State) : ∃ t, sequencerStep s = .next t := by
  cases h : s.busy
  · exact ⟨_, sequencerStep_idle s h⟩
  · cases hd : decode s.cmdr with
    | none => exact ⟨_, sequencerStep_illegal s h hd⟩
    | some i =>
      obtain ⟨t, ht, _⟩ := exec_next i s
      exact ⟨t, (sequencerStep_legal s i h hd).trans ht⟩

theorem isTransaction_iff (a : Nat) : isTransaction a = true ↔ a % 4 = 0 ∧ a < 4096 := by
  rw [isTransaction, Bool.and_eq_true, beq_iff_eq, decide_eq_true_iff, Config.windowBytes]

theorem eventStep_hostRead (s : State) (a : Nat) (h4 : a % 4 = 0) (h : a < 4096) :
    eventStep s (.hostRead a) = .next (hostRead s a) := if_pos ((isTransaction_iff a).mpr ⟨h4, h⟩)

theorem eventStep_hostWrite (s : State) (a : Nat) (v : Limb) (h4 : a % 4 = 0) (h : a < 4096) :
    eventStep s (.hostWrite a v) = .next (hostWrite s a v) := if_pos ((isTransaction_iff a).mpr ⟨h4, h⟩)

/-- A read with a specified answer. -/
theorem hostRead_some (s : State) (a : Nat) (v : Limb) (h : windowRead s a = some v) :
    hostRead s a = { s with readData := v } := by rw [hostRead, h]

/-- A read whose answer the spec leaves open takes a free value. -/
theorem hostRead_none (s : State) (a : Nat) (h : windowRead s a = none) :
    hostRead s a = { s with readData := Config.hostDraw s.draws, draws := s.draws + 1 } := by rw [hostRead, h]

theorem hostWrite_cmd (s : State) (v : Limb) (h : s.busy = false) : hostWrite s 0 v = accept s v := by
  rw [hostWrite, if_pos rfl, h]; rfl

theorem hostWrite_busy (s : State) (a : Nat) (v : Limb) (h : s.busy = true) : hostWrite s a v = s := by
  simp [hostWrite, h]

theorem hostWrite_reserved (s : State) (a : Nat) (v : Limb) (h : 4 ≤ a) (h' : a < 0x400) : hostWrite s a v = s := by
  rw [hostWrite, if_neg (by omega), if_pos h']

theorem hostWrite_limb (s : State) (a : Nat) (v : Limb) (h : 0x400 ≤ a) (hb : s.busy = false) :
    hostWrite s a v = writeLimb s (limbReg a) (limbIndex a) v := by
  rw [hostWrite, if_neg (by omega), if_neg (by omega), if_neg (by simp [hb])]

end Sys2Proof.Laws
end

