-- ==== Sys2Proof/Tests/Slice0.lean ====
section
/-! SUPPORT. The model's own tests: what the checks refuse, words and effects from the vectors of 95_test_vectors.md and the
examples of the rules, and for every statement with hypotheses a state and operands that meet them. -/

namespace Sys2Proof.Tests

set_option Elab.async false

open Sys2Proof.Machine
open Sys2Proof.Reference
open Sys2Proof.Laws
open Sys2Proof.Config (p)

/-! ## Helpers -/

/-- Writes blocks of registers: base and words. -/
def place (s : State) (blocks : List (Nat × List Nat)) : State :=
  blocks.foldl (fun s b => writeBlock s b.1 (b.2.map (BitVec.ofNat 384))) s

/-- A state after an earlier error, with the given FLAG and blocks of registers. -/
def load (flag : Bool) (blocks : List (Nat × List Nat)) : State :=
  place { State.reset with flag := flag, done := true, err := true, errcode := 3 } blocks

/-- One step from `start` on the command word leaves the registers of `start` with the blocks `want` written, and STATUS. -/
def passes (word : Nat) (flag : Bool) (start want : List (Nat × List Nat)) (status : Nat) : Bool :=
  match step ((load flag start).withFetchWord 32 word) with
  | .next t => (statusWord t).toNat == status && t.w == (place (load flag start) want).w
  | _ => false

/-- One step with this event scheduled. -/
def after (s : State) (e : Event) : State :=
  match step { s with schedule := [e] } with
  | .next t => t
  | _ => s

/-- A busy state with command word `c` and schedule `es`. -/
def busyWith (s : State) (c : CmdWord) (es : List Event) : State := { accept s c with schedule := es }

/-! ## Well-formedness (30_encoding.md R305 step 4, R307) and rejection by name (R305 steps 1 to 4) -/

theorem test_illFormed_rd : (Instr.fmul12 53 0 0).wellFormed = false := by decide
theorem test_illFormed_ra : (Instr.fmul12 0 53 0).wellFormed = false := by decide
theorem test_illFormed_rb : (Instr.fmul12 0 0 53).wellFormed = false := by decide
theorem test_illFormed_rc : (Instr.addeval 0 0 0 62).wellFormed = false := by decide
theorem test_wellFormed_edge : (Instr.fmul12 52 52 52).wellFormed = true ∧ (Instr.addeval 52 59 59 61).wellFormed = true := by
  decide
theorem test_illFormed_raises : exec (.fzero12 53) State.reset = .next (raiseError State.reset .illegalCommand) :=
  exec_illFormed _ _ (by decide)

/-- 95_test_vectors.md V30.1 to V30.16: the step of R305 that rejects each word. -/
theorem test_reject :
    decodeCommand 0x00000000 = .error .reservedOp ∧ decodeCommand 0xFFFFFFFF = .error .reservedOp ∧
    decodeCommand 0x30000000 = .error .reservedOp ∧ decodeCommand 0x24040000 = .error .illegalLevel ∧
    decodeCommand 0x42000000 = .error .illegalLevel ∧ decodeCommand 0x8D2000C0 = .error .illegalLevel ∧
    decodeCommand 0xC2000000 = .error .illegalLevel ∧ decodeCommand 0x04001000 = .error .unusedField ∧
    decodeCommand 0x0C080041 = .error .unusedField ∧ decodeCommand 0x28040040 = .error .unusedField ∧
    decodeCommand 0x4C103002 = .error .unusedField ∧ decodeCommand 0x07D40000 = .error .operandRange ∧
    decodeCommand 0x43A00000 = .error .operandRange ∧ decodeCommand 0x80A00000 = .error .operandRange ∧
    decode 0x07D00000 = some (.fzero12 52) ∧ decode 0x04FC0000 = some (.fzero1 63) := by decide +kernel

/-- An illegal word completes with IllegalCommand (V30.1). -/
theorem test_V30_1 : passes 0x00000000 true [(0, [5])] [] 0x70E = true := by decide +kernel

/-! ## Decoding: the word of an example of each command's rule -/

/-- Words of the examples of the rules, each for its own command. -/
theorem test_decode_fp :
    decode 0x04000000 = some (.fzero1 0) ∧
    decode 0x08000000 = some (.fone1 0) ∧
    decode 0x0C080040 = some (.fadd1 2 0 1) ∧
    decode 0x10080040 = some (.fsub1 2 0 1) ∧
    decode 0x14040000 = some (.fneg1 1 0) ∧
    decode 0x18080040 = some (.fmul1 2 0 1) ∧
    decode 0x1C040000 = some (.finv1 1 0) ∧
    decode 0x20080040 = some (.fpow1 2 0 1) ∧
    decode 0x28000040 = some (.feq1 0 1) ∧
    decode 0x2C000000 = some (.fisone1 0) := by decide +kernel

/-- Words of the examples of the rules, each for its own command. -/
theorem test_decode_fp2 :
    decode 0x05000000 = some (.fzero2 0) ∧
    decode 0x09000000 = some (.fone2 0) ∧
    decode 0x0D100080 = some (.fadd2 4 0 2) ∧
    decode 0x11100080 = some (.fsub2 4 0 2) ∧
    decode 0x15080000 = some (.fneg2 2 0) ∧
    decode 0x19100080 = some (.fmul2 4 0 2) ∧
    decode 0x1D080000 = some (.finv2 2 0) ∧
    decode 0x21100080 = some (.fpow2 4 0 2) ∧
    decode 0x25080000 = some (.fmulnr2 2 0) ∧
    decode 0x29000080 = some (.feq2 0 2) ∧
    decode 0x2D000000 = some (.fisone2 0) := by decide +kernel

/-- Words of the examples of the rules, each for its own command. -/
theorem test_decode_fp6 :
    decode 0x06000000 = some (.fzero6 0) ∧
    decode 0x0A000000 = some (.fone6 0) ∧
    decode 0x0E300180 = some (.fadd6 12 0 6) ∧
    decode 0x12300180 = some (.fsub6 12 0 6) ∧
    decode 0x16180000 = some (.fneg6 6 0) ∧
    decode 0x1A300180 = some (.fmul6 12 0 6) ∧
    decode 0x1E180000 = some (.finv6 6 0) ∧
    decode 0x22300180 = some (.fpow6 12 0 6) ∧
    decode 0x26180000 = some (.fmulnr6 6 0) ∧
    decode 0x2A000180 = some (.feq6 0 6) ∧
    decode 0x2E000000 = some (.fisone6 0) := by decide +kernel

/-- Words of the examples of the rules, each for its own command. -/
theorem test_decode_fp12 :
    decode 0x07000000 = some (.fzero12 0) ∧
    decode 0x0B000000 = some (.fone12 0) ∧
    decode 0x0F600300 = some (.fadd12 24 0 12) ∧
    decode 0x13600300 = some (.fsub12 24 0 12) ∧
    decode 0x17300000 = some (.fneg12 12 0) ∧
    decode 0x1B00C600 = some (.fmul12 0 12 24) ∧
    decode 0x1F300000 = some (.finv12 12 0) ∧
    decode 0x23600300 = some (.fpow12 24 0 12) ∧
    decode 0x27300000 = some (.fmulnr12 12 0) ∧
    decode 0x2B000300 = some (.feq12 0 12) ∧
    decode 0x2F000000 = some (.fisone12 0) := by decide +kernel

/-- Words of the examples of the rules, each for its own command. -/
theorem test_decode_point :
    decode 0x401800C0 = some (.padd1 6 0 3) ∧
    decode 0x41280140 = some (.padd2 10 0 5) ∧
    decode 0x43000640 = some (.padd12 0 0 25) ∧
    decode 0x440C0000 = some (.pdbl1 3 0) ∧
    decode 0x45140000 = some (.pdbl2 5 0) ∧
    decode 0x47640000 = some (.pdbl12 25 0) ∧
    decode 0x480C0000 = some (.pneg1 3 0) ∧
    decode 0x49140000 = some (.pneg2 5 0) ∧
    decode 0x4B640000 = some (.pneg12 25 0) ∧
    decode 0x4C103000 = some (.pmul1 4 3 0 false) ∧
    decode 0x4D283141 = some (.pmul2 10 3 5 true) ∧
    decode 0x4F699000 = some (.pmul12 26 25 0 false) ∧
    decode 0x50000000 = some (.poncurve1 0) ∧
    decode 0x51000000 = some (.poncurve2 0) ∧
    decode 0x53000000 = some (.poncurve12 0) ∧
    decode 0x54000000 = some (.pinsubgrp1 0) ∧
    decode 0x55000000 = some (.pinsubgrp2 0) ∧
    decode 0x57000000 = some (.pinsubgrp12 0) := by decide +kernel

/-- Words of the examples of the rules, each for its own command. -/
theorem test_decode_pairing :
    decode 0x80140000 = some (.untwist 5 0) ∧
    decode 0x84200140 = some (.dbleval 8 0 5) ∧
    decode 0x8800C456 = some (.addeval 0 12 17 22) ∧
    decode 0x8C2000C0 = some (.miller 8 0 3) ∧
    decode 0x902000C0 = some (.pairing 8 0 3) ∧
    decode 0x94300000 = some (.finalexp 12 0) := by decide +kernel

/-- Words of the examples of the rules, each for its own command. -/
theorem test_decode_codec :
    decode 0xC0040000 = some (.sqrt1 1 0) ∧
    decode 0xC1080000 = some (.sqrt2 2 0) ∧
    decode 0xC40C0000 = some (.compress1 3 0) ∧
    decode 0xC5140000 = some (.compress2 5 0) ∧
    decode 0xC8103000 = some (.decompress1 4 3) ∧
    decode 0xC91C5000 = some (.decompress2 7 5) := by decide +kernel

/-! ## The host window (95_test_vectors.md V20.1 to V20.6) -/

theorem test_V20_1 : (after State.reset (.hostRead 4)).readData = 0 ∧ (after State.reset (.hostRead 0)).readData = 0 ∧
    (after State.reset (.hostRead 8)).readData = 0 ∧ (after State.reset (.hostRead 0x3FC)).readData = 0 := by decide +kernel

theorem test_V20_2 : limbReg 0x400 = 0 ∧ limbIndex 0x400 = 0 ∧ limbReg 0x42C = 0 ∧ limbIndex 0x42C = 11 ∧
    limbReg 0x430 = 1 ∧ limbIndex 0x430 = 0 ∧ limbReg 0x5F4 = 10 ∧ limbIndex 0x5F4 = 5 ∧ limbReg 0xFFC = 63 ∧
    limbIndex 0xFFC = 11 := by decide

theorem test_V20_3 : readWord (after State.reset (.hostWrite 0x400 5)).w 0 = 5 ∧
    marks (after State.reset (.hostWrite 0x400 5)) 0 = 1 := by decide +kernel

theorem test_V20_4 : (after (load false [(0, [7])]) (.hostWrite 4 0xFFFFFFFF)).w = (load false [(0, [7])]).w ∧
    (after (load false [(0, [7])]) (.hostWrite 0x100 1)).w = (load false [(0, [7])]).w := by decide +kernel

/-- A write of CMD: BUSY, CMDR, ERR and DONE cleared. -/
theorem test_V20_5_accept :
    statusWord (after (load false [(0, [1, 2])]) (.hostWrite 0 0x0C080040)) = 1 ∧
    (after (load false [(0, [1, 2])]) (.hostWrite 0 0x0C080040)).cmdr = 0x0C080040 := by decide +kernel

/-- While BUSY, writes of CMD and of a limb are ignored. -/
theorem test_V20_5_busy :
    (after (busyWith (load false [(0, [1, 2])]) 0x0C080040 []) (.hostWrite 0 0x04000000)).cmdr = 0x0C080040 ∧
    readWord (after (busyWith (load false [(0, [1, 2])]) 0x0C080040 []) (.hostWrite 0x400 9)).w 0 = 1 := by decide +kernel

/-- While BUSY, a limb reads as a free value; the test can name no value (log 3). -/
theorem test_V20_5_read :
    after (busyWith (load false [(0, [1, 2])]) 0x0C080040 []) (.hostRead 0x460) =
      { busyWith (load false [(0, [1, 2])]) 0x0C080040 [] with readData := Config.hostDraw 0, draws := 1 } := rfl

/-- Completion: STATUS, the sum, CMD still readable. -/
theorem test_V20_5_done :
    statusWord (after (busyWith (load false [(0, [1, 2])]) 0x0C080040 []) .sequencer) = 2 ∧
    readWord (after (busyWith (load false [(0, [1, 2])]) 0x0C080040 []) .sequencer).w 2 = 3 ∧
    (after (busyWith (load false [(0, [1, 2])]) 0x0C080040 []) .sequencer).cmdr = 0x0C080040 := by decide +kernel

/-- Reset during the command: STATUS and CMD are 0; the registers are free values and not tested. -/
theorem test_V20_6 :
    statusWord (after (busyWith (load true [(0, [1, 2])]) 0x0C080040 []) .reset) = 0 ∧
    (after (busyWith (load true [(0, [1, 2])]) 0x0C080040 []) .reset).cmdr = 0 ∧
    marks (after (busyWith (load true [(0, [1, 2])]) 0x0C080040 []) .reset) 0 = 0 := by
  refine ⟨rfl, rfl, by decide +kernel⟩

/-- The word placed by `withFetchWord` is the next command, as its row of the table numbers it. -/
theorem test_withFetchWord : decodeTableWord 32 0x1B00C600 = some (.fmul12 0 12 24) ∧
    (State.reset.withFetchWord 32 0x1B00C600).cmdr = 0x1B00C600 := by decide +kernel

/-- V60.11: the life of an error ends at the next acceptance; FLAG outlives it. -/
theorem test_V60_11 : statusWord (accept (raiseError (load true []) .inverseOfZero) 0x08040000) = 9 ∧
    passes 0x08040000 true [] [(1, [1])] 0xA = true := by decide +kernel

/-! ## One vector for each command (95_test_vectors.md sections 3 to 5) -/

theorem test_V40_1 : passes 0x04140000 false []
    [(5, [0])] 0x2 = true := by decide +kernel

theorem test_V40_2 : passes 0x08140000 false []
    [(5, [1])] 0x2 = true := by decide +kernel

theorem test_V40_4 : passes 0x0C080040 false [(0, [p - 1, 1])]
    [(2, [0])] 0x2 = true := by decide +kernel

theorem test_V40_9 : passes 0x10080040 false [(0, [3, p - 1])]
    [(2, [4])] 0x2 = true := by decide +kernel

theorem test_V40_11 : passes 0x14040000 false [(0, [1])]
    [(1, [p - 1])] 0x2 = true := by decide +kernel

theorem test_V40_17 : passes 0x18080040 false [(0, [0x17f1d3a73197d7942695638c4fa9ac0fc3688c4f9774b905a14e3a3f171bac586c55e83ff97a1aeffb3af00adb22c6bb, 0x8b3f481e3aaa0f1a09e30ed741d8ae4fcf5e095d5d00af600db18cb2c04b3edd03cc744a2888ae40caa232946c5e7e1])]
    [(2, [0x1144f72e5d8a469db166f58521e70676db2c6defa37e40da314436a0645f2511037bf2f1a83aa341bafe74514c615fae])] 0x2 = true := by decide +kernel

theorem test_V40_22 : passes 0x1C040000 false [(0, [3])]
    [(1, [0x11560bf17baa99bc32126fced787c88f984f87adf7ae0c7f9a208c6b4f20a4181472aaa9cb8d555526a9ffffffffc71d])] 0x2 = true := by decide +kernel

theorem test_V40_28 : passes 0x20080040 false [(0, [2, 381])]
    [(2, [0x5feee15c6801965b4e45849bcb453289b88b47b0c7aed4098cf2d5f094f09dbe15400014eac00004601000000005555])] 0x2 = true := by decide +kernel

theorem test_V40_34 : passes 0x28000040 true [(0, [7, 8])]
    [] 0x2 = true := by decide +kernel

theorem test_V40_36 : passes 0x2C000000 false [(0, [1])]
    [] 0xA = true := by decide +kernel

theorem test_V41_1 : passes 0x05000000 false []
    [(0, [0, 0])] 0x2 = true := by decide +kernel

theorem test_V41_2 : passes 0x09000000 false []
    [(0, [1, 0])] 0x2 = true := by decide +kernel

theorem test_V41_3 : passes 0x0D100080 false [(0, [1, 2, 3, 4])]
    [(4, [4, 6])] 0x2 = true := by decide +kernel

theorem test_V41_5 : passes 0x11100080 false [(0, [1, 2, 3, 4])]
    [(4, [p - 2, p - 2])] 0x2 = true := by decide +kernel

theorem test_V41_7 : passes 0x15080000 false [(0, [0, 5])]
    [(2, [0, p - 5])] 0x2 = true := by decide +kernel

theorem test_V41_11 : passes 0x19040080 false [(0, [1, 2, 3, 4])]
    [(0, [1, p - 5, 10, 4])] 0x2 = true := by decide +kernel

theorem test_V41_14 : passes 0x1D080000 false [(0, [1, 2])]
    [(2, [0xa66d3f74a33290a84717648e7b7debc8e961e352e353ab2f613877395e06274d911999913bb33331732ccccccccaaab, 0x53369fba51994854238bb2473dbef5e474b0f1a971a9d597b09c3b9caf0313a6c88cccc89dd99998b99666666665555])] 0x2 = true := by decide +kernel

theorem test_V41_17 : passes 0x21100080 false [(0, [1, 2, 3])]
    [(4, [p - 11, p - 2])] 0x2 = true := by decide +kernel

theorem test_V41_22 : passes 0x25080000 false [(0, [p - 1, 1])]
    [(2, [p - 2, 0])] 0x2 = true := by decide +kernel

theorem test_V41_25 : passes 0x29000080 false [(0, [1, 2, 1, 3])]
    [] 0x2 = true := by decide +kernel

theorem test_V41_26 : passes 0x2D000000 false [(0, [1, 0])]
    [] 0xA = true := by decide +kernel

theorem test_V42_1 : passes 0x06000000 false []
    [(0, [0, 0, 0, 0, 0, 0])] 0x2 = true := by decide +kernel

theorem test_V42_2 : passes 0x0A000000 false []
    [(0, [1, 0, 0, 0, 0, 0])] 0x2 = true := by decide +kernel

theorem test_V42_3 : passes 0x0E300180 false [(0, [1, 2, 3, 4, 5, 6, 7, 8, 9, 10, 11, 12])]
    [(12, [8, 10, 12, 14, 16, 18])] 0x2 = true := by decide +kernel

theorem test_V42_4 : passes 0x12300180 false [(0, [1, 2, 3, 4, 5, 6, 7, 8, 9, 10, 11, 12])]
    [(12, [p - 6, p - 6, p - 6, p - 6, p - 6, p - 6])] 0x2 = true := by decide +kernel

theorem test_V42_5 : passes 0x16180000 false [(0, [1, 2, 3, 4, 5, 6])]
    [(6, [p - 1, p - 2, p - 3, p - 4, p - 5, p - 6])] 0x2 = true := by decide +kernel

theorem test_V42_6 : passes 0x1A300180 false [(0, [1, 2, 3, 4, 5, 6, 7, 8, 9, 10, 11, 12])]
    [(12, [p - 223, 176, p - 165, 189, p - 39, 182])] 0x2 = true := by decide +kernel

theorem test_V42_12 : passes 0x1E180000 false [(0, [1, 2, 3, 4, 5, 6])]
    [(6, [0x11868a9c0a43ac2ae01b1be1be8d7334c356296041ea38e0beeabdf6f663722bb2d7f8fc209ec652212947dbf9d3c0bd, 0x10ec1aac24a316e208952727844053c44e0206ed65423954bbf88e754c10aac1e5bcbc9b589a6e402ebf4381e619101d, 0x182770c8cf5586ec09c0e7df956223f935ec2d11f5c4183593e85aff3744e0386b7b7e352b9beba9321e0a459bdb8e9f, 0x89a3eea9837ecddd8997a672c5c9682e336aa596be83f0958f9956aaebad13625a6daf1856439089b62378a970725a4, 0x50f545a711375cd76a995b04690a258176d9aeaf088669e1df54898f664dbfec6113b4c5271b6f929f75a863347051, 0x193bb971a298e9670535d7c77ad509257bbd542a5f1f5505f9d2a0c83c43ed01e957c9eab99ca23101614447ab9b49a6])] 0x2 = true := by decide +kernel

theorem test_V42_15 : passes 0x221C0180 false [(0, [1, 2, 3, 4, 5, 6, 3])]
    [(7, [p - 1270, p - 1295, p - 1353, p - 582, p - 1509, p - 375])] 0x2 = true := by decide +kernel

theorem test_V42_17 : passes 0x26180000 false [(0, [1, 2, 3, 4, 5, 6])]
    [(6, [p - 1, 11, 1, 2, 3, 4])] 0x2 = true := by decide +kernel

theorem test_V42_20 : passes 0x2A000180 false [(0, [1, 2, 3, 4, 5, 6, 1, 2, 3, 4, 5, 6])]
    [] 0xA = true := by decide +kernel

theorem test_V42_22 : passes 0x2E000000 false [(0, [1, 0, 0, 0, 0, 1])]
    [] 0x2 = true := by decide +kernel

theorem test_V43_1 : passes 0x07000000 false []
    [(0, [0, 0, 0, 0, 0, 0, 0, 0, 0, 0, 0, 0])] 0x2 = true := by decide +kernel

theorem test_V43_2 : passes 0x0B000000 false []
    [(0, [1, 0, 0, 0, 0, 0, 0, 0, 0, 0, 0, 0])] 0x2 = true := by decide +kernel

theorem test_V43_3 : passes 0x0F600300 false [(0, [1, 2, 3, 4, 5, 6, 7, 8, 9, 10, 11, 12, 13, 14, 15, 16, 17, 18, 19, 20, 21, 22, 23, 24])]
    [(24, [14, 16, 18, 20, 22, 24, 26, 28, 30, 32, 34, 36])] 0x2 = true := by decide +kernel

theorem test_V43_4 : passes 0x13600300 false [(0, [1, 2, 3, 4, 5, 6, 7, 8, 9, 10, 11, 12, 13, 14, 15, 16, 17, 18, 19, 20, 21, 22, 23, 24])]
    [(24, [p - 12, p - 12, p - 12, p - 12, p - 12, p - 12, p - 12, p - 12, p - 12, p - 12, p - 12, p - 12])] 0x2 = true := by decide +kernel

theorem test_V43_5 : passes 0x17300000 false [(0, [1, 2, 3, 4, 5, 6, 7, 8, 9, 10, 11, 12])]
    [(12, [p - 1, p - 2, p - 3, p - 4, p - 5, p - 6, p - 7, p - 8, p - 9, p - 10, p - 11, p - 12])] 0x2 = true := by decide +kernel

theorem test_V43_6 : passes 0x1B600300 false [(0, [1, 2, 3, 4, 5, 6, 7, 8, 9, 10, 11, 12, 13, 14, 15, 16, 17, 18, 19, 20, 21, 22, 23, 24])]
    [(24, [p - 1650, 0x57d, p - 1282, 0x5c3, p - 690, 0x5e1, p - 1238, 0x4d8, p - 810, 0x50a, p - 150, 0x514])] 0x2 = true := by decide +kernel

theorem test_V43_11 : passes 0x1F300000 false [(0, [1, 2, 3, 4, 5, 6, 7, 8, 9, 10, 11, 12])]
    [(12, [0x9ce549022411222cd8912a611a61da8637ff62c5a82593a11b796f765106c8950d19886f9a84c403f97b4ccb2e63f86, 0x430ef0a13f1adf254f20066aac8537cf56fef96b222ce7e529068748ab65af842f37c90ef2128cbf1ab71dcb673a1d2, 0x649851f5a74cc9109426ffff195a726ea4573c5bb467804c5d79dd12efdb4b8c03d70ad42455804def02c8e2d9f6cd8, 0x1792e9f33175f44e8a94a0f011e31e2fb205c446d30621f7c2b4fb1e11b8b838c60c547249e26789aa397b8b5bfaf71d, 0x7f2ad9008a94b446ebe286239e84336d67fa73ee772d0f351524e94124301821119ff775a8359079129841bf0f10e53, 0x9d7de25a6ce246140be54338dd972c88fef9ee69c559831c5a973f401b6e5545fccdc75fe054d09d2e94a47ddd8f14, 0x1d61ba5735c1a16fb927c7d2bc3fd0b63d232a8b668640f26411bd99d7080067ca77c45c8ec15470d5eaf4bdb75dc67, 0x12ae3017a66b073f298364b02e686db9858b3187d18c9cca914bf3a307f70f27375a20a7d815d78e97d02d94db37c741, 0x17da4fef7bf4fb24ab7ef21002d2d6ac6c85cb945d95e4f180b3848a079e471f6e97ebf509c9fe9bc2343ebe08a2530, 0xb43b03b80ca3a15a96fdf49d91a7ad32737f4f0deb6f467c803ad7143e8aab54555ce322a37b2b097d4833f70acac96, 0xf46907dfacfe03a4a679723b6507bc07680a917b53d862e1bad0b8a46ba157960adb3dc842bf7b82924150730aebd4, 0x17523e0d479e504df46964524bb477fb902fcbc9f1918daafea049f8242f4672af32db5f25bab216fafa3f5aa271999e])] 0x2 = true := by decide +kernel

theorem test_V43_13 : passes 0x23340300 false [(0, [1, 2, 3, 4, 5, 6, 7, 8, 9, 10, 11, 12, 2])]
    [(13, [p - 678, 529, p - 574, 575, p - 342, 581, p - 446, 352, p - 330, 378, p - 78, 364])] 0x2 = true := by decide +kernel

theorem test_V43_17 : passes 0x27300000 false [(0, [1, 2, 3, 4, 5, 6, 7, 8, 9, 10, 11, 12])]
    [] 0x606 = true := by decide +kernel

theorem test_V43_19 : passes 0x2B000300 false [(0, [1, 2, 3, 4, 5, 6, 7, 8, 9, 10, 11, 12, 1, 2, 3, 4, 5, 6, 7, 8, 9, 10, 11, 13])]
    [] 0x2 = true := by decide +kernel

theorem test_V43_20 : passes 0x2F000000 false [(0, [1, 0, 0, 0, 0, 0, 0, 0, 0, 0, 0, 0])]
    [] 0xA = true := by decide +kernel

theorem test_V44_2 : passes 0x401800C0 false [(0, [0x10e7791fb972fe014159aa33a98622da3cdc98ff707965e536d8636b5fcc5ac7a91a8c46e59a00dca575af0f18fb13dc, 0x16ba437edcc6551e30c10512367494bfb6b01cc6681e8a4c3cd2501832ab5c4abc40b4578b85cbaffbf0bcd70d67c6e2, 0, 0x1928f3beb93519eecf0145da903b40a4c97dca00b21f12ac0df3be9116ef2ef27b2ae6bcd4c5bc2d54ef5a70627efcb7, 0x108dadbaa4b636445639d5ae3089b3c43a8a1d47818edd1839d7383959a41c10fdc66849cfa1b08c5a11ec7e28981a1c, 0])]
    [(6, [0x345dd80ffef0eaec8920e39ebb7f5e9ae9c1d6179e9129b705923df7830c67f3690cbc48649d4079eadf5397339580c, 0x83d3baf25e42f2845d8fa594dda2e0f40a4d670dda40f30da0aff0d81c87ac3d687fe84eca72f34c7c755a045668cf1, 0])] 0x2 = true := by decide +kernel

theorem test_V44_10 : passes 0x440C0000 false [(0, [1, 1, 0])]
    [(3, [0x680447a8e5ff9a692c6e9ed90d2eb35d91dd2e13ce144afd9cc34a83dac3d8907aaffffac54ffffee7fbfffffffeaab, 0x1040ab3263eff0206ef148d1ea0f4c069eca8f3318332bb7a07e83a49a2e99d6932b7fff2ed47fffd43f5fffffffcaab, 0])] 0x2 = true := by decide +kernel

theorem test_V44_17 : passes 0x480C0000 false [(0, [7, 9, 1])]
    [(3, [7, p - 9, 1])] 0x2 = true := by decide +kernel

theorem test_V44_20 : passes 0x4C103001 false [(0, [0x17f1d3a73197d7942695638c4fa9ac0fc3688c4f9774b905a14e3a3f171bac586c55e83ff97a1aeffb3af00adb22c6bb, 0x8b3f481e3aaa0f1a09e30ed741d8ae4fcf5e095d5d00af600db18cb2c04b3edd03cc744a2888ae40caa232946c5e7e1, 0, 5])]
    [(4, [0x10e7791fb972fe014159aa33a98622da3cdc98ff707965e536d8636b5fcc5ac7a91a8c46e59a00dca575af0f18fb13dc, 0x346ce6b5cb9917c1a5aa2a40cd71817adc72ebe8b6688732a5e8288c40599d9626b4ba725ce344fbe0e4328f297e3c9, 0])] 0x2 = true := by decide +kernel

theorem test_V44_35 : passes 0x50000000 false [(0, [0, 2, 0])]
    [] 0xA = true := by decide +kernel

theorem test_V44_41 : passes 0x54000000 false [(0, [7, 9, 1])]
    [] 0xA = true := by decide +kernel

theorem test_V44_43 : passes 0x41280140 false [(0, [0x1638533957d540a9d2370f17cc7ed5863bc0b995b8825e0ee1ea1e1e4d00dbae81f14b0bf3611b78c952aacab827a053, 0xa4edef9c1ed7f729f520e47730a124fd70662a904ba1074728114d1031e1572c6c886f6b57ec72a6178288c47c33577, 0x468fb440d82b0630aeb8dca2b5256789a66da69bf91009cbfe6bd221e47aa8ae88dece9764bf3bd999d95d71e4c9899, 0xf6d4552fa65dd2638b361543f887136a43253d9c66c411697003f7a13c308f5422e1aa0a59c8967acdefd8b6e36ccf3, 0, 0x122915c824a0857e2ee414a3dccb23ae691ae54329781315a0c75df1c04d6d7a50a030fc866f09d516020ef82324afae, 0x9380275bbc8e5dcea7dc4dd7e0550ff2ac480905396eda55062650f8d251c96eb480673937cc6d9d6a44aaa56ca66dc, 0xb21da7955969e61010c7a1abc1a6f0136961d1e3b20b1a7326ac738fef5c721479dfd948b52fdf2455e44813ecfd892, 0x8f239ba329b3967fe48d718a36cfe5f62a7e42e0bf1c1ed714150a166bfbd6bcf6b3b58b975b9edea56d53f23a0e849, 0])]
    [(10, [0x411a5de6730ffece671a9f21d65028cc0f1102378de124562cb1ff49db6f004fcd14d683024b0548eff3d1468df2688, 0xfb837804dba8213329db46608b6c121d973363c1234a86dd183baff112709cf97096c5e9a1a770ee9d7dc641a894d6, 0x19b5e8f5d4a72f2b75811ac084a7f814317360bac52f6aab15eed416b4ef9938e0bdc4865cc2c4d0fd947e7c6925fd14, 0x93567b4228be17ee62d11a254edd041ee4b953bffb8b8c7f925bd6662b4298bac2822b446f5b5de3b893e1be5aa4986, 0])] 0x2 = true := by decide +kernel

theorem test_V44_46 : passes 0x45140000 false [(0, [0x24aa2b2f08f0a91260805272dc51051c6e47ad4fa403b02b4510b647ae3d1770bac0326a805bbefd48056c8c121bdb8, 0x13e02b6052719f607dacd3a088274f65596bd0d09920b61ab5da61bbdc7f5049334cf11213945d57e5ac7d055d042b7e, 0xce5d527727d6e118cc9cdc6da2e351aadfd9baa8cbdd3a76d429a695160d12c923ac9cc3baca289e193548608b82801, 0x606c4a02ea734cc32acd2b02bc28b99cb3e287e85a763af267492ab572e99ab3f370d275cec1da1aaa9075ff05f79be, 0])]
    [(5, [0x1638533957d540a9d2370f17cc7ed5863bc0b995b8825e0ee1ea1e1e4d00dbae81f14b0bf3611b78c952aacab827a053, 0xa4edef9c1ed7f729f520e47730a124fd70662a904ba1074728114d1031e1572c6c886f6b57ec72a6178288c47c33577, 0x468fb440d82b0630aeb8dca2b5256789a66da69bf91009cbfe6bd221e47aa8ae88dece9764bf3bd999d95d71e4c9899, 0xf6d4552fa65dd2638b361543f887136a43253d9c66c411697003f7a13c308f5422e1aa0a59c8967acdefd8b6e36ccf3, 0])] 0x2 = true := by decide +kernel

theorem test_V44_48 : passes 0x49140000 false [(0, [1, 2, 3, 0, 0])]
    [(5, [1, 2, p - 3, 0, 0])] 0x2 = true := by decide +kernel

theorem test_V44_53 : passes 0x4D185001 false [(0, [0x24aa2b2f08f0a91260805272dc51051c6e47ad4fa403b02b4510b647ae3d1770bac0326a805bbefd48056c8c121bdb8, 0x13e02b6052719f607dacd3a088274f65596bd0d09920b61ab5da61bbdc7f5049334cf11213945d57e5ac7d055d042b7e, 0xce5d527727d6e118cc9cdc6da2e351aadfd9baa8cbdd3a76d429a695160d12c923ac9cc3baca289e193548608b82801, 0x606c4a02ea734cc32acd2b02bc28b99cb3e287e85a763af267492ab572e99ab3f370d275cec1da1aaa9075ff05f79be, 0, 1])]
    [(6, [0x24aa2b2f08f0a91260805272dc51051c6e47ad4fa403b02b4510b647ae3d1770bac0326a805bbefd48056c8c121bdb8, 0x13e02b6052719f607dacd3a088274f65596bd0d09920b61ab5da61bbdc7f5049334cf11213945d57e5ac7d055d042b7e, 0xd1b3cc2c7027888be51d9ef691d77bcb679afda66c73f17f9ee3837a55024f78c71363275a75d75d86bab79f74782aa, 0x13fa4d4a0ad8b1ce186ed5061789213d993923066dddaf1040bc3ff59f825c78df74f2d75467e25e0f55f8a00fa030ed, 0])] 0x2 = true := by decide +kernel

theorem test_V44_56 : passes 0x51000000 false [(0, [0x1942a88144e61d6fdd00d47777e34de5f32dddc78da42a7997f52407bc19667b34f28d35053161e910c138d69ebf1a30, 0xfba9e7d6d18e6f854f7ab5947e80da45aaaf3c2b2a5c41a546f64106085c8fe9dd352e897565de34a19eea3792ace6b, 0x111ef04736f8f7e84c14b043d17bcf766d141c140126f190baeefcb086cc010010a664fb1fc7a6b2186d0a5f3cbf2596, 0x22a6b380002b938ed006ec3ae2632da98a3258a909c5662365b7d250a4493e19ee0feebcf0d8c84d453d1d7b3db6b79, 0])]
    [] 0xA = true := by decide +kernel

theorem test_V44_60 : passes 0x43000640 false [(0, [0, 0, 0, 0, 0x104399198ce1600e38c48eaf9fc473eb09638e1f5e9e3741aa359977a80f7890a45ce901546ff151956569ab7ff56ae5, 0x140c57ca6e8c05feb1a9274e16914b3c321a200e99a0ebf22f7c4dfa51bf930641179df41262d5d88611bee0c7cd753d, 0, 0, 0, 0, 0, 0, 0, 0, 0, 0, 0, 0, 0, 0, 0x9eb204b83f446c4a1cf778f356d63d79f4c9721c2fea0d9ab737e4e190559c0155e03c50df43e92a33e49b14641b2c6, 0x58225077671966196e3e9c50a1b0d5f04e5bcb8036da03ceb8cc12bfabdaf352cd016db97a84ad509a0b3da27f51a2d, 0, 0, 0, 0, 0, 0, 0, 0xb156709a18054f8d1da6c63daf62fdb902825d2c9b0788eb515b6902bb190e01f7c7a1c5dcd0ca3dd1669e70f12f49b, 0x8cac456b0f14a67abd2673cad311f89c943aafdcf703d8c00c4ab2bb0cdbf6913d076f5b5c750b40896131e4df136e3, 0, 0, 0, 0, 0, 0, 0, 0, 0, 0, 0, 0, 0, 0, 0x1676d5d8ed5244bc05492416a49e36c5eed987d702f5250afd73ffdacfa0307df80eeb7924f66015a31dadf2fc8ba635, 0x99100b17ad4d6aa787f564fca7001ab40dbec2c76375163903165717e3f5f5165d421ace949bd8bc18a596cf3d37e34, 0, 0, 0])]
    [(0, [0, 0, 0, 0, 0xdb08c1ef034b5ad8cb0ecc0ad683a56c9efb2e9be87805d7894e180a6b945089df41bb80cf5e85776532cd13cf78b45, 0x15888841051416c9a8e87fd313e8c37fc54c192b889480073efe562fdd1ccdb26bffeaba37dade821a501dd919d28642, 0, 0, 0, 0, 0, 0, 0, 0, 0, 0, 0, 0, 0, 0, 0x170a930ee0d8df31a5387c74d1698d1bfedaa6689d4bc32a056e753dae333d589ada9c75fb0e5beff4da0ce0313835c3, 0xbe8b8958b4240d0a42c025a154f1e1ac844894a622b1182d303ae04af3d7637533c9ee16fbb5dfdaf7bc85ef2685d31, 0, 0, 0])] 0x2 = true := by decide +kernel

theorem test_V44_59 : passes 0x47640000 false [(0, [0, 0, 0, 0, 0xb156709a18054f8d1da6c63daf62fdb902825d2c9b0788eb515b6902bb190e01f7c7a1c5dcd0ca3dd1669e70f12f49b, 0x8cac456b0f14a67abd2673cad311f89c943aafdcf703d8c00c4ab2bb0cdbf6913d076f5b5c750b40896131e4df136e3, 0, 0, 0, 0, 0, 0, 0, 0, 0, 0, 0, 0, 0, 0, 0x1676d5d8ed5244bc05492416a49e36c5eed987d702f5250afd73ffdacfa0307df80eeb7924f66015a31dadf2fc8ba635, 0x99100b17ad4d6aa787f564fca7001ab40dbec2c76375163903165717e3f5f5165d421ace949bd8bc18a596cf3d37e34, 0, 0, 0])]
    [(25, [0, 0, 0, 0, 0x104399198ce1600e38c48eaf9fc473eb09638e1f5e9e3741aa359977a80f7890a45ce901546ff151956569ab7ff56ae5, 0x140c57ca6e8c05feb1a9274e16914b3c321a200e99a0ebf22f7c4dfa51bf930641179df41262d5d88611bee0c7cd753d, 0, 0, 0, 0, 0, 0, 0, 0, 0, 0, 0, 0, 0, 0, 0x9eb204b83f446c4a1cf778f356d63d79f4c9721c2fea0d9ab737e4e190559c0155e03c50df43e92a33e49b14641b2c6, 0x58225077671966196e3e9c50a1b0d5f04e5bcb8036da03ceb8cc12bfabdaf352cd016db97a84ad509a0b3da27f51a2d, 0, 0, 0])] 0x2 = true := by decide +kernel

theorem test_V44_62 : passes 0x4B640000 false [(0, [0, 0, 0, 0, 0xb156709a18054f8d1da6c63daf62fdb902825d2c9b0788eb515b6902bb190e01f7c7a1c5dcd0ca3dd1669e70f12f49b, 0x8cac456b0f14a67abd2673cad311f89c943aafdcf703d8c00c4ab2bb0cdbf6913d076f5b5c750b40896131e4df136e3, 0, 0, 0, 0, 0, 0, 0, 0, 0, 0, 0, 0, 0, 0, 0x1676d5d8ed5244bc05492416a49e36c5eed987d702f5250afd73ffdacfa0307df80eeb7924f66015a31dadf2fc8ba635, 0x99100b17ad4d6aa787f564fca7001ab40dbec2c76375163903165717e3f5f5165d421ace949bd8bc18a596cf3d37e34, 0, 0, 0])]
    [(25, [0, 0, 0, 0, 0xb156709a18054f8d1da6c63daf62fdb902825d2c9b0788eb515b6902bb190e01f7c7a1c5dcd0ca3dd1669e70f12f49b, 0x8cac456b0f14a67abd2673cad311f89c943aafdcf703d8c00c4ab2bb0cdbf6913d076f5b5c750b40896131e4df136e3, 0, 0, 0, 0, 0, 0, 0, 0, 0, 0, 0, 0, 0, 0, 0x38a3c114c2da1de45d2839f9ead7611759dc3adf08fedb469bcd2c62710c5a6269d14858c5d9fea16e1520d03740476, 0x10701138beab0fefd29c516678dbab2c239b5f587d4dc15bd6ff6d2f787196d2b8d7de51c80a4273f874a6930c2c2c77, 0, 0, 0])] 0x2 = true := by decide +kernel

theorem test_V44_61 : passes 0x4F699000 false [(0, [0, 0, 0, 0, 0xb156709a18054f8d1da6c63daf62fdb902825d2c9b0788eb515b6902bb190e01f7c7a1c5dcd0ca3dd1669e70f12f49b, 0x8cac456b0f14a67abd2673cad311f89c943aafdcf703d8c00c4ab2bb0cdbf6913d076f5b5c750b40896131e4df136e3, 0, 0, 0, 0, 0, 0, 0, 0, 0, 0, 0, 0, 0, 0, 0x1676d5d8ed5244bc05492416a49e36c5eed987d702f5250afd73ffdacfa0307df80eeb7924f66015a31dadf2fc8ba635, 0x99100b17ad4d6aa787f564fca7001ab40dbec2c76375163903165717e3f5f5165d421ace949bd8bc18a596cf3d37e34, 0, 0, 0, 3])]
    [(26, [0, 0, 0, 0, 0xdb08c1ef034b5ad8cb0ecc0ad683a56c9efb2e9be87805d7894e180a6b945089df41bb80cf5e85776532cd13cf78b45, 0x15888841051416c9a8e87fd313e8c37fc54c192b889480073efe562fdd1ccdb26bffeaba37dade821a501dd919d28642, 0, 0, 0, 0, 0, 0, 0, 0, 0, 0, 0, 0, 0, 0, 0x170a930ee0d8df31a5387c74d1698d1bfedaa6689d4bc32a056e753dae333d589ada9c75fb0e5beff4da0ce0313835c3, 0xbe8b8958b4240d0a42c025a154f1e1ac844894a622b1182d303ae04af3d7637533c9ee16fbb5dfdaf7bc85ef2685d31, 0, 0, 0])] 0x2 = true := by decide +kernel

theorem test_V44_63 : passes 0x53000000 false [(0, [0, 0, 0, 0, 0xb156709a18054f8d1da6c63daf62fdb902825d2c9b0788eb515b6902bb190e01f7c7a1c5dcd0ca3dd1669e70f12f49b, 0x8cac456b0f14a67abd2673cad311f89c943aafdcf703d8c00c4ab2bb0cdbf6913d076f5b5c750b40896131e4df136e3, 0, 0, 0, 0, 0, 0, 0, 0, 0, 0, 0, 0, 0, 0, 0x1676d5d8ed5244bc05492416a49e36c5eed987d702f5250afd73ffdacfa0307df80eeb7924f66015a31dadf2fc8ba635, 0x99100b17ad4d6aa787f564fca7001ab40dbec2c76375163903165717e3f5f5165d421ace949bd8bc18a596cf3d37e34, 0, 0, 0])]
    [] 0xA = true := by decide +kernel

theorem test_V45s_1 : passes 0x80140000 false [(0, [2, 0, 0, 2, 0])]
    [(5, [0, 0, 0, 0, 1, p - 1, 0, 0, 0, 0, 0, 0, 0, 0, 0, 0, 0, 0, 0, 0, 1, 1, 0, 0, 0])] 0x2 = true := by decide +kernel

theorem test_V45s_4 : passes 0x84200140 false [(0, [2, 0, 0, 2, 0, 1, 1, 0])]
    [(8, [1, 0, 0, 0, 0, 0, 0, 0, p - 4, p - 4, 0xd0088f51cbff34d258dd3db21a5d66bb23ba5c279c2895fb39869507b587b120f55ffff58a9ffffdcff7fffffffd557, 0xd0088f51cbff34d258dd3db21a5d66bb23ba5c279c2895fb39869507b587b120f55ffff58a9ffffdcff7fffffffd557])] 0x2 = true := by decide +kernel

theorem test_V45s_7 : passes 0x8834014A false [(0, [2, 0, 0, 2, 0, 4, 0, 0, 6, 0, 1, 1, 0])]
    [(13, [1, 0, 0, 0, 0, 0, 0, 0, 1, 1, p - 1, p - 1])] 0x2 = true := by decide +kernel

theorem test_V45_17 : passes 0x8C2000C0 false [(0, [0x17f1d3a73197d7942695638c4fa9ac0fc3688c4f9774b905a14e3a3f171bac586c55e83ff97a1aeffb3af00adb22c6bb, 0x8b3f481e3aaa0f1a09e30ed741d8ae4fcf5e095d5d00af600db18cb2c04b3edd03cc744a2888ae40caa232946c5e7e1, 0, 0x24aa2b2f08f0a91260805272dc51051c6e47ad4fa403b02b4510b647ae3d1770bac0326a805bbefd48056c8c121bdb8, 0x13e02b6052719f607dacd3a088274f65596bd0d09920b61ab5da61bbdc7f5049334cf11213945d57e5ac7d055d042b7e, 0xce5d527727d6e118cc9cdc6da2e351aadfd9baa8cbdd3a76d429a695160d12c923ac9cc3baca289e193548608b82801, 0x606c4a02ea734cc32acd2b02bc28b99cb3e287e85a763af267492ab572e99ab3f370d275cec1da1aaa9075ff05f79be, 1])]
    [] 0xA06 = true := by decide +kernel

theorem test_V45_11 : passes 0x902000C0 false [(0, [1, 1, 0, 0x24aa2b2f08f0a91260805272dc51051c6e47ad4fa403b02b4510b647ae3d1770bac0326a805bbefd48056c8c121bdb8, 0x13e02b6052719f607dacd3a088274f65596bd0d09920b61ab5da61bbdc7f5049334cf11213945d57e5ac7d055d042b7e, 0xce5d527727d6e118cc9cdc6da2e351aadfd9baa8cbdd3a76d429a695160d12c923ac9cc3baca289e193548608b82801, 0x606c4a02ea734cc32acd2b02bc28b99cb3e287e85a763af267492ab572e99ab3f370d275cec1da1aaa9075ff05f79be, 0, 9, 9, 9, 9, 9, 9, 9, 9, 9, 9, 9, 9])]
    [(8, [0, 0, 0, 0, 0, 0, 0, 0, 0, 0, 0, 0])] 0x2 = true := by decide +kernel

theorem test_V46_2 : passes 0xC0040000 false [(0, [4])]
    [(1, [p - 2])] 0x2 = true := by decide +kernel

theorem test_V46_14 : passes 0xC1080000 false [(0, [p - 1, 0])]
    [(2, [0, p - 1])] 0x2 = true := by decide +kernel

theorem test_V46_18 : passes 0xC1080000 false [(0, [5, 12])]
    [(2, [3, 2])] 0x2 = true := by decide +kernel

theorem test_V46_30 : passes 0xC40C0000 false [(0, [7, 9, 1])]
    [(3, [0xc00000000000000000000000000000000000000000000000000000000000000000000000000000000000000000000000])] 0x2 = true := by decide +kernel

theorem test_V46_36 : passes 0xC5140000 false [(0, [0, 0, 0, 0, 1])]
    [(5, [0xc00000000000000000000000000000000000000000000000000000000000000000000000000000000000000000000000, 0])] 0x2 = true := by decide +kernel

theorem test_V46_38 : passes 0xC8103000 false [(3, [0x97f1d3a73197d7942695638c4fa9ac0fc3688c4f9774b905a14e3a3f171bac586c55e83ff97a1aeffb3af00adb22c6bb])]
    [(4, [0x17f1d3a73197d7942695638c4fa9ac0fc3688c4f9774b905a14e3a3f171bac586c55e83ff97a1aeffb3af00adb22c6bb, 0x8b3f481e3aaa0f1a09e30ed741d8ae4fcf5e095d5d00af600db18cb2c04b3edd03cc744a2888ae40caa232946c5e7e1, 0])] 0x2 = true := by decide +kernel

theorem test_V46_52 : passes 0xC91C5000 false [(5, [0x93e02b6052719f607dacd3a088274f65596bd0d09920b61ab5da61bbdc7f5049334cf11213945d57e5ac7d055d042b7e, 0x24aa2b2f08f0a91260805272dc51051c6e47ad4fa403b02b4510b647ae3d1770bac0326a805bbefd48056c8c121bdb8])]
    [(7, [0x24aa2b2f08f0a91260805272dc51051c6e47ad4fa403b02b4510b647ae3d1770bac0326a805bbefd48056c8c121bdb8, 0x13e02b6052719f607dacd3a088274f65596bd0d09920b61ab5da61bbdc7f5049334cf11213945d57e5ac7d055d042b7e, 0xce5d527727d6e118cc9cdc6da2e351aadfd9baa8cbdd3a76d429a695160d12c923ac9cc3baca289e193548608b82801, 0x606c4a02ea734cc32acd2b02bc28b99cb3e287e85a763af267492ab572e99ab3f370d275cec1da1aaa9075ff05f79be, 0])] 0x2 = true := by decide +kernel

theorem test_V60_1 : passes 0x0C080040 false [(0, [0x1a0111ea397fe69a4b1ba7b6434bacd764774b84f38512bf6730d2a0f6b0f6241eabfffeb153ffffb9feffffffffaaab, 1, 7])]
    [] 0x806 = true := by decide +kernel

theorem test_V60_4 : passes 0x27300000 false [(0, [0x1a0111ea397fe69a4b1ba7b6434bacd764774b84f38512bf6730d2a0f6b0f6241eabfffeb153ffffb9feffffffffaaab, 2, 3, 4, 5, 6, 7, 8, 9, 10, 11, 12])]
    [] 0x806 = true := by decide +kernel

theorem test_V60_5 : passes 0x401800C0 false [(0, [1, 1, 2, 2, 3, 0])]
    [] 0x806 = true := by decide +kernel

theorem test_V60_6 : passes 0x1C040000 true [(0, [0])]
    [] 0x90E = true := by decide +kernel

theorem test_V60_8 : passes 0xC40C0000 false [(0, [1, 0, 0])]
    [] 0x906 = true := by decide +kernel

theorem test_V60_9 : passes 0x84200140 false [(0, [2, 0, 0, 0, 1, 1, 1, 0])]
    [] 0xA06 = true := by decide +kernel

theorem test_V60_10 : passes 0xC8103000 false [(3, [0x9a0111ea397fe69a4b1ba7b6434bacd764774b84f38512bf6730d2a0f6b0f6241eabfffeb153ffffb9feffffffffaaab])]
    [] 0x206 = true := by decide +kernel

/-- R528, R529: a point at infinity is in the subgroup. -/
theorem test_pinsubgrp2_infinity : passes 0x55000000 false [(0, [1, 2, 3, 4, 1])] [] 0xA = true := by decide +kernel
theorem test_pinsubgrp12_infinity : passes 0x57000000 false [(0, List.replicate 24 5 ++ [1])] [] 0xA = true := by
  decide +kernel

/-- V45s.12: the final exponentiation of one. -/
theorem test_V45s_12 : finalExp fp12One = fp12One := by
  apply toF12_injective
  rw [finalExp, pow_eq_power link12, toF12_one]
  induction feExp with
  | zero => rfl
  | succ n ih => rw [power, ih]; exact link12.mulOne _

/-! ## The generators (95_test_vectors.md section 2) -/

def genG : Point Fp :=
  ⟨fpOfNat 0x17f1d3a73197d7942695638c4fa9ac0fc3688c4f9774b905a14e3a3f171bac586c55e83ff97a1aeffb3af00adb22c6bb,
   fpOfNat 0x8b3f481e3aaa0f1a09e30ed741d8ae4fcf5e095d5d00af600db18cb2c04b3edd03cc744a2888ae40caa232946c5e7e1, false⟩

def genH : Point Fp2 :=
  ⟨⟨fpOfNat 0x24aa2b2f08f0a91260805272dc51051c6e47ad4fa403b02b4510b647ae3d1770bac0326a805bbefd48056c8c121bdb8,
    fpOfNat 0x13e02b6052719f607dacd3a088274f65596bd0d09920b61ab5da61bbdc7f5049334cf11213945d57e5ac7d055d042b7e⟩,
   ⟨fpOfNat 0xce5d527727d6e118cc9cdc6da2e351aadfd9baa8cbdd3a76d429a695160d12c923ac9cc3baca289e193548608b82801,
    fpOfNat 0x606c4a02ea734cc32acd2b02bc28b99cb3e287e85a763af267492ab572e99ab3f370d275cec1da1aaa9075ff05f79be⟩, false⟩

theorem member_genG : inSubgroup lv1 genG = .ok true := by rw [lv1_eq_fast]; decide +kernel
theorem member_genH : inSubgroup lv2 genH = .ok true := by rw [lv2_eq_fast]; decide +kernel

/-- V46.25 and V46.33: the encodings of the generators. -/
theorem test_V46_25 : compressG1 genG = .ok [0x97f1d3a73197d7942695638c4fa9ac0fc3688c4f9774b905a14e3a3f171bac586c55e83ff97a1aeffb3af00adb22c6bb] := by
  rw [compressG1, member_genG, ok_bind]; decide +kernel
theorem test_V46_33 : compressG2 genH = .ok [0x93e02b6052719f607dacd3a088274f65596bd0d09920b61ab5da61bbdc7f5049334cf11213945d57e5ac7d055d042b7e,
    0x24aa2b2f08f0a91260805272dc51051c6e47ad4fa403b02b4510b647ae3d1770bac0326a805bbefd48056c8c121bdb8] := by
  rw [compressG2, member_genH, ok_bind]; decide +kernel

/-- The words of an element, for a comparison with a vector. -/
def wordsOfResult (a : Res Fp12) : List Nat :=
  match a with
  | .ok f => (fp12Flat f).map Fin.val
  | .error _ => []

/-- V45.5: the Miller value of the generators. -/
theorem test_V45_5 : wordsOfResult (millerFn genG genH) =
    [0x144abb1a97a3d65527f2a479175a569855eeda1a0e616cfdc258bdb1c8b9fa096ad09965fd55f9801343d28e92e6640b,
     0x13413bd2925a9e1b08112f7f4e35d5813c459301afd9b9fbc9764fa22aa315cc2dce1b336faff13a4d7f97b73a87a737,
     0x1061bed179b9d8d27ccb35aeb12e95b39e524f50fa674db41c90542ffa28c661a2f75846365765403354400ca26e00f2,
     0x1927491641e856fb775de263f806a58db114870fe05a58c85edfce0b8378c53c486244480d13fee441ebbe35dde4520e,
     0x1a542de4684f6373e2a21d822117173950bff0915eb782c284b2afa32c9ffed3a168c2ac29c427e095a2f06f209db39,
     0x170e1174852d019b09b0da3c14841d6cdd4b79171b9e3e6a1e7efbd5d2a6de5e2cd8853e4f98d0e32156c3319c9f3191,
     0x111758fd4779b9d7eda010f36caabfea0c08b6703f38849acf110661c09aa1d870d747518e310505f3342294588fb886,
     0x13dd0d23fe6b205afc16bd7f54193917adb5a1faff0b2f7ed7f786357f5ae1eace5bd97858230cc0352b88c97bbef640,
     0x315d01b5d309e53bc4b7533c57146890a33c101cca9d8675fc099f9b80a6f8e25c61610c25299ea9ab42c9ea16eabb0,
     0xcbccf94f2a6bcc12d54395ad34d72e308d2b753adce82cd21e864d7bdbc5dfdd093caa671baba5189ceb2764a4664ff,
     0xced20608aa7112c205ee7a703c2e77f96d1aef6fd865caafcb4a363d2f9de8ecc3acf61f888c8eedb1483397ba6438b,
     0x10c839fd7d6519131e14836b595789b7121ba39388491a972b713f92f9c75d3612a4758fe5614d7877cdaf2292b7dcf2] := by
  rw [millerFn_eq_fast]; decide +kernel

/-- V45.7: `pairing` accepts the generators. -/
theorem test_V45_7 : pairingFn genG genH = millerFn genG genH := by
  have h : bothMembers genG genH = .ok true := by rw [bothMembers, member_genG, ok_bind]; exact member_genH
  have h1 : onCurve lv1 curveB1 genG = true := by decide +kernel
  have h2 : onCurve lv2 curveB2 genH = true := by decide +kernel
  rw [pairingFn, h1, h2, h, show (genG.inf || genH.inf) = false from rfl, ok_bind, Bool.not_true,
    if_neg Bool.false_ne_true, if_neg Bool.false_ne_true, if_neg Bool.false_ne_true, if_pos rfl]

/-! ## Witnesses: for every statement with hypotheses, a state and operands that meet them

One theorem for each statement, or for each of its clauses, with the values at the edge of their ranges. -/

theorem witness_DecodeEncode : (Instr.finalexp 52 52).wellFormed = true ∧ (Instr.pmul12 39 63 39 true).wellFormed = true := by
  decide

theorem witness_LegalWordIsUnique : decode 0x4D283141 = some (.pmul2 10 3 5 true) := by decide +kernel

theorem witness_StepRunsDecodedCommand :
    let s := busyWith State.reset 0x0C080040 []
    let s' := busyWith State.reset 0x0C080040 [.sequencer, .hostRead 4]
    (s.busy = true ∧ decode s.cmdr = some (.fadd1 2 0 1) ∧ s.schedule = []) ∧
    (s'.busy = true ∧ decode s'.cmdr = some (.fadd1 2 0 1) ∧ s'.schedule = Event.sequencer :: [Event.hostRead 4]) := by
  decide +kernel

/-- `fzero.12 w53` reaches one register too far (V30.12). -/
theorem witness_IllegalCommandRaises :
    let s := busyWith State.reset 0x07D40000 []
    s.busy = true ∧ s.schedule = [] ∧ ¬LegalWord s.cmdr := by
  unfold LegalWord FieldLegal; decide +kernel

theorem witness_AcceptanceOfCommand :
    let s := { State.reset with schedule := [.hostWrite 0 0] }
    let s' := busyWith State.reset 0x0C080040 [.hostWrite 0 0, .reset]
    (s.schedule = .hostWrite 0 0 :: [] ∧ s.busy = false) ∧ (s'.schedule = .hostWrite 0 0 :: [.reset] ∧ s'.busy = true) := by
  decide +kernel

/-- The state before a completion, with `W[0] = p` out of range and `W[63] = p - 1` in range. -/
def edge : State := place State.reset [(0, [p, 1, 2]), (63, [p - 1])]

theorem witness_NonCanonicalIffOutOfRange_out :
    (Instr.fadd1 2 0 1).wellFormed = true ∧ edge.err = false ∧
    ∃ o ∈ checkedSources (.fadd1 2 0 1), ¬Canonical edge o.1.toNat o.2 := by
  unfold Canonical; decide +kernel

theorem witness_NonCanonicalIffOutOfRange_in :
    (Instr.fadd1 2 63 1).wellFormed = true ∧ edge.err = false ∧
    ¬∃ o ∈ checkedSources (.fadd1 2 63 1), ¬Canonical edge o.1.toNat o.2 := by
  unfold Canonical; decide +kernel

/-- The inverse of zero, from the reset state. -/
theorem witness_ErrorsOfTheTable :
    (Instr.finv1 1 0).wellFormed = true ∧ State.reset.err = false ∧ (∀ rd ra rb, Instr.finv1 1 0 ≠ .pairing rd ra rb) ∧
    exec (.finv1 1 0) State.reset = .next (raiseError State.reset .inverseOfZero) ∧
    Raised State.reset (raiseError State.reset .inverseOfZero) 9 := by
  refine ⟨by decide, rfl, fun _ _ _ => Instr.noConfusion, ?_, raised_of_error _ _⟩
  rw [exec_wellFormed _ _ (by decide), show ruleOf (.finv1 1 0) State.reset.w = .error .inverseOfZero by decide +kernel]
  rfl

/-- A command that writes two registers and does not raise. -/
theorem witness_ResultsAreCanonical :
    State.reset.err = false ∧ (Instr.fone2 62).dest = some (62, 2) ∧
    (∀ r a, Instr.fone2 62 ≠ .compress1 r a ∧ Instr.fone2 62 ≠ .compress2 r a) ∧
    exec (.fone2 62) State.reset = .next (finish (writeBlock State.reset 62 [1, 0])) ∧
    (finish (writeBlock State.reset 62 [1, 0])).err = false := by
  refine ⟨rfl, rfl, fun _ _ => ⟨Instr.noConfusion, Instr.noConfusion⟩, ?_, rfl⟩
  rw [exec_wellFormed _ _ (by decide), show ruleOf (.fone2 62) State.reset.w = .ok (.regs 62 [1, 0]) by decide +kernel]
  rfl

/-- Two states that differ in a register that is not read. -/
theorem witness_ResultDependsOnSourcesOnly :
    let s := place State.reset [(0, [1, 2])]
    let s' := place State.reset [(0, [1, 2]), (9, [5])]
    s.err = false ∧ s'.err = false ∧ s.errcode = s'.errcode ∧ s.w ≠ s'.w ∧
    (∀ o ∈ (Instr.fadd1 2 0 1).sources, ∀ k < o.2, wval s (o.1.toNat + k) = wval s' (o.1.toNat + k)) ∧
    (∃ t, exec (.fadd1 2 0 1) s = .next t) ∧ ∃ t', exec (.fadd1 2 0 1) s' = .next t' := by
  refine ⟨rfl, rfl, rfl, by decide +kernel, by decide +kernel, runCommand_next _ _ _, runCommand_next _ _ _⟩

theorem witness_StepKeepsStatusInv :
    let s := busyWith State.reset 0x1C040000 []
    StatusInv s ∧ ∃ t, step s = .next t := by
  refine ⟨by unfold StatusInv; decide +kernel, ?_⟩
  rw [step_nil _ rfl]
  exact sequencerStep_next _

theorem witness_ResetEvent :
    (busyWith State.reset 0x1C040000 [.reset, .hostRead 0]).schedule = Event.reset :: [Event.hostRead 0] := rfl

/-- The four kinds of offsets a host reads: CMD, STATUS, the last reserved one, and limb 11 of `W[63]`. -/
theorem witness_HostReadReturns :
    let s := { place State.reset [(63, [p - 1])] with schedule := [.hostRead 0xFFC] }
    s.schedule = .hostRead 0xFFC :: [] ∧ 0xFFC % 4 = 0 ∧ 0xFFC < 4096 ∧ 0xFFC = limbAddr 63 11 ∧ s.busy = false ∧
    (marks s 63).getLsbD 11 = true ∧ 8 ≤ 0x3FC ∧ 0x3FC < 0x400 ∧ limbAddr 0 0 = 0x400 := by
  decide +kernel

theorem witness_HostWriteStores :
    let s := { place State.reset [(0, [p - 1])] with schedule := [.hostWrite 0xFFC 7] }
    let s' := { State.reset with schedule := [.hostWrite 0x3FC 7] }
    (s.schedule = .hostWrite 0xFFC 7 :: [] ∧ 0xFFC % 4 = 0 ∧ 0xFFC < 4096 ∧ 0xFFC = limbAddr 63 11 ∧ s.busy = false) ∧
    (s'.schedule = .hostWrite 0x3FC 7 :: [] ∧ 0x3FC % 4 = 0 ∧ 4 ≤ 0x3FC ∧ 0x3FC < 0x400) := by
  decide +kernel

/-- The writes that load `W[63]`. -/
def loadWrites (v : Word) : List Event :=
  (List.range 12).map fun k => .hostWrite (limbAddr 63 k) (BitVec.ofNat 32 (limbOf v.toNat k))

theorem witness_TwelveWritesLoadRegister :
    let s := { State.reset with schedule := loadWrites (BitVec.allOnes 384) ++ [Event.hostRead 4] }
    s.busy = false ∧ s.schedule = ((List.range 12).map fun k =>
      Event.hostWrite (limbAddr 63 k) (BitVec.ofNat 32 (limbOf (BitVec.allOnes 384 : Word).toNat k))) ++ [.hostRead 4] :=
  ⟨rfl, rfl⟩

theorem witness_BusyHazard :
    let s := busyWith State.reset 0x0C080040 [.hostRead 4, .hostRead 0]
    let s' := busyWith State.reset 0x0C080040 [.hostWrite 0xFFC 1]
    (StatusInv s ∧ s.busy = true ∧ s.schedule = .hostRead 4 :: [.hostRead 0] ∧ IsHostAccess (.hostRead 4)) ∧
    (StatusInv s' ∧ s'.busy = true ∧ s'.schedule = .hostWrite 0xFFC 1 :: [] ∧ IsHostAccess (.hostWrite 0xFFC 1)) := by
  refine ⟨⟨by unfold StatusInv; decide +kernel, rfl, rfl, .inl ⟨4, rfl, by decide⟩⟩,
    ⟨by unfold StatusInv; decide +kernel, rfl, rfl, .inr ⟨0xFFC, 1, rfl, by decide⟩⟩⟩

theorem witness_BusyRunIsUndisturbed :
    let es : List Event := [.hostRead 4, .hostWrite 0 0, .hostWrite 0xFFC 9]
    let s := busyWith State.reset 0x0C080040 es
    s.busy = true ∧ decode s.cmdr = some (.fadd1 2 0 1) ∧ (∀ e ∈ es, IsHostAccess e) ∧ s.schedule = es := by
  refine ⟨rfl, by decide +kernel, ?_, rfl⟩
  intro e he
  simp only [List.mem_cons, List.not_mem_nil, or_false] at he
  rcases he with rfl | rfl | rfl
  · exact .inl ⟨4, rfl, by decide⟩
  · exact .inr ⟨0, 0, rfl, by decide⟩
  · exact .inr ⟨0xFFC, 9, rfl, by decide⟩

theorem witness_BusyCoreCompletes :
    (busyWith State.reset 0 []).busy = true ∧ (busyWith State.reset 0 []).schedule = [] := ⟨rfl, rfl⟩

theorem witness_CommandFromHostWrite :
    let s := { State.reset with schedule := [.hostWrite 0 (encode (.finv12 52 52)), .sequencer] }
    (Instr.finv12 52 52).wellFormed = true ∧ s.busy = false ∧ s.schedule = [.hostWrite 0 (encode (.finv12 52 52)), .sequencer] :=
  ⟨by decide, rfl, rfl⟩

theorem witness_StatusPersistsWhileIdle :
    let s := { raiseError State.reset .inverseOfZero with schedule := [.hostWrite 4 0] }
    s.busy = false ∧ (∀ c rest, s.schedule ≠ .hostWrite 0 c :: rest) ∧ (∀ rest, s.schedule ≠ .reset :: rest) ∧
    ∃ t, step s = .next t := by
  refine ⟨rfl, fun c rest h => ?_, fun rest h => ?_, _, rfl⟩
  · injection h with h _
    injection h with h _
    exact absurd h (by decide)
  · injection h with h _
    injection h

/-- A misaligned access and one just past the window. -/
theorem witness_FaultOnlyOutsideThePort :
    step { State.reset with schedule := [.hostRead 0x402] } = .fault (.windowAccess 0x402) ∧
    step { State.reset with schedule := [.hostWrite 0x1000 1] } = .fault (.windowAccess 0x1000) := ⟨rfl, rfl⟩

/-! ### Field commands -/

/-- The last base at which an element of `n` registers fits. -/
def lastBase (n : Nat) : Reg := BitVec.ofNat 6 (64 - n)

/-- Elements of every level: 1, 2, .., 12 at 0; zero at 12; one at 24; `p - 1` in all of `W[52]` .. `W[63]`. -/
def elems : State :=
  place State.reset [(0, [1, 2, 3, 4, 5, 6, 7, 8, 9, 10, 11, 12]), (12, List.replicate 12 0), (24, 1 :: List.replicate 11 0),
    (36, [2 ^ 384 - 1]), (52, List.replicate 12 (p - 1))]

theorem witness_IdentitiesWritten : ∀ n ∈ [1, 2, 6, 12], (lastBase n).toNat + n ≤ 64 := by decide

theorem elemOk_elems : ∀ n ∈ [1, 2, 6, 12], ∀ b ∈ [0, 12, 24, (lastBase n).toNat], ElemOk elems b n := by
  unfold ElemOk; decide +kernel

/-- Sources and destination at both ends of the register file, words 1 and up and `p - 1`. -/
theorem witness_AddSubAreWordwise : ∀ n ∈ [1, 2, 6, 12],
    (lastBase n).toNat + n ≤ 64 ∧ ElemOk elems (0 : Reg).toNat n ∧ ElemOk elems (lastBase n).toNat n := fun n hn =>
  ⟨witness_IdentitiesWritten n hn, elemOk_elems n hn _ (by simp), elemOk_elems n hn _ (by simp)⟩

/-- Zero and a nonzero element. -/
theorem witness_NegGives : ∀ n ∈ [1, 2, 6, 12],
    (lastBase n).toNat + n ≤ 64 ∧ ElemOk elems (12 : Reg).toNat n ∧ ElemOk elems (lastBase n).toNat n := fun n hn =>
  ⟨witness_IdentitiesWritten n hn, elemOk_elems n hn _ (by simp), elemOk_elems n hn _ (by simp)⟩

theorem witness_MulGives : ∀ n ∈ [1, 2, 6, 12],
    (lastBase n).toNat + n ≤ 64 ∧ ElemOk elems (0 : Reg).toNat n ∧ ElemOk elems (lastBase n).toNat n :=
  witness_AddSubAreWordwise

/-- A nonzero source at every level. -/
theorem witness_InverseGivesOrRaises_nonzero :
    elemAt T1 elems (lastBase 1).toNat ≠ 0 ∧ elemAt T2 elems (lastBase 2).toNat ≠ 0 ∧
    elemAt T6 elems (lastBase 6).toNat ≠ 0 ∧ elemAt T12 elems (lastBase 12).toNat ≠ 0 ∧
    ∀ n ∈ [1, 2, 6, 12], (lastBase n).toNat + n ≤ 64 ∧ ElemOk elems (lastBase n).toNat n :=
  ⟨by decide +kernel, by decide +kernel, by decide +kernel, by decide +kernel, fun n hn =>
    ⟨witness_IdentitiesWritten n hn, elemOk_elems n hn _ (by simp)⟩⟩

/-- A zero source at every level. -/
theorem witness_InverseGivesOrRaises_zero :
    elemAt T1 elems (12 : Reg).toNat = 0 ∧ elemAt T2 elems (12 : Reg).toNat = 0 ∧
    elemAt T6 elems (12 : Reg).toNat = 0 ∧ elemAt T12 elems (12 : Reg).toNat = 0 ∧
    ∀ n ∈ [1, 2, 6, 12], (lastBase n).toNat + n ≤ 64 ∧ ElemOk elems (12 : Reg).toNat n :=
  ⟨by decide +kernel, by decide +kernel, by decide +kernel, by decide +kernel, fun n hn =>
    ⟨witness_IdentitiesWritten n hn, elemOk_elems n hn _ (by simp)⟩⟩

/-- The exponent register holds `2^384 - 1`; it has no range to meet. -/
theorem witness_PowerIsRepeatedMultiplication : wval elems (36 : Reg).toNat = 2 ^ 384 - 1 ∧
    ∀ n ∈ [1, 2, 6, 12], (lastBase n).toNat + n ≤ 64 ∧ ElemOk elems (lastBase n).toNat n :=
  ⟨by decide +kernel, witness_InverseGivesOrRaises_nonzero.2.2.2.2⟩

theorem witness_NonResidueGives : ∀ n ∈ [2, 6], (lastBase n).toNat + n ≤ 64 ∧ ElemOk elems (0 : Reg).toNat n := fun n hn =>
  ⟨witness_IdentitiesWritten n (by aesop), elemOk_elems n (by aesop) _ (by simp)⟩

theorem witness_NonResidueTwelveRaises : (lastBase 12).toNat + 12 ≤ 64 ∧ ElemOk elems (0 : Reg).toNat 12 :=
  ⟨by decide, elemOk_elems 12 (by simp) _ (by simp)⟩

/-- For FLAG = 1 the element one, for FLAG = 0 any other. -/
theorem witness_ComparisonSetsFlag : ∀ n ∈ [1, 2, 6, 12],
    ElemOk elems (0 : Reg).toNat n ∧ ElemOk elems (24 : Reg).toNat n ∧ ElemOk elems (lastBase n).toNat n ∧
    (∀ k < n, wval elems (24 + k) = if k = 0 then 1 else 0) ∧
    ¬∀ k < n, wval elems ((lastBase n).toNat + k) = wval elems (24 + k) := fun n hn =>
  ⟨elemOk_elems n hn _ (by simp), elemOk_elems n hn _ (by simp), elemOk_elems n hn _ (by simp),
    by revert n; decide +kernel, by revert n; decide +kernel⟩

/-! ### Point commands -/

/-- The last base at which a point of level `n` fits. -/
def lastPoint (n : Nat) : Reg := BitVec.ofNat 6 (64 - (2 * n + 1))

/-- The words of a level-`n` point with coordinates in the base field. -/
def smallPoint (n x y inf : Nat) : List Nat := (x :: List.replicate (n - 1) 0) ++ (y :: List.replicate (n - 1) 0) ++ [inf]

/-- A state with the level-`n` point `(x, y, inf)` at 0, another at the last base, and the scalar `k` in `W[30]`. -/
def points (n x y inf x' y' inf' k : Nat) : State :=
  place State.reset [(0, smallPoint n x y inf), ((lastPoint n).toNat, smallPoint n x' y' inf'), (30, [k])]

/-- What the point commands ask of bases: the first and the last place of a point, sources and destination. -/
def PointsOk {α : Type} (T : Tower α) (s : State) : Prop :=
  (lastPoint T.size).toNat + (2 * T.size + 1) ≤ 64 ∧ PointOk s (0 : Reg).toNat T.size ∧
    PointOk s (lastPoint T.size).toNat T.size

/-- The two points of such a state have a sum without a zero denominator. -/
def SumHyps {α : Type} [AddCommGroup α] (T : Tower α) (s : State) : Prop :=
  PointsOk T s ∧ ¬SumUndefined (pointAt T s (0 : Reg).toNat) (pointAt T s (lastPoint T.size).toNat)

/-- Different abscissas. -/
theorem witness_PointAdditionGives_chord : SumHyps T1 (points 1 1 1 0 (p - 1) 3 0 0) ∧
    SumHyps T2 (points 2 1 1 0 (p - 1) 3 0 0) ∧ SumHyps T12 (points 12 1 1 0 (p - 1) 3 0 0) := by
  refine ⟨⟨?_, fun h => absurd h.2.2.1 (by decide +kernel)⟩, ⟨?_, fun h => absurd h.2.2.1 (by decide +kernel)⟩,
    ⟨?_, fun h => absurd h.2.2.1 (by decide +kernel)⟩⟩ <;>
  · unfold PointsOk PointOk; decide +kernel

/-- An infinity with coordinates of its own, and the other operand the undefined one of the other clause. -/
theorem witness_PointAdditionGives_infinity : SumHyps T1 (points 1 7 9 1 1 0 0 0) ∧
    SumHyps T2 (points 2 7 9 1 1 0 0 0) ∧ SumHyps T12 (points 12 7 9 1 1 0 0 0) := by
  refine ⟨⟨?_, fun h => absurd h.1 (by decide +kernel)⟩, ⟨?_, fun h => absurd h.1 (by decide +kernel)⟩,
    ⟨?_, fun h => absurd h.1 (by decide +kernel)⟩⟩ <;>
  · unfold PointsOk PointOk; decide +kernel

/-- Twice a point with `y = 0`. -/
theorem witness_PointAdditionGives_undefined :
    (PointsOk T1 (points 1 1 0 0 1 0 0 0) ∧ SumUndefined (pointAt T1 (points 1 1 0 0 1 0 0 0) 0)
      (pointAt T1 (points 1 1 0 0 1 0 0 0) (lastPoint 1).toNat)) ∧
    (PointsOk T2 (points 2 1 0 0 1 0 0 0) ∧ SumUndefined (pointAt T2 (points 2 1 0 0 1 0 0 0) 0)
      (pointAt T2 (points 2 1 0 0 1 0 0 0) (lastPoint 2).toNat)) ∧
    (PointsOk T12 (points 12 1 0 0 1 0 0 0) ∧ SumUndefined (pointAt T12 (points 12 1 0 0 1 0 0 0) 0)
      (pointAt T12 (points 12 1 0 0 1 0 0 0) (lastPoint 12).toNat)) := by
  unfold PointsOk PointOk SumUndefined; and_intros <;> decide +kernel

/-- The first point has `y = p - 1`, the second is infinity with `y = 0`: both doublings are defined. -/
def DoubleHyps {α : Type} [AddCommGroup α] (T : Tower α) (s : State) : Prop :=
  PointsOk T s ∧ (pointAt T s (0 : Reg).toNat).inf = false ∧ (pointAt T s (0 : Reg).toNat).y ≠ 0 ∧
    (pointAt T s (lastPoint T.size).toNat).inf = true

theorem witness_PointDoublingGives_defined : DoubleHyps T1 (points 1 0 (p - 1) 0 1 0 1 0) ∧
    DoubleHyps T2 (points 2 0 (p - 1) 0 1 0 1 0) ∧ DoubleHyps T12 (points 12 0 (p - 1) 0 1 0 1 0) := by
  unfold DoubleHyps PointsOk PointOk; and_intros <;> decide +kernel

theorem witness_PointDoublingGives_undefined :
    (PointsOk T1 (points 1 1 0 0 1 0 1 0) ∧ (pointAt T1 (points 1 1 0 0 1 0 1 0) 0).inf = false ∧
      (pointAt T1 (points 1 1 0 0 1 0 1 0) 0).y = 0) ∧
    (PointsOk T2 (points 2 1 0 0 1 0 1 0) ∧ (pointAt T2 (points 2 1 0 0 1 0 1 0) 0).inf = false ∧
      (pointAt T2 (points 2 1 0 0 1 0 1 0) 0).y = 0) ∧
    (PointsOk T12 (points 12 1 0 0 1 0 1 0) ∧ (pointAt T12 (points 12 1 0 0 1 0 1 0) 0).inf = false ∧
      (pointAt T12 (points 12 1 0 0 1 0 1 0) 0).y = 0) := by
  unfold PointsOk PointOk; and_intros <;> decide +kernel

/-- A finite point and an infinity. -/
theorem witness_PointNegationGives : PointsOk T1 (points 1 0 (p - 1) 0 1 0 1 0) ∧
    PointsOk T2 (points 2 0 (p - 1) 0 1 0 1 0) ∧ PointsOk T12 (points 12 0 (p - 1) 0 1 0 1 0) :=
  ⟨witness_PointDoublingGives_defined.1.1, witness_PointDoublingGives_defined.2.1.1, witness_PointDoublingGives_defined.2.2.1⟩

/-! The points (0, 2) and (0, -2) have order 3 at every level: `x = 0` is an inflection. -/

def tri {α : Type} (L : Level α) : Fin 3 → Point α
  | 0 => infPoint L
  | 1 => ⟨L.zero, twice L L.one, false⟩
  | 2 => ⟨L.zero, L.neg (twice L L.one), false⟩

theorem cyclic_tri1 : Cyclic lv1 3 (tri lv1) := ⟨rfl, by decide +kernel, by decide +kernel⟩
theorem cyclic_tri2 : Cyclic lv2 3 (tri lv2) := ⟨rfl, by decide +kernel, by decide +kernel⟩
theorem cyclic_tri12 : Cyclic lv12 3 (tri lv12) := ⟨rfl, by decide +kernel, by decide +kernel⟩

theorem multiple_tri {α β : Type} [DecidableEq α] [AddCommGroup β] {L : Level α} {T : Tower β} {f : α → β}
    (c : CurveLink L T f) (h : Cyclic L 3 (tri L)) (k : Nat) (s : State) (b : Nat)
    (hs : mapPoint f (tri L 1) = pointAt T s b) :
    IsMultiple T k false (pointAt T s b) (mapPoint f (tri L (Fin.ofNat 3 (k * (1 : Fin 3).val)))) := by
  rw [← hs, mulPoint_iff c]
  exact ⟨_, mulPoint_cyclic h k 1, rfl⟩

/-- Whether a computation gives a value. -/
def gives {α : Type} (a : Res α) : Bool :=
  match a with
  | .ok _ => true
  | .error _ => false

theorem multiple_of_gives {α β : Type} [DecidableEq α] [AddCommGroup β] {L : Level α} {T : Tower β} {f : α → β}
    (c : CurveLink L T f) (k : Nat) (sn : Bool) (P : Point α) (Q : Point β) (hs : mapPoint f P = Q)
    (h : gives (mulPoint L k sn P) = true) : ∃ R, IsMultiple T k sn Q R := by
  subst hs
  cases hm : mulPoint L k sn P with
  | error e => rw [hm] at h; cases h
  | ok R => exact ⟨_, (mulPoint_iff c k sn P _).mpr ⟨R, hm, rfl⟩⟩

theorem no_multiple_of_error {α β : Type} [DecidableEq α] [AddCommGroup β] {L : Level α} {T : Tower β} {f : α → β}
    (c : CurveLink L T f) (k : Nat) (sn : Bool) (P : Point α) (Q : Point β) (hs : mapPoint f P = Q)
    (h : gives (mulPoint L k sn P) = false) : ¬∃ R, IsMultiple T k sn Q R := by
  subst hs
  rintro ⟨R, hR⟩
  obtain ⟨R0, h0, _⟩ := (mulPoint_iff c k sn P R).mp hR
  rw [h0] at h
  cases h

/-- States for the multiples: (0, 2) at 0, (1, 0) at the last base, and the scalar. -/
abbrev mulState (n k : Nat) : State := points n 0 2 0 1 0 0 k

theorem pointsOk_mulState : PointsOk T1 (mulState 1 0) ∧ PointsOk T2 (mulState 2 0) ∧ PointsOk T12 (mulState 12 0) := by
  unfold PointsOk PointOk; and_intros <;> decide +kernel

/-- The scalar of 384 ones, not reduced. -/
theorem witness_PointMultipleGives_allOnes :
    (PointsOk T1 (mulState 1 (2 ^ 384 - 1)) ∧ wval (mulState 1 (2 ^ 384 - 1)) (30 : Reg).toNat = 2 ^ 384 - 1 ∧
      ∃ R, IsMultiple T1 (2 ^ 384 - 1) false (pointAt T1 (mulState 1 (2 ^ 384 - 1)) 0) R) ∧
    (PointsOk T2 (mulState 2 (2 ^ 384 - 1)) ∧ wval (mulState 2 (2 ^ 384 - 1)) (30 : Reg).toNat = 2 ^ 384 - 1 ∧
      ∃ R, IsMultiple T2 (2 ^ 384 - 1) false (pointAt T2 (mulState 2 (2 ^ 384 - 1)) 0) R) ∧
    (PointsOk T12 (mulState 12 (2 ^ 384 - 1)) ∧ wval (mulState 12 (2 ^ 384 - 1)) (30 : Reg).toNat = 2 ^ 384 - 1 ∧
      ∃ R, IsMultiple T12 (2 ^ 384 - 1) false (pointAt T12 (mulState 12 (2 ^ 384 - 1)) 0) R) := by
  refine ⟨⟨?_, by decide +kernel, _, multiple_tri curve1 cyclic_tri1 _ _ _ (by decide +kernel)⟩,
    ⟨?_, by decide +kernel, _, multiple_tri curve2 cyclic_tri2 _ _ _ (by decide +kernel)⟩,
    ⟨?_, by decide +kernel, _, multiple_tri curve12 cyclic_tri12 _ _ _ (by decide +kernel)⟩⟩ <;>
  · unfold PointsOk PointOk; and_intros <;> decide +kernel

/-- A negated multiple, and the scalar 0 of a point that cannot be doubled. -/
theorem witness_PointMultipleGives_small :
    (∃ R, IsMultiple T1 5 true (pointAt T1 (mulState 1 5) 0) R) ∧ (∃ R, IsMultiple T2 5 true (pointAt T2 (mulState 2 5) 0) R) ∧
    (∃ R, IsMultiple T12 5 true (pointAt T12 (mulState 12 5) 0) R) ∧
    (∃ R, IsMultiple T1 0 false (pointAt T1 (mulState 1 0) (lastPoint 1).toNat) R) ∧
    (∃ R, IsMultiple T2 0 false (pointAt T2 (mulState 2 0) (lastPoint 2).toNat) R) ∧
    (∃ R, IsMultiple T12 0 false (pointAt T12 (mulState 12 0) (lastPoint 12).toNat) R) :=
  ⟨multiple_of_gives curve1 _ _ (tri lv1 1) _ (by decide +kernel) (by decide +kernel),
   multiple_of_gives curve2 _ _ (tri lv2 1) _ (by decide +kernel) (by decide +kernel),
   multiple_of_gives curve12 _ _ (tri lv12 1) _ (by decide +kernel) (by decide +kernel),
   multiple_of_gives curve1 _ _ ⟨lv1.one, lv1.zero, false⟩ _ (by decide +kernel) (by decide +kernel),
   multiple_of_gives curve2 _ _ ⟨lv2.one, lv2.zero, false⟩ _ (by decide +kernel) (by decide +kernel),
   multiple_of_gives curve12 _ _ ⟨lv12.one, lv12.zero, false⟩ _ (by decide +kernel) (by decide +kernel)⟩

/-- Twice a point with `y = 0` (V44.32). -/
theorem witness_PointMultipleGives_undefined :
    (¬∃ R, IsMultiple T1 2 false (pointAt T1 (mulState 1 2) (lastPoint 1).toNat) R) ∧
    (¬∃ R, IsMultiple T2 2 false (pointAt T2 (mulState 2 2) (lastPoint 2).toNat) R) ∧
    (¬∃ R, IsMultiple T12 2 false (pointAt T12 (mulState 12 2) (lastPoint 12).toNat) R) ∧
    PointsOk T1 (mulState 1 2) ∧ PointsOk T2 (mulState 2 2) ∧ PointsOk T12 (mulState 12 2) := by
  refine ⟨no_multiple_of_error curve1 _ _ ⟨lv1.one, lv1.zero, false⟩ _ (by decide +kernel) (by decide +kernel),
    no_multiple_of_error curve2 _ _ ⟨lv2.one, lv2.zero, false⟩ _ (by decide +kernel) (by decide +kernel),
    no_multiple_of_error curve12 _ _ ⟨lv12.one, lv12.zero, false⟩ _ (by decide +kernel) (by decide +kernel), ?_⟩
  unfold PointsOk PointOk; and_intros <;> decide +kernel

/-- (0, 2) is on the curves of levels 1 and 12; (1, 0) is on none of the three. The generator of level 2 is on its curve. -/
theorem witness_OnCurveSetsFlag :
    PointsOk T1 (mulState 1 0) ∧ PointsOk T2 (mulState 2 0) ∧ PointsOk T12 (mulState 12 0) ∧
    OnCurve T1 b1 (pointAt T1 (mulState 1 0) 0) ∧ OnCurve T12 b12 (pointAt T12 (mulState 12 0) 0) ∧
    OnCurve T2 b2 (mapPoint toF2 genH) ∧
    ¬OnCurve T1 b1 (pointAt T1 (mulState 1 0) (lastPoint 1).toNat) ∧
    ¬OnCurve T2 b2 (pointAt T2 (mulState 2 0) (lastPoint 2).toNat) ∧
    ¬OnCurve T12 b12 (pointAt T12 (mulState 12 0) (lastPoint 12).toNat) := by
  refine ⟨pointsOk_mulState.1, pointsOk_mulState.2.1, pointsOk_mulState.2.2, ?_, ?_, ?_,
    fun h => absurd h.2 (by decide +kernel), fun h => absurd h.2 (by decide +kernel),
    fun h => absurd h.2 (by decide +kernel)⟩ <;>
  · unfold OnCurve; decide +kernel

/-- FLAG = 0: `r (0, 2) = (0, 2)`, as `r` is 1 mod 3. -/
theorem witness_SubgroupSetsFlag_outside :
    (∃ R, IsMultiple T1 Config.r false (pointAt T1 (mulState 1 0) 0) R ∧ R.inf = false) ∧
    (∃ R, IsMultiple T2 Config.r false (pointAt T2 (mulState 2 0) 0) R ∧ R.inf = false) ∧
    (∃ R, IsMultiple T12 Config.r false (pointAt T12 (mulState 12 0) 0) R ∧ R.inf = false) ∧
    PointsOk T1 (mulState 1 0) ∧ PointsOk T2 (mulState 2 0) ∧ PointsOk T12 (mulState 12 0) :=
  ⟨⟨_, multiple_tri curve1 cyclic_tri1 _ _ _ (by decide +kernel), by decide +kernel⟩,
   ⟨_, multiple_tri curve2 cyclic_tri2 _ _ _ (by decide +kernel), by decide +kernel⟩,
   ⟨_, multiple_tri curve12 cyclic_tri12 _ _ _ (by decide +kernel), by decide +kernel⟩, pointsOk_mulState⟩

/-- InverseOfZero: `r (1, 0)`. -/
theorem witness_SubgroupSetsFlag_undefined :
    (¬∃ R, IsMultiple T1 Config.r false (pointAt T1 (mulState 1 0) (lastPoint 1).toNat) R) ∧
    (¬∃ R, IsMultiple T2 Config.r false (pointAt T2 (mulState 2 0) (lastPoint 2).toNat) R) ∧
    (¬∃ R, IsMultiple T12 Config.r false (pointAt T12 (mulState 12 0) (lastPoint 12).toNat) R) ∧
    PointsOk T1 (mulState 1 0) ∧ PointsOk T2 (mulState 2 0) ∧ PointsOk T12 (mulState 12 0) :=
  ⟨no_multiple_of_error curve1 _ _ ⟨lv1.one, lv1.zero, false⟩ _ (by decide +kernel) (by decide +kernel),
   no_multiple_of_error curve2 _ _ ⟨lv2.one, lv2.zero, false⟩ _ (by decide +kernel) (by decide +kernel),
   no_multiple_of_error curve12 _ _ ⟨lv12.one, lv12.zero, false⟩ _ (by decide +kernel) (by decide +kernel),
   pointsOk_mulState⟩

/-- A state with the generators: G at 0, H at 3, infinity of level 1 at 61, of level 2 at 40, of level 12 at 15. -/
def generators : State :=
  place State.reset [(0, (pointWords lv1 genG).map BitVec.toNat), (3, (pointWords lv2 genH).map BitVec.toNat),
    (15, smallPoint 12 7 9 1), (40, smallPoint 2 7 9 1), (61, smallPoint 1 7 9 1)]

theorem genG_at : mapPoint toF genG = pointAt T1 generators 0 := by decide +kernel
theorem genH_at : mapPoint toF2 genH = pointAt T2 generators 3 := by decide +kernel
theorem pointOk_genG : PointOk generators 0 1 := by unfold PointOk; decide +kernel
theorem pointOk_genH : PointOk generators 3 2 := by unfold PointOk; decide +kernel

theorem multiple_genG : ∃ R, IsMultiple T1 Config.r false (pointAt T1 generators 0) R ∧ R.inf = true := by
  rw [← genG_at]; exact (inSubgroup_iff curve1 genG true).mp member_genG

theorem multiple_genH : ∃ R, IsMultiple T2 Config.r false (pointAt T2 generators 3) R ∧ R.inf = true := by
  rw [← genH_at]; exact (inSubgroup_iff curve2 genH true).mp member_genH

/-- The words of an infinity read as that point. -/
theorem infinities : mapPoint toF ⟨fpOfNat 7, fpOfNat 9, true⟩ = pointAt T1 generators 61 ∧
    mapPoint toF2 ⟨⟨fpOfNat 7, fpZero⟩, ⟨fpOfNat 9, fpZero⟩, true⟩ = pointAt T2 generators 40 ∧
    mapPoint toF12 ⟨lift1 (fpOfNat 7), lift1 (fpOfNat 9), true⟩ = pointAt T12 generators 15 := by decide +kernel

theorem pointOk_infinities : PointOk generators 61 1 ∧ PointOk generators 40 2 ∧ PointOk generators 15 12 := by
  unfold PointOk; decide +kernel

theorem multiple_infinities :
    (∃ R, IsMultiple T1 Config.r false (pointAt T1 generators 61) R ∧ R.inf = true) ∧
    (∃ R, IsMultiple T2 Config.r false (pointAt T2 generators 40) R ∧ R.inf = true) ∧
    (∃ R, IsMultiple T12 Config.r false (pointAt T12 generators 15) R ∧ R.inf = true) := by
  refine ⟨?_, ?_, ?_⟩
  · rw [← infinities.1]; exact (inSubgroup_iff curve1 _ true).mp (by decide +kernel)
  · rw [← infinities.2.1]; exact (inSubgroup_iff curve2 _ true).mp (by decide +kernel)
  · rw [← infinities.2.2]; exact (inSubgroup_iff curve12 _ true).mp (by decide +kernel)

/-- FLAG = 1: the generators, and the infinities of the three levels. -/
theorem witness_SubgroupSetsFlag_inside :
    (PointOk generators (0 : Reg).toNat 1 ∧ ∃ R, IsMultiple T1 Config.r false (pointAt T1 generators 0) R ∧ R.inf = true) ∧
    (PointOk generators (3 : Reg).toNat 2 ∧ ∃ R, IsMultiple T2 Config.r false (pointAt T2 generators 3) R ∧ R.inf = true) ∧
    (PointOk generators (15 : Reg).toNat 12 ∧
      ∃ R, IsMultiple T12 Config.r false (pointAt T12 generators 15) R ∧ R.inf = true) :=
  ⟨⟨pointOk_genG, multiple_genG⟩, ⟨pointOk_genH, multiple_genH⟩, pointOk_infinities.2.2, multiple_infinities.2.2⟩

/-! The curve's group. -/

theorem nonsingular_point : E1.Nonsingular 0 2 := by
  rw [WeierstrassCurve.Affine.nonsingular_iff, WeierstrassCurve.Affine.equation_iff]
  simp only [E1]
  refine ⟨by decide +kernel, .inr (by decide +kernel)⟩

/-- The point (0, 2) at 0 and 61, an infinity at 6, the scalar of all ones in `W[9]`. -/
def groupState : State :=
  place State.reset [(0, [0, 2, 0]), (6, [7, 9, 1]), (9, [2 ^ 384 - 1]), (61, [0, 2, 0])]

theorem represents_point : ∀ b ∈ [0, 61], Represents groupState b (.some 0 2 nonsingular_point) := by
  intro b hb
  simp only [Represents]
  revert b
  decide +kernel

theorem represents_zero : Represents groupState 6 .zero := by
  simp only [Represents]
  unfold PointOk
  decide +kernel

/-- Equal points, a point and the zero. -/
theorem witness_PaddIsGroupAddition :
    Nat.Prime Config.p ∧ (61 : Reg).toNat + 3 ≤ 64 ∧
    Represents groupState (0 : Reg).toNat (.some 0 2 nonsingular_point) ∧
    Represents groupState (61 : Reg).toNat (.some 0 2 nonsingular_point) ∧ Represents groupState (6 : Reg).toNat .zero :=
  ⟨p_prime, by decide, represents_point 0 (by simp), represents_point 61 (by simp), represents_zero⟩

theorem witness_PmulIsGroupMultiple :
    Nat.Prime Config.p ∧ (61 : Reg).toNat + 3 ≤ 64 ∧
    Represents groupState (61 : Reg).toNat (.some 0 2 nonsingular_point) ∧
    wval groupState (9 : Reg).toNat = 2 ^ 384 - 1 :=
  ⟨p_prime, by decide, represents_point 61 (by simp), by decide +kernel⟩

theorem witness_SubgroupTestIsGroupTest :
    Nat.Prime Config.p ∧ Represents groupState (61 : Reg).toNat (.some 0 2 nonsingular_point) ∧
    Represents groupState (6 : Reg).toNat .zero := ⟨p_prime, represents_point 61 (by simp), represents_zero⟩

/-! ### The pairing engine -/

/-- A G2 point finite with `y = p - 1`, one with `y = 0`, one at infinity, and the same at level 1. -/
def lines : State :=
  place State.reset [(0, [2, 0, 0, p - 1, 0]), (5, [2, 0, 0, 0, 0]), (10, [2, 0, 0, 2, 1]), (15, [4, 0, 0, 6, 0]),
    (20, [2, 0, 0, 3, 0]), (25, [0, 0, 2, 0, 0]), (50, [1, 0, 0]), (53, [1, 1, 1]), (56, [p - 1, 1, 0]), (59, [2, 0, 0, 0, 0])]

theorem pointOk_lines : (∀ b ∈ [0, 5, 10, 15, 20, 25, 59], PointOk lines b 2) ∧ ∀ b ∈ [50, 53, 56, 61], PointOk lines b 1 := by
  unfold PointOk; decide +kernel

theorem witness_UntwistGives :
    ((39 : Reg).toNat + 25 ≤ 64 ∧ PointOk lines (59 : Reg).toNat 2 ∧ (pointAt T2 lines (59 : Reg).toNat).inf = false) ∧
    (PointOk lines (10 : Reg).toNat 2 ∧ (pointAt T2 lines (10 : Reg).toNat).inf = true) :=
  ⟨⟨by decide, pointOk_lines.1 59 (by simp), by decide +kernel⟩, pointOk_lines.1 10 (by simp), by decide +kernel⟩

/-- The three clauses: defined, R or P at infinity (R with `y = 0` too), `y = 0`. -/
theorem witness_TangentValueGives :
    (52 : Reg).toNat + 12 ≤ 64 ∧ PointOk lines (0 : Reg).toNat 2 ∧ PointOk lines (5 : Reg).toNat 2 ∧
    PointOk lines (10 : Reg).toNat 2 ∧ PointOk lines (53 : Reg).toNat 1 ∧ PointOk lines (56 : Reg).toNat 1 ∧
    ((pointAt T2 lines 0).inf = false ∧ (pointAt T1 lines 56).inf = false ∧ (pointAt T2 lines 0).y ≠ 0) ∧
    (pointAt T2 lines 10).inf = true ∧ (pointAt T1 lines 53).inf = true ∧
    ((pointAt T2 lines 5).inf = false ∧ (pointAt T1 lines 56).inf = false ∧ (pointAt T2 lines 5).y = 0) :=
  ⟨by decide, pointOk_lines.1 0 (by simp), pointOk_lines.1 5 (by simp), pointOk_lines.1 10 (by simp),
    pointOk_lines.2 53 (by simp), pointOk_lines.2 56 (by simp), by decide +kernel⟩

/-- The secant, the vertical line, an infinity, and the zero denominator with equal and with other ordinates. -/
theorem witness_SecantValueGives :
    (52 : Reg).toNat + 12 ≤ 64 ∧ (∀ b ∈ [0, 5, 10, 15, 20], PointOk lines b 2) ∧ PointOk lines (56 : Reg).toNat 1 ∧
    PointOk lines (53 : Reg).toNat 1 ∧
    ((pointAt T2 lines 0).inf = false ∧ (pointAt T2 lines 15).inf = false ∧ (pointAt T1 lines 56).inf = false ∧
      (pointAt T2 lines 0).x ≠ (pointAt T2 lines 15).x) ∧
    ((pointAt T2 lines 5).inf = false ∧ (pointAt T2 lines 5).x = (pointAt T2 lines 5).x ∧
      (pointAt T2 lines 5).y = -(pointAt T2 lines 5).y) ∧
    ((pointAt T2 lines 10).inf = true ∧ (pointAt T1 lines 53).inf = true) ∧
    ((pointAt T2 lines 0).x = (pointAt T2 lines 20).x ∧ (pointAt T2 lines 0).y ≠ -(pointAt T2 lines 20).y ∧
      (pointAt T2 lines 20).inf = false ∧ (pointAt T2 lines 0).y ≠ -(pointAt T2 lines 0).y) := by
  refine ⟨by decide, fun b hb => pointOk_lines.1 b (by revert b; decide), pointOk_lines.2 56 (by simp),
    pointOk_lines.2 53 (by simp), ?_⟩
  decide +kernel

/-- The Miller value of the generators exists (V45.5). -/
theorem miller_generators : ∃ f, IsMiller (pointAt T1 generators 0) (pointAt T2 generators 3) f := by
  rw [← genG_at, ← genH_at]
  cases h : millerFn genG genH with
  | ok f => exact ⟨_, (millerFn_iff genG genH rfl rfl _).mpr ⟨f, h, rfl⟩⟩
  | error e =>
    have := test_V45_5
    rw [h] at this
    cases this

theorem witness_MillerGives_value :
    (52 : Reg).toNat + 12 ≤ 64 ∧ PointOk generators (0 : Reg).toNat 1 ∧ PointOk generators (3 : Reg).toNat 2 ∧
    (pointAt T1 generators 0).inf = false ∧ (pointAt T2 generators 3).inf = false ∧
    ∃ f, IsMiller (pointAt T1 generators 0) (pointAt T2 generators 3) f :=
  ⟨by decide, pointOk_genG, pointOk_genH, by decide +kernel, by decide +kernel, miller_generators⟩

theorem witness_MillerGives_infinity :
    (52 : Reg).toNat + 12 ≤ 64 ∧ PointOk lines (56 : Reg).toNat 1 ∧ PointOk lines (10 : Reg).toNat 2 ∧
    PointOk lines (53 : Reg).toNat 1 ∧ PointOk lines (0 : Reg).toNat 2 ∧ (pointAt T2 lines 10).inf = true ∧
    (pointAt T1 lines 53).inf = true :=
  ⟨by decide, pointOk_lines.2 56 (by simp), pointOk_lines.1 10 (by simp), pointOk_lines.2 53 (by simp),
    pointOk_lines.1 0 (by simp), by decide +kernel⟩

theorem no_miller_of_error {P : Point Fp} {Q : Point Fp2} {P' : Point F} {Q' : Point F2} (hP : mapPoint toF P = P')
    (hQ : mapPoint toF2 Q = Q') (hPi : P.inf = false) (hQi : Q.inf = false) (h : gives (millerFn P Q) = false) :
    ¬∃ f, IsMiller P' Q' f := by
  subst hP hQ
  rintro ⟨f, hf⟩
  obtain ⟨f0, h0, _⟩ := (millerFn_iff P Q hPi hQi f).mp hf
  rw [h0] at h
  cases h

/-- Q with `y = 0` (a zero denominator), and Q = (0, 2) of order 3 (the running point becomes infinity). -/
theorem witness_MillerGives_undefined :
    (52 : Reg).toNat + 12 ≤ 64 ∧ PointOk lines (56 : Reg).toNat 1 ∧ PointOk lines (5 : Reg).toNat 2 ∧
    PointOk lines (25 : Reg).toNat 2 ∧
    (pointAt T1 lines 56).inf = false ∧ (pointAt T2 lines 5).inf = false ∧ (pointAt T2 lines 25).inf = false ∧
    (¬∃ f, IsMiller (pointAt T1 lines 56) (pointAt T2 lines 5) f) ∧
    ¬∃ f, IsMiller (pointAt T1 lines 56) (pointAt T2 lines 25) f :=
  ⟨by decide, pointOk_lines.2 56 (by simp), pointOk_lines.1 5 (by simp), pointOk_lines.1 25 (by simp),
    by decide +kernel, by decide +kernel, by decide +kernel,
    no_miller_of_error (P := ⟨fpOfNat (p - 1), fpOne, false⟩) (Q := ⟨⟨fpOfNat 2, fpZero⟩, fp2Zero, false⟩)
      (by decide +kernel) (by decide +kernel) rfl rfl (by decide +kernel),
    no_miller_of_error (P := ⟨fpOfNat (p - 1), fpOne, false⟩) (Q := tri lv2 1)
      (by decide +kernel) (by decide +kernel) rfl rfl (by decide +kernel)⟩

/-- A point of order 13 of G2's curve and its multiples: on the curve, outside the subgroup. -/
def order13 : Fin 13 → Point Fp2
  | 0 => infPoint lv2
  | 1 => ⟨⟨fpOfNat 0xadf181d822ba0f0912dfb1b62c1eaacdd4b14d62bc7e8fcdb5b0b5da2ac77f281db59553f3068f957c0374531edc1e4, fpOfNat 0x39bfcf7739ddda85050abad47896d69f0edb0b26e55bfd7d1be52cdd9633114806491ce571e31a94fb5138b0e89e5d3⟩,
      ⟨fpOfNat 0x572072865bd6cb88fa243916711e9c9e3b71ba58d6b379c6b8d4d6cd0d958ab3f7a596b6f3c1bd8d99e174aadfed1ff, fpOfNat 0x807fdc3a99731b8e0d8b45ba0d41cbb124a98318363b5bdc5232ebb7e58b55354f6ce20959394fa7dd3ba98cebf5787⟩, false⟩
  | 2 => ⟨⟨fpOfNat 0x120f49ff6ccfa234f48d673af1be7ca82bd0ca92af2bd0ecfdc72405f0d3d9fd441622ff981a29f712b1779f9b71bda6, fpOfNat 0x75412cb9bb7b3139eb107d15a3caaa535f90d62af97a965a1bcde183f26ae34f32f904326e2a51174373d047d50b11e⟩,
      ⟨fpOfNat 0xf3b7da232d634cbea39230572e53cc2116e117105461a8210180af131e24188c4809cf91ffeb7940ddb07e0422070b0, fpOfNat 0x7cf76f4c65dba90c719e11d2267e88029593809c2ad7bad3e570d52ede3b1507e135b26b4f4f4ab935683b8681e33a⟩, false⟩
  | 3 => ⟨⟨fpOfNat 0x12acff1e9dc83386ac6a9fe4e90f02322e7e3e2243ed6959c573f488b78a47ef2b7c6fbb8a715aee45c7c2fb82aef98d, fpOfNat 0x7f1c7eaccb04465568e407b518d302f38a680f2445941d26969ae9b05dd1c26da95dcff1939d608a74d8860648ded05⟩,
      ⟨fpOfNat 0x19ce0d5bcc0dbce601c0302039b0cc9685754c6d7061df80921cb37b04e8966bbf9159a4e6cdfdccfde2384bd8f12e7f, fpOfNat 0x8b245629f3d2727a4220267624880a5fa0de6c4c60caf2949e70875f559c89af0dd32cb850f7dd0b56c11ba78d5fd86⟩, false⟩
  | 4 => ⟨⟨fpOfNat 0x13933f98c70ab0f4e6809d0a7c57420877f42dd9e1fcb4c01e786cd57bbc6bacea92547b5d5036c172d53c6a6bc9be5e, fpOfNat 0x122c6ad97b36430e70b87f8d4eaac5003ac6b9b60cae3ee29a3b0870be6e9a94a8925515bba4f6a956a33bc66b1cb98c⟩,
      ⟨fpOfNat 0xd07e22d28a2d72ef6483628b36ed6c7ba3d1ec0ecbac4f2b13c0d50a8227b1244a148615c3a131db660441b926a5ff4, fpOfNat 0x172e9b56d6587e08922a1d19b16f29ac5f0ec422aaf9c98e425ac0509a60c9163101a3344d6161addff920a1461e808d⟩, false⟩
  | 5 => ⟨⟨fpOfNat 0x166514f2c5e208f1facafc08fbc23f6d73899ad2852f52e795727fd31d4dc50f9e476e305a35ce566a49ec74f175c4d8, fpOfNat 0xf21f9ccb75445a9b9edac9ae089c22a872c36aec7bd29c28bd5c74354047e319cd0a6a972239706623ec8bace11e8c7⟩,
      ⟨fpOfNat 0x7b8eb3b0d94f08c916f6195da10e94d0f05b83418b3d3b6b6502cc324ab047967961c8d7bcc69b94501e53fabc600f3, fpOfNat 0x82b2fb28bdddaf702d3dda394c1dd5ffefcf24fd6b080891192186219d8d38a0a516e85dc3f74977eb47d01649f4c1e⟩, false⟩
  | 6 => ⟨⟨fpOfNat 0x7d4a710be49a38bda632828f4a0e7d729b091cee6d6d3dcccf5ca3038425b8f7619aae8f5af0956635bc43994e2f11f, fpOfNat 0x66dd251727535a5649b0aabc6f46aceec831dab11885dff48b865cb7af48a773419ab835403c93e4729c3959435ec4d⟩,
      ⟨fpOfNat 0x1153708c1b38b0ed0c19f99e54e66a08ce2464341c2813082874352ff354bb3e9e63595ed626ca3d6bc42f327f7b92d3, fpOfNat 0xc4ccc8d72ace767a08577447b4f264007c174321f1b147e75218e324b91f77b2fe61b875c22542c3a64244688c4f396⟩, false⟩
  | 7 => ⟨⟨fpOfNat 0x7d4a710be49a38bda632828f4a0e7d729b091cee6d6d3dcccf5ca3038425b8f7619aae8f5af0956635bc43994e2f11f, fpOfNat 0x66dd251727535a5649b0aabc6f46aceec831dab11885dff48b865cb7af48a773419ab835403c93e4729c3959435ec4d⟩,
      ⟨fpOfNat 0x8ada15e1e4735ad3f01ae17ee6542ce9652e750d75cffb73ebc9d71035c3ae58048a69fdb2d35c24e3ad0cd808417d8, fpOfNat 0xdb4455cc6d2ff32aa963071c7fc86975cb5d752d469fe40f20f446eab1efea8eec5e4775531abd37f9adbb9773ab715⟩, false⟩
  | 8 => ⟨⟨fpOfNat 0x166514f2c5e208f1facafc08fbc23f6d73899ad2852f52e795727fd31d4dc50f9e476e305a35ce566a49ec74f175c4d8, fpOfNat 0xf21f9ccb75445a9b9edac9ae089c22a872c36aec7bd29c28bd5c74354047e319cd0a6a972239706623ec8bace11e8c7⟩,
      ⟨fpOfNat 0x124826af2beaf60db9ac4620693ac38a55719350dad13f08b0e0a5ddd205f1aab715e3713587964674fd1ac05439a9b8, fpOfNat 0x11d5e237ada20ba34847ca12ae89cf77657a59351cd49236559eba3edcd8229a145a9178d5148b683b4a82fe9b605e8d⟩, false⟩
  | 9 => ⟨⟨fpOfNat 0x13933f98c70ab0f4e6809d0a7c57420877f42dd9e1fcb4c01e786cd57bbc6bacea92547b5d5036c172d53c6a6bc9be5e, fpOfNat 0x122c6ad97b36430e70b87f8d4eaac5003ac6b9b60cae3ee29a3b0870be6e9a94a8925515bba4f6a956a33bc66b1cb98c⟩,
      ⟨fpOfNat 0xcf92fbd10dd0f6b54d3718d8fdcd60faa3a2cc406ca4dccb5f4c5504e8e7b11da0ab79d5519ece2039ebbe46d954ab7, fpOfNat 0x2d2769363276891b8f18a9c91dc832b05688762488b493124d612505c502d0dedaa5cca63f29e51da05df5eb9e12a1e⟩, false⟩
  | 10 => ⟨⟨fpOfNat 0x12acff1e9dc83386ac6a9fe4e90f02322e7e3e2243ed6959c573f488b78a47ef2b7c6fbb8a715aee45c7c2fb82aef98d, fpOfNat 0x7f1c7eaccb04465568e407b518d302f38a680f2445941d26969ae9b05dd1c26da95dcff1939d608a74d8860648ded05⟩,
      ⟨fpOfNat 0x33048e6d7229b4495b7796099ae040df01ff178323333ed5141f25f1c85fb85f1aa659ca860232bc1cc7b4270e7c2c, fpOfNat 0x114ecc879a42bf72a6f9a54ee1032c316a6964c02d7863961d49ca2b01572d892dcecd332c44822f0492ee458729ad25⟩, false⟩
  | 11 => ⟨⟨fpOfNat 0x120f49ff6ccfa234f48d673af1be7ca82bd0ca92af2bd0ecfdc72405f0d3d9fd441622ff981a29f712b1779f9b71bda6, fpOfNat 0x75412cb9bb7b3139eb107d15a3caaa535f90d62af97a965a1bcde183f26ae34f32f904326e2a51174373d047d50b11e⟩,
      ⟨fpOfNat 0xac5944806a9b1ce60e284b0d066701553093a13ee3ef83d5718c7afc4ceb49b5a2b63059155486bac23f81fbddf39fb, fpOfNat 0x19841a7aed1a0af13eaa09a471252e4f61e1b804575a3b04934b61cbc7d2bb0f16caca4c4604b0b500c997c4797dc771⟩, false⟩
  | 12 => ⟨⟨fpOfNat 0xadf181d822ba0f0912dfb1b62c1eaacdd4b14d62bc7e8fcdb5b0b5da2ac77f281db59553f3068f957c0374531edc1e4, fpOfNat 0x39bfcf7739ddda85050abad47896d69f0edb0b26e55bfd7d1be52cdd9633114806491ce571e31a94fb5138b0e89e5d3⟩,
      ⟨fpOfNat 0x148f0ac1d3c279e1bb796424dc39c30d80c02fdf6619db22fba3853425d79d78df31a6934217e426e060e8b55200d8ac, fpOfNat 0x11f914268fe8b4e16a42f35aa277901c522cb35370215d01a20da3e5785840d0c9b531de1bc06b053c2b456731405324⟩, false⟩

theorem cyclic_order13 : Cyclic lv2 13 order13 := by
  rw [lv2_eq_fast]
  exact ⟨rfl, by decide +kernel, by decide +kernel⟩

/-- The generator of G1 at 0, the point (0, 2) outside the subgroup at 3, a point off both curves, infinities, and the point of
order 13 at 40. -/
def rejects : State :=
  place State.reset [(0, (pointWords lv1 genG).map BitVec.toNat), (3, [0, 2, 0]), (6, [1, 1, 0]), (9, [7, 9, 1]),
    (20, (pointWords lv2 genH).map BitVec.toNat), (25, [1, 0, 1, 0, 0]), (30, [7, 9, 7, 9, 1]),
    (40, (pointWords lv2 (order13 1)).map BitVec.toNat)]

theorem pointOk_rejects : (∀ b ∈ [0, 3, 6, 9], PointOk rejects b 1) ∧ ∀ b ∈ [20, 25, 30, 40], PointOk rejects b 2 := by
  unfold PointOk; decide +kernel

/-- P or Q at infinity, P or Q off its curve. -/
theorem witness_PairingRejectsWithZero_checks :
    (52 : Reg).toNat + 12 ≤ 64 ∧ (∀ b ∈ [0, 3, 6, 9], PointOk rejects b 1) ∧ (∀ b ∈ [20, 25, 30, 40], PointOk rejects b 2) ∧
    (pointAt T1 rejects 9).inf = true ∧ (pointAt T2 rejects 30).inf = true ∧ ¬OnCurve T1 b1 (pointAt T1 rejects 6) ∧
    ¬OnCurve T2 b2 (pointAt T2 rejects 25) :=
  ⟨by decide, pointOk_rejects.1, pointOk_rejects.2, by decide +kernel, by decide +kernel,
    fun h => absurd h.2 (by decide +kernel), fun h => absurd h.2 (by decide +kernel)⟩

/-- P on its curve, outside the subgroup (V45.10). -/
theorem witness_PairingRejectsWithZero_first :
    OnCurve T1 b1 (pointAt T1 rejects 3) ∧ ∃ A, IsMultiple T1 Config.r false (pointAt T1 rejects 3) A ∧ A.inf = false := by
  refine ⟨by unfold OnCurve; decide +kernel, _, multiple_tri curve1 cyclic_tri1 Config.r rejects 3 (by decide +kernel), ?_⟩
  decide +kernel

/-- P in the subgroup, Q on its curve and outside the subgroup. -/
theorem witness_PairingRejectsWithZero_second :
    OnCurve T2 b2 (pointAt T2 rejects 40) ∧
    ∃ A B, IsMultiple T1 Config.r false (pointAt T1 rejects 0) A ∧ A.inf = true ∧
      IsMultiple T2 Config.r false (pointAt T2 rejects 40) B ∧ B.inf = false := by
  have hG : mapPoint toF genG = pointAt T1 rejects 0 := by decide +kernel
  have hQ : mapPoint toF2 (order13 1) = pointAt T2 rejects 40 := by decide +kernel
  obtain ⟨A, hA, hAi⟩ := (inSubgroup_iff curve1 genG true).mp member_genG
  refine ⟨by unfold OnCurve; decide +kernel, A, mapPoint toF2 (order13 (Fin.ofNat 13 (Config.r * (1 : Fin 13).val))),
    by rw [← hG]; exact hA, hAi, ?_, by decide +kernel⟩
  rw [← hQ, mulPoint_iff curve2]
  exact ⟨_, mulPoint_cyclic cyclic_order13 Config.r 1, rfl⟩

/-- The generators (V45.7). -/
theorem witness_PairingAcceptedGives :
    (52 : Reg).toNat + 12 ≤ 64 ∧ PointOk generators (0 : Reg).toNat 1 ∧ PointOk generators (3 : Reg).toNat 2 ∧
    OnCurve T1 b1 (pointAt T1 generators 0) ∧ OnCurve T2 b2 (pointAt T2 generators 3) ∧
    (∃ A, IsMultiple T1 Config.r false (pointAt T1 generators 0) A ∧ A.inf = true) ∧
    (∃ B, IsMultiple T2 Config.r false (pointAt T2 generators 3) B ∧ B.inf = true) ∧
    ∃ f, IsMiller (pointAt T1 generators 0) (pointAt T2 generators 3) f :=
  ⟨by decide, pointOk_genG, pointOk_genH, by unfold OnCurve; decide +kernel, by unfold OnCurve; decide +kernel,
    multiple_genG, multiple_genH, miller_generators⟩

theorem witness_PairingNeverRaises :
    (52 : Reg).toNat + 12 ≤ 64 ∧ PointOk lines (61 : Reg).toNat 1 ∧ PointOk lines (59 : Reg).toNat 2 :=
  ⟨by decide, pointOk_lines.2 61 (by simp), pointOk_lines.1 59 (by simp)⟩

theorem witness_FinalExpGives : (lastBase 12).toNat + 12 ≤ 64 ∧ ElemOk elems (lastBase 12).toNat 12 :=
  ⟨by decide, elemOk_elems 12 (by simp) _ (by simp)⟩

/-! ### Square roots and encodings -/

theorem five_not_square : ¬IsSquare (5 : F) := by
  have hne : (5 : F) ≠ 0 := by decide +kernel
  have : Fact (Nat.Prime p) := ⟨p_prime⟩
  rw [ZMod.euler_criterion p hne]
  intro h
  have h5 : toF (fpPow (fpOfNat 5) (p / 2)) = toF fpOne := by
    rw [toF_pow, toF_fpOfNat, toF_one]; exact h
  exact absurd (toF_injective h5) (by decide +kernel)

/-- Words 4, 0, 5, and `p - 1` in `W[62]` and `W[63]`. -/
def roots : State :=
  place State.reset [(0, [4]), (2, [5]), (4, [p - 1, 0]), (6, [1, 1]), (8, [0, 0]), (62, [p - 1, p - 1])]

theorem elemOk_roots : (∀ b ∈ [0, 1, 2, 63], ElemOk roots b 1) ∧ ∀ b ∈ [4, 6, 8, 62], ElemOk roots b 2 := by
  unfold ElemOk; decide +kernel

theorem witness_SquareRootOneGives :
    (∀ b ∈ [0, 1, 2, 63], ElemOk roots b 1) ∧ (elemAt T1 roots (0 : Reg).toNat ≠ 0 ∧ IsSquare (elemAt T1 roots (0 : Reg).toNat)) ∧
    elemAt T1 roots (1 : Reg).toNat = 0 ∧ ¬IsSquare (elemAt T1 roots (2 : Reg).toNat) := by
  refine ⟨elemOk_roots.1, ⟨by decide +kernel, 2, by decide +kernel⟩, by decide +kernel, ?_⟩
  rw [show elemAt T1 roots (2 : Reg).toNat = 5 by decide +kernel]
  exact five_not_square

/-- `c (u + 1)` with a square `c = d^2` is no square at level 2. -/
theorem not_square_nr (d : F) (hd : d ≠ 0) : ¬∃ z : F2, mul2 z z = (d * d, d * d) := by
  have : Fact (Nat.Prime p) := ⟨p_prime⟩
  rintro ⟨z, hz⟩
  apply nrK_not_square (toK (z.1 * d⁻¹, z.2 * d⁻¹))
  simp only [mul2, Prod.mk.injEq] at hz
  rw [sq, ← toK_mul]
  simp only [toK, mul2, nrK, QuadraticAlgebra.mk.injEq]
  refine ⟨?_, ?_⟩
  · calc z.1 * d⁻¹ * (z.1 * d⁻¹) - z.2 * d⁻¹ * (z.2 * d⁻¹) = (z.1 * z.1 - z.2 * z.2) * (d⁻¹ * d⁻¹) := by ring
      _ = (d * d⁻¹) * (d * d⁻¹) := by rw [hz.1]; ring
      _ = 1 := by rw [mul_inv_cancel₀ hd, one_mul]
  · calc z.2 * d⁻¹ * (z.1 * d⁻¹) + z.1 * d⁻¹ * (z.2 * d⁻¹) = (z.2 * z.1 + z.1 * z.2) * (d⁻¹ * d⁻¹) := by ring
      _ = (d * d⁻¹) * (d * d⁻¹) := by rw [hz.2]; ring
      _ = 1 := by rw [mul_inv_cancel₀ hd, one_mul]

/-- Zero, `-1 = u u` with `alpha = -1`, and the non-residue `u + 1`. -/
theorem witness_SquareRootTwoGives :
    (62 : Reg).toNat + 2 ≤ 64 ∧ (∀ b ∈ [4, 6, 8, 62], ElemOk roots b 2) ∧
    (∃ z, mul2 z z = elemAt T2 roots (8 : Reg).toNat) ∧ (∃ z, mul2 z z = elemAt T2 roots (4 : Reg).toNat) ∧
    ¬∃ z, mul2 z z = elemAt T2 roots (6 : Reg).toNat := by
  refine ⟨by decide, elemOk_roots.2, ⟨0, by decide +kernel⟩, ⟨(0, 1), by decide +kernel⟩, ?_⟩
  rw [show elemAt T2 roots (6 : Reg).toNat = (1 * 1, 1 * 1) by decide +kernel]
  exact not_square_nr 1 (by decide +kernel)

/-- The generator and infinity, a point outside the subgroup, and one whose multiple is not defined. -/
theorem witness_CompressOneGives :
    (PointOk generators (0 : Reg).toNat 1 ∧ ∃ R, IsMultiple T1 Config.r false (pointAt T1 generators 0) R ∧ R.inf = true) ∧
    (PointOk generators (61 : Reg).toNat 1 ∧ ∃ R, IsMultiple T1 Config.r false (pointAt T1 generators 61) R ∧ R.inf = true) ∧
    (PointsOk T1 (mulState 1 0) ∧ ∃ R, IsMultiple T1 Config.r false (pointAt T1 (mulState 1 0) 0) R ∧ R.inf = false) ∧
    ¬∃ R, IsMultiple T1 Config.r false (pointAt T1 (mulState 1 0) (lastPoint 1).toNat) R :=
  ⟨witness_SubgroupSetsFlag_inside.1, ⟨pointOk_infinities.1, multiple_infinities.1⟩,
    ⟨pointsOk_mulState.1, witness_SubgroupSetsFlag_outside.1⟩, witness_SubgroupSetsFlag_undefined.1⟩

theorem witness_CompressTwoGives :
    (62 : Reg).toNat + 2 ≤ 64 ∧
    (PointOk generators (3 : Reg).toNat 2 ∧ ∃ R, IsMultiple T2 Config.r false (pointAt T2 generators 3) R ∧ R.inf = true) ∧
    (PointOk generators (40 : Reg).toNat 2 ∧ ∃ R, IsMultiple T2 Config.r false (pointAt T2 generators 40) R ∧ R.inf = true) ∧
    (PointsOk T2 (mulState 2 0) ∧ ∃ R, IsMultiple T2 Config.r false (pointAt T2 (mulState 2 0) 0) R ∧ R.inf = false) ∧
    ¬∃ R, IsMultiple T2 Config.r false (pointAt T2 (mulState 2 0) (lastPoint 2).toNat) R :=
  ⟨by decide, witness_SubgroupSetsFlag_inside.2.1, ⟨pointOk_infinities.2.1, multiple_infinities.2.1⟩,
    ⟨pointsOk_mulState.2.1, witness_SubgroupSetsFlag_outside.2.1⟩, witness_SubgroupSetsFlag_undefined.2.1⟩

/-- The fields of an encoded word: C, I, S and the coordinate. -/
def codeFields (z : Nat) : Nat × Nat × Nat × Nat := (z / 2 ^ 383 % 2, z / 2 ^ 382 % 2, z / 2 ^ 381 % 2, z % 2 ^ 381)

/-- Malformed: C = 0 with all other bits set, infinity with S, infinity with a coordinate bit, coordinate `p`. Well-formed:
infinity, coordinate 0 (a square), coordinates 1 and `p - 1` (no squares). -/
theorem witness_DecompressOneGives :
    (61 : Reg).toNat + 3 ≤ 64 ∧
    codeFields (2 ^ 383 - 1) = (0, 1, 1, 2 ^ 381 - 1) ∧ codeFields (2 ^ 383 + 2 ^ 382 + 2 ^ 381) = (1, 1, 1, 0) ∧
    codeFields (2 ^ 383 + 2 ^ 382 + 1) = (1, 1, 0, 1) ∧ codeFields (2 ^ 383 + p) = (1, 0, 0, p) ∧
    codeFields (2 ^ 383 + 2 ^ 382) = (1, 1, 0, 0) ∧ codeFields (2 ^ 383 + 2 ^ 381) = (1, 0, 1, 0) ∧
    IsSquare (((0 : Nat) : F) * ((0 : Nat) : F) * ((0 : Nat) : F) + 4) ∧ codeFields (2 ^ 383 + 1) = (1, 0, 0, 1) ∧
    ¬IsSquare (((1 : Nat) : F) * ((1 : Nat) : F) * ((1 : Nat) : F) + 4) := by
  refine ⟨by decide, by decide +kernel, by decide +kernel, by decide +kernel, by decide +kernel, by decide +kernel,
    by decide +kernel, ⟨2, by decide +kernel⟩, by decide +kernel, ?_⟩
  rw [show ((1 : Nat) : F) * ((1 : Nat) : F) * ((1 : Nat) : F) + 4 = 5 by decide +kernel]
  exact five_not_square

/-- A register holds any word, so the words above stand in a state. -/
theorem witness_DecompressOneGives_state : wval (place State.reset [(63, [2 ^ 383 + p])]) (63 : Reg).toNat = 2 ^ 383 + p := by
  decide +kernel

/-- The generator's encoding, and the coordinate 0, whose `4 (u + 1)` is no square; second words at and past their range. -/
theorem witness_DecompressTwoGives :
    (59 : Reg).toNat + 5 ≤ 64 ∧ (62 : Reg).toNat + 2 ≤ 64 ∧
    (∃ z1 z0, compressG2 genH = .ok [z1, z0] ∧ (codeFields z1.toNat).1 = 1 ∧ (codeFields z1.toNat).2.1 = 0 ∧
      (codeFields z1.toNat).2.2.2 = genH.x.a1.val ∧ z0.toNat = genH.x.a0.val ∧
      ∃ y, mul2 y y = mul2 (mul2 (toF2 genH.x) (toF2 genH.x)) (toF2 genH.x) + b2) ∧
    (codeFields (2 ^ 383) = (1, 0, 0, 0) ∧
      ¬∃ y, mul2 y y = mul2 (mul2 (((0 : Nat) : F), ((0 : Nat) : F)) (((0 : Nat) : F), ((0 : Nat) : F)))
        (((0 : Nat) : F), ((0 : Nat) : F)) + b2) ∧
    codeFields (2 ^ 383 + 2 ^ 382) = (1, 1, 0, 0) ∧
    wval (place State.reset [(62, [2 ^ 383, 2 ^ 381])]) ((62 : Reg).toNat + 1) = 2 ^ 381 ∧
    wval (place State.reset [(62, [2 ^ 383, p])]) ((62 : Reg).toNat + 1) = p := by
  refine ⟨by decide, by decide, ⟨_, _, test_V46_33, by decide +kernel, by decide +kernel, by decide +kernel, by decide +kernel,
    toF2 genH.y, by decide +kernel⟩, ⟨by decide +kernel, ?_⟩, by decide +kernel, by decide +kernel, by decide +kernel⟩
  rw [show mul2 (mul2 (((0 : Nat) : F), ((0 : Nat) : F)) (((0 : Nat) : F), ((0 : Nat) : F)))
    (((0 : Nat) : F), ((0 : Nat) : F)) + b2 = ((2 : F) * 2, (2 : F) * 2) by decide +kernel]
  exact not_square_nr 2 two_ne_zero_F

/-- The generators and the infinities. -/
theorem witness_RoundTrip :
    ((61 : Reg).toNat + 3 ≤ 64 ∧ PointOk generators (0 : Reg).toNat 1 ∧ OnCurve T1 b1 (pointAt T1 generators 0) ∧
      ∃ R, IsMultiple T1 Config.r false (pointAt T1 generators 0) R ∧ R.inf = true) ∧
    (PointOk generators (61 : Reg).toNat 1 ∧ (pointAt T1 generators 61).inf = true ∧
      ∃ R, IsMultiple T1 Config.r false (pointAt T1 generators 61) R ∧ R.inf = true) ∧
    ((62 : Reg).toNat + 2 ≤ 64 ∧ (59 : Reg).toNat + 5 ≤ 64 ∧ PointOk generators (3 : Reg).toNat 2 ∧
      OnCurve T2 b2 (pointAt T2 generators 3) ∧
      ∃ R, IsMultiple T2 Config.r false (pointAt T2 generators 3) R ∧ R.inf = true) ∧
    (PointOk generators (40 : Reg).toNat 2 ∧ (pointAt T2 generators 40).inf = true ∧
      ∃ R, IsMultiple T2 Config.r false (pointAt T2 generators 40) R ∧ R.inf = true) :=
  ⟨⟨by decide, pointOk_genG, witness_PairingAcceptedGives.2.2.2.1, multiple_genG⟩,
    ⟨pointOk_infinities.1, by decide +kernel, multiple_infinities.1⟩,
    ⟨by decide, by decide, pointOk_genH, witness_PairingAcceptedGives.2.2.2.2.1, multiple_genH⟩,
    pointOk_infinities.2.1, by decide +kernel, multiple_infinities.2.1⟩

end Sys2Proof.Tests
end

section
/-! The constants of the machine (00_scope.md R7, R8; 45_pairing.md R552). The one fact here that is no comparison of
numerals is that the division in `feExp` is exact: `p` is `-X` modulo `r`, and `r` is the twelfth cyclotomic polynomial
at `X`, so `p` is a twelfth root of unity modulo `r` (the curve has embedding degree 12). -/

namespace Sys2Proof.Proofs

open Sys2Proof.Machine

/-! ## The BLS12 formulas (R7) -/

theorem r_eq_cyclotomic_X : Config.r = Config.X ^ 4 - Config.X ^ 2 + 1 := by decide +kernel

theorem three_mul_p_add_X : 3 * (Config.p + Config.X) = (Config.X + 1) ^ 2 * Config.r := by decide +kernel

/-! ## The exponent of `finalexp` (R8, R552) -/

/-- A root of the twelfth cyclotomic polynomial is a twelfth root of unity. -/
theorem pow_twelve_eq_one_of_cyclotomic {R : Type*} [CommRing R] {x : R} (hx : x ^ 4 - x ^ 2 + 1 = 0) : x ^ 12 = 1 := by
  have hsix : x ^ 6 = -1 := by linear_combination (x ^ 2 + 1) * hx
  linear_combination (x ^ 6 - 1) * hsix

theorem cyclotomic_X_mod_r : (Config.X : ZMod Config.r) ^ 4 - (Config.X : ZMod Config.r) ^ 2 + 1 = 0 := by
  have hle : Config.X ^ 2 ≤ Config.X ^ 4 := Nat.pow_le_pow_right (by decide) (by decide)
  have hr : ((Config.X ^ 4 - Config.X ^ 2 + 1 : Nat) : ZMod Config.r) = 0 := by
    rw [← r_eq_cyclotomic_X, ZMod.natCast_self]
  rwa [Nat.cast_add, Nat.cast_sub hle, Nat.cast_pow, Nat.cast_pow, Nat.cast_one] at hr

theorem r_dvd_p_add_X : Config.r ∣ Config.p + Config.X := by
  have hthree : Config.r.Coprime 3 := by decide +kernel
  exact hthree.dvd_of_dvd_mul_left ⟨_, three_mul_p_add_X.trans (Nat.mul_comm _ _)⟩

theorem p_mod_r : (Config.p : ZMod Config.r) = -Config.X := by
  rw [eq_neg_iff_add_eq_zero, ← Nat.cast_add, ZMod.natCast_eq_zero_iff]
  exact r_dvd_p_add_X

theorem r_dvd_p_pow_twelve_sub_one : Config.r ∣ Config.p ^ 12 - 1 := by
  have hpow : (Config.p : ZMod Config.r) ^ 12 = 1 := by
    rw [p_mod_r, Even.neg_pow (by decide), pow_twelve_eq_one_of_cyclotomic cyclotomic_X_mod_r]
  have hone : 1 ≤ Config.p ^ 12 := Nat.one_le_pow _ _ (by decide)
  rw [← ZMod.natCast_eq_zero_iff, Nat.cast_sub hone, Nat.cast_pow, hpow, Nat.cast_one, sub_self]

theorem feExp_mul_r : feExp * Config.r = Config.p ^ 12 - 1 := Nat.div_mul_cancel r_dvd_p_pow_twelve_sub_one

/-- The exponent has 4314 bits. -/
theorem feExp_bits : 2 ^ 4313 ≤ feExp ∧ feExp < 2 ^ 4314 := by decide +kernel

theorem feExp_low_bits : feExp % 2 ^ 64 = 0xc0bcb9b55df57510 := by decide +kernel

theorem feExp_residue : feExp % 1000003 = 672869 := by decide +kernel

/-- Settles O52: the formulas of `X` and the printed values by evaluation, the exact quotient by the embedding degree. -/
theorem constantsOfTheSpec : Obligations.ConstantsOfTheSpec :=
  ⟨r_eq_cyclotomic_X, three_mul_p_add_X, feExp_mul_r, feExp_bits.1, feExp_bits.2, feExp_low_bits, feExp_residue,
    Laws.millerBits_printed⟩

end Sys2Proof.Proofs
end

section
/-! Which errors a computation of the machine can raise (60_exceptions.md R601). -/

namespace Sys2Proof.Proofs

open Sys2Proof.Machine
open Sys2Proof.Reference
open Sys2Proof.Laws

/-- The computation raises no error but those whose code is in `E`. -/
def RaisesOnly {γ : Type} (E : List Nat) (x : Res γ) : Prop := ∀ e, x = .error e → e.code.toNat ∈ E

variable {γ δ : Type} {E : List Nat}

theorem RaisesOnly.ok (a : γ) : RaisesOnly E (.ok a) := nofun

theorem RaisesOnly.error {e : Err} (h : e.code.toNat ∈ E) : RaisesOnly E (.error e : Res γ) :=
  fun _ he => Except.error.inj he ▸ h

theorem RaisesOnly.bind {x : Res γ} {g : γ → Res δ} (hx : RaisesOnly E x) (hg : ∀ a, RaisesOnly E (g a)) :
    RaisesOnly E (x >>= g) := by
  cases x with
  | ok a => exact hg a
  | error e => exact .error (hx e rfl)

theorem RaisesOnly.ite {c : Prop} [Decidable c] {x y : Res γ} (hx : RaisesOnly E x) (hy : RaisesOnly E y) :
    RaisesOnly E (if c then x else y) := by
  split
  · exact hx
  · exact hy

/-! ## Inverses raise InverseOfZero (R612) -/

theorem fpInv_raisesOnly (h9 : 9 ∈ E) (a : Fp) : RaisesOnly E (fpInv a) := .ite (.error h9) (.ok _)

theorem fp2Inv_raisesOnly (h9 : 9 ∈ E) (a : Fp2) : RaisesOnly E (fp2Inv a) :=
  .bind (fpInv_raisesOnly h9 _) fun _ => .ok _

theorem fp6Inv_raisesOnly (h9 : 9 ∈ E) (a : Fp6) : RaisesOnly E (fp6Inv a) :=
  .bind (fp2Inv_raisesOnly h9 _) fun _ => .ok _

theorem fp12Inv_raisesOnly (h9 : 9 ∈ E) (a : Fp12) : RaisesOnly E (fp12Inv a) :=
  .bind (fp6Inv_raisesOnly h9 _) fun _ => .ok _

/-! ## The group law and the scalar loop raise what the inverse of their level raises -/

section Curve

variable {α : Type} {F : Level α}

theorem dblPoint_raisesOnly (hF : ∀ a, RaisesOnly E (F.inv a)) (P : Point α) : RaisesOnly E (dblPoint F P) :=
  .ite (.ok _) (.bind (hF _) fun _ => .ok _)

variable [DecidableEq α]

theorem addPoint_raisesOnly (hF : ∀ a, RaisesOnly E (F.inv a)) (P Q : Point α) : RaisesOnly E (addPoint F P Q) :=
  .ite (.ok _) (.ite (.ok _) (.ite (dblPoint_raisesOnly hF P) (.ite (.ok _) (.bind (hF _) fun _ => .ok _))))

theorem mulLoop_raisesOnly (hF : ∀ a, RaisesOnly E (F.inv a)) (fuel : Nat) (acc base : Point α) (k : Nat) :
    RaisesOnly E (mulLoop F fuel acc base k) := by
  induction fuel generalizing acc base k with
  | zero => exact .ok _
  | succ fuel ih =>
    have hadd : RaisesOnly E (mulAdd F acc base k) := .ite (addPoint_raisesOnly hF _ _) (.ok _)
    have hdouble : RaisesOnly E (mulDouble F base (k / 2)) := .ite (.ok _) (dblPoint_raisesOnly hF _)
    exact .ite (.ok _) (.bind hadd fun _ => .bind hdouble fun _ => ih _ _ _)

theorem mulPoint_raisesOnly (hF : ∀ a, RaisesOnly E (F.inv a)) (k : Nat) (sn : Bool) (P : Point α) :
    RaisesOnly E (mulPoint F k sn P) := mulLoop_raisesOnly hF _ _ _ _

theorem inSubgroup_raisesOnly (hF : ∀ a, RaisesOnly E (F.inv a)) (P : Point α) : RaisesOnly E (inSubgroup F P) :=
  .bind (mulPoint_raisesOnly hF _ _ _) fun _ => .ok _

end Curve

/-! ## Square roots and encodings -/

theorem tsSqrt_raisesOnly (h3 : 3 ∈ E) (n : Fp) : RaisesOnly E (tsSqrt n) := .ite (.ok _) (.error h3)

theorem fp2Sqrt_raisesOnly (h3 : 3 ∈ E) (a : Fp2) : RaisesOnly E (fp2Sqrt a) :=
  .ite (.error h3) (.ite (.ok _) (.ok _))

theorem compressG1_raisesOnly (h1 : 1 ∈ E) (h9 : 9 ∈ E) (P : Point Fp) : RaisesOnly E (compressG1 P) :=
  .bind (inSubgroup_raisesOnly (fpInv_raisesOnly h9) P) fun _ => .ite (.error h1) (.ite (.ok _) (.ok _))

theorem compressG2_raisesOnly (h1 : 1 ∈ E) (h9 : 9 ∈ E) (P : Point Fp2) : RaisesOnly E (compressG2 P) :=
  .bind (inSubgroup_raisesOnly (fp2Inv_raisesOnly h9) P) fun _ => .ite (.error h1) (.ite (.ok _) (.ok _))

theorem decompressG1_raisesOnly (h2 : 2 ∈ E) (h3 : 3 ∈ E) (z : Word) : RaisesOnly E (decompressG1 z) := by
  refine .ite (.error h2) (.ite (.ite (.error h2) (.ok _)) ?_)
  split
  · exact .bind (tsSqrt_raisesOnly h3 _) fun _ => .ok _
  · exact .error h2

theorem decompressG2_raisesOnly (h2 : 2 ∈ E) (h3 : 3 ∈ E) (z1 z0 : Word) : RaisesOnly E (decompressG2 z1 z0) := by
  refine .ite (.error h2) (.ite (.error h2) (.ite (.ite (.error h2) (.ok _)) ?_))
  split
  · exact .bind (fp2Sqrt_raisesOnly h3 _) fun _ => .ok _
  · exact .error h2

/-! ## The pairing engine -/

theorem untwistPoint_raisesOnly (Q : Point Fp2) : RaisesOnly E (untwistPoint Q) := by
  obtain ⟨U, hU, -⟩ := untwistPoint_ok Q
  rw [hU]
  exact .ok U

theorem dblEval_raisesOnly (h9 : 9 ∈ E) (h10 : 10 ∈ E) (R : Point Fp2) (P : Point Fp) : RaisesOnly E (dblEval R P) :=
  .ite (.error h10) (.bind (untwistPoint_raisesOnly R) fun _ => .bind (fp12Inv_raisesOnly h9 _) fun _ => .ok _)

theorem addEval_raisesOnly (h9 : 9 ∈ E) (h10 : 10 ∈ E) (R Q : Point Fp2) (P : Point Fp) :
    RaisesOnly E (addEval R Q P) :=
  .ite (.error h10) (.bind (untwistPoint_raisesOnly R) fun _ => .bind (untwistPoint_raisesOnly Q) fun _ =>
    .ite (.ok _) (.bind (fp12Inv_raisesOnly h9 _) fun _ => .ok _))

theorem millerLoop_raisesOnly (h9 : 9 ∈ E) (h10 : 10 ∈ E) (P : Point Fp) (Q : Point Fp2) (bits : List Bool)
    (f : Fp12) (R : Point Fp2) : RaisesOnly E (millerLoop P Q bits f R) := by
  induction bits generalizing f R with
  | nil => exact .ok _
  | cons b bs ih =>
    exact .bind (dblEval_raisesOnly h9 h10 R P) fun _ => .bind (dblPoint_raisesOnly (fp2Inv_raisesOnly h9) R) fun _ =>
      .ite (.bind (addEval_raisesOnly h9 h10 _ Q P) fun _ =>
        .bind (addPoint_raisesOnly (fp2Inv_raisesOnly h9) _ Q) fun _ => ih _ _) (ih _ _)

theorem millerFn_raisesOnly (h9 : 9 ∈ E) (h10 : 10 ∈ E) (P : Point Fp) (Q : Point Fp2) : RaisesOnly E (millerFn P Q) :=
  millerLoop_raisesOnly h9 h10 P Q _ _ _

theorem bothMembers_raisesOnly (h9 : 9 ∈ E) (P : Point Fp) (Q : Point Fp2) : RaisesOnly E (bothMembers P Q) :=
  .bind (inSubgroup_raisesOnly (fpInv_raisesOnly h9) P) fun _ =>
    .ite (inSubgroup_raisesOnly (fp2Inv_raisesOnly h9) Q) (.ok _)

theorem pairingFn_raisesOnly (h9 : 9 ∈ E) (h10 : 10 ∈ E) (P : Point Fp) (Q : Point Fp2) :
    RaisesOnly E (pairingFn P Q) :=
  .ite (.ok _) (.ite (.ok _) (.ite (.ok _) (.bind (bothMembers_raisesOnly h9 P Q) fun _ =>
    .ite (millerFn_raisesOnly h9 h10 P Q) (.ok _))))

end Sys2Proof.Proofs
end

section
/-! What the rule of a command reads, raises and writes, said once for all 73 commands: it depends on its source operands
only, raises the errors of its line of the error table, and gives one block of registers at its destination or FLAG. -/

namespace Sys2Proof.Proofs

open Sys2Proof.Machine
open Sys2Proof.Reference
open Sys2Proof.Laws
open Sys2Proof.Config (p)

/-! ## Reading -/

/-- The two states hold the same words in every register of these operands. -/
def AgreeOn (srcs : List (Reg × Nat)) (s s' : State) : Prop :=
  ∀ o ∈ srcs, ∀ k < o.2, wval s (o.1.toNat + k) = wval s' (o.1.toNat + k)

/-- The computation depends on the operands `srcs` only, and raises no error but those with a code in `E`. -/
structure Reads {γ : Type} (srcs : List (Reg × Nat)) (E : List Nat) (f : Regs → Res γ) : Prop where
  same : ∀ s s' : State, AgreeOn srcs s s' → f s.w = f s'.w
  raises : ∀ s : State, RaisesOnly E (f s.w)

variable {γ : Type} {srcs : List (Reg × Nat)} {E : List Nat}

theorem Reads.const {x : Res γ} (h : RaisesOnly E x) : Reads srcs E fun _ => x := ⟨fun _ _ _ => rfl, fun _ => h⟩

theorem readWord_congr {s s' : State} {b : Reg} {n : Nat} (h : AgreeOn srcs s s') (hb : (b, n) ∈ srcs) (k : Nat)
    (hk : k < n) : readWord s.w (b.toNat + k) = readWord s'.w (b.toNat + k) :=
  BitVec.eq_of_toNat_eq (h _ hb k hk)

section Level

variable {α β : Type} [AddCommGroup β] {L : Level α} {T : Tower β} {f : α → β}

/-- A read of an element depends on the words of that element. -/
theorem rdF_congr (link : Link L T f) (s s' : State) (b : Nat)
    (h : ∀ k < T.size, wval s (b + k) = wval s' (b + k)) : rdF L s.w b = rdF L s'.w b := by
  have hread : ∀ k < T.size, rdFp s.w (b + k) = rdFp s'.w (b + k) := fun k hk => by
    simp only [rdFp, show readWord s.w (b + k) = readWord s'.w (b + k) from BitVec.eq_of_toNat_eq (h k hk)]
  rcases all_ok_or_error (fun k => rdFp s.w (b + k)) T.size with ⟨g, hg⟩ | ⟨k, hk, e, he⟩
  · obtain ⟨a, ha, hfa⟩ := link.build _ g hg
    obtain ⟨a', ha', hfa'⟩ := link.build (fun k => rdFp s'.w (b + k)) g fun k hk => (hread k hk).symm.trans (hg k hk)
    rw [rdF, rdF, ha, ha', link.injective (hfa.trans hfa'.symm)]
  · have hbad : ¬wval s (b + k) < p := fun hlt => by rw [rdFp_ok _ _ hlt] at he; cases he
    rw [rdF_error link s b ⟨k, hk, hbad⟩, rdF_error link s' b ⟨k, hk, h k hk ▸ hbad⟩]

theorem rdF_raisesOnly (link : Link L T f) (h8 : 8 ∈ E) (s : State) (b : Nat) : RaisesOnly E (rdF L s.w b) := by
  rcases rdF_cases link s b with ⟨a, ha, -⟩ | ⟨he, -⟩
  · rw [ha]
    exact .ok a
  · rw [he]
    exact .error h8

theorem rdF_reads (link : Link L T f) (h8 : 8 ∈ E) {b : Reg} (hb : (b, T.size) ∈ srcs) :
    Reads srcs E fun w => rdF L w b.toNat where
  same s s' h := rdF_congr link s s' _ (h _ hb)
  raises s := rdF_raisesOnly link h8 s _

theorem rdPt_reads (link : Link L T f) (h8 : 8 ∈ E) {b : Reg} (hb : (b, 2 * T.size + 1) ∈ srcs) :
    Reads srcs E fun w => rdPt L w b.toNat where
  same s s' h := by
    have hword := h _ hb
    have hx : rdF L s.w b.toNat = rdF L s'.w b.toNat := rdF_congr link s s' _ fun k hk => hword k (by omega)
    have hy : rdF L s.w (b.toNat + T.size) = rdF L s'.w (b.toNat + T.size) :=
      rdF_congr link s s' _ fun k hk => by rw [Nat.add_assoc]; exact hword _ (by omega)
    have hinf : rdInf s.w (b.toNat + 2 * T.size) = rdInf s'.w (b.toNat + 2 * T.size) := by
      rw [rdInf, rdInf, readWord_congr h hb (2 * T.size) (by omega)]
    simp only [rdPt, link.size, hx, hy, hinf]
  raises s := .bind (rdF_raisesOnly link h8 s _) fun _ => .bind (rdF_raisesOnly link h8 s _) fun _ =>
    .bind (.ite (.error h8) (.ok _)) fun _ => .ok _

end Level

/-! ## Writing -/

/-- `n` words in range: an operand of 3, 5 or 25 registers is a point, with coefficients below `p` and a flag word 0 or 1,
any other an element (10_state.md R105, R107). -/
def InRange (n : Nat) (word : Nat → Nat) : Prop :=
  if isPointSize n then (∀ k < n - 1, word k < p) ∧ word (n - 1) ≤ 1 else ∀ k < n, word k < p

theorem canonical_iff_inRange (s : State) (b n : Nat) : Canonical s b n ↔ InRange n fun k => wval s (b + k) := Iff.rfl

theorem InRange.congr {n : Nat} {word word' : Nat → Nat} (h : ∀ k < n, word k = word' k) (hr : InRange n word) :
    InRange n word' := by
  cases hp : isPointSize n with
  | true =>
    have hn : 0 < n := Nat.pos_of_ne_zero fun h0 => by rw [h0] at hp; exact absurd hp (by decide)
    rw [InRange, if_pos hp] at *
    obtain ⟨hcoeff, hflag⟩ := hr
    exact ⟨fun k hk => h k (by omega) ▸ hcoeff k hk, h (n - 1) (by omega) ▸ hflag⟩
  | false =>
    rw [InRange, if_neg (by simp [hp])] at *
    exact fun k hk => h k hk ▸ hr k hk

/-- The words of a block as numbers, in order. -/
def blockWord (ws : List Word) (k : Nat) : Nat := (ws.map BitVec.toNat).getD k 0

theorem blockWord_of_lt (ws : List Word) (k : Nat) (hk : k < ws.length) : blockWord ws k = ws[k].toNat := by
  simp [blockWord, hk]

theorem inRange_elem {ws : List Word} (hn : isPointSize ws.length = false) (h : ∀ x ∈ ws, x.toNat < p) :
    InRange ws.length (blockWord ws) := by
  rw [InRange, if_neg (by simp [hn])]
  intro k hk
  rw [blockWord_of_lt ws k hk]
  exact h _ (List.getElem_mem hk)

theorem inRange_point {ws : List Word} {v : Word} (hn : isPointSize (ws ++ [v]).length = true)
    (h : ∀ x ∈ ws, x.toNat < p) (hv : v.toNat ≤ 1) : InRange (ws ++ [v]).length (blockWord (ws ++ [v])) := by
  rw [InRange, if_pos hn, List.length_append, List.length_singleton, Nat.add_sub_cancel]
  constructor
  · intro k hk
    rw [blockWord_of_lt _ k (by simp; omega), List.getElem_append_left hk]
    exact h _ (List.getElem_mem hk)
  · rw [blockWord_of_lt _ _ (by simp), List.getElem_concat_length rfl]
    exact hv

/-- What a command with destination `dst` may give: the block of registers at `dst`, in range unless it is an encoding
(`enc`), or FLAG when it has no destination (10_state.md R113, 30_encoding.md R303). -/
def EffectFits (dst : Option (Reg × Nat)) (enc : Bool) : Effect → Prop
  | .regs b ws => ∃ rd : Reg, dst = some (rd, ws.length) ∧ b = rd.toNat ∧
      (enc = false → InRange ws.length (blockWord ws))
  | .flag _ => dst = none

section Level

variable {α β : Type} [AddCommGroup β] {L : Level α} {T : Tower β} {f : α → β} {enc : Bool} {rd : Reg}

omit [AddCommGroup β] in
theorem elemWords_lt (a : α) : ∀ x ∈ elemWords L a, x.toNat < p := by
  intro x hx
  obtain ⟨c, -, rfl⟩ := List.mem_map.mp hx
  rw [fpWord_toNat]
  exact c.isLt

theorem wrF_fits (link : Link L T f) (hT : isPointSize T.size = false) (a : α) :
    EffectFits (some (rd, T.size)) enc (wrF L rd a) :=
  ⟨rd, by rw [elemWords_length link], rfl, fun _ => inRange_elem (by rwa [elemWords_length link]) (elemWords_lt a)⟩

theorem infWord_le_one (inf : Bool) : (infWord inf).toNat ≤ 1 := by
  have hle : ∀ w n, (BitVec.ofNat w n).toNat ≤ n := fun w n => (BitVec.toNat_ofNat n w).trans_le (Nat.mod_le _ _)
  cases inf with
  | true => exact hle 384 1
  | false => exact (hle 384 0).trans (Nat.zero_le 1)

theorem wrPt_fits (link : Link L T f) (hT : isPointSize (2 * T.size + 1) = true) (P : Point α) :
    EffectFits (some (rd, 2 * T.size + 1)) enc (wrPt L rd P) := by
  refine ⟨rd, by rw [pointWords_length link], rfl, fun _ => inRange_point ?_ ?_ ?_⟩
  · exact (congrArg isPointSize (pointWords_length link P)).trans hT
  · intro x hx
    exact (List.mem_append.mp hx).elim (elemWords_lt P.x x) (elemWords_lt P.y x)
  · exact infWord_le_one P.inf

end Level

/-! ## The rules -/

/-- A rule with sources `srcs`, destination `dst` and error codes `E`. -/
structure RuleSpec (srcs : List (Reg × Nat)) (E : List Nat) (dst : Option (Reg × Nat)) (enc : Bool)
    (rule : Regs → Res Effect) : Prop extends Reads srcs E rule where
  writes : ∀ (s : State) (e : Effect), rule s.w = .ok e → EffectFits dst enc e

variable {dst : Option (Reg × Nat)} {enc : Bool}

theorem RuleSpec.ok {e : Regs → Effect} (hs : ∀ s s' : State, AgreeOn srcs s s' → e s.w = e s'.w)
    (h : ∀ w, EffectFits dst enc (e w)) : RuleSpec srcs E dst enc fun w => .ok (e w) where
  same s s' ha := congrArg Except.ok (hs s s' ha)
  raises _ := .ok _
  writes _ _ he := Except.ok.inj he ▸ h _

theorem RuleSpec.pure {e : Effect} (h : EffectFits dst enc e) : RuleSpec srcs E dst enc fun _ => .ok e :=
  .ok (fun _ _ _ => rfl) fun _ => h

theorem RuleSpec.error {e : Err} (h : e.code.toNat ∈ E) : RuleSpec srcs E dst enc fun _ => .error e where
  same _ _ _ := rfl
  raises _ := .error h
  writes _ _ he := by cases he

theorem RuleSpec.ite {c : Prop} [Decidable c] {x y : Regs → Res Effect} (hx : RuleSpec srcs E dst enc x)
    (hy : RuleSpec srcs E dst enc y) : RuleSpec srcs E dst enc fun w => if c then x w else y w := by
  split
  · exact hx
  · exact hy

/-- A rule that goes on after a read: what comes then is a rule for every value the read can give. -/
theorem RuleSpec.bind {x : Regs → Res γ} {g : γ → Regs → Res Effect} (hx : Reads srcs E x)
    (hg : ∀ a, (∃ w, x w = .ok a) → RuleSpec srcs E dst enc (g a)) :
    RuleSpec srcs E dst enc fun w => x w >>= fun a => g a w where
  same s s' h := by
    rw [← hx.same s s' h]
    cases hxs : x s.w with
    | ok a => exact (hg a ⟨_, hxs⟩).same s s' h
    | error e => rfl
  raises s := by
    cases hxs : x s.w with
    | ok a => exact (hg a ⟨_, hxs⟩).raises s
    | error e => exact .error (hx.raises s e hxs)
  writes s e he := by
    cases hxs : x s.w with
    | ok a =>
      rw [hxs] at he
      exact (hg a ⟨_, hxs⟩).writes s e he
    | error e' =>
      rw [hxs] at he
      cases he

section Level

variable {α β : Type} [AddCommGroup β] {L : Level α} {T : Tower β} {f : α → β} {rd ra rb rc : Reg}

theorem constRule_spec (link : Link L T f) (hT : isPointSize T.size = false) (c : α) :
    RuleSpec [] [] (some (rd, T.size)) false (constRule L c rd) := .pure (wrF_fits link hT c)

theorem unaryRule_spec (link : Link L T f) (hT : isPointSize T.size = false) (h8 : 8 ∈ E) {op : α → Res α}
    (hop : ∀ a, RaisesOnly E (op a)) :
    RuleSpec [(ra, T.size)] E (some (rd, T.size)) false (unaryRule L op rd ra) :=
  .bind (rdF_reads link h8 (by simp)) fun a _ => .bind (.const (hop a)) fun c _ => .pure (wrF_fits link hT c)

theorem binaryRule_spec (link : Link L T f) (hT : isPointSize T.size = false) (op : α → α → α) :
    RuleSpec [(ra, T.size), (rb, T.size)] [8] (some (rd, T.size)) false (binaryRule L op rd ra rb) :=
  .bind (rdF_reads link (by simp) (by simp)) fun a _ => .bind (rdF_reads link (by simp) (by simp)) fun b _ =>
    .pure (wrF_fits link hT (op a b))

theorem powRule_spec (link : Link L T f) (hT : isPointSize T.size = false) :
    RuleSpec [(ra, T.size), (rb, 1)] [8] (some (rd, T.size)) false (powRule L rd ra rb) :=
  .bind (rdF_reads link (by simp) (by simp)) fun a _ => .ok
    (fun s s' h => by
      have hexp : readWord s.w rb.toNat = readWord s'.w rb.toNat := readWord_congr h (n := 1) (by simp) 0 (by decide)
      rw [rdScalar, rdScalar, hexp])
    fun _ => wrF_fits link hT _

theorem eqRule_spec [DecidableEq α] (link : Link L T f) :
    RuleSpec [(ra, T.size), (rb, T.size)] [8] none false (eqRule L ra rb) :=
  .bind (rdF_reads link (by simp) (by simp)) fun _ _ => .bind (rdF_reads link (by simp) (by simp)) fun _ _ => .pure rfl

theorem isOneRule_spec [DecidableEq α] (link : Link L T f) : RuleSpec [(ra, T.size)] [8] none false (isOneRule L ra) :=
  .bind (rdF_reads link (by simp) (by simp)) fun _ _ => .pure rfl

section Point

variable (link : Link L T f) (hT : isPointSize (2 * T.size + 1) = true) (hinv : ∀ a, RaisesOnly [8, 9] (L.inv a))

include link hT in
theorem pnegRule_spec :
    RuleSpec [(ra, 2 * T.size + 1)] [8] (some (rd, 2 * T.size + 1)) false (pnegRule L rd ra) :=
  .bind (rdPt_reads link (by simp) (by simp)) fun P _ => .pure (wrPt_fits link hT (negPoint L P))

include link hT hinv in
theorem pdblRule_spec :
    RuleSpec [(ra, 2 * T.size + 1)] [8, 9] (some (rd, 2 * T.size + 1)) false (pdblRule L rd ra) :=
  .bind (rdPt_reads link (by simp) (by simp)) fun P _ => .bind (.const (dblPoint_raisesOnly hinv P)) fun D _ =>
    .pure (wrPt_fits link hT D)

variable [DecidableEq α]

include link hT hinv in
theorem paddRule_spec : RuleSpec [(ra, 2 * T.size + 1), (rb, 2 * T.size + 1)] [8, 9] (some (rd, 2 * T.size + 1)) false
    (paddRule L rd ra rb) :=
  .bind (rdPt_reads link (by simp) (by simp)) fun P _ => .bind (rdPt_reads link (by simp) (by simp)) fun Q _ =>
    .bind (.const (addPoint_raisesOnly hinv P Q)) fun S _ => .pure (wrPt_fits link hT S)

include link hT hinv in
theorem pmulRule_spec (sn : Bool) : RuleSpec [(ra, 1), (rb, 2 * T.size + 1)] [8, 9] (some (rd, 2 * T.size + 1)) false
    (pmulRule L rd ra rb sn) := by
  refine .bind (rdPt_reads link (by simp) (by simp)) fun P _ => .bind ⟨fun s s' h => ?_, fun s => ?_⟩ fun M _ =>
    .pure (wrPt_fits link hT M)
  · have hk : readWord s.w ra.toNat = readWord s'.w ra.toNat := readWord_congr h (n := 1) (by simp) 0 (by decide)
    rw [rdScalar, rdScalar, hk]
  · exact mulPoint_raisesOnly hinv _ sn P

include link in
theorem poncurveRule_spec (b : α) : RuleSpec [(ra, 2 * T.size + 1)] [8] none false (poncurveRule L b ra) :=
  .bind (rdPt_reads link (by simp) (by simp)) fun _ _ => .pure rfl

include link hinv in
theorem pinsubgrpRule_spec : RuleSpec [(ra, 2 * T.size + 1)] [8, 9] none false (pinsubgrpRule L ra) :=
  .bind (rdPt_reads link (by simp) (by simp)) fun P _ => .bind (.const (inSubgroup_raisesOnly hinv P)) fun _ _ =>
    .pure rfl

end Point

end Level

section Single

variable {rd ra rb rc : Reg}

/-- A G1 operand. -/
theorem rdPt1_reads (h8 : 8 ∈ E) {b : Reg} (hb : (b, 3) ∈ srcs) : Reads srcs E fun w => rdPt lv1 w b.toNat :=
  rdPt_reads link1 h8 hb

/-- A G2 operand. -/
theorem rdPt2_reads (h8 : 8 ∈ E) {b : Reg} (hb : (b, 5) ∈ srcs) : Reads srcs E fun w => rdPt lv2 w b.toNat :=
  rdPt_reads link2 h8 hb

theorem untwistRule_spec : RuleSpec [(ra, 5)] [8, 10] (some (rd, 25)) false (untwistRule rd ra) :=
  .bind (rdPt2_reads (by simp) (by simp)) fun Q _ => .ite (.error (by decide))
    (.bind (.const (untwistPoint_raisesOnly Q)) fun U _ => .pure (wrPt_fits link12 rfl U))

theorem dblevalRule_spec : RuleSpec [(ra, 5), (rb, 3)] [8, 9, 10] (some (rd, 12)) false (dblevalRule rd ra rb) :=
  .bind (rdPt2_reads (by simp) (by simp)) fun R _ => .bind (rdPt1_reads (by simp) (by simp)) fun P _ =>
    .bind (.const (dblEval_raisesOnly (by simp) (by simp) R P)) fun l _ => .pure (wrF_fits link12 rfl l)

theorem addevalRule_spec :
    RuleSpec [(ra, 5), (rb, 5), (rc, 3)] [8, 9, 10] (some (rd, 12)) false (addevalRule rd ra rb rc) :=
  .bind (rdPt2_reads (by simp) (by simp)) fun R _ => .bind (rdPt2_reads (by simp) (by simp)) fun Q _ =>
    .bind (rdPt1_reads (by simp) (by simp)) fun P _ =>
      .bind (.const (addEval_raisesOnly (by simp) (by simp) R Q P)) fun l _ => .pure (wrF_fits link12 rfl l)

theorem millerRule_spec : RuleSpec [(ra, 3), (rb, 5)] [8, 9, 10] (some (rd, 12)) false (millerRule rd ra rb) :=
  .bind (rdPt1_reads (by simp) (by simp)) fun P _ => .bind (rdPt2_reads (by simp) (by simp)) fun Q _ =>
    .ite (.error (by decide))
      (.bind (.const (millerFn_raisesOnly (by simp) (by simp) P Q)) fun f _ => .pure (wrF_fits link12 rfl f))

theorem pairingRule_spec : RuleSpec [(ra, 3), (rb, 5)] [8, 9, 10] (some (rd, 12)) false (pairingRule rd ra rb) :=
  .bind (rdPt1_reads (by simp) (by simp)) fun P _ => .bind (rdPt2_reads (by simp) (by simp)) fun Q _ =>
    .bind (.const (pairingFn_raisesOnly (by simp) (by simp) P Q)) fun f _ => .pure (wrF_fits link12 rfl f)

/-- An encoding that a membership test guards has the length of its two forms. -/
theorem length_of_guarded {x : Res Bool} {e : Err} {c : Prop} [Decidable c] {zInf z ws : List Word} {n : Nat}
    (h : (x >>= fun member => if !member then .error e else if c then .ok zInf else .ok z : Res (List Word)) = .ok ws)
    (hInf : zInf.length = n) (hz : z.length = n) : ws.length = n := by
  cases x with
  | error e' => cases h
  | ok member =>
    rw [ok_bind] at h
    split at h
    · cases h
    · split at h
      · exact Except.ok.inj h ▸ hInf
      · exact Except.ok.inj h ▸ hz

theorem compressG1_length {P : Point Fp} {z : List Word} (h : compressG1 P = .ok z) : z.length = 1 :=
  length_of_guarded h rfl rfl

theorem compressG2_length {P : Point Fp2} {z : List Word} (h : compressG2 P = .ok z) : z.length = 2 :=
  length_of_guarded h rfl rfl

theorem compress1Rule_spec : RuleSpec [(ra, 3)] [1, 8, 9] (some (rd, 1)) true (compress1Rule rd ra) :=
  .bind (rdPt1_reads (by simp) (by simp)) fun P _ =>
    .bind (.const (compressG1_raisesOnly (by simp) (by simp) P)) fun z ⟨_, hz⟩ =>
      .pure ⟨rd, by rw [compressG1_length hz], rfl, nofun⟩

theorem compress2Rule_spec : RuleSpec [(ra, 5)] [1, 8, 9] (some (rd, 2)) true (compress2Rule rd ra) :=
  .bind (rdPt2_reads (by simp) (by simp)) fun P _ =>
    .bind (.const (compressG2_raisesOnly (by simp) (by simp) P)) fun z ⟨_, hz⟩ =>
      .pure ⟨rd, by rw [compressG2_length hz], rfl, nofun⟩

theorem decompress1Rule_spec : RuleSpec [(ra, 1)] [2, 3] (some (rd, 3)) false (decompress1Rule rd ra) := by
  refine .bind ⟨fun s s' h => ?_, fun s => ?_⟩ fun P _ => .pure (wrPt_fits link1 rfl P)
  · exact congrArg decompressG1 (readWord_congr h (n := 1) (by simp) 0 (by decide))
  · exact decompressG1_raisesOnly (by simp) (by simp) _

theorem decompress2Rule_spec : RuleSpec [(ra, 2)] [2, 3] (some (rd, 5)) false (decompress2Rule rd ra) := by
  refine .bind ⟨fun s s' h => ?_, fun s => ?_⟩ fun P _ => .pure (wrPt_fits link2 rfl P)
  · exact congrArg₂ decompressG2 (readWord_congr h (n := 2) (by simp) 0 (by decide))
      (readWord_congr h (n := 2) (by simp) 1 (by decide))
  · exact decompressG2_raisesOnly (by simp) (by simp) _ _

end Single

/-- The commands that write an encoding (46_codec.md R580, R582). -/
def writesEncoding : Instr → Bool
  | .compress1 .. | .compress2 .. => true
  | _ => false

/-- The error codes of a command's line in 60_exceptions.md R601, with `pairing` as the codes its parts can raise. -/
def raisable : Instr → List Nat
  | .pairing .. => [8, 9, 10]
  | i => codesOf i

/-- The rule of every command reads its sources, raises the errors of its line, and writes its destination. -/
theorem ruleOf_spec (i : Instr) : RuleSpec i.sources (raisable i) i.dest (writesEncoding i) (ruleOf i) := by
  cases i with
  | fzero1 | fone1 => exact constRule_spec link1 rfl _
  | fzero2 | fone2 => exact constRule_spec link2 rfl _
  | fzero6 | fone6 => exact constRule_spec link6 rfl _
  | fzero12 | fone12 => exact constRule_spec link12 rfl _
  | fadd1 | fsub1 | fmul1 => exact binaryRule_spec link1 rfl _
  | fadd2 | fsub2 | fmul2 => exact binaryRule_spec link2 rfl _
  | fadd6 | fsub6 | fmul6 => exact binaryRule_spec link6 rfl _
  | fadd12 | fsub12 | fmul12 => exact binaryRule_spec link12 rfl _
  | fneg1 => exact unaryRule_spec (E := [8]) link1 rfl (by simp) fun _ => .ok _
  | fneg2 | fmulnr2 => exact unaryRule_spec (E := [8]) link2 rfl (by simp) fun _ => .ok _
  | fneg6 | fmulnr6 => exact unaryRule_spec (E := [8]) link6 rfl (by simp) fun _ => .ok _
  | fneg12 | finalexp => exact unaryRule_spec (E := [8]) link12 rfl (by simp) fun _ => .ok _
  | finv1 => exact unaryRule_spec (E := [8, 9]) link1 rfl (by simp) (fpInv_raisesOnly (by simp))
  | finv2 => exact unaryRule_spec (E := [8, 9]) link2 rfl (by simp) (fp2Inv_raisesOnly (by simp))
  | finv6 => exact unaryRule_spec (E := [8, 9]) link6 rfl (by simp) (fp6Inv_raisesOnly (by simp))
  | finv12 => exact unaryRule_spec (E := [8, 9]) link12 rfl (by simp) (fp12Inv_raisesOnly (by simp))
  | fmulnr12 => exact unaryRule_spec (E := [6, 8]) link12 rfl (by simp) fun _ => .error (by decide)
  | sqrt1 => exact unaryRule_spec (E := [3, 8]) link1 rfl (by simp) (tsSqrt_raisesOnly (by simp))
  | sqrt2 => exact unaryRule_spec (E := [3, 8]) link2 rfl (by simp) (fp2Sqrt_raisesOnly (by simp))
  | fpow1 => exact powRule_spec link1 rfl
  | fpow2 => exact powRule_spec link2 rfl
  | fpow6 => exact powRule_spec link6 rfl
  | fpow12 => exact powRule_spec link12 rfl
  | feq1 => exact eqRule_spec link1
  | feq2 => exact eqRule_spec link2
  | feq6 => exact eqRule_spec link6
  | feq12 => exact eqRule_spec link12
  | fisone1 => exact isOneRule_spec link1
  | fisone2 => exact isOneRule_spec link2
  | fisone6 => exact isOneRule_spec link6
  | fisone12 => exact isOneRule_spec link12
  | padd1 => exact paddRule_spec link1 rfl (fpInv_raisesOnly (by simp))
  | padd2 => exact paddRule_spec link2 rfl (fp2Inv_raisesOnly (by simp))
  | padd12 => exact paddRule_spec link12 rfl (fp12Inv_raisesOnly (by simp))
  | pdbl1 => exact pdblRule_spec link1 rfl (fpInv_raisesOnly (by simp))
  | pdbl2 => exact pdblRule_spec link2 rfl (fp2Inv_raisesOnly (by simp))
  | pdbl12 => exact pdblRule_spec link12 rfl (fp12Inv_raisesOnly (by simp))
  | pneg1 => exact pnegRule_spec link1 rfl
  | pneg2 => exact pnegRule_spec link2 rfl
  | pneg12 => exact pnegRule_spec link12 rfl
  | pmul1 => exact pmulRule_spec link1 rfl (fpInv_raisesOnly (by simp)) _
  | pmul2 => exact pmulRule_spec link2 rfl (fp2Inv_raisesOnly (by simp)) _
  | pmul12 => exact pmulRule_spec link12 rfl (fp12Inv_raisesOnly (by simp)) _
  | poncurve1 => exact poncurveRule_spec link1 _
  | poncurve2 => exact poncurveRule_spec link2 _
  | poncurve12 => exact poncurveRule_spec link12 _
  | pinsubgrp1 => exact pinsubgrpRule_spec link1 (fpInv_raisesOnly (by simp))
  | pinsubgrp2 => exact pinsubgrpRule_spec link2 (fp2Inv_raisesOnly (by simp))
  | pinsubgrp12 => exact pinsubgrpRule_spec link12 (fp12Inv_raisesOnly (by simp))
  | untwist => exact untwistRule_spec
  | dbleval => exact dblevalRule_spec
  | addeval => exact addevalRule_spec
  | miller => exact millerRule_spec
  | pairing => exact pairingRule_spec
  | compress1 => exact compress1Rule_spec
  | compress2 => exact compress2Rule_spec
  | decompress1 => exact decompress1Rule_spec
  | decompress2 => exact decompress2Rule_spec

end Sys2Proof.Proofs
end

section
/-! The outcomes of a command (10_state.md R113 to R115): what `exec` can leave, and the statements that follow. -/

namespace Sys2Proof.Proofs

open Sys2Proof.Machine
open Sys2Proof.Reference
open Sys2Proof.Laws

theorem isPredicate_eq (i : Instr) : isPredicate i = i.dest.isNone := by cases i <;> rfl

theorem dest_in_range {i : Instr} {rd : Reg} {n : Nat} (hw : i.wellFormed = true) (hd : i.dest = some (rd, n)) :
    rd.toNat + n ≤ 64 := by
  have hmem : (rd, n) ∈ i.operands := by simp [Instr.operands, hd]
  exact of_decide_eq_true (List.all_eq_true.mp hw _ hmem)

/-- The three ends of a command: an error, one of IllegalCommand and the command's line; the block at the destination;
FLAG. -/
inductive ExecOutcome (i : Instr) (s : State) : State → Prop
  | raised (e : Err) (h : e.code.toNat ∈ 7 :: raisable i) : ExecOutcome i s (raiseError s e)
  | wrote (rd : Reg) (ws : List Word) (hd : i.dest = some (rd, ws.length)) (hb : rd.toNat + ws.length ≤ 64)
      (hr : writesEncoding i = false → InRange ws.length (blockWord ws)) :
      ExecOutcome i s (complete s (.ok (.regs rd.toNat ws)))
  | flagged (b : Bool) (hd : i.dest = none) : ExecOutcome i s (complete s (.ok (.flag b)))

theorem complete_outcome {i : Instr} {s : State} (hw : i.wellFormed = true) :
    ExecOutcome i s (complete s (ruleOf i s.w)) := by
  have spec := ruleOf_spec i
  cases hr : ruleOf i s.w with
  | error e => exact .raised e (List.mem_cons_of_mem _ (spec.raises s e hr))
  | ok e =>
    have hfits := spec.writes s e hr
    cases e with
    | regs b ws =>
      obtain ⟨rd, hd, rfl, hrange⟩ := hfits
      exact .wrote rd ws hd (dest_in_range hw hd) hrange
    | flag b => exact .flagged b hfits

theorem exec_outcome {i : Instr} {s t : State} (h : exec i s = .next t) : ExecOutcome i s t := by
  cases hw : i.wellFormed with
  | true =>
    rw [exec_wellFormed i s hw] at h
    cases h
    exact complete_outcome hw
  | false =>
    rw [exec_illFormed i s hw] at h
    cases h
    exact .raised .illegalCommand List.mem_cons_self

/-- Settles O8: the three ends of a command, with the frame of each. -/
theorem commandOutcomes : Obligations.CommandOutcomes := by
  intro i s
  obtain ⟨t, ht, -⟩ := exec_next i s
  refine ⟨t, ht, ?_⟩
  cases exec_outcome ht with
  | raised e _ => exact .inl ⟨_, raised_of_error s e⟩
  | wrote rd ws hd hb _ => exact .inr (.inl ⟨rd, _, _, hd, List.length_map _, wrote_of_regs s rd.toNat ws hb⟩)
  | flagged b hd => exact .inr (.inr ⟨hd, by rw [isPredicate_eq, hd]; rfl, b, flagged_of_flag s b⟩)

/-! ## R105: the results are in range -/

theorem writesEncoding_eq_false {i : Instr} (h : ∀ r a, i ≠ .compress1 r a ∧ i ≠ .compress2 r a) :
    writesEncoding i = false := by
  cases i with
  | compress1 r a => exact absurd rfl (h r a).1
  | compress2 r a => exact absurd rfl (h r a).2
  | _ => rfl

/-- Settles O11: the block a command writes is in range by its rule, and the registers then hold that block. -/
theorem resultsAreCanonical : Obligations.ResultsAreCanonical := by
  intro i s t rd n _ hd henc hexec hterr
  cases exec_outcome hexec with
  | raised e _ => exact absurd hterr (by simp)
  | flagged b hnone => rw [hnone] at hd; cases hd
  | wrote rd' ws hd' hb hrange =>
    rw [hd'] at hd
    cases hd
    have hvalue := (wrote_of_regs s rd.toNat ws hb).value
    rw [canonical_iff_inRange]
    exact (hrange (writesEncoding_eq_false henc)).congr fun k hk =>
      (hvalue k (by rwa [List.length_map])).symm

/-! ## R115: the results depend on the sources only -/

/-- Settles O12: the rule gives the same answer on both states, and each clause reads off that answer's completion. -/
theorem resultDependsOnSourcesOnly : Obligations.ResultDependsOnSourcesOnly := by
  intro i s s' t t' herr herr' hcode hagree ht ht'
  cases hw : i.wellFormed with
  | false =>
    rw [exec_illFormed i _ hw] at ht ht'
    cases ht
    cases ht'
    simp
  | true =>
    have hsame := (ruleOf_spec i).same s s' hagree
    rw [exec_wellFormed i _ hw] at ht ht'
    cases ht
    cases ht'
    rw [← hsame]
    cases hr : ruleOf i s.w with
    | error e => simp [complete]
    | ok e =>
      have hfits := (ruleOf_spec i).writes s e hr
      cases e with
      | flag b =>
        have hnone : i.dest = none := hfits
        simp [complete, applyEffect, hcode, herr, herr', hnone]
      | regs b ws =>
        obtain ⟨rd, hd, rfl, -⟩ := hfits
        have hb := dest_in_range hw hd
        have hwrote := wrote_of_regs s rd.toNat ws hb
        have hwrote' := wrote_of_regs s' rd.toNat ws hb
        refine ⟨hwrote.err.trans (herr.trans (herr'.symm.trans hwrote'.err.symm)),
          hwrote.errcode.trans (hcode.trans hwrote'.errcode.symm), fun _ hnone => ?_, fun _ rd' n hd' k hk => ?_⟩
        · rw [hd] at hnone
          cases hnone
        · rw [hd] at hd'
          cases hd'
          have hk' : k < (ws.map BitVec.toNat).length := by rwa [List.length_map]
          exact (hwrote.value k hk').trans (hwrote'.value k hk').symm

end Sys2Proof.Proofs
end

section
/-! The word of a legal command decodes to that command (30_encoding.md R300 to R306). -/

namespace Sys2Proof.Proofs

/-! ## The fields of an assembled word -/

section Fields

variable (op : BitVec 6) (lv : BitVec 2) (rd ra rb rc : Reg)

/-- The bits of an assembled word, field by field (R300). -/
theorem getLsbD_cmdWord (n : Nat) : (cmdWord op lv rd ra rb rc).getLsbD n =
    if n < 6 then rc.getLsbD n else if n < 12 then rb.getLsbD (n - 6) else if n < 18 then ra.getLsbD (n - 12)
    else if n < 24 then rd.getLsbD (n - 18) else if n < 26 then lv.getLsbD (n - 24) else op.getLsbD (n - 26) := by
  change (op ++ lv ++ rd ++ ra ++ rb ++ rc : BitVec (6 + 2 + 6 + 6 + 6 + 6)).getLsbD n = _
  simp only [BitVec.getLsbD_append]
  grind

@[simp] theorem opOf_cmdWord : opOf (cmdWord op lv rd ra rb rc) = op := by
  ext i hi
  rw [opOf, BitVec.getElem_extractLsb', getLsbD_cmdWord]
  grind

@[simp] theorem lvOf_cmdWord : lvOf (cmdWord op lv rd ra rb rc) = lv := by
  ext i hi
  rw [lvOf, BitVec.getElem_extractLsb', getLsbD_cmdWord]
  grind

@[simp] theorem rdOf_cmdWord : rdOf (cmdWord op lv rd ra rb rc) = rd := by
  ext i hi
  rw [rdOf, BitVec.getElem_extractLsb', getLsbD_cmdWord]
  grind

@[simp] theorem raOf_cmdWord : raOf (cmdWord op lv rd ra rb rc) = ra := by
  ext i hi
  rw [raOf, BitVec.getElem_extractLsb', getLsbD_cmdWord]
  grind

@[simp] theorem rbOf_cmdWord : rbOf (cmdWord op lv rd ra rb rc) = rb := by
  ext i hi
  rw [rbOf, BitVec.getElem_extractLsb', getLsbD_cmdWord]
  grind

@[simp] theorem rcOf_cmdWord : rcOf (cmdWord op lv rd ra rb rc) = rc := by
  ext i hi
  rw [rcOf, BitVec.getElem_extractLsb', getLsbD_cmdWord]
  grind

end Fields

/-! ## Decoding -/

/-- The opcode map sends the fields of a command's word back to the command (R301 to R303). -/
theorem selectCommand_encode (i : Instr) :
    selectCommand (opOf (encode i)).toNat (lvOf (encode i)).toNat (rdOf (encode i)) (raOf (encode i)) (rbOf (encode i))
      (rcOf (encode i)) = .ok i := by
  cases i with
  | pmul1 rd ra rb sn | pmul2 rd ra rb sn | pmul12 rd ra rb sn =>
    simp only [encode, opOf_cmdWord, lvOf_cmdWord, rdOf_cmdWord, raOf_cmdWord, rbOf_cmdWord, rcOf_cmdWord]
    cases sn <;> rfl
  | _ =>
    simp only [encode, opOf_cmdWord, lvOf_cmdWord, rdOf_cmdWord, raOf_cmdWord, rbOf_cmdWord, rcOf_cmdWord]
    rfl

theorem decode_encode {i : Instr} (h : i.wellFormed = true) : decode (encode i) = some i := by
  simp only [decode, decodeCommand, selectCommand_encode, h, if_true]

end Sys2Proof.Proofs
end

section
/-! STATUS through reset, acceptance and completion (10_state.md R111 to R116, 60_exceptions.md R610). -/

namespace Sys2Proof.Proofs

open Sys2Proof.Machine
open Sys2Proof.Reference
open Sys2Proof.Laws

/-! ## Reset (R116) -/

/-- Settles O15: the fields of the reset state, and a mark of a replicated vector is its one value. -/
theorem resetValues : Obligations.ResetValues := by
  refine ⟨rfl, rfl, rfl, rfl, rfl, rfl, fun i hi => ?_⟩
  simp [marks, State.reset, hi]

/-- Settles O14: no command, no error, code 0. -/
theorem resetHasStatusInv : Obligations.ResetHasStatusInv :=
  ⟨by decide, by decide, by decide, by decide⟩

/-! ## Acceptance and the completion step (R111, R114) -/

/-- Settles O7: offset 0 is a transaction, an acceptance on an idle core, ignored on a busy one. -/
theorem acceptanceOfCommand : Obligations.AcceptanceOfCommand := by
  intro s c rest hs
  rw [step_cons s _ rest hs, eventStep_hostWrite _ _ _ (by decide) (by decide)]
  constructor
  · intro hidle
    rw [hostWrite_cmd (popEvent s rest) c hidle]
    rfl
  · intro hbusy
    rw [hostWrite_busy (popEvent s rest) 0 c hbusy]
    rfl

/-- Settles O5: the sequencer's turn, taken by itself or from the schedule, executes the command in CMDR. -/
theorem stepRunsDecodedCommand : Obligations.StepRunsDecodedCommand := by
  intro s i hbusy hdec
  constructor
  · intro hs
    rw [step_nil s hs, sequencerStep_legal s i hbusy hdec]
  · intro rest hs
    rw [step_cons s _ rest hs]
    exact sequencerStep_legal (popEvent s rest) i hbusy hdec

/-! ## The invariant of STATUS (R112, R601) -/

/-- STATUS alone decides the invariant. -/
theorem statusInv_congr {s t : State} (h : StatusInv s) (hbusy : t.busy = s.busy) (hdone : t.done = s.done)
    (herr : t.err = s.err) (hcode : t.errcode = s.errcode) : StatusInv t := by
  rwa [StatusInv, hbusy, hdone, herr, hcode]

theorem statusInv_accept (s : State) (c : CmdWord) : StatusInv (accept s c) := by
  simp [StatusInv]

theorem statusInv_applyReset (s : State) : StatusInv (applyReset s) := by
  simp [StatusInv, applyReset]

@[simp] theorem complete_ok_err (s : State) (e : Effect) : (complete s (.ok e)).err = s.err := by
  cases e <;> simp [complete, applyEffect]
@[simp] theorem complete_ok_errcode (s : State) (e : Effect) : (complete s (.ok e)).errcode = s.errcode := by
  cases e <;> simp [complete, applyEffect]

/-- A completion without error ends BUSY and keeps ERR and ERRCODE. -/
theorem statusInv_complete_ok {s : State} (h : StatusInv s) (e : Effect) : StatusInv (complete s (.ok e)) := by
  obtain ⟨-, -, hcode, hreserved⟩ := h
  have hbusy : (complete s (.ok e)).busy = false := rfl
  have hdone : (complete s (.ok e)).done = true := rfl
  exact ⟨by simp [hbusy], fun _ => hdone, by simpa using hcode, by simpa using hreserved⟩

/-- No command's line holds a reserved code (R605, R606). -/
theorem raisable_not_reserved (i : Instr) : ∀ c ∈ 7 :: raisable i, c ∈ [1, 2, 3, 6, 7, 8, 9, 10] := by
  cases i <;> simp [raisable, codesOf]

theorem code_ne_zero (e : Err) : e.code ≠ 0 := by cases e <;> decide

theorem statusInv_raiseError (s : State) {e : Err} (h : e.code.toNat ∈ [1, 2, 3, 6, 7, 8, 9, 10]) :
    StatusInv (raiseError s e) :=
  ⟨by simp, by simp, by simpa using code_ne_zero e, List.mem_cons_of_mem _ h⟩

theorem statusInv_exec {i : Instr} {s t : State} (h : StatusInv s) (hexec : exec i s = .next t) : StatusInv t := by
  cases exec_outcome hexec with
  | raised e hcode => exact statusInv_raiseError s (raisable_not_reserved i _ hcode)
  | wrote => exact statusInv_complete_ok h _
  | flagged => exact statusInv_complete_ok h _

theorem statusInv_sequencerStep {s t : State} (h : StatusInv s) (hstep : sequencerStep s = .next t) : StatusInv t := by
  cases hbusy : s.busy with
  | false =>
    rw [sequencerStep_idle s hbusy] at hstep
    cases hstep
    exact h
  | true =>
    cases hdec : decode s.cmdr with
    | some i => exact statusInv_exec h ((sequencerStep_legal s i hbusy hdec).symm.trans hstep)
    | none =>
      rw [sequencerStep_illegal s hbusy hdec] at hstep
      cases hstep
      exact statusInv_raiseError s (by decide)

/-- A host write accepts a command, writes a limb, or does nothing. -/
theorem statusInv_hostWrite {s : State} (h : StatusInv s) (a : Nat) (v : Limb) : StatusInv (hostWrite s a v) := by
  cases hbusy : s.busy with
  | true => rwa [hostWrite_busy s a v hbusy]
  | false =>
    by_cases hcmd : a = 0
    · rw [hcmd, hostWrite_cmd s v hbusy]
      exact statusInv_accept s v
    · by_cases hlimb : 0x400 ≤ a
      · rw [hostWrite_limb s a v hlimb hbusy]
        exact statusInv_congr h rfl rfl rfl rfl
      · rw [hostWrite, if_neg hcmd, if_pos (by omega)]
        exact h

theorem statusInv_eventStep {s t : State} (h : StatusInv s) (e : Event) (hstep : eventStep s e = .next t) :
    StatusInv t := by
  cases e with
  | hostRead a =>
    rw [eventStep] at hstep
    split at hstep
    · cases hstep
      exact statusInv_congr h (hostRead_busy s a) (hostRead_done s a) (hostRead_err s a) (hostRead_errcode s a)
    · cases hstep
  | hostWrite a v =>
    rw [eventStep] at hstep
    split at hstep
    · cases hstep
      exact statusInv_hostWrite h a v
    · cases hstep
  | sequencer => exact statusInv_sequencerStep h hstep
  | reset => exact Host.Outcome.next.inj hstep ▸ statusInv_applyReset s

/-- Settles O13: a step is the sequencer's turn or an event, and each of them keeps the invariant. -/
theorem stepKeepsStatusInv : Obligations.StepKeepsStatusInv := by
  intro s t h hstep
  cases hs : s.schedule with
  | nil => exact statusInv_sequencerStep h ((step_nil s hs).symm.trans hstep)
  | cons e rest =>
    have hpop : StatusInv (popEvent s rest) := statusInv_congr h rfl rfl rfl rfl
    exact statusInv_eventStep hpop e ((step_cons s e rest hs).symm.trans hstep)

/-! ## From the write of CMD to the completion (R111, R114, R610) -/

theorem run_succ_of_step {s u : State} (h : step s = .next u) (k : Nat) :
    Host.Core.run core (k + 1) s = Host.Core.run core k u := by
  have hcore : core.step s = .next u := h
  simp only [Host.Core.run, hcore]

theorem popEvent_accept (s : State) (es rest : List Event) (c : CmdWord) :
    popEvent (accept (popEvent s es) c) rest = accept (popEvent s rest) c := rfl

/-- The write of CMD accepts the command, and the sequencer's turn executes it. -/
theorem run_two_of_commandWrite {s t : State} {i : Instr} (hw : i.wellFormed = true) (hidle : s.busy = false)
    (hs : s.schedule = [.hostWrite 0 (encode i), .sequencer])
    (ht : exec i (accept (popEvent s []) (encode i)) = .next t) : Host.Core.run core 2 s = .next t := by
  have haccept : step s = .next (accept (popEvent s [.sequencer]) (encode i)) := by
    rw [step_cons s _ _ hs, eventStep_hostWrite _ _ _ (by decide) (by decide)]
    exact congrArg _ (hostWrite_cmd (popEvent s [.sequencer]) (encode i) hidle)
  have hexec : step (accept (popEvent s [.sequencer]) (encode i)) = .next t := by
    rw [step_cons _ .sequencer [] rfl, popEvent_accept, ← ht]
    exact sequencerStep_legal _ i rfl (decode_encode hw)
  rw [run_succ_of_step haccept, run_succ_of_step hexec]
  rfl

/-- STATUS as a number once a command has completed. -/
theorem statusNumber_of_done {t : State} (hbusy : t.busy = false) (hdone : t.done = true) :
    statusNumber t = 2 + (if t.err then 4 else 0) + (if t.flag then 8 else 0) + 256 * t.errcode.toNat := by
  simp [statusNumber, hbusy, hdone]

/-- A completion without error after an acceptance leaves DONE without ERR. -/
theorem status_of_finished {s t : State} (h : Finished s t) (herr : s.err = false) (hcode : s.errcode = 0) :
    t.err = false ∧ statusNumber t % 8 = 2 ∧ t.errcode = 0 := by
  have hterr : t.err = false := h.err.trans herr
  have htcode : t.errcode = 0 := h.errcode.trans hcode
  refine ⟨hterr, ?_, htcode⟩
  rw [statusNumber_of_done h.busy h.done, hterr, htcode]
  cases t.flag <;> rfl

/-- Settles O23: the two steps run the command on the accepted state, and each of its ends gives STATUS. -/
theorem commandFromHostWrite : Obligations.CommandFromHostWrite := by
  intro s i hw hidle hs
  obtain ⟨t, ht, -, -, hcmdr, -⟩ := exec_next i (accept (popEvent s []) (encode i))
  refine ⟨t, run_two_of_commandWrite hw hidle hs ht, hcmdr, ?_⟩
  cases exec_outcome ht with
  | raised e _ =>
    refine .inr ⟨rfl, code_ne_zero e, rfl, ?_⟩
    rw [statusNumber_of_done rfl rfl]
    simp only [raiseError_err, raiseError_flag, raiseError_errcode, accept_flag, popEvent_flag, if_true]
    exact Nat.add_right_comm 6 _ _
  | wrote rd ws _ hb _ => exact .inl (status_of_finished (wrote_of_regs _ _ ws hb).toFinished rfl rfl)
  | flagged b _ => exact .inl (status_of_finished (flagged_of_flag _ b).toFinished rfl rfl)

end Sys2Proof.Proofs
end

section
/-! The host's window (20_memory.md R200 to R207): what a read returns, what a write of a limb stores, and the accesses
that are no transaction of the port. -/

namespace Sys2Proof.Proofs

open Sys2Proof.Machine
open Sys2Proof.Reference
open Sys2Proof.Laws

/-! ## Offsets of limbs (R201) -/

theorem le_limbAddr (i k : Nat) : 0x400 ≤ limbAddr i k := by
  unfold limbAddr; omega

theorem limbAddr_aligned (i k : Nat) : limbAddr i k % 4 = 0 := by
  unfold limbAddr; omega

theorem limbAddr_lt {i k : Nat} (hi : i < 64) (hk : k < 12) : limbAddr i k < 4096 := by
  unfold limbAddr; omega

theorem limbReg_limbAddr (i : Nat) {k : Nat} (hk : k < 12) : limbReg (limbAddr i k) = i := by
  unfold limbReg limbAddr; omega

theorem limbIndex_limbAddr (i : Nat) {k : Nat} (hk : k < 12) : limbIndex (limbAddr i k) = k := by
  unfold limbIndex limbAddr; omega

/-! ## Words and bits as numbers -/

theorem toNat_getLimb (x : Word) (k : Nat) : (getLimb x k).toNat = limbOf x.toNat k := by
  rw [getLimb, BitVec.extractLsb'_toNat, Nat.shiftRight_eq_div_pow, limbOf]

theorem ofNat_limbOf (x : Word) (k : Nat) : BitVec.ofNat 32 (limbOf x.toNat k) = getLimb x k := by
  rw [← toNat_getLimb, BitVec.ofNat_toNat, BitVec.setWidth_eq]

/-- The fields of STATUS do not overlap (10_state.md R112), so putting them together is adding them up. -/
theorem toNat_statusWord (s : State) : (statusWord s).toNat = statusNumber s := by
  have hfields : ∀ (busy done err flag : Bool) (code : BitVec 4),
      (bitWord busy ||| bitWord done <<< 1 ||| bitWord err <<< 2 ||| bitWord flag <<< 3 |||
        code.setWidth 32 <<< 8).toNat =
      (if busy then 1 else 0) + (if done then 2 else 0) + (if err then 4 else 0) + (if flag then 8 else 0) +
        256 * code.toNat := by decide
  exact hfields s.busy s.done s.err s.flag s.errcode

/-! ## Reads (R203) -/

theorem step_hostRead {s : State} {a : Nat} {rest : List Event} (hs : s.schedule = .hostRead a :: rest)
    (h4 : a % 4 = 0) (ha : a < 4096) : step s = .next (hostRead (popEvent s rest) a) := by
  rw [step_cons s _ rest hs, eventStep_hostRead _ a h4 ha]

theorem sameCore_hostRead (s : State) (a : Nat) : SameCore s (hostRead s a) := by
  simp [SameCore]

theorem readData_hostRead {s : State} {a : Nat} {v : Limb} (h : windowRead s a = some v) :
    (hostRead s a).readData = v := by
  rw [hostRead_some s a v h]

theorem windowRead_cmd (s : State) : windowRead s 0 = some s.cmdr := rfl

theorem windowRead_status (s : State) : windowRead s 4 = some (statusWord s) := rfl

theorem windowRead_reserved (s : State) {a : Nat} (h8 : 8 ≤ a) (ha : a < 0x400) : windowRead s a = some 0 := by
  rw [windowRead, if_neg (by omega), if_neg (by omega), if_pos ha]

theorem windowRead_limb {s : State} {i k : Nat} (hk : k < 12) (hidle : s.busy = false)
    (hmark : (marks s i).getLsbD k = true) : windowRead s (limbAddr i k) = some (getLimb (readWord s.w i) k) := by
  have hlimb := le_limbAddr i k
  rw [windowRead, if_neg (by omega), if_neg (by omega), if_neg (by omega), if_neg (by simp [hidle]),
    limbReg_limbAddr i hk, limbIndex_limbAddr i hk, if_pos hmark]

/-- Settles O17: a read keeps the core, and each kind of offset has its answer. -/
theorem hostReadReturns : Obligations.HostReadReturns := by
  intro s a rest hs h4 ha
  refine ⟨_, step_hostRead hs h4 ha, sameCore_hostRead (popEvent s rest) a, hostRead_schedule _ a, ?_, ?_, ?_, ?_⟩
  · rintro rfl
    exact readData_hostRead (windowRead_cmd _)
  · rintro rfl
    rw [readData_hostRead (windowRead_status _)]
    exact toNat_statusWord s
  · intro h8 hlt
    exact readData_hostRead (windowRead_reserved _ h8 hlt)
  · rintro i - k hk rfl hidle hmark
    rw [readData_hostRead (windowRead_limb (s := popEvent s rest) hk hidle hmark)]
    exact toNat_getLimb _ k

/-! ## Writes (R204, R205) -/

theorem step_hostWrite {s : State} {a : Nat} {v : Limb} {rest : List Event} (hs : s.schedule = .hostWrite a v :: rest)
    (h4 : a % 4 = 0) (ha : a < 4096) : step s = .next (hostWrite (popEvent s rest) a v) := by
  rw [step_cons s _ rest hs, eventStep_hostWrite _ a v h4 ha]

theorem step_writeLimb {s : State} {i k : Nat} {v : Limb} {rest : List Event} (hi : i < 64) (hk : k < 12)
    (hidle : s.busy = false) (hs : s.schedule = .hostWrite (limbAddr i k) v :: rest) :
    step s = .next (writeLimb (popEvent s rest) i k v) := by
  rw [step_hostWrite hs (limbAddr_aligned i k) (limbAddr_lt hi hk),
    hostWrite_limb (popEvent s rest) _ v (le_limbAddr i k) hidle, limbReg_limbAddr i hk, limbIndex_limbAddr i hk]

/-- Every limb of every register after a write of one limb. -/
theorem getLimb_writeLimb (s : State) {i j k l : Nat} (v : Limb) (hj : j < 64) (hk : k < 12) (hl : l < 12) :
    getLimb (readWord (writeLimb s i k v).w j) l = if j = i ∧ l = k then v else getLimb (readWord s.w j) l := by
  rw [readWord_writeLimb s i k j v hj]
  by_cases hji : j = i
  · simp [hji, getLimb_setLimb _ l k v hl hk]
  · simp [hji]

/-- Every mark of every register after a write of one limb. -/
theorem getLsbD_marks_writeLimb (s : State) {i j k l : Nat} (v : Limb) (hj : j < 64) (hl : l < 12) :
    (marks (writeLimb s i k v) j).getLsbD l = ((j == i && l == k) || (marks s j).getLsbD l) := by
  have hbit : (1#12 <<< k).getLsbD l = (l == k) := by
    have hiff : (l < 12 ∧ k ≤ l) ∧ l - k = 0 ↔ l = k := by omega
    rw [BitVec.getLsbD_shiftLeft, BitVec.getLsbD_one, Bool.eq_iff_iff]
    simpa using hiff
  rw [marks_writeLimb s i k j v hj]
  by_cases hji : j = i
  · simp [hji, hbit, Bool.or_comm]
  · simp [hji]

/-- Settles O18: STATUS and the reserved offsets ignore the write; a limb's offset takes it, in that limb alone. -/
theorem hostWriteStores : Obligations.HostWriteStores := by
  intro s a v rest hs h4 ha
  constructor
  · intro hlo hhi
    rw [step_hostWrite hs h4 ha, hostWrite_reserved _ a v hlo hhi]
    rfl
  · rintro i hi k hk rfl hidle
    refine ⟨_, step_writeLimb hi hk hidle hs, ?_, ?_, rfl, rfl, rfl, rfl, rfl, rfl, rfl, rfl, rfl⟩
    · intro j hj l hl
      rw [wval, ← toNat_getLimb, getLimb_writeLimb _ v hj hk hl, apply_ite BitVec.toNat, toNat_getLimb]
      rfl
    · intro j hj l hl
      exact getLsbD_marks_writeLimb (popEvent s rest) v hj hl

/-! ## Loading a register (R207, 30_encoding.md R312) -/

/-- From `s` on, the limbs below `n` of `v` have been written to `W[i]`, and nothing else has changed. -/
structure Loading (s : State) (i : Nat) (v : Word) (n : Nat) (t : State) : Prop where
  limb : ∀ k < n, getLimb (readWord t.w i) k = getLimb v k
  mark : ∀ k < n, (marks t i).getLsbD k = true
  other : ∀ j < 64, j ≠ i → wval t j = wval s j ∧ marks t j = marks s j
  cmdr : t.cmdr = s.cmdr
  busy : t.busy = s.busy
  done : t.done = s.done
  err : t.err = s.err
  flag : t.flag = s.flag
  errcode : t.errcode = s.errcode

theorem Loading.start (s : State) (i : Nat) (v : Word) : Loading s i v 0 s where
  limb := nofun
  mark := nofun
  other _ _ _ := ⟨rfl, rfl⟩
  cmdr := rfl
  busy := rfl
  done := rfl
  err := rfl
  flag := rfl
  errcode := rfl

/-- The write of limb `n` loads one limb more. -/
theorem Loading.succ {s t : State} {i n : Nat} {v : Word} (h : Loading s i v n t) (hi : i < 64) (hn : n < 12)
    (rest : List Event) : Loading s i v (n + 1) (writeLimb (popEvent t rest) i n (getLimb v n)) where
  limb k hk := by
    rw [getLimb_writeLimb _ _ hi hn (by omega)]
    by_cases hkn : k = n
    · rw [if_pos ⟨rfl, hkn⟩, hkn]
    · rw [if_neg (by simp [hkn])]
      exact h.limb k (by omega)
  mark k hk := by
    rw [getLsbD_marks_writeLimb _ _ hi (by omega)]
    by_cases hkn : k = n
    · simp [hkn]
    · rw [Bool.or_eq_true]
      exact .inr (h.mark k (by omega))
  other j hj hji := by
    rw [wval, readWord_writeLimb _ _ _ _ _ hj, marks_writeLimb _ _ _ _ _ hj, if_neg hji, if_neg hji]
    exact h.other j hj hji
  cmdr := h.cmdr
  busy := h.busy
  done := h.done
  err := h.err
  flag := h.flag
  errcode := h.errcode

/-- The `m` writes of the limbs from `n` on bring a register that holds the limbs below `n` to `n + m` limbs. -/
theorem Loading.run {s : State} {i : Nat} {v : Word} {rest : List Event} (hi : i < 64) (hidle : s.busy = false)
    (m n : Nat) (hnm : n + m ≤ 12) (t : State) (h : Loading s i v n t)
    (hs : t.schedule = ((List.range' n m).map fun k => .hostWrite (limbAddr i k) (getLimb v k)) ++ rest) :
    ∃ u, Host.Core.run core m t = .next u ∧ Loading s i v (n + m) u ∧ u.schedule = rest := by
  induction m generalizing n t with
  | zero => exact ⟨t, rfl, h, hs⟩
  | succ m ih =>
    rw [List.range'_succ, List.map_cons, List.cons_append] at hs
    have hstep := step_writeLimb hi (by omega) (h.busy.trans hidle) hs
    obtain ⟨u, hrun, hload, hsched⟩ := ih (n + 1) (by omega) _ (h.succ hi (by omega) _) rfl
    refine ⟨u, (run_succ_of_step hstep m).trans hrun, ?_, hsched⟩
    rwa [Nat.add_right_comm n 1 m] at hload

/-- A register with all twelve limbs loaded holds the value (R207). -/
theorem Loading.wval_eq {s t : State} {i : Nat} {v : Word} (h : Loading s i v 12 t) : wval t i = v.toNat :=
  congrArg BitVec.toNat (word_ext_limbs h.limb)

theorem Loading.marks_eq {s t : State} {i : Nat} {v : Word} (h : Loading s i v 12 t) :
    marks t i = BitVec.allOnes 12 := by
  apply BitVec.eq_of_getLsbD_eq
  intro k hk
  rw [h.mark k hk, BitVec.getLsbD_allOnes, decide_eq_true hk]

/-- Settles O19: the twelve writes are a run of `Loading` from no limb to all of them. -/
theorem twelveWritesLoadRegister : Obligations.TwelveWritesLoadRegister := by
  intro s i v rest hi hidle hs
  simp only [ofNat_limbOf, List.range_eq_range'] at hs
  obtain ⟨t, hrun, h, hsched⟩ := Loading.run hi hidle 12 0 (by decide) s (.start s i v) hs
  exact ⟨t, hrun, h.wval_eq, h.marks_eq, h.other, h.cmdr, h.busy.trans hidle, h.done, h.err, h.flag, h.errcode, hsched⟩

/-! ## Accesses that are no transaction (R202, log 7) -/

/-- The guard of the port: it faults exactly at an offset that is no transaction. -/
theorem guard_eq_fault_iff (t : State) (a : Nat) (f : Fault) :
    (if isTransaction a then .next t else .fault (.windowAccess a) : StepResult) = .fault f ↔
      f = .windowAccess a ∧ ¬(a % 4 = 0 ∧ a < 4096) := by
  rw [← isTransaction_iff]
  split
  case isTrue h => exact iff_of_false nofun fun hf => hf.2 h
  case isFalse h =>
    rw [Host.Outcome.fault.injEq, eq_comm]
    exact (and_iff_left h).symm

theorem sequencerStep_ne_fault (s : State) (f : Fault) : sequencerStep s ≠ .fault f := by
  obtain ⟨t, ht⟩ := sequencerStep_next s
  rw [ht]
  nofun

theorem eventStep_eq_fault_iff (s : State) (e : Event) (f : Fault) :
    eventStep s e = .fault f ↔ ∃ a, f = .windowAccess a ∧ ¬(a % 4 = 0 ∧ a < 4096) ∧
      (e = .hostRead a ∨ ∃ v, e = .hostWrite a v) := by
  cases e with
  | hostRead a =>
    rw [eventStep, guard_eq_fault_iff]
    simp
  | hostWrite a v =>
    rw [eventStep, guard_eq_fault_iff]
    simp
  | sequencer => simp [eventStep, sequencerStep_ne_fault]
  | reset => simp [eventStep]

/-- Settles O25: only an event can fault, and of the events only a host access outside the port's transactions. -/
theorem faultOnlyOutsideThePort : Obligations.FaultOnlyOutsideThePort := by
  intro s f
  cases hs : s.schedule with
  | nil => simp [step_nil s hs, sequencerStep_ne_fault]
  | cons e rest => simp [step_cons s e rest hs, eventStep_eq_fault_iff, exists_or]

end Sys2Proof.Proofs
end

section
/-! Legal words and their commands (30_encoding.md R300 to R309): the opcode map answers each word by its row of the tables of
R301 and R303, so decoding and encoding are inverse to each other and a word decodes exactly when its row allows it. -/

namespace Sys2Proof.Proofs

open Sys2Proof.Reference

/-! ## A word is its six fields (R300) -/

theorem cmdWord_fields (c : CmdWord) : cmdWord (opOf c) (lvOf c) (rdOf c) (raOf c) (rbOf c) (rcOf c) = c := by
  apply BitVec.eq_of_getLsbD_eq
  intro n hn
  rw [getLsbD_cmdWord]
  simp only [opOf, lvOf, rdOf, raOf, rbOf, rcOf, BitVec.getLsbD_extractLsb']
  grind

theorem toNat_field (c : CmdWord) (start len : Nat) :
    (c.extractLsb' start len).toNat = c.toNat / 2 ^ start % 2 ^ len := by
  rw [BitVec.extractLsb'_toNat, Nat.shiftRight_eq_div_pow]

theorem toNat_opOf (c : CmdWord) : (opOf c).toNat = c.toNat / 2 ^ 26 := by
  rw [opOf, toNat_field, Nat.mod_eq_of_lt]
  have := c.isLt
  omega

theorem toNat_lvOf (c : CmdWord) : (lvOf c).toNat = c.toNat / 2 ^ 24 % 4 := toNat_field c 24 2
theorem toNat_rdOf (c : CmdWord) : (rdOf c).toNat = c.toNat / 2 ^ 18 % 64 := toNat_field c 18 6
theorem toNat_raOf (c : CmdWord) : (raOf c).toNat = c.toNat / 2 ^ 12 % 64 := toNat_field c 12 6
theorem toNat_rbOf (c : CmdWord) : (rbOf c).toNat = c.toNat / 2 ^ 6 % 64 := toNat_field c 6 6

theorem toNat_rcOf (c : CmdWord) : (rcOf c).toNat = c.toNat % 64 := by
  rw [rcOf, toNat_field, Nat.pow_zero, Nat.div_one]
  rfl

/-! ## The rows of R301 and R303 -/

/-- The row of the tables for an operation code. -/
def tableRow (op : Nat) : Option TableRow := table.find? (op == ·.op)

theorem tableRow_eq_some_iff {op : Nat} {row : TableRow} : tableRow op = some row ↔ row ∈ table ∧ row.op = op := by
  constructor
  · intro h
    exact ⟨List.mem_of_find?_eq_some h, (beq_iff_eq.mp (List.find?_some (p := (op == TableRow.op ·)) h)).symm⟩
  · rintro ⟨hmem, rfl⟩
    have hrows : ∀ row ∈ table, tableRow row.op = some row := by simp [tableRow, table]
    exact hrows row hmem

/-- The register fields of a word, each with the size its row gives the operand in it; the field `RC` of `pmul` is the sign
and no register (R303). -/
def slots (row : TableRow) (lv : Nat) (rd ra rb rc : Reg) : List (Reg × Nat) :=
  [(rd, (row.sizes lv).1), (ra, (row.sizes lv).2.1), (rb, (row.sizes lv).2.2.1)] ++
    if row.op = 0x13 then [] else [(rc, (row.sizes lv).2.2.2)]

/-- The fields that hold no operand. -/
def unusedFields (l : List (Reg × Nat)) : List Reg := (l.filter (·.2 == 0)).map (·.1)

/-- The fields that hold one. -/
def usedFields (l : List (Reg × Nat)) : List (Reg × Nat) := l.filter (·.2 != 0)

/-- Steps 3 and 4 of R305 are a check of the fields without an operand and a check of the others. -/
theorem forall_fieldLegal_iff (l : List (Reg × Nat)) :
    (∀ o ∈ l, FieldLegal o.1.toNat o.2) ↔
      (unusedFields l).all (· == 0) = true ∧ (usedFields l).all operandInRange = true := by
  have hslot (o : Reg × Nat) : FieldLegal o.1.toNat o.2 ↔
      (o.2 = 0 → o.1 = 0) ∧ (o.2 ≠ 0 → operandInRange o = true) := by
    rw [FieldLegal, operandInRange, decide_eq_true_iff, ← BitVec.toNat_inj]
    split <;> simp [*, Config.numRegs]
  simp only [hslot, unusedFields, usedFields, List.all_map, List.all_eq_true, List.mem_filter]
  grind

/-- The fields of a word satisfy its row: steps 2 to 4 of R305. -/
def RowLegal (row : TableRow) (lv : Nat) (rd ra rb rc : Reg) : Prop :=
  lv ∈ row.levels ∧ (∀ o ∈ slots row lv rd ra rb rc, FieldLegal o.1.toNat o.2) ∧ (row.op = 0x13 → rc.toNat < 2)

theorem legalWord_iff (c : CmdWord) : LegalWord c ↔ ∃ row, tableRow (opOf c).toNat = some row ∧
    RowLegal row (lvOf c).toNat (rdOf c) (raOf c) (rbOf c) (rcOf c) := by
  simp only [LegalWord, ← toNat_opOf, ← toNat_lvOf, ← toNat_rdOf, ← toNat_raOf, ← toNat_rbOf, ← toNat_rcOf,
    tableRow_eq_some_iff, and_assoc]
  refine exists_congr fun row => and_congr_right fun _ => and_congr_right fun _ => ?_
  by_cases hop : row.op = 0x13 <;> simp [RowLegal, slots, hop, and_assoc]

/-! ## What the opcode map answers -/

/-- The answer `x` of the opcode map to a word of the row: a command only with the word's own fields, and a well-formed one
exactly when the row allows the fields. -/
structure RowAnswer (row : TableRow) (lv : Nat) (rd ra rb rc : Reg) (x : Except Reject Instr) : Prop where
  encode_eq : ∀ i, x = .ok i → encode i = cmdWord (.ofNat 6 row.op) (.ofNat 2 lv) rd ra rb rc
  legal : (∃ i, x = .ok i ∧ i.wellFormed = true) ↔ RowLegal row lv rd ra rb rc

section Answers

variable {row : TableRow} {lv : Nat} {rd ra rb rc : Reg}

/-- A field as the encoder fills it: zero when it is not used (R306). -/
def fieldOf (r : Reg) (n : Nat) : Reg := if n = 0 then 0 else r

theorem fieldOf_eq {l : List (Reg × Nat)} {r : Reg} {n : Nat} (h : (unusedFields l).all (· == 0) = true)
    (hmem : (r, n) ∈ l) : fieldOf r n = r := by
  rw [fieldOf]
  split
  next hn =>
    have hr : r ∈ unusedFields l := List.mem_map.mpr ⟨_, List.mem_filter.mpr ⟨hmem, beq_iff_eq.mpr hn⟩, rfl⟩
    exact (beq_iff_eq.mp (List.all_eq_true.mp h r hr)).symm
  next => rfl

theorem signBits_iff {r : Reg} : (r.extractLsb' 1 5 == 0) = true ↔ r.toNat < 2 := by
  revert r
  decide

theorem signField_getLsbD (r : Reg) (h : r.toNat < 2) : signField (r.getLsbD 0) = r := by
  revert r
  decide

/-- The map answers the command `i` when the check of the fields without an operand passes, and rejects the word otherwise. -/
theorem RowAnswer.ofCheck {check : Prop} [Decidable check] {i : Instr}
    (hlegal : RowLegal row lv rd ra rb rc ↔ check ∧ i.wellFormed = true)
    (henc : check → encode i = cmdWord (.ofNat 6 row.op) (.ofNat 2 lv) rd ra rb rc) :
    RowAnswer row lv rd ra rb rc (if check then .ok i else .error .unusedField) := by
  split
  case isTrue hcheck =>
    refine ⟨fun j hj => ?_, ⟨fun ⟨j, hj, hw⟩ => ?_, fun h => ⟨i, rfl, (hlegal.mp h).2⟩⟩⟩
    · cases hj
      exact henc hcheck
    · cases hj
      exact hlegal.mpr ⟨hcheck, hw⟩
  case isFalse hcheck => exact ⟨nofun, ⟨nofun, fun h => absurd (hlegal.mp h).1 hcheck⟩⟩

/-- The command `i` sits in the row at this level: its operands and its word are the row's. The hypotheses hold by
evaluation of the tables. -/
theorem RowAnswer.unused {fields : List Reg} {i : Instr}
    (hop : row.op ≠ 0x13 := by decide) (hlv : lv ∈ row.levels := by decide)
    (hfields : fields = unusedFields (slots row lv rd ra rb rc) := by rfl)
    (hops : i.operands = usedFields (slots row lv rd ra rb rc) := by rfl)
    (henc : encode i = cmdWord (.ofNat 6 row.op) (.ofNat 2 lv) (fieldOf rd (row.sizes lv).1) (fieldOf ra (row.sizes lv).2.1)
      (fieldOf rb (row.sizes lv).2.2.1) (fieldOf rc (row.sizes lv).2.2.2) := by rfl) :
    RowAnswer row lv rd ra rb rc (unused fields i) := by
  refine .ofCheck ?_ fun hzero => ?_
  · rw [RowLegal, forall_fieldLegal_iff, ← hfields, ← hops, Instr.wellFormed]
    simp [hlv, hop]
  · rw [hfields] at hzero
    rw [henc, fieldOf_eq hzero (by simp [slots]), fieldOf_eq hzero (by simp [slots]), fieldOf_eq hzero (by simp [slots]),
      fieldOf_eq hzero (by simp [slots, hop])]

/-- The same for `pmul`, whose field `RC` is the sign (R304). -/
theorem RowAnswer.signed {mk : Bool → Instr}
    (hop : row.op = 0x13 := by rfl) (hlv : lv ∈ row.levels := by decide)
    (hfields : unusedFields (slots row lv rd ra rb rc) = [] := by rfl)
    (hops : ∀ sn, (mk sn).operands = usedFields (slots row lv rd ra rb rc) := by exact fun _ => rfl)
    (henc : ∀ sn, encode (mk sn) = cmdWord (.ofNat 6 row.op) (.ofNat 2 lv) rd ra rb (signField sn) := by
      exact fun _ => rfl) :
    RowAnswer row lv rd ra rb rc (signed rc mk) := by
  refine .ofCheck ?_ fun hbits => ?_
  · rw [RowLegal, forall_fieldLegal_iff, hfields, ← hops (rc.getLsbD 0), Instr.wellFormed, signBits_iff]
    simp [hlv, hop, and_comm]
  · rw [henc, signField_getLsbD rc (signBits_iff.mp hbits)]

/-- A level code that the row does not have (R305 step 2). -/
theorem RowAnswer.noLevel (hlv : lv ∉ row.levels := by decide) : RowAnswer row lv rd ra rb rc noLevel :=
  ⟨nofun, ⟨nofun, fun h => absurd h.1 hlv⟩⟩

theorem RowAnswer.byLevel {l1 l2 l6 l12 : Except Reject Instr} (hlv : lv < 4) (h1 : RowAnswer row 0 rd ra rb rc l1)
    (h2 : RowAnswer row 1 rd ra rb rc l2) (h6 : RowAnswer row 2 rd ra rb rc l6) (h12 : RowAnswer row 3 rd ra rb rc l12) :
    RowAnswer row lv rd ra rb rc (byLevel lv l1 l2 l6 l12) :=
  match lv with
  | 0 => h1
  | 1 => h2
  | 2 => h6
  | 3 => h12
  | _ + 4 => absurd hlv (by omega)

end Answers

/-- The answer of the opcode map by the row of the word's operation: no command without a row (R305 step 1). -/
inductive MapAnswer (op lv : Nat) (rd ra rb rc : Reg) (x : Except Reject Instr) : Prop
  | reserved (hrow : tableRow op = none) (hx : x = .error .reservedOp)
  | row (row : TableRow) (hrow : tableRow op = some row) (hx : RowAnswer row lv rd ra rb rc x)

/-- The opcode map follows the tables, row by row. -/
theorem selectCommand_answer (op : Nat) {lv : Nat} (hlv : lv < 4) (rd ra rb rc : Reg) :
    MapAnswer op lv rd ra rb rc (selectCommand op lv rd ra rb rc) := by
  unfold selectCommand
  split
  -- 0x01 to 0x08, 0x0A, 0x0B: the field commands of every level
  case h_1 | h_2 | h_3 | h_4 | h_5 | h_6 | h_7 | h_8 | h_10 | h_11 =>
    exact .row _ rfl (.byLevel hlv .unused .unused .unused .unused)
  -- 0x09: `fmulnr`
  case h_9 => exact .row _ rfl (.byLevel hlv .noLevel .unused .unused .unused)
  -- 0x10 to 0x12, 0x14, 0x15: the point commands, which have no level 6
  case h_12 | h_13 | h_14 | h_16 | h_17 => exact .row _ rfl (.byLevel hlv .unused .unused .noLevel .unused)
  -- 0x13: `pmul`
  case h_15 => exact .row _ rfl (.byLevel hlv .signed .signed .noLevel .signed)
  -- 0x20 to 0x25: the pairing engine
  case h_18 | h_19 | h_20 | h_21 | h_22 | h_23 => exact .row _ rfl (.byLevel hlv .unused .noLevel .noLevel .noLevel)
  -- 0x30 to 0x32: square roots and encodings
  case h_24 | h_25 | h_26 => exact .row _ rfl (.byLevel hlv .unused .unused .noLevel .noLevel)
  case h_27 => exact .reserved (by simp_all [tableRow, table]) rfl

/-! ## Decoding and encoding -/

theorem decode_eq_some_iff_selectCommand {c : CmdWord} {i : Instr} : decode c = some i ↔
    selectCommand (opOf c).toNat (lvOf c).toNat (rdOf c) (raOf c) (rbOf c) (rcOf c) = .ok i ∧ i.wellFormed = true := by
  rw [decode, decodeCommand]
  cases selectCommand (opOf c).toNat (lvOf c).toNat (rdOf c) (raOf c) (rbOf c) (rcOf c) with
  | error e => exact ⟨nofun, nofun⟩
  | ok j => cases hw : j.wellFormed <;> grind

/-- Decoding is the inverse of encoding on the well-formed commands, in both directions (R305, R306). -/
theorem decode_eq_some_iff {c : CmdWord} {i : Instr} : decode c = some i ↔ encode i = c ∧ i.wellFormed = true := by
  constructor
  · intro h
    obtain ⟨hsel, hw⟩ := decode_eq_some_iff_selectCommand.mp h
    refine ⟨?_, hw⟩
    cases selectCommand_answer (opOf c).toNat (lvOf c).isLt (rdOf c) (raOf c) (rbOf c) (rcOf c) with
    | reserved _ hx => cases hsel.symm.trans hx
    | row row hrow hx =>
      rw [hx.encode_eq i hsel, (tableRow_eq_some_iff.mp hrow).2, BitVec.ofNat_toNat, BitVec.ofNat_toNat,
        BitVec.setWidth_eq, BitVec.setWidth_eq, cmdWord_fields]
  · rintro ⟨rfl, hw⟩
    exact decode_encode hw

/-- Settles O1: the round trip of the encoder, through the opcode map at the command's own fields. -/
theorem decodeEncode : Obligations.DecodeEncode := fun _ hw => decode_encode hw

/-- Settles O2: the answer of the opcode map has the word's own fields. -/
theorem legalWordIsUnique : Obligations.LegalWordIsUnique := fun _ _ h => decode_eq_some_iff.mp h

/-- Settles O3: the opcode map answers a well-formed command exactly when the row of the operation allows the fields. -/
theorem decodesIffLegal : Obligations.DecodesIffLegal := by
  intro c
  rw [Option.isSome_iff_exists, legalWord_iff]
  simp only [decode_eq_some_iff_selectCommand]
  cases selectCommand_answer (opOf c).toNat (lvOf c).isLt (rdOf c) (raOf c) (rbOf c) (rcOf c) with
  | reserved hrow hx =>
    rw [hrow, hx]
    exact ⟨nofun, nofun⟩
  | row row hrow hx =>
    rw [hx.legal, hrow]
    simp

/-- Settles O4: each command is well formed and encodes to its word; the two other words have no row and no level. -/
theorem specWordsDecode : Obligations.SpecWordsDecode := by
  unfold Obligations.SpecWordsDecode
  simp only [decode_eq_some_iff]
  decide

end Sys2Proof.Proofs
end

section
/-! From the rule of a command to what the command leaves: its word (30_encoding.md R300 to R306), its operands inside the
register file (R307), the completion of its rule (10_state.md R114), and the rules of the element commands on elements in
range. -/

namespace Sys2Proof.Proofs

open Sys2Proof.Machine
open Sys2Proof.Reference
open Sys2Proof.Laws

/-! ## A word from the numbers of its fields (R300) -/

theorem toNat_commandWord {op lv : Nat} (hop : op < 64) (hlv : lv < 4) (rd ra rb rc : Reg) :
    (commandWord op lv rd ra rb rc).toNat =
      op * 2 ^ 26 + lv * 2 ^ 24 + rd.toNat * 2 ^ 18 + ra.toNat * 2 ^ 12 + rb.toNat * 2 ^ 6 + rc.toNat := by
  rw [commandWord, BitVec.toNat_ofNat, Nat.mod_eq_of_lt]
  omega

theorem commandWord_eq_cmdWord {op lv : Nat} (hop : op < 64) (hlv : lv < 4) (rd ra rb rc : Reg) :
    commandWord op lv rd ra rb rc = cmdWord (.ofNat 6 op) (.ofNat 2 lv) rd ra rb rc := by
  have hc := toNat_commandWord hop hlv rd ra rb rc
  rw [← cmdWord_fields (commandWord op lv rd ra rb rc)]
  congr 1 <;> apply BitVec.eq_of_toNat_eq
  · rw [toNat_opOf, hc, BitVec.toNat_ofNat]; omega
  · rw [toNat_lvOf, hc, BitVec.toNat_ofNat]; omega
  · rw [toNat_rdOf, hc]; omega
  · rw [toNat_raOf, hc]; omega
  · rw [toNat_rbOf, hc]; omega
  · rw [toNat_rcOf, hc]; omega

/-! ## The row of a command -/

/-- The command `i` is the one of these six fields, with these operands and this rule. The facts hold by evaluation of the
tables of the model. -/
structure CommandRow (i : Instr) (op lv : Nat) (rd ra rb rc : Reg) (ops : List (Reg × Nat)) (rule : Regs → Res Effect) :
    Prop where
  op_lt : op < 64 := by decide
  lv_lt : lv < 4 := by decide
  encode_eq : encode i = cmdWord (.ofNat 6 op) (.ofNat 2 lv) rd ra rb rc := by rfl
  operands_eq : i.operands = ops := by rfl
  rule_eq : ruleOf i = rule := by rfl

section Row

variable {i : Instr} {op lv : Nat} {rd ra rb rc : Reg} {ops : List (Reg × Nat)} {rule : Regs → Res Effect}

theorem CommandRow.wellFormed (h : CommandRow i op lv rd ra rb rc ops rule) (hops : ∀ o ∈ ops, o.1.toNat + o.2 ≤ 64) :
    i.wellFormed = true := by
  rw [Instr.wellFormed, h.operands_eq, List.all_eq_true]
  exact fun o ho => decide_eq_true (hops o ho)

/-- A command with its operands inside the register file completes its rule. -/
theorem CommandRow.exec_eq (h : CommandRow i op lv rd ra rb rc ops rule) (hops : ∀ o ∈ ops, o.1.toNat + o.2 ≤ 64)
    (s : State) : exec i s = .next (complete s (rule s.w)) := by
  rw [exec_wellFormed i s (h.wellFormed hops), h.rule_eq]

theorem CommandRow.completes (h : CommandRow i op lv rd ra rb rc ops rule) (hops : ∀ o ∈ ops, o.1.toNat + o.2 ≤ 64)
    {s : State} {post : State → Prop} (hpost : post (complete s (rule s.w))) :
    Completes (commandWord op lv rd ra rb rc) i s post := by
  refine ⟨?_, _, h.exec_eq hops s, hpost⟩
  rw [commandWord_eq_cmdWord h.op_lt h.lv_lt, ← h.encode_eq]
  exact decode_encode (h.wellFormed hops)

end Row

/-! ## The rules of the element commands -/

section Rules

variable {α β : Type} [AddCommGroup β] {L : Level α} {T : Tower β} {f : α → β} {s : State} {rd ra rb : Reg}

theorem wrote_wrF (link : Link L T f) (s : State) (h : rd.toNat + T.size ≤ 64) (a : α) :
    Wrote s (complete s (.ok (wrF L rd a))) rd.toNat (wordsOf T (f a)) := by
  rw [← elemWords_toNat link]
  exact wrote_of_regs s rd.toNat (elemWords L a) (by rwa [elemWords_length link])

theorem unaryRule_ok {w : Regs} {a : α} (g : α → Res α) (ha : rdF L w ra.toNat = .ok a) :
    unaryRule L g rd ra w = (g a >>= fun c => .ok (wrF L rd c)) := by
  rw [unaryRule, ha]; rfl

theorem binaryRule_ok {w : Regs} {a b : α} (g : α → α → α) (ha : rdF L w ra.toNat = .ok a)
    (hb : rdF L w rb.toNat = .ok b) : binaryRule L g rd ra rb w = .ok (wrF L rd (g a b)) := by
  rw [binaryRule, ha, hb]; rfl

theorem powRule_ok {w : Regs} {a : α} (ha : rdF L w ra.toNat = .ok a) :
    powRule L rd ra rb w = .ok (wrF L rd (Machine.pow L a (rdScalar w rb.toNat))) := by
  rw [powRule, ha]; rfl

theorem eqRule_ok [DecidableEq α] {w : Regs} {a b : α} (ha : rdF L w ra.toNat = .ok a)
    (hb : rdF L w rb.toNat = .ok b) : eqRule L ra rb w = .ok (.flag (decide (a = b))) := by
  rw [eqRule, ha, hb]; rfl

theorem isOneRule_ok [DecidableEq α] {w : Regs} {a : α} (ha : rdF L w ra.toNat = .ok a) :
    isOneRule L ra w = .ok (.flag (decide (a = L.one))) := by
  rw [isOneRule, ha]; rfl

end Rules

end Sys2Proof.Proofs
end

section
/-! The field commands at the four levels (40_field_fp.md to 43_field_fp12.md). Each shape of command is settled once for a
machine level `L` that is the reference level `T` (`Link`), and each statement is that lemma at its commands. -/

namespace Sys2Proof.Proofs

open Sys2Proof.Machine
open Sys2Proof.Reference
open Sys2Proof.Laws
open Sys2Proof.Config (p)

/-! ## The coefficients of an element -/

/-- An element of a level is its coefficients; sum, difference and one are coefficient by coefficient (00_scope.md R11). -/
structure Coefficients {β : Type} [AddCommGroup β] (T : Tower β) : Prop where
  flat_injective : Function.Injective T.flat
  flat_ofWords : ∀ g, T.flat (T.ofWords g) = (List.range T.size).map g
  add : ∀ g h, T.ofWords g + T.ofWords h = T.ofWords fun k => g k + h k
  sub : ∀ g h, T.ofWords g - T.ofWords h = T.ofWords fun k => g k - h k
  one : T.one = T.ofWords fun k => if k = 0 then 1 else 0

theorem flat2_injective : Function.Injective flat2 := fun a b h => by
  simp only [flat2, List.cons.injEq, and_true] at h
  exact Prod.ext_iff.mpr h

theorem flat6_injective : Function.Injective flat6 := fun a b h => by
  obtain ⟨h01, h2⟩ := List.append_inj h rfl
  obtain ⟨h0, h1⟩ := List.append_inj h01 rfl
  exact Prod.ext (flat2_injective h0) (Prod.ext (flat2_injective h1) (flat2_injective h2))

theorem flat12_injective : Function.Injective flat12 := fun a b h => by
  obtain ⟨h0, h1⟩ := List.append_inj h rfl
  exact Prod.ext (flat6_injective h0) (flat6_injective h1)

theorem coefficients1 : Coefficients T1 where
  flat_injective _ _ h := List.head_eq_of_cons_eq h
  flat_ofWords _ := rfl
  add _ _ := rfl
  sub _ _ := rfl
  one := rfl

theorem coefficients2 : Coefficients T2 where
  flat_injective := flat2_injective
  flat_ofWords _ := rfl
  add _ _ := rfl
  sub _ _ := rfl
  one := rfl

theorem coefficients6 : Coefficients T6 where
  flat_injective := flat6_injective
  flat_ofWords _ := rfl
  add _ _ := rfl
  sub _ _ := rfl
  one := rfl

theorem coefficients12 : Coefficients T12 where
  flat_injective := flat12_injective
  flat_ofWords _ := rfl
  add _ _ := rfl
  sub _ _ := rfl
  one := rfl

theorem natCast_inj_of_lt {m n : Nat} (hm : m < p) (hn : n < p) : (m : F) = n ↔ m = n := by
  rw [ZMod.natCast_eq_natCast_iff', Nat.mod_eq_of_lt hm, Nat.mod_eq_of_lt hn]

theorem val_natCast_sub (m n : Nat) : ((m : F) - (n : F)).val = (((m : Int) - n) % p).toNat := by
  have : NeZero p := ⟨by decide⟩
  have hval := ZMod.val_intCast (n := p) ((m : Int) - n)
  rw [Int.cast_sub, Int.cast_natCast, Int.cast_natCast] at hval
  rw [← hval, Int.toNat_natCast]

section Gives

variable {α β : Type} [AddCommGroup β] {L : Level α} {T : Tower β} {f : α → β} {op lv : Nat}

theorem Coefficients.wordsOf_ofWords (coeff : Coefficients T) (g : Nat → F) :
    wordsOf T (T.ofWords g) = (List.range T.size).map fun k => (g k).val := by
  rw [wordsOf, coeff.flat_ofWords, List.map_map]
  rfl

theorem Coefficients.ofWords_eq_iff (coeff : Coefficients T) (g h : Nat → F) :
    T.ofWords g = T.ofWords h ↔ ∀ k < T.size, g k = h k := by
  rw [← coeff.flat_injective.eq_iff, coeff.flat_ofWords, coeff.flat_ofWords, List.map_inj_left]
  simp only [List.mem_range]

/-- Two elements in range are equal exactly when their words are. -/
theorem Coefficients.elemAt_eq_iff (coeff : Coefficients T) {s : State} {b c : Nat} (hb : ElemOk s b T.size)
    (hc : ElemOk s c T.size) :
    elemAt T s b = elemAt T s c ↔ ∀ k < T.size, wval s (b + k) = wval s (c + k) := by
  rw [elemAt, elemAt, coeff.ofWords_eq_iff]
  exact forall₂_congr fun k hk => natCast_inj_of_lt (hb.2 k hk) (hc.2 k hk)

/-- An element in range is one exactly when its words are 1, 0, .., 0. -/
theorem Coefficients.elemAt_eq_one_iff (coeff : Coefficients T) {s : State} {b : Nat} (hb : ElemOk s b T.size) :
    elemAt T s b = T.one ↔ ∀ k < T.size, wval s (b + k) = if k = 0 then 1 else 0 := by
  rw [coeff.one, elemAt, coeff.ofWords_eq_iff]
  refine forall₂_congr fun k hk => ?_
  rw [← natCast_inj_of_lt (hb.2 k hk) (by split <;> decide), Nat.cast_ite, Nat.cast_one, Nat.cast_zero]

theorem Coefficients.wordsOf_add (coeff : Coefficients T) (x y : Nat → Nat) :
    wordsOf T ((T.ofWords fun k => (x k : F)) + T.ofWords fun k => (y k : F)) =
      (List.range T.size).map fun k => (x k + y k) % p := by
  simp only [coeff.add, coeff.wordsOf_ofWords, ← Nat.cast_add, ZMod.val_natCast]

theorem Coefficients.wordsOf_sub (coeff : Coefficients T) (x y : Nat → Nat) :
    wordsOf T ((T.ofWords fun k => (x k : F)) - T.ofWords fun k => (y k : F)) =
      (List.range T.size).map fun k => (((x k : Int) - y k) % p).toNat := by
  simp only [coeff.sub, coeff.wordsOf_ofWords, val_natCast_sub]

/-! ## Each shape of command, once for every level -/

theorem constantGives (link : Link L T f) {c : α} {vs : List Nat} {mk : Reg → Instr}
    (row : ∀ rd, CommandRow (mk rd) op lv rd 0 0 0 [(rd, T.size)] (constRule L c rd))
    (hvs : (L.flat c).map Fin.val = vs) : ConstantGives op lv mk vs := by
  intro s rd hd
  have hwords : wordsOf T (f c) = vs := by
    simp only [wordsOf, link.flat, List.map_map, ← hvs, Function.comp_def, val_toF]
  have hsize : vs.length = T.size := by rw [← hvs, List.length_map, link.length]
  rw [hsize] at hd
  refine (row rd).completes (by simpa using hd) ?_
  rw [← hwords]
  exact wrote_wrF link s hd c

theorem unaryGives (link : Link L T f) {h : α → α} {g : β → β} {mk : Reg → Reg → Instr}
    (row : ∀ rd ra, CommandRow (mk rd ra) op lv rd ra 0 0 [(rd, T.size), (ra, T.size)]
      (unaryRule L (fun a => .ok (h a)) rd ra))
    (hg : ∀ a, f (h a) = g (f a)) : UnaryGives T op lv mk g := by
  intro s rd ra hd ⟨hra, hlt⟩
  obtain ⟨a, ha, hfa⟩ := rdF_ok link s ra.toNat hlt
  refine (row rd ra).completes (by simpa using ⟨hd, hra⟩) ?_
  rw [unaryRule_ok _ ha, ok_bind, ← hfa, ← hg]
  exact wrote_wrF link s hd (h a)

theorem binaryGives (link : Link L T f) {h : α → α → α} {g : β → β → β} {mk : Reg → Reg → Reg → Instr}
    (row : ∀ rd ra rb, CommandRow (mk rd ra rb) op lv rd ra rb 0 [(rd, T.size), (ra, T.size), (rb, T.size)]
      (binaryRule L h rd ra rb))
    (hg : ∀ a b, f (h a b) = g (f a) (f b)) : BinaryGives T op lv mk g := by
  intro s rd ra rb hd ⟨hra, hlta⟩ ⟨hrb, hltb⟩
  obtain ⟨a, ha, hfa⟩ := rdF_ok link s ra.toNat hlta
  obtain ⟨b, hb, hfb⟩ := rdF_ok link s rb.toNat hltb
  refine (row rd ra rb).completes (by simpa using ⟨hd, hra, hrb⟩) ?_
  rw [binaryRule_ok _ ha hb, ← hfa, ← hfb, ← hg]
  exact wrote_wrF link s hd (h a b)

omit [AddCommGroup β] in
/-- A command that computes a reference operation is wordwise when that operation is, on coefficients. -/
theorem wordwiseGives_of_binaryGives {g : β → β → β} {word : Nat → Nat → Nat} {mk : Reg → Reg → Reg → Instr}
    (hmk : BinaryGives T op lv mk g)
    (hword : ∀ x y : Nat → Nat, wordsOf T (g (T.ofWords fun k => (x k : F)) (T.ofWords fun k => (y k : F))) =
      (List.range T.size).map fun k => word (x k) (y k)) : WordwiseGives T.size op lv mk word := by
  intro s rd ra rb hd ha hb
  rw [← hword]
  exact hmk s rd ra rb hd ha hb

theorem addGives (link : Link L T f) (coeff : Coefficients T) {mk : Reg → Reg → Reg → Instr}
    (row : ∀ rd ra rb, CommandRow (mk rd ra rb) op lv rd ra rb 0 [(rd, T.size), (ra, T.size), (rb, T.size)]
      (binaryRule L L.add rd ra rb)) : WordwiseGives T.size op lv mk fun a b => (a + b) % p :=
  wordwiseGives_of_binaryGives (binaryGives link row link.add) coeff.wordsOf_add

theorem subGives (link : Link L T f) (coeff : Coefficients T) {mk : Reg → Reg → Reg → Instr}
    (row : ∀ rd ra rb, CommandRow (mk rd ra rb) op lv rd ra rb 0 [(rd, T.size), (ra, T.size), (rb, T.size)]
      (binaryRule L L.sub rd ra rb)) : WordwiseGives T.size op lv mk fun a b => (((a : Int) - b) % p).toNat :=
  wordwiseGives_of_binaryGives (binaryGives link row link.sub) coeff.wordsOf_sub

/-- `finv`: a nonzero source has an inverse in the tower, and at zero the machine's inverse raises. -/
theorem inverseGives (link : Link L T f) (inverse : HasInverse L T f) {mk : Reg → Reg → Instr}
    (row : ∀ rd ra, CommandRow (mk rd ra) 0x07 lv rd ra 0 0 [(rd, T.size), (ra, T.size)] (unaryRule L L.inv rd ra)) :
    InverseGives T lv mk := by
  intro s rd ra hd ⟨hra, hlt⟩
  obtain ⟨a, ha, hfa⟩ := rdF_ok link s ra.toNat hlt
  have hops : ∀ o ∈ [(rd, T.size), (ra, T.size)], o.1.toNat + o.2 ≤ 64 := by simpa using ⟨hd, hra⟩
  rw [← hfa]
  constructor
  · intro hne
    obtain ⟨c, hc, hmul⟩ := inverse.ne a hne
    refine (row rd ra).completes hops ⟨f c, hmul, ?_⟩
    rw [unaryRule_ok _ ha, hc, ok_bind]
    exact wrote_wrF link s hd c
  · intro hzero
    refine ⟨_, (row rd ra).exec_eq hops s, ?_⟩
    rw [unaryRule_ok _ ha, inverse.zero a hzero, error_bind]
    exact raised_of_error s .inverseOfZero

theorem powerGives (link : Link L T f) {mk : Reg → Reg → Reg → Instr}
    (row : ∀ rd ra rb, CommandRow (mk rd ra rb) 0x08 lv rd ra rb 0 [(rd, T.size), (ra, T.size), (rb, 1)]
      (powRule L rd ra rb)) : PowerGives T lv mk := by
  intro s rd ra rb hd ⟨hra, hlt⟩
  obtain ⟨a, ha, hfa⟩ := rdF_ok link s ra.toNat hlt
  refine (row rd ra rb).completes (by simpa using ⟨hd, hra, rb.isLt⟩) ?_
  rw [powRule_ok ha, ← hfa, wval, ← rdScalar, ← pow_eq_power link]
  exact wrote_wrF link s hd _

theorem equalityGives [DecidableEq α] (link : Link L T f) (coeff : Coefficients T) {mk : Reg → Reg → Instr}
    (row : ∀ ra rb, CommandRow (mk ra rb) 0x0A lv 0 ra rb 0 [(ra, T.size), (rb, T.size)] (eqRule L ra rb)) :
    EqualityGives T.size lv mk := by
  intro s ra rb hra hrb
  obtain ⟨a, ha, hfa⟩ := rdF_ok link s ra.toNat hra.2
  obtain ⟨b, hb, hfb⟩ := rdF_ok link s rb.toNat hrb.2
  refine (row ra rb).completes (by simpa using ⟨hra.1, hrb.1⟩) ⟨decide (a = b), ?_, ?_⟩
  · rw [eqRule_ok ha hb]
    exact flagged_of_flag s _
  · rw [decide_eq_true_iff, ← link.injective.eq_iff, hfa, hfb, coeff.elemAt_eq_iff hra hrb]

theorem isOneGives [DecidableEq α] (link : Link L T f) (coeff : Coefficients T) {mk : Reg → Instr}
    (row : ∀ ra, CommandRow (mk ra) 0x0B lv 0 ra 0 0 [(ra, T.size)] (isOneRule L ra)) : IsOneGives T.size lv mk := by
  intro s ra hra
  obtain ⟨a, ha, hfa⟩ := rdF_ok link s ra.toNat hra.2
  refine (row ra).completes (by simpa using hra.1) ⟨decide (a = L.one), ?_, ?_⟩
  · rw [isOneRule_ok ha]
    exact flagged_of_flag s _
  · rw [decide_eq_true_iff, ← link.injective.eq_iff, hfa, link.one, coeff.elemAt_eq_one_iff hra]

end Gives

/-! ## The commands -/

/-- Settles O26: the coefficients of zero and one, evaluated. -/
theorem identitiesWritten : Obligations.IdentitiesWritten :=
  ⟨constantGives link1 (fun _ => {}) rfl, constantGives link2 (fun _ => {}) rfl,
    constantGives link6 (fun _ => {}) rfl, constantGives link12 (fun _ => {}) rfl,
    constantGives link1 (fun _ => {}) rfl, constantGives link2 (fun _ => {}) rfl,
    constantGives link6 (fun _ => {}) rfl, constantGives link12 (fun _ => {}) rfl⟩

/-- Settles O27: sum and difference of the tower are coefficient by coefficient. -/
theorem addSubAreWordwise : Obligations.AddSubAreWordwise :=
  ⟨addGives link1 coefficients1 fun _ _ _ => {}, addGives link2 coefficients2 fun _ _ _ => {},
    addGives link6 coefficients6 fun _ _ _ => {}, addGives link12 coefficients12 fun _ _ _ => {},
    subGives link1 coefficients1 fun _ _ _ => {}, subGives link2 coefficients2 fun _ _ _ => {},
    subGives link6 coefficients6 fun _ _ _ => {}, subGives link12 coefficients12 fun _ _ _ => {}⟩

/-- Settles O28: the machine's negation is that of the tower at each level. -/
theorem negGives : Obligations.NegGives :=
  ⟨unaryGives link1 (fun _ _ => {}) toF_neg, unaryGives link2 (fun _ _ => {}) toF2_neg,
    unaryGives link6 (fun _ _ => {}) toF6_neg, unaryGives link12 (fun _ _ => {}) toF12_neg⟩

/-- Settles O29: the machine's product is that of the tower at each level, at level 6 by `toF6_mul`. -/
theorem mulGives : Obligations.MulGives :=
  ⟨binaryGives link1 (fun _ _ _ => {}) toF_mul, binaryGives link2 (fun _ _ _ => {}) toF2_mul,
    binaryGives link6 (fun _ _ _ => {}) toF6_mul, binaryGives link12 (fun _ _ _ => {}) toF12_mul⟩

/-- Settles O30: every nonzero element of the tower has an inverse. -/
theorem inverseGivesOrRaises : Obligations.InverseGivesOrRaises :=
  ⟨inverseGives link1 inverse1 fun _ _ => {}, inverseGives link2 inverse2 fun _ _ => {},
    inverseGives link6 inverse6 fun _ _ => {}, inverseGives link12 inverse12 fun _ _ => {}⟩

/-- Settles O31: the loop of R409 is repeated multiplication at each level. -/
theorem powerIsRepeatedMultiplication : Obligations.PowerIsRepeatedMultiplication :=
  ⟨powerGives link1 fun _ _ _ => {}, powerGives link2 fun _ _ _ => {},
    powerGives link6 fun _ _ _ => {}, powerGives link12 fun _ _ _ => {}⟩

/-- Settles O34: elements in range are equal, or one, exactly when their words say so. -/
theorem comparisonSetsFlag : Obligations.ComparisonSetsFlag :=
  ⟨equalityGives link1 coefficients1 fun _ _ => {}, equalityGives link2 coefficients2 fun _ _ => {},
    equalityGives link6 coefficients6 fun _ _ => {}, equalityGives link12 coefficients12 fun _ _ => {},
    isOneGives link1 coefficients1 fun _ => {}, isOneGives link2 coefficients2 fun _ => {},
    isOneGives link6 coefficients6 fun _ => {}, isOneGives link12 coefficients12 fun _ => {}⟩

end Sys2Proof.Proofs
end

section
/-! The products with the non-residues of the tower (41_field_fp2.md R429, 42_field_fp6.md R449): at levels 2 and 6 the
machine's rearrangement of the coefficients is the product with the element that the next level adjoins a root of. -/

namespace Sys2Proof.Proofs

open Sys2Proof.Machine
open Sys2Proof.Reference
open Sys2Proof.Laws

/-- The product with the element `u + 1`, whose coefficients are both one. -/
theorem mul2_u_add_one (a : F2) : mul2 a (1, 1) = timesNr a := by
  simp only [mul2, timesNr, mul_one]

/-- The product with the element `v` shifts the coefficients; the top one wraps round by `v^3 = u + 1`. -/
theorem mul6_v (a : F6) : mul6 a (0, (1, 0), 0) = timesV a := by
  simp only [mul6, timesV, mul2_one, mul2_zero, zero_add, add_zero, timesNr_zero]

theorem toF2_mulNr_eq_mul2 (a : Fp2) : toF2 (fp2MulNr a) = mul2 (toF2 a) (1, 1) := by
  rw [toF2_mulNr, mul2_u_add_one]

theorem toF6_mulNr_eq_mul6 (a : Fp6) : toF6 (fp6MulNr a) = mul6 (toF6 a) (0, (1, 0), 0) := by
  rw [toF6_mulNr, mul6_v]

/-- Settles O32: each command is a unary command whose function is the product with the non-residue of its level. -/
theorem nonResidueGives : Obligations.NonResidueGives :=
  ⟨unaryGives link2 (fun _ _ => {}) toF2_mulNr_eq_mul2, unaryGives link6 (fun _ _ => {}) toF6_mulNr_eq_mul6⟩

end Sys2Proof.Proofs
end

section
/-! The product with a non-residue at level 12 (43_field_fp12.md R469): the tower ends there, so the command has no result and
raises UndefinedOperation (60_exceptions.md R607), after the read of its operand. -/

namespace Sys2Proof.Proofs

open Sys2Proof.Machine
open Sys2Proof.Reference
open Sys2Proof.Laws

/-- A unary command whose function fails at the element it read ends with that error. -/
theorem unaryRule_error {α : Type} {L : Level α} {w : Regs} {rd ra : Reg} {a : α} {g : α → Res α} {e : Err}
    (ha : rdF L w ra.toNat = .ok a) (hg : g a = .error e) : unaryRule L g rd ra w = .error e := by
  rw [unaryRule_ok g ha, hg, error_bind]

/-- Settles O33: an operand in range is read, so the only error left is the one the command's function always answers. -/
theorem nonResidueTwelveRaises : Obligations.NonResidueTwelveRaises := by
  intro s rd ra hd ⟨hra, hlt⟩
  obtain ⟨a, ha, -⟩ := rdF_ok link12 s ra.toNat hlt
  have row : CommandRow (.fmulnr12 rd ra) 0x09 3 rd ra 0 0 [(rd, 12), (ra, 12)]
      (unaryRule lv12 (fun _ => .error .undefinedOperation) rd ra) := {}
  refine row.completes (by simpa using And.intro hd hra) ?_
  rw [unaryRule_error ha rfl]
  exact raised_of_error s .undefinedOperation

end Sys2Proof.Proofs
end

section
/-! The point commands at the three levels (44_curve_point.md R502 to R529). A command whose computation is a relation of the
reference completes with what the relation gives and raises InverseOfZero when it gives nothing; each shape of command is
that fact at its rule, once for a machine level linked to its reference level. -/

namespace Sys2Proof.Proofs

open Sys2Proof.Machine
open Sys2Proof.Reference
open Sys2Proof.Laws

/-! ## From a computation to the command -/

theorem completes_mono {c : CmdWord} {i : Instr} {s : State} {post post' : State → Prop} (h : Completes c i s post)
    (himp : ∀ t, post t → post' t) : Completes c i s post' := by
  obtain ⟨hdecode, t, hexec, hpost⟩ := h
  exact ⟨hdecode, t, hexec, himp t hpost⟩

/-- A command whose rule writes what a computation `x` gives, where `x` is the relation `rel` through `g` and raises
InverseOfZero only: it completes for every result of `rel`, and raises when there is none. -/
theorem completes_or_raises {γ δ : Type} {x : Res γ} {out : γ → Effect} {g : γ → δ} {rel : δ → Prop}
    {post : δ → State → Prop} {i : Instr} {op lv : Nat} {rd ra rb rc : Reg} {ops : List (Reg × Nat)}
    {rule : Regs → Res Effect} {s : State} (row : CommandRow i op lv rd ra rb rc ops rule)
    (hops : ∀ o ∈ ops, o.1.toNat + o.2 ≤ 64) (hrule : rule s.w = (x >>= fun a => .ok (out a)))
    (hrel : ∀ R, rel R ↔ ∃ a, x = .ok a ∧ g a = R) (hraises : RaisesOnly [9] x)
    (hpost : ∀ a, post (g a) (complete s (.ok (out a)))) :
    (∀ R, rel R → Completes (commandWord op lv rd ra rb rc) i s (post R)) ∧
      ((¬∃ R, rel R) → ∃ t, exec i s = .next t ∧ Raised s t 9) := by
  constructor
  · intro R hR
    obtain ⟨a, ha, rfl⟩ := (hrel R).mp hR
    refine row.completes hops ?_
    rw [hrule, ha, ok_bind]
    exact hpost a
  · intro hnone
    cases hx : x with
    | ok a => exact absurd ⟨g a, (hrel _).mpr ⟨a, hx, rfl⟩⟩ hnone
    | error e =>
      have hcode : e.code.toNat = 9 := List.mem_singleton.mp (hraises e hx)
      refine ⟨_, row.exec_eq hops s, ?_⟩
      rw [hrule, hx, error_bind, ← hcode]
      exact raised_of_error s e

section Points

variable {α β : Type} [AddCommGroup β] {L : Level α} {T : Tower β} {f : α → β} {s : State} {rd ra rb : Reg} {w : Regs}
  {P Q : Point α} {lv : Nat}

/-! ## The rules on readable points -/

theorem wrote_wrPt (link : Link L T f) (s : State) (h : rd.toNat + (2 * T.size + 1) ≤ 64) (P : Point α) :
    Wrote s (complete s (.ok (wrPt L rd P))) rd.toNat (wordsOfPoint T (mapPoint f P)) := by
  rw [← pointWords_toNat link]
  exact wrote_of_regs s rd.toNat (pointWords L P) (by rwa [pointWords_length link])

theorem pdblRule_ok (hP : rdPt L w ra.toNat = .ok P) :
    pdblRule L rd ra w = (dblPoint L P >>= fun D => .ok (wrPt L rd D)) := by
  rw [pdblRule, hP]; rfl

theorem pnegRule_ok (hP : rdPt L w ra.toNat = .ok P) : pnegRule L rd ra w = .ok (wrPt L rd (negPoint L P)) := by
  rw [pnegRule, hP]; rfl

section Rules

variable [DecidableEq α]

theorem paddRule_ok (hP : rdPt L w ra.toNat = .ok P) (hQ : rdPt L w rb.toNat = .ok Q) :
    paddRule L rd ra rb w = (addPoint L P Q >>= fun S => .ok (wrPt L rd S)) := by
  rw [paddRule, hP, hQ]; rfl

theorem pmulRule_ok (sn : Bool) (hP : rdPt L w rb.toNat = .ok P) :
    pmulRule L rd ra rb sn w = (mulPoint L (rdScalar w ra.toNat) sn P >>= fun M => .ok (wrPt L rd M)) := by
  rw [pmulRule, hP]; rfl

theorem poncurveRule_ok (b : α) (hP : rdPt L w ra.toNat = .ok P) :
    poncurveRule L b ra w = .ok (.flag (onCurve L b P)) := by
  rw [poncurveRule, hP]; rfl

/-- The subgroup test writes the infinity flag of the multiple by the subgroup order (R511). -/
theorem pinsubgrpRule_ok (hP : rdPt L w ra.toNat = .ok P) :
    pinsubgrpRule L ra w = (mulPoint L Config.r false P >>= fun M => .ok (.flag M.inf)) := by
  rw [pinsubgrpRule, hP, ok_bind, inSubgroup]
  cases mulPoint L Config.r false P <;> rfl

end Rules

/-! ## Where doubling and addition are defined (R502, R503) -/

theorem inv_raisesOnly (c : CurveLink L T f) (a : α) : RaisesOnly [9] (L.inv a) := by
  rcases inv_cases c.inv a with ⟨-, d, hd, -⟩ | ⟨-, he⟩
  · rw [hd]; exact .ok d
  · rw [he]; exact .error (by decide)

theorem exists_isDouble_iff (c : CurveLink L T f) (P : Point α) :
    (∃ R, IsDouble T (mapPoint f P) R) ↔ P.inf = true ∨ f P.y ≠ 0 := by
  constructor
  · rintro ⟨R, ⟨hinf, -⟩ | ⟨-, hy, -⟩⟩
    · exact .inl hinf
    · exact .inr hy
  · intro hdef
    rcases dblPoint_cases c P with ⟨R, -, hR⟩ | ⟨hinf, hy, -⟩
    · exact ⟨_, hR⟩
    · simp [hinf, hy] at hdef

theorem not_sumUndefined_of_isSum {A B R : Point β} (h : IsSum T A B R) : ¬SumUndefined A B := by
  rintro ⟨hA, hB, hx, hy, hzero⟩
  rcases h with ⟨hA', -⟩ | ⟨-, hB', -⟩ | ⟨-, -, -, -, ⟨hA', -⟩ | ⟨-, hne, -⟩⟩ | ⟨-, -, -, hne, -⟩ | ⟨-, -, hne, -⟩
  · exact absurd hA' (by simp [hA])
  · exact absurd hB' (by simp [hB])
  · exact absurd hA' (by simp [hA])
  · exact hne hzero
  · exact hne hy
  · exact hne hx

theorem exists_isSum_iff [DecidableEq α] (c : CurveLink L T f) (P Q : Point α) :
    (∃ R, IsSum T (mapPoint f P) (mapPoint f Q) R) ↔ ¬SumUndefined (mapPoint f P) (mapPoint f Q) := by
  constructor
  · rintro ⟨R, hR⟩
    exact not_sumUndefined_of_isSum hR
  · intro hdef
    rcases addPoint_cases c P Q with ⟨R, -, hR⟩ | ⟨hP, hQ, hx, hy, hzero, -⟩
    · exact ⟨_, hR⟩
    · exact absurd ⟨hP, hQ, hx, hy, hzero⟩ hdef

/-! ## Each shape of command, once for every level -/

theorem pdblGives (c : CurveLink L T f) {mk : Reg → Reg → Instr}
    (row : ∀ rd ra, CommandRow (mk rd ra) 0x11 lv rd ra 0 0 [(rd, 2 * T.size + 1), (ra, 2 * T.size + 1)]
      (pdblRule L rd ra)) : PdblGives T lv mk := by
  intro s rd ra hd hra
  obtain ⟨P, hP, hPat⟩ := rdPt_ok c.link s ra.toNat hra
  rw [← hPat]
  obtain ⟨hgives, hraises⟩ := completes_or_raises (post := fun R t => Wrote s t rd.toNat (wordsOfPoint T R)) (row rd ra)
    (by simpa using ⟨hd, hra.1⟩) (pdblRule_ok hP) (dblPoint_iff c P) (dblPoint_raisesOnly (inv_raisesOnly c) P)
    (wrote_wrPt c.link s hd)
  constructor
  · intro h
    obtain ⟨R, hR⟩ := (exists_isDouble_iff c P).mpr h
    exact completes_mono (hgives R hR) fun t ht => ⟨R, hR, ht⟩
  · rintro ⟨hinf, hy⟩
    refine hraises fun h => ?_
    rcases (exists_isDouble_iff c P).mp h with hinf' | hy'
    · exact absurd (hinf.symm.trans hinf') Bool.false_ne_true
    · exact hy' hy

theorem pnegGives (link : Link L T f) {mk : Reg → Reg → Instr}
    (row : ∀ rd ra, CommandRow (mk rd ra) 0x12 lv rd ra 0 0 [(rd, 2 * T.size + 1), (ra, 2 * T.size + 1)]
      (pnegRule L rd ra)) : PnegGives T lv mk := by
  intro s rd ra hd hra
  obtain ⟨P, hP, hPat⟩ := rdPt_ok link s ra.toNat hra
  refine (row rd ra).completes (by simpa using ⟨hd, hra.1⟩) ?_
  rw [pnegRule_ok hP, ← hPat, ← mapPoint_negPoint link]
  exact wrote_wrPt link s hd _

variable [DecidableEq α]

theorem padd_completes_or_raises (c : CurveLink L T f) {i : Instr}
    (row : CommandRow i 0x10 lv rd ra rb 0 [(rd, 2 * T.size + 1), (ra, 2 * T.size + 1), (rb, 2 * T.size + 1)]
      (paddRule L rd ra rb))
    (hd : rd.toNat + (2 * T.size + 1) ≤ 64) (hra : PointOk s ra.toNat T.size) (hrb : PointOk s rb.toNat T.size) :
    (∀ R, IsSum T (pointAt T s ra.toNat) (pointAt T s rb.toNat) R →
        Completes (commandWord 0x10 lv rd ra rb 0) i s fun t => Wrote s t rd.toNat (wordsOfPoint T R)) ∧
      ((¬∃ R, IsSum T (pointAt T s ra.toNat) (pointAt T s rb.toNat) R) →
        ∃ t, exec i s = .next t ∧ Raised s t 9) := by
  obtain ⟨P, hP, hPat⟩ := rdPt_ok c.link s ra.toNat hra
  obtain ⟨Q, hQ, hQat⟩ := rdPt_ok c.link s rb.toNat hrb
  rw [← hPat, ← hQat]
  exact completes_or_raises row (by simpa using ⟨hd, hra.1, hrb.1⟩) (paddRule_ok hP hQ) (addPoint_iff c P Q)
    (addPoint_raisesOnly (inv_raisesOnly c) P Q) (wrote_wrPt c.link s hd)

theorem paddGives (c : CurveLink L T f) {mk : Reg → Reg → Reg → Instr}
    (row : ∀ rd ra rb, CommandRow (mk rd ra rb) 0x10 lv rd ra rb 0
      [(rd, 2 * T.size + 1), (ra, 2 * T.size + 1), (rb, 2 * T.size + 1)] (paddRule L rd ra rb)) :
    PaddGives T lv mk := by
  intro s rd ra rb hd hra hrb
  obtain ⟨hgives, hraises⟩ := padd_completes_or_raises c (row rd ra rb) hd hra hrb
  have hdef : (∃ R, IsSum T (pointAt T s ra.toNat) (pointAt T s rb.toNat) R) ↔
      ¬SumUndefined (pointAt T s ra.toNat) (pointAt T s rb.toNat) := by
    obtain ⟨P, -, hPat⟩ := rdPt_ok c.link s ra.toNat hra
    obtain ⟨Q, -, hQat⟩ := rdPt_ok c.link s rb.toNat hrb
    rw [← hPat, ← hQat]
    exact exists_isSum_iff c P Q
  constructor
  · intro h
    obtain ⟨R, hR⟩ := hdef.mpr h
    exact completes_mono (hgives R hR) fun t ht => ⟨R, hR, ht⟩
  · exact fun hundef => hraises fun h => hdef.mp h hundef

theorem pmulGives (c : CurveLink L T f) {mk : Reg → Reg → Reg → Bool → Instr}
    (row : ∀ rd ra rb sn, CommandRow (mk rd ra rb sn) 0x13 lv rd ra rb (if sn then 1 else 0)
      [(rd, 2 * T.size + 1), (ra, 1), (rb, 2 * T.size + 1)] (pmulRule L rd ra rb sn)) : PmulGives T lv mk := by
  intro s rd ra rb sn hd hrb
  obtain ⟨P, hP, hPat⟩ := rdPt_ok c.link s rb.toNat hrb
  rw [← hPat]
  exact completes_or_raises (row rd ra rb sn) (by simpa using ⟨hd, ra.isLt, hrb.1⟩) (pmulRule_ok sn hP)
    (mulPoint_iff c _ sn P) (mulPoint_raisesOnly (inv_raisesOnly c) _ sn P) (wrote_wrPt c.link s hd)

theorem onCurve_iff (link : Link L T f) (b : α) (P : Point α) :
    onCurve L b P = true ↔ OnCurve T (f b) (mapPoint f P) := by
  rw [onCurve, Bool.and_eq_true, Bool.not_eq_true', decide_eq_true_iff, ← link.injective.eq_iff, link.add, link.mul,
    link.mul, link.mul]
  rfl

theorem onCurveGives (link : Link L T f) {b : α} {b' : β} (hb : f b = b') {mk : Reg → Instr}
    (row : ∀ ra, CommandRow (mk ra) 0x14 lv 0 ra 0 0 [(ra, 2 * T.size + 1)] (poncurveRule L b ra)) :
    OnCurveGives T b' lv mk := by
  intro s ra hra
  obtain ⟨P, hP, hPat⟩ := rdPt_ok link s ra.toNat hra
  refine (row ra).completes (by simpa using hra.1) ⟨onCurve L b P, ?_, ?_⟩
  · rw [poncurveRule_ok b hP]
    exact flagged_of_flag s _
  · rw [← hPat, ← hb]
    exact onCurve_iff link b P

theorem subgroupGives (c : CurveLink L T f) {mk : Reg → Instr}
    (row : ∀ ra, CommandRow (mk ra) 0x15 lv 0 ra 0 0 [(ra, 2 * T.size + 1)] (pinsubgrpRule L ra)) :
    SubgroupGives T lv mk := by
  intro s ra hra
  obtain ⟨P, hP, hPat⟩ := rdPt_ok c.link s ra.toNat hra
  rw [← hPat]
  exact completes_or_raises (row ra) (by simpa using hra.1) (pinsubgrpRule_ok hP) (mulPoint_iff c _ false P)
    (mulPoint_raisesOnly (inv_raisesOnly c) _ false P) fun M => flagged_of_flag s M.inf

end Points

/-! ## The curve constants (R510) -/

theorem toF_curveB1 : toF curveB1 = b1 := by decide +kernel
theorem toF2_curveB2 : toF2 curveB2 = b2 := by decide +kernel
theorem toF12_curveB12 : toF12 curveB12 = b12 := by decide +kernel

/-! ## The commands -/

/-- Settles O35: the addition of each level is the relation of R503, and is defined but for a doubling with `y = 0`. -/
theorem pointAdditionGives : Obligations.PointAdditionGives :=
  ⟨paddGives curve1 fun _ _ _ => {}, paddGives curve2 fun _ _ _ => {}, paddGives curve12 fun _ _ _ => {}⟩

/-- Settles O36: the doubling of each level is the relation of R502, and is defined at infinity and where `y` is not 0. -/
theorem pointDoublingGives : Obligations.PointDoublingGives :=
  ⟨pdblGives curve1 fun _ _ => {}, pdblGives curve2 fun _ _ => {}, pdblGives curve12 fun _ _ => {}⟩

/-- Settles O37: the negation of each level maps to the reference negation, whatever the infinity flag. -/
theorem pointNegationGives : Obligations.PointNegationGives :=
  ⟨pnegGives link1 fun _ _ => {}, pnegGives link2 fun _ _ => {}, pnegGives link12 fun _ _ => {}⟩

/-- Settles O38: the scalar loop of each level is the run of R506. -/
theorem pointMultipleGives : Obligations.PointMultipleGives :=
  ⟨pmulGives curve1 fun _ _ _ sn => { encode_eq := by cases sn <;> rfl },
    pmulGives curve2 fun _ _ _ sn => { encode_eq := by cases sn <;> rfl },
    pmulGives curve12 fun _ _ _ sn => { encode_eq := by cases sn <;> rfl }⟩

/-- Settles O39: the machine's test is the curve equation of the level, with the constant evaluated. -/
theorem onCurveSetsFlag : Obligations.OnCurveSetsFlag :=
  ⟨onCurveGives link1 toF_curveB1 fun _ => {}, onCurveGives link2 toF2_curveB2 fun _ => {},
    onCurveGives link12 toF12_curveB12 fun _ => {}⟩

/-- Settles O40: the test is the infinity flag of the run of R506 for the subgroup order. -/
theorem subgroupSetsFlag : Obligations.SubgroupSetsFlag :=
  ⟨subgroupGives curve1 fun _ => {}, subgroupGives curve2 fun _ => {}, subgroupGives curve12 fun _ => {}⟩

end Sys2Proof.Proofs
end

section
/-! The points of G1's curve as Mathlib's elliptic curve group (44_curve_point.md R500): a level-1 point that stands for a
point of the group has a sum, a double and every multiple in the sense of R502 to R506, each standing for the sum, the
double and the multiple in the group. Nothing raises, as the curve has no point with `y = 0`: -4 is no cube in Fp. -/

namespace Sys2Proof.Proofs

open Sys2Proof.Machine
open Sys2Proof.Reference
open Sys2Proof.Laws
open Sys2Proof.Config (p)

/-! ## The curve `E1` -/

theorem E1_equation {x y : F} (h : E1.Nonsingular x y) : y ^ 2 = x ^ 3 + 4 := by
  have := (E1.equation_iff x y).mp h.1
  simpa [E1] using this

theorem E1_negY (x y : F) : E1.negY x y = -y := by simp [WeierstrassCurve.Affine.negY, E1]

/-- The last lines of R502 and R503 are Mathlib's formulas for the third point of a line, reflected. -/
theorem onChord_E1 (x₁ x₂ y₁ slope : F) :
    OnChord T1 slope x₂ ⟨x₁, y₁, false⟩ ⟨E1.addX x₁ x₂ slope, E1.addY x₁ x₂ y₁ slope, false⟩ := by
  refine ⟨rfl, ?_, ?_⟩
  · simp only [T1, WeierstrassCurve.Affine.addX, E1]; ring
  · simp only [T1, WeierstrassCurve.Affine.addY, WeierstrassCurve.Affine.negAddY, E1_negY]; ring

/-! ## What a point of the machine stands for -/

/-- The level-1 point `A` stands for the point of the group: an infinity with any coordinates for zero. -/
def StandsFor (A : Point F) : E1.Point → Prop
  | .zero => A.inf = true
  | .some x y _ => A = ⟨x, y, false⟩

theorem standsFor_infinity : StandsFor infinity 0 := rfl

theorem standsFor_negated {A : Point F} {P : E1.Point} (h : StandsFor A P) : StandsFor (negated A) (-P) := by
  cases P with
  | zero => exact h
  | some x y hxy =>
    obtain rfl : A = ⟨x, y, false⟩ := h
    rw [WeierstrassCurve.Affine.Point.neg_some, StandsFor, E1_negY, negated]

theorem inf_eq_true_iff {A : Point F} {P : E1.Point} (h : StandsFor A P) : A.inf = true ↔ P = 0 := by
  cases P with
  | zero => exact iff_of_true h rfl
  | some x y hxy =>
    obtain rfl : A = ⟨x, y, false⟩ := h
    exact iff_of_false Bool.false_ne_true (WeierstrassCurve.Affine.Point.some_ne_zero hxy)

section Group

variable [Fact (Nat.Prime p)]

/-! ## No point of order two -/

/-- By Fermat: were -4 a cube, `(-4) ^ ((p - 1) / 3)`, a power of 2, would be 1. -/
theorem cube_ne_neg_four (x : F) : x ^ 3 ≠ -4 := by
  intro hx
  have hx0 : x ≠ 0 := by
    rintro rfl
    exact two_ne_zero_F (pow_eq_zero_iff two_ne_zero |>.mp (by linear_combination hx))
  apply two_pow_ne_one (4 * ((p - 1) / 6)) (by decide +kernel) (by decide +kernel)
  calc (2 : F) ^ (4 * ((p - 1) / 6)) = (-4) ^ (2 * ((p - 1) / 6)) := by
        rw [pow_mul, pow_mul]; norm_num
    _ = x ^ (p - 1) := by
        rw [← hx, ← pow_mul, show 3 * (2 * ((p - 1) / 6)) = p - 1 by decide +kernel]
    _ = 1 := ZMod.pow_card_sub_one_eq_one hx0

theorem E1_y_ne_zero {x y : F} (h : E1.Nonsingular x y) : y ≠ 0 := by
  rintro rfl
  exact cube_ne_neg_four x (by linear_combination -E1_equation h)

theorem E1_y_ne_negY {x y : F} (h : E1.Nonsingular x y) : y ≠ E1.negY x y := by
  rw [E1_negY]
  exact fun hy => E1_y_ne_zero h (add_self_F (by linear_combination hy))

/-! ## Doubles and sums -/

theorem exists_isDouble {A : Point F} {P : E1.Point} (h : StandsFor A P) :
    ∃ R, IsDouble T1 A R ∧ StandsFor R (P + P) := by
  cases P with
  | zero => exact ⟨A, .inl ⟨h, rfl⟩, h⟩
  | some x y hxy =>
    obtain rfl : A = ⟨x, y, false⟩ := h
    have hy := E1_y_ne_negY hxy
    refine ⟨_, .inr ⟨rfl, E1_y_ne_zero hxy, E1.slope x x y y, ?_, onChord_E1 x x y _⟩, ?_⟩
    · have hden : y + y ≠ 0 := fun h0 => E1_y_ne_zero hxy (add_self_F h0)
      rw [WeierstrassCurve.Affine.slope_of_Y_ne rfl hy, E1_negY]
      simp only [T1, E1, sub_neg_eq_add]
      rw [div_mul_cancel₀ _ hden]
      ring
    · rw [WeierstrassCurve.Affine.Point.add_self_of_Y_ne hy]
      rfl

theorem exists_isSum {A B : Point F} {P Q : E1.Point} (hA : StandsFor A P) (hB : StandsFor B Q) :
    ∃ R, IsSum T1 A B R ∧ StandsFor R (P + Q) := by
  cases P with
  | zero => exact ⟨B, .inl ⟨hA, rfl⟩, (zero_add Q).symm ▸ hB⟩
  | some x₁ y₁ h₁ =>
    cases Q with
    | zero =>
      obtain rfl : A = ⟨x₁, y₁, false⟩ := hA
      exact ⟨_, .inr (.inl ⟨rfl, hB, rfl⟩), rfl⟩
    | some x₂ y₂ h₂ =>
      by_cases hx : x₁ = x₂
      · subst hx
        by_cases hy : y₁ = y₂
        · subst hy
          obtain ⟨R, hR, hsum⟩ := exists_isDouble hA
          obtain rfl : A = ⟨x₁, y₁, false⟩ := hA
          obtain rfl : B = ⟨x₁, y₁, false⟩ := hB
          exact ⟨R, .inr (.inr (.inl ⟨rfl, rfl, rfl, rfl, hR⟩)), hsum⟩
        · obtain rfl : A = ⟨x₁, y₁, false⟩ := hA
          obtain rfl : B = ⟨x₁, y₂, false⟩ := hB
          have hneg : y₁ = E1.negY x₁ y₂ := (WeierstrassCurve.Affine.Y_eq_of_X_eq h₁.1 h₂.1 rfl).resolve_left hy
          refine ⟨infinity, .inr (.inr (.inr (.inl ⟨rfl, rfl, rfl, hy, rfl⟩))), ?_⟩
          rw [WeierstrassCurve.Affine.Point.add_of_Y_eq rfl hneg]
          exact standsFor_infinity
      · obtain rfl : A = ⟨x₁, y₁, false⟩ := hA
        obtain rfl : B = ⟨x₂, y₂, false⟩ := hB
        refine ⟨_, .inr (.inr (.inr (.inr ⟨rfl, rfl, hx, E1.slope x₁ x₂ y₁ y₂, ?_, onChord_E1 x₁ x₂ y₁ _⟩))), ?_⟩
        · rw [WeierstrassCurve.Affine.slope_of_X_ne hx]
          simp only [T1]
          rw [← neg_sub y₁, ← neg_sub x₁, mul_neg, div_mul_cancel₀ _ (sub_ne_zero.mpr hx)]
        · rw [WeierstrassCurve.Affine.Point.add_of_X_ne hx]
          rfl

/-! ## Multiples (R506) -/

/-- The loop keeps accumulator plus `k` times the base, by the bits of the scalar `k`. -/
theorem exists_mulRun {acc base : Point F} {A B : E1.Point} (k : Nat) (hacc : StandsFor acc A)
    (hbase : StandsFor base B) : ∃ R, MulRun T1 k acc base R ∧ StandsFor R (A + k • B) := by
  induction k using Nat.strong_induction_on generalizing acc base A B with
  | _ k ih =>
    by_cases hk0 : k = 0
    · subst hk0
      exact ⟨acc, .stop acc base, by rwa [zero_nsmul, add_zero]⟩
    by_cases hk1 : k = 1
    · subst hk1
      obtain ⟨R, hR, hsum⟩ := exists_isSum hacc hbase
      exact ⟨R, .last acc base R hR, by rwa [one_nsmul]⟩
    obtain ⟨base', hdouble, hbase'⟩ := exists_isDouble hbase
    rcases Nat.even_or_odd' k with ⟨m, rfl | rfl⟩
    · obtain ⟨R, hrun, hR⟩ := ih m (by omega) hacc hbase'
      refine ⟨R, .even m acc base base' R (by omega) hdouble hrun, ?_⟩
      rwa [mul_nsmul, two_nsmul]
    · obtain ⟨acc', hsum, hacc'⟩ := exists_isSum hacc hbase
      obtain ⟨R, hrun, hR⟩ := ih m (by omega) hacc' hbase'
      refine ⟨R, .odd m acc base acc' base' R (by omega) hsum hdouble hrun, ?_⟩
      rwa [succ_nsmul', mul_nsmul, two_nsmul, ← add_assoc]

theorem exists_isMultiple {A : Point F} {P : E1.Point} (k : Nat) (sn : Bool) (h : StandsFor A P) :
    ∃ R, IsMultiple T1 k sn A R ∧ StandsFor R (if sn then -(k • P) else k • P) := by
  have hbase : StandsFor (if sn then negated A else A) (if sn then -P else P) := by
    cases sn
    · exact h
    · exact standsFor_negated h
  obtain ⟨R, hrun, hR⟩ := exists_mulRun k standsFor_infinity hbase
  refine ⟨R, hrun, ?_⟩
  rw [zero_add] at hR
  cases sn
  · exact hR
  · simpa using hR

theorem exists_isMultiple_inf_iff {A : Point F} {P : E1.Point} (k : Nat) (h : StandsFor A P) :
    ∃ R, IsMultiple T1 k false A R ∧ (R.inf = true ↔ k • P = 0) := by
  obtain ⟨R, hmul, hR⟩ := exists_isMultiple k false h
  exact ⟨R, hmul, inf_eq_true_iff hR⟩

/-! ## Points in the registers -/

theorem pointOk_of_represents {s : State} {b : Nat} {P : E1.Point} (h : Represents s b P) : PointOk s b T1.size := by
  cases P with
  | zero => exact h.1
  | some x y hxy =>
    obtain ⟨hb, hx, hy, hinf⟩ := h
    refine ⟨hb, fun k hk => ?_, hinf.trans_le (by decide)⟩
    obtain rfl | rfl : k = 0 ∨ k = 1 := by simp only [T1] at hk; omega
    · exact hx ▸ x.val_lt
    · exact hy ▸ y.val_lt

theorem standsFor_of_represents {s : State} {b : Nat} {P : E1.Point} (h : Represents s b P) :
    StandsFor (pointAt T1 s b) P := by
  cases P with
  | zero => exact beq_iff_eq.mpr h.2
  | some x y hxy =>
    obtain ⟨-, hx, hy, hinf⟩ := h
    simp only [StandsFor, pointAt, elemAt, T1, add_zero, mul_one, hx, hy, hinf, ZMod.natCast_zmod_val]
    rfl

theorem represents_of_wrote {s t : State} {b : Nat} {R : Point F} {P : E1.Point} (hb : b + 3 ≤ 64)
    (h : Wrote s t b (wordsOfPoint T1 R)) (hR : StandsFor R P) : Represents t b P := by
  have hx : wval t b = R.x.val := h.value 0 (by decide : 0 < 3)
  have hy : wval t (b + 1) = R.y.val := h.value 1 (by decide : 1 < 3)
  have hinf : wval t (b + 2) = if R.inf then 1 else 0 := h.value 2 (by decide : 2 < 3)
  cases P with
  | zero =>
    have hRinf : R.inf = true := hR
    rw [hRinf, if_pos rfl] at hinf
    refine ⟨⟨hb, fun k hk => ?_, hinf.le⟩, hinf⟩
    obtain rfl | rfl : k = 0 ∨ k = 1 := by omega
    · exact hx ▸ R.x.val_lt
    · exact hy ▸ R.y.val_lt
  | some x y hxy =>
    obtain rfl : R = ⟨x, y, false⟩ := hR
    exact ⟨hb, hx, hy, hinf⟩

end Group

/-! ## The commands -/

/-- Settles O41: the sum of R503 exists on the curve and stands for the sum of the group. -/
theorem paddIsGroupAddition : Obligations.PaddIsGroupAddition := by
  intro _ s rd ra rb P Q hd hP hQ
  obtain ⟨R, hsum, hR⟩ := exists_isSum (standsFor_of_represents hP) (standsFor_of_represents hQ)
  obtain ⟨hgives, -⟩ := padd_completes_or_raises curve1 (i := .padd1 rd ra rb) (lv := 0) {} hd
    (pointOk_of_represents hP) (pointOk_of_represents hQ)
  obtain ⟨-, t, hexec, hw⟩ := hgives R hsum
  exact ⟨t, _, hexec, rfl, hw, represents_of_wrote hd hw hR⟩

/-- Settles O42: the run of R506 exists on the curve and stands for the multiple of the group. -/
theorem pmulIsGroupMultiple : Obligations.PmulIsGroupMultiple := by
  intro _ s rd ra rb sn P hd hP
  obtain ⟨R, hmul, hR⟩ := exists_isMultiple (wval s ra.toNat) sn (standsFor_of_represents hP)
  obtain ⟨hgives, -⟩ := pointMultipleGives.1 s rd ra rb sn hd (pointOk_of_represents hP)
  obtain ⟨-, t, hexec, hw⟩ := hgives R hmul
  exact ⟨t, _, hexec, rfl, hw, represents_of_wrote hd hw hR⟩

/-- Settles O43: the multiple by the subgroup order stands for `r P`, and is an infinity exactly when that is zero. -/
theorem subgroupTestIsGroupTest : Obligations.SubgroupTestIsGroupTest := by
  intro _ s ra P hP
  obtain ⟨R, hmul, hzero⟩ := exists_isMultiple_inf_iff Config.r (standsFor_of_represents hP)
  obtain ⟨hgives, -⟩ := subgroupSetsFlag.1 s ra (pointOk_of_represents hP)
  obtain ⟨-, t, hexec, hflag⟩ := hgives R hmul
  exact ⟨t, R.inf, hexec, hflag, hzero⟩

end Sys2Proof.Proofs
end

section
/-! The commands of the pairing engine (45_pairing.md R540 to R552). Each reads its points, runs one computation of the engine
and writes its result or raises its error; what the computation gives and raises is the relation of the reference. -/

namespace Sys2Proof.Proofs

open Sys2Proof.Machine
open Sys2Proof.Reference
open Sys2Proof.Laws

/-! ## From the outcome of a rule to the command -/

section Row

variable {i : Instr} {op lv : Nat} {rd ra rb rc : Reg} {ops : List (Reg × Nat)} {rule : Regs → Res Effect} {s : State}

/-- A command whose rule fails ends with that error. -/
theorem CommandRow.raises (row : CommandRow i op lv rd ra rb rc ops rule) (hops : ∀ o ∈ ops, o.1.toNat + o.2 ≤ 64)
    {e : Err} (hrule : rule s.w = .error e) : ∃ t, exec i s = .next t ∧ Raised s t e.code.toNat := by
  refine ⟨_, row.exec_eq hops s, ?_⟩
  rw [hrule]
  exact raised_of_error s e

/-- A command whose rule writes a level-12 element completes with the words of that element. -/
theorem CommandRow.writes12 (row : CommandRow i op lv rd ra rb rc ops rule) (hops : ∀ o ∈ ops, o.1.toNat + o.2 ≤ 64)
    (hd : rd.toNat + 12 ≤ 64) {f : Fp12} (hrule : rule s.w = .ok (wrF lv12 rd f)) :
    Completes (commandWord op lv rd ra rb rc) i s fun t => Wrote s t rd.toNat (wordsOf T12 (toF12 f)) := by
  refine row.completes hops ?_
  rw [hrule]
  exact wrote_wrF link12 s hd f

end Row

/-! ## The rules on readable points -/

section Rules

variable {w : Regs} {rd ra rb rc : Reg} {P : Point Fp} {Q R : Point Fp2}

theorem untwistRule_inf (hQ : rdPt lv2 w ra.toNat = .ok Q) (hinf : Q.inf = true) :
    untwistRule rd ra w = .error .infinityOperand := by
  rw [untwistRule, hQ, ok_bind, if_pos hinf]

theorem untwistRule_finite {U : Point Fp12} (hQ : rdPt lv2 w ra.toNat = .ok Q) (hinf : Q.inf = false)
    (hU : untwistPoint Q = .ok U) : untwistRule rd ra w = .ok (wrPt lv12 rd U) := by
  rw [untwistRule, hQ, ok_bind, if_neg (Bool.eq_false_iff.mp hinf), hU]
  rfl

theorem dblevalRule_eq (hR : rdPt lv2 w ra.toNat = .ok R) (hP : rdPt lv1 w rb.toNat = .ok P) :
    dblevalRule rd ra rb w = (dblEval R P >>= fun l => .ok (wrF lv12 rd l)) := by
  rw [dblevalRule, hR, hP]; rfl

theorem addevalRule_eq (hR : rdPt lv2 w ra.toNat = .ok R) (hQ : rdPt lv2 w rb.toNat = .ok Q)
    (hP : rdPt lv1 w rc.toNat = .ok P) :
    addevalRule rd ra rb rc w = (addEval R Q P >>= fun l => .ok (wrF lv12 rd l)) := by
  rw [addevalRule, hR, hQ, hP]; rfl

theorem millerRule_inf (hP : rdPt lv1 w ra.toNat = .ok P) (hQ : rdPt lv2 w rb.toNat = .ok Q)
    (hinf : P.inf = true ∨ Q.inf = true) : millerRule rd ra rb w = .error .infinityOperand := by
  rw [millerRule, hP, hQ, ok_bind, ok_bind, if_pos (by simpa using hinf)]

theorem millerRule_finite (hP : rdPt lv1 w ra.toNat = .ok P) (hQ : rdPt lv2 w rb.toNat = .ok Q) (hPinf : P.inf = false)
    (hQinf : Q.inf = false) : millerRule rd ra rb w = (millerFn P Q >>= fun f => .ok (wrF lv12 rd f)) := by
  rw [millerRule, hP, hQ, ok_bind, ok_bind, if_neg (by simp [hPinf, hQinf])]
  rfl

theorem pairingRule_eq (hP : rdPt lv1 w ra.toNat = .ok P) (hQ : rdPt lv2 w rb.toNat = .ok Q) :
    pairingRule rd ra rb w = (pairingFn P Q >>= fun f => .ok (wrF lv12 rd f)) := by
  rw [pairingRule, hP, hQ]; rfl

end Rules

/-! ## Untwist and the line values (R541 to R544) -/

/-- Settles O44: the untwist of a finite point is defined and is the closed form. -/
theorem untwistGives : Obligations.UntwistGives := by
  intro s rd ra hd hra
  obtain ⟨Q, hQ, hQat⟩ := rdPt_ok link2 s ra.toNat hra
  have row : CommandRow (.untwist rd ra) 0x20 0 rd ra 0 0 [(rd, 25), (ra, 5)] (untwistRule rd ra) := {}
  have hops : ∀ o ∈ [(rd, 25), (ra, 5)], o.1.toNat + o.2 ≤ 64 := by simpa using And.intro hd hra.1
  rw [← hQat]
  constructor
  · intro hinf
    obtain ⟨U, hU, hx, hy, hUinf⟩ := untwistPoint_ok Q
    have hpoint : mapPoint toF12 U = ⟨untwistX (mapPoint toF2 Q), untwistY (mapPoint toF2 Q), false⟩ := by
      rw [mapPoint, hx, hy, hUinf]
    refine row.completes hops ?_
    rw [untwistRule_finite hQ hinf hU, ← hpoint]
    exact wrote_wrPt link12 s hd U
  · exact fun hinf => row.raises hops (untwistRule_inf hQ hinf)

/-- Settles O45: on finite points the tangent value is defined unless `R.y` is zero, by the cases of `dblEval`. -/
theorem tangentValueGives : Obligations.TangentValueGives := by
  intro s rd ra rb hd hra hrb
  obtain ⟨R, hR, hRat⟩ := rdPt_ok link2 s ra.toNat hra
  obtain ⟨P, hP, hPat⟩ := rdPt_ok link1 s rb.toNat hrb
  have row : CommandRow (.dbleval rd ra rb) 0x21 0 rd ra rb 0 [(rd, 12), (ra, 5), (rb, 3)] (dblevalRule rd ra rb) := {}
  have hops : ∀ o ∈ [(rd, 12), (ra, 5), (rb, 3)], o.1.toNat + o.2 ≤ 64 := by
    simpa only [List.forall_mem_cons] using ⟨hd, hra.1, hrb.1, nofun⟩
  have hrule := dblevalRule_eq (rd := rd) hR hP
  rw [← hRat, ← hPat]
  refine ⟨?_, ?_, ?_⟩
  · rintro ⟨hRinf, hPinf, hy⟩
    rcases dblEval_cases R P hRinf hPinf with ⟨l, hl, hvalue⟩ | ⟨hy0, -⟩
    · rw [hl, ok_bind] at hrule
      exact completes_mono (row.writes12 hops hd hrule) fun t ht => ⟨_, hvalue, ht⟩
    · exact absurd hy0 hy
  · intro hinf
    rw [dblEval_inf R P hinf, error_bind] at hrule
    exact row.raises hops hrule
  · rintro ⟨hRinf, hPinf, hy⟩
    rcases dblEval_cases R P hRinf hPinf with ⟨l, -, hvalue⟩ | ⟨-, herr⟩
    · exact absurd hy hvalue.1
    · rw [herr, error_bind] at hrule
      exact row.raises hops hrule

/-- Two points of one abscissa that are not opposite have no secant value. -/
theorem not_isSecantValue {R Q : Point F2} {P : Point F} {l : F12} (hx : R.x = Q.x) (hy : R.y ≠ -Q.y) :
    ¬IsSecantValue R Q P l := by
  rintro (⟨-, hy', -⟩ | ⟨hx', -⟩)
  · exact hy hy'
  · exact hx' hx

/-- Settles O46: on finite points the secant value is defined unless the abscissas agree and the points are not opposite, by
the cases of `addEval`. -/
theorem secantValueGives : Obligations.SecantValueGives := by
  intro s rd ra rb rc hd hra hrb hrc
  obtain ⟨R, hR, hRat⟩ := rdPt_ok link2 s ra.toNat hra
  obtain ⟨Q, hQ, hQat⟩ := rdPt_ok link2 s rb.toNat hrb
  obtain ⟨P, hP, hPat⟩ := rdPt_ok link1 s rc.toNat hrc
  have row : CommandRow (.addeval rd ra rb rc) 0x22 0 rd ra rb rc [(rd, 12), (ra, 5), (rb, 5), (rc, 3)]
    (addevalRule rd ra rb rc) := {}
  have hops : ∀ o ∈ [(rd, 12), (ra, 5), (rb, 5), (rc, 3)], o.1.toNat + o.2 ≤ 64 := by
    simpa only [List.forall_mem_cons] using ⟨hd, hra.1, hrb.1, hrc.1, nofun⟩
  have hrule := addevalRule_eq (rd := rd) hR hQ hP
  rw [← hRat, ← hQat, ← hPat]
  refine ⟨?_, ?_, ?_⟩
  · rintro ⟨hRinf, hQinf, hPinf, hopposite⟩
    rcases addEval_cases R Q P hRinf hQinf hPinf with ⟨l, hl, hvalue⟩ | ⟨hx, hy, -⟩
    · rw [hl, ok_bind] at hrule
      exact completes_mono (row.writes12 hops hd hrule) fun t ht => ⟨_, hvalue, ht⟩
    · exact absurd (hopposite hx) hy
  · intro hinf
    rw [addEval_inf R Q P hinf, error_bind] at hrule
    exact row.raises hops hrule
  · rintro ⟨hRinf, hQinf, hPinf, hx, hy⟩
    rcases addEval_cases R Q P hRinf hQinf hPinf with ⟨l, -, hvalue⟩ | ⟨-, -, herr⟩
    · exact absurd hvalue (not_isSecantValue hx hy)
    · rw [herr, error_bind] at hrule
      exact row.raises hops hrule

/-! ## The Miller loop (R545, R546) -/

/-- Settles O47: on finite points `millerFn` is the relation of the reference, and fails with no codes but 9 and 10. -/
theorem millerGives : Obligations.MillerGives := by
  intro s rd ra rb hd hra hrb
  obtain ⟨P, hP, hPat⟩ := rdPt_ok link1 s ra.toNat hra
  obtain ⟨Q, hQ, hQat⟩ := rdPt_ok link2 s rb.toNat hrb
  have row : CommandRow (.miller rd ra rb) 0x23 0 rd ra rb 0 [(rd, 12), (ra, 3), (rb, 5)] (millerRule rd ra rb) := {}
  have hops : ∀ o ∈ [(rd, 12), (ra, 3), (rb, 5)], o.1.toNat + o.2 ≤ 64 := by
    simpa only [List.forall_mem_cons] using ⟨hd, hra.1, hrb.1, nofun⟩
  rw [← hPat, ← hQat]
  refine ⟨?_, fun hinf => row.raises hops (millerRule_inf hP hQ hinf), ?_⟩
  · intro hPinf hQinf f hf
    obtain ⟨f0, hf0, rfl⟩ := (millerFn_iff P Q hPinf hQinf f).mp hf
    have hrule := millerRule_finite (rd := rd) hP hQ hPinf hQinf
    rw [hf0, ok_bind] at hrule
    exact row.writes12 hops hd hrule
  · intro hPinf hQinf hnone
    have hrule := millerRule_finite (rd := rd) hP hQ hPinf hQinf
    cases hfn : millerFn P Q with
    | ok f0 => exact absurd ⟨_, (millerFn_iff P Q hPinf hQinf _).mpr ⟨f0, hfn, rfl⟩⟩ hnone
    | error e =>
      rw [hfn, error_bind] at hrule
      obtain ⟨t, hexec, hraised⟩ := row.raises hops hrule
      have hcode : e.code.toNat ∈ [9, 10] := millerFn_raisesOnly (by simp) (by simp) P Q e hfn
      exact ⟨t, _, hexec, hraised, by simpa using hcode⟩

/-! ## The pairing (R548) -/

theorem onCurve1_iff (P : Point Fp) : onCurve lv1 curveB1 P = true ↔ OnCurve T1 b1 (mapPoint toF P) := by
  rw [← toF_curveB1]
  exact onCurve_iff link1 curveB1 P

theorem onCurve2_iff (Q : Point Fp2) : onCurve lv2 curveB2 Q = true ↔ OnCurve T2 b2 (mapPoint toF2 Q) := by
  rw [← toF2_curveB2]
  exact onCurve_iff link2 curveB2 Q

theorem inf_of_onCurve {α : Type} [DecidableEq α] {L : Level α} {b : α} {P : Point α} (h : onCurve L b P = true) :
    P.inf = false := by
  rw [onCurve, Bool.and_eq_true, Bool.not_eq_true'] at h
  exact h.1

/-- The points on their curves are finite, so the pairing goes on to the subgroup checks. -/
theorem pairingFn_of_onCurve {P : Point Fp} {Q : Point Fp2} (hP : onCurve lv1 curveB1 P = true)
    (hQ : onCurve lv2 curveB2 Q = true) :
    pairingFn P Q = (bothMembers P Q >>= fun member => if member then millerFn P Q else .ok fp12Zero) := by
  rw [pairingFn, if_neg (by simp [inf_of_onCurve hP, inf_of_onCurve hQ]), if_neg (by simp [hP]), if_neg (by simp [hQ])]

theorem pairingFn_of_not_onCurve {P : Point Fp} {Q : Point Fp2}
    (h : ¬(onCurve lv1 curveB1 P = true ∧ onCurve lv2 curveB2 Q = true)) : pairingFn P Q = .ok fp12Zero := by
  rw [pairingFn]
  split
  · rfl
  split
  · rfl
  next hP =>
    rw [if_pos]
    simpa using fun hQ => h ⟨by simpa using hP, hQ⟩

theorem bothMembers_of_not_first {P : Point Fp} {Q : Point Fp2} (h : inSubgroup lv1 P = .ok false) :
    bothMembers P Q = .ok false := by
  rw [bothMembers, h]; rfl

theorem bothMembers_of_first {P : Point Fp} {Q : Point Fp2} (h : inSubgroup lv1 P = .ok true) :
    bothMembers P Q = inSubgroup lv2 Q := by
  rw [bothMembers, h]; rfl

theorem pairingFn_of_not_members {P : Point Fp} {Q : Point Fp2} (h : bothMembers P Q = .ok false) :
    pairingFn P Q = .ok fp12Zero := by
  by_cases hcurve : onCurve lv1 curveB1 P = true ∧ onCurve lv2 curveB2 Q = true
  · rw [pairingFn_of_onCurve hcurve.1 hcurve.2, h]
    rfl
  · exact pairingFn_of_not_onCurve hcurve

/-- The operands of `pairing` are read, and its value is what `pairingFn` gives on them. -/
theorem pairing_completes {s : State} {rd ra rb : Reg} (hd : rd.toNat + 12 ≤ 64) (hra : PointOk s ra.toNat 1)
    (hrb : PointOk s rb.toNat 2) :
    ∃ P Q, mapPoint toF P = pointAt T1 s ra.toNat ∧ mapPoint toF2 Q = pointAt T2 s rb.toNat ∧
      ∀ f, pairingFn P Q = .ok f → Completes (commandWord 0x24 0 rd ra rb 0) (.pairing rd ra rb) s fun t =>
        Wrote s t rd.toNat (wordsOf T12 (toF12 f)) := by
  obtain ⟨P, hP, hPat⟩ := rdPt_ok link1 s ra.toNat hra
  obtain ⟨Q, hQ, hQat⟩ := rdPt_ok link2 s rb.toNat hrb
  have row : CommandRow (.pairing rd ra rb) 0x24 0 rd ra rb 0 [(rd, 12), (ra, 3), (rb, 5)] (pairingRule rd ra rb) := {}
  have hops : ∀ o ∈ [(rd, 12), (ra, 3), (rb, 5)], o.1.toNat + o.2 ≤ 64 := by
    simpa only [List.forall_mem_cons] using ⟨hd, hra.1, hrb.1, nofun⟩
  refine ⟨P, Q, hPat, hQat, fun f hf => row.writes12 hops hd ?_⟩
  rw [pairingRule_eq hP hQ, hf, ok_bind]

theorem wordsOf_zero12 : wordsOf T12 0 = [0, 0, 0, 0, 0, 0, 0, 0, 0, 0, 0, 0] := by
  simp [wordsOf, T12, flat12, flat6, flat2]

/-- Settles O48: a rejected input fails a curve test, as an infinity does too, or the subgroup checks in their order. -/
theorem pairingRejectsWithZero : Obligations.PairingRejectsWithZero := by
  intro s rd ra rb hd hra hrb P' Q' hrejected
  obtain ⟨P, Q, hPat, hQat, hgives⟩ := pairing_completes hd hra hrb
  subst P' Q'
  rw [← hPat, ← hQat] at hrejected
  rw [← wordsOf_zero12, ← toF12_zero]
  apply hgives
  rcases hrejected with hinf | hinf | hcurve | hcurve | ⟨A, hA, hAinf⟩ | ⟨A, B, hA, hAinf, hB, hBinf⟩
  · exact pairingFn_of_not_onCurve fun h => absurd ((inf_of_onCurve h.1).symm.trans hinf) Bool.false_ne_true
  · exact pairingFn_of_not_onCurve fun h => absurd ((inf_of_onCurve h.2).symm.trans hinf) Bool.false_ne_true
  · exact pairingFn_of_not_onCurve fun h => hcurve ((onCurve1_iff P).mp h.1)
  · exact pairingFn_of_not_onCurve fun h => hcurve ((onCurve2_iff Q).mp h.2)
  · have hP : inSubgroup lv1 P = .ok false := (inSubgroup_iff curve1 P false).mpr ⟨A, hA, hAinf⟩
    exact pairingFn_of_not_members (bothMembers_of_not_first hP)
  · have hP : inSubgroup lv1 P = .ok true := (inSubgroup_iff curve1 P true).mpr ⟨A, hA, hAinf⟩
    have hQ : inSubgroup lv2 Q = .ok false := (inSubgroup_iff curve2 Q false).mpr ⟨B, hB, hBinf⟩
    exact pairingFn_of_not_members ((bothMembers_of_first hP).trans hQ)

/-- Settles O49: an input that passes every check is answered by the Miller function, the relation of the reference. -/
theorem pairingAcceptedGives : Obligations.PairingAcceptedGives := by
  intro s rd ra rb A B f hd hra hrb hPcurve hQcurve hA hAinf hB hBinf hf
  obtain ⟨P, Q, hPat, hQat, hgives⟩ := pairing_completes hd hra hrb
  rw [← hPat] at hPcurve hA hf
  rw [← hQat] at hQcurve hB hf
  obtain ⟨f0, hf0, rfl⟩ := (millerFn_iff P Q hPcurve.1 hQcurve.1 f).mp hf
  have hP : inSubgroup lv1 P = .ok true := (inSubgroup_iff curve1 P true).mpr ⟨A, hA, hAinf⟩
  have hQ : inSubgroup lv2 Q = .ok true := (inSubgroup_iff curve2 Q true).mpr ⟨B, hB, hBinf⟩
  apply hgives
  rw [pairingFn_of_onCurve ((onCurve1_iff P).mpr hPcurve) ((onCurve2_iff Q).mpr hQcurve), bothMembers_of_first hP, hQ,
    ok_bind, if_pos rfl, hf0]

/-! ## The final exponentiation (R550 to R552) -/

/-- Settles O51: the division in `feExp` is exact, and the machine's power is repeated multiplication. -/
theorem finalExpGives : Obligations.FinalExpGives :=
  ⟨feExp, feExp_mul_r, unaryGives link12 (fun _ _ => {}) fun f => pow_eq_power link12 f feExp⟩

end Sys2Proof.Proofs
end

section
/-! The group of a curve `y^2 = x^3 + b` without points of order two, over a field of odd characteristic that a machine level
is a copy of (44_curve_point.md R500 to R511). On points of such a curve doubling, addition and the scalar loop never raise
and are those of Mathlib's group. -/

namespace Sys2Proof.Proofs

open Sys2Proof.Machine
open Sys2Proof.Reference
open Sys2Proof.Laws

variable {α K : Type} [Field K]

/-- The level `L` of the machine is the field `K`, through the map `φ`. -/
structure FieldLevel (L : Level α) (φ : α → K) : Prop where
  injective : Function.Injective φ
  add : ∀ a b, φ (L.add a b) = φ a + φ b
  sub : ∀ a b, φ (L.sub a b) = φ a - φ b
  mul : ∀ a b, φ (L.mul a b) = φ a * φ b
  inv : ∀ a, φ a ≠ 0 → ∃ c, L.inv a = .ok c ∧ φ c = (φ a)⁻¹

/-- A linked level with inverses is the field that its reference tower is. -/
theorem FieldLevel.of_curveLink {β : Type} [AddCommGroup β] {L : Level α} {T : Tower β} {f : α → β}
    (c : CurveLink L T f) (e : β →+ K) (hinj : Function.Injective e) (hone : e T.one = 1)
    (hmul : ∀ a b, e (T.mul a b) = e a * e b) : FieldLevel L fun a => e (f a) where
  injective := hinj.comp c.link.injective
  add a b := by rw [c.link.add, map_add]
  sub a b := by rw [c.link.sub, map_sub]
  mul a b := by rw [c.link.mul, hmul]
  inv a ha := by
    obtain ⟨d, hd, hone'⟩ := c.inv.ne a fun h => ha (by rw [h, map_zero])
    exact ⟨d, hd, eq_inv_of_mul_eq_one_right (by rw [← hmul, hone', hone])⟩

/-- The curve `y^2 = x^3 + b`. -/
def shortCurve (b : K) : WeierstrassCurve.Affine K := ⟨0, 0, 0, 0, b⟩

/-- The curve has no point of order two, as `-b` is no cube. -/
structure NoOrderTwo (b : K) : Prop where
  two_ne_zero : (2 : K) ≠ 0
  cube_ne : ∀ x : K, x ^ 3 ≠ -b

section Curve

variable {b x y : K}

theorem shortCurve_equation : (shortCurve b).Equation x y ↔ y ^ 2 = x ^ 3 + b := by
  simp [WeierstrassCurve.Affine.equation_iff, shortCurve]

theorem shortCurve_negY : (shortCurve b).negY x y = -y := by simp [WeierstrassCurve.Affine.negY, shortCurve]

theorem shortCurve_addX (x₁ x₂ l : K) : (shortCurve b).addX x₁ x₂ l = l * l - x₁ - x₂ := by
  simp [WeierstrassCurve.Affine.addX, shortCurve, sq]

theorem shortCurve_addY (x₁ x₂ y₁ l : K) :
    (shortCurve b).addY x₁ x₂ y₁ l = (x₁ - (shortCurve b).addX x₁ x₂ l) * l - y₁ := by
  rw [WeierstrassCurve.Affine.addY, WeierstrassCurve.Affine.negAddY, shortCurve_negY]
  ring

theorem NoOrderTwo.y_ne_zero (hb : NoOrderTwo b) (h : (shortCurve b).Equation x y) : y ≠ 0 := by
  rintro rfl
  exact hb.cube_ne x (by linear_combination -shortCurve_equation.mp h)

theorem NoOrderTwo.y_ne_negY (hb : NoOrderTwo b) (h : (shortCurve b).Equation x y) : y ≠ (shortCurve b).negY x y := by
  rw [shortCurve_negY]
  intro hy
  have hdouble : 2 * y = 0 := by linear_combination hy
  exact (mul_ne_zero hb.two_ne_zero (hb.y_ne_zero h)) hdouble

theorem NoOrderTwo.nonsingular (hb : NoOrderTwo b) (h : (shortCurve b).Equation x y) :
    (shortCurve b).Nonsingular x y :=
  (WeierstrassCurve.Affine.nonsingular_iff _ _).mpr ⟨h, .inr (hb.y_ne_negY h)⟩

end Curve

/-! ## What a point of the machine denotes -/

/-- The point `P` of the machine denotes the point of the group: an infinity with any coordinates denotes zero. -/
def Denotes {b : K} (φ : α → K) (P : Point α) : (shortCurve b).Point → Prop
  | .zero => P.inf = true
  | .some x y _ => mapPoint φ P = ⟨x, y, false⟩

variable {L : Level α} {φ : α → K} {b : K} {P Q : Point α} {A B : (shortCurve b).Point}

theorem Denotes.inf_iff (h : Denotes φ P A) : P.inf = true ↔ A = 0 := by
  cases A with
  | zero => exact iff_of_true h rfl
  | some x y hxy =>
    have hinf : P.inf = false := congrArg Point.inf h
    exact iff_of_false (by simp [hinf]) (WeierstrassCurve.Affine.Point.some_ne_zero hxy)

theorem Denotes.inf_eq_false (h : Denotes φ P A) (hA : A ≠ 0) : P.inf = false :=
  Bool.eq_false_iff.mpr fun hinf => hA (h.inf_iff.mp hinf)

theorem denotes_some {x y : K} {hxy : (shortCurve b).Nonsingular x y} :
    Denotes φ P (.some x y hxy) ↔ φ P.x = x ∧ φ P.y = y ∧ P.inf = false := by
  simp only [Denotes, mapPoint, Point.mk.injEq]

/-- A finite point denotes the point of its coordinates. -/
theorem Denotes.exists_some (h : Denotes φ P A) (hA : A ≠ 0) :
    ∃ hxy : (shortCurve b).Nonsingular (φ P.x) (φ P.y), A = .some _ _ hxy := by
  cases A with
  | zero => exact absurd rfl hA
  | some x y hxy =>
    obtain ⟨rfl, rfl, -⟩ := denotes_some.mp h
    exact ⟨hxy, rfl⟩

theorem exists_denotes_of_onCurve [DecidableEq α] (lev : FieldLevel L φ) (hb : NoOrderTwo b) {b₀ : α} (hb₀ : φ b₀ = b)
    (h : onCurve L b₀ P = true) : ∃ A : (shortCurve b).Point, Denotes φ P A ∧ A ≠ 0 := by
  rw [onCurve, Bool.and_eq_true, Bool.not_eq_true', decide_eq_true_iff] at h
  obtain ⟨hinf, heq⟩ := h
  have hxy : (shortCurve b).Equation (φ P.x) (φ P.y) := by
    have := congrArg φ heq
    rw [lev.add, lev.mul, lev.mul, lev.mul, hb₀] at this
    rw [shortCurve_equation]
    linear_combination this
  exact ⟨.some _ _ (hb.nonsingular hxy), denotes_some.mpr ⟨rfl, rfl, hinf⟩,
    WeierstrassCurve.Affine.Point.some_ne_zero _⟩

/-! ## Doubling and addition (R502, R503) -/

/-- The last lines of R502 and R503 are Mathlib's formulas for the third point of a line, reflected. -/
theorem chord_denotes (lev : FieldLevel L φ) {x₂ slope : α} {l : K} (hl : φ slope = l)
    (hxy : (shortCurve b).Nonsingular ((shortCurve b).addX (φ P.x) (φ x₂) l)
      ((shortCurve b).addY (φ P.x) (φ x₂) (φ P.y) l)) :
    Denotes φ ⟨L.sub (L.sub (L.mul slope slope) P.x) x₂,
      L.sub (L.mul (L.sub P.x (L.sub (L.sub (L.mul slope slope) P.x) x₂)) slope) P.y, false⟩ (.some _ _ hxy) := by
  subst hl
  refine denotes_some.mpr ⟨?_, ?_, rfl⟩
  · rw [shortCurve_addX, lev.sub, lev.sub, lev.mul]
  · rw [shortCurve_addY, shortCurve_addX, lev.sub, lev.mul, lev.sub, lev.sub, lev.sub, lev.mul]

variable [DecidableEq K]

theorem dblPoint_denotes (lev : FieldLevel L φ) (hb : NoOrderTwo b) (h : Denotes φ P A) :
    ∃ R, dblPoint L P = .ok R ∧ Denotes φ R (A + A) := by
  by_cases hA : A = 0
  · subst hA
    exact ⟨P, if_pos h, by rwa [add_zero]⟩
  obtain ⟨hxy, rfl⟩ := h.exists_some hA
  have hne := hb.y_ne_negY hxy.1
  have hden : φ (twice L P.y) = φ P.y - (shortCurve b).negY (φ P.x) (φ P.y) := by
    rw [twice, lev.add, shortCurve_negY, sub_neg_eq_add]
  obtain ⟨d, hd, hinv⟩ := lev.inv (twice L P.y) (by rw [hden]; exact sub_ne_zero.mpr hne)
  refine ⟨_, by rw [dblPoint, if_neg (by simp [h.inf_eq_false hA]), hd]; rfl, ?_⟩
  rw [WeierstrassCurve.Affine.Point.add_self_of_Y_ne hne]
  refine chord_denotes lev ?_ _
  rw [WeierstrassCurve.Affine.slope_of_Y_ne rfl hne, div_eq_mul_inv, ← hden, ← hinv, lev.mul, lev.mul, thrice, lev.add,
    lev.add]
  simp only [shortCurve]
  ring

variable [DecidableEq α]

theorem addPoint_denotes (lev : FieldLevel L φ) (hb : NoOrderTwo b) (hP : Denotes φ P A) (hQ : Denotes φ Q B) :
    ∃ R, addPoint L P Q = .ok R ∧ Denotes φ R (A + B) := by
  by_cases hA : A = 0
  · subst hA
    exact ⟨Q, if_pos hP, by rwa [zero_add]⟩
  have hPinf : ¬P.inf = true := fun h => hA (hP.inf_iff.mp h)
  by_cases hB : B = 0
  · have hQinf : Q.inf = true := hQ.inf_iff.mpr hB
    exact ⟨P, by rw [addPoint, if_neg hPinf, if_pos hQinf], by rwa [hB, add_zero]⟩
  have hQinf : ¬Q.inf = true := fun h => hB (hQ.inf_iff.mp h)
  obtain ⟨h₁, rfl⟩ := hP.exists_some hA
  obtain ⟨h₂, rfl⟩ := hQ.exists_some hB
  by_cases hx : P.x = Q.x
  · by_cases hy : P.y = Q.y
    · rw [addPoint, if_neg hPinf, if_neg hQinf, if_pos ⟨hx, hy⟩]
      simp only [← hx, ← hy]
      exact dblPoint_denotes lev hb hP
    · have hneg := (WeierstrassCurve.Affine.Y_eq_of_X_eq h₁.1 h₂.1 (congrArg φ hx)).resolve_left
        fun h => hy (lev.injective h)
      rw [addPoint, if_neg hPinf, if_neg hQinf, if_neg (fun h => hy h.2), if_pos hx,
        WeierstrassCurve.Affine.Point.add_of_Y_eq (congrArg φ hx) hneg]
      exact ⟨_, rfl, rfl⟩
  · have hφx : φ P.x ≠ φ Q.x := fun h => hx (lev.injective h)
    obtain ⟨d, hd, hinv⟩ := lev.inv (L.sub Q.x P.x) (by rw [lev.sub]; exact sub_ne_zero.mpr hφx.symm)
    rw [addPoint, if_neg hPinf, if_neg hQinf, if_neg (fun h => hx h.1), if_neg hx, hd,
      WeierstrassCurve.Affine.Point.add_of_X_ne hφx]
    refine ⟨_, rfl, chord_denotes lev ?_ _⟩
    rw [WeierstrassCurve.Affine.slope_of_X_ne hφx, lev.mul, hinv, lev.sub, lev.sub, ← neg_sub (φ P.y), ← neg_sub (φ P.x),
      inv_neg, neg_mul_neg, div_eq_mul_inv]

/-! ## Multiples and the subgroup test (R506, R511) -/

/-- The loop of R506 keeps accumulator plus the rest of the scalar times the base. -/
theorem mulLoop_denotes (lev : FieldLevel L φ) (hb : NoOrderTwo b) {fuel k : Nat} {acc base : Point α}
    (hk : k < 2 ^ fuel) (hacc : Denotes φ acc A) (hbase : Denotes φ base B) :
    ∃ R, mulLoop L fuel acc base k = .ok R ∧ Denotes φ R (A + k • B) := by
  induction fuel generalizing k acc base A B with
  | zero =>
    obtain rfl : k = 0 := by omega
    exact ⟨acc, rfl, by rwa [zero_nsmul, add_zero]⟩
  | succ fuel ih =>
    by_cases hk0 : k = 0
    · subst hk0
      exact ⟨acc, mulLoop_zero _ _ _, by rwa [zero_nsmul, add_zero]⟩
    have hadd : ∃ acc', mulAdd L acc base k = .ok acc' ∧ Denotes φ acc' (A + (k % 2) • B) := by
      rcases Nat.mod_two_eq_zero_or_one k with hbit | hbit
      · exact ⟨acc, mulAdd_even acc base k hbit, by rwa [hbit, zero_nsmul, add_zero]⟩
      · rw [mulAdd_odd acc base k hbit, hbit, one_nsmul]
        exact addPoint_denotes lev hb hacc hbase
    obtain ⟨acc', hacc', hA'⟩ := hadd
    have hstep : mulLoop L (fuel + 1) acc base k =
        (mulDouble L base (k / 2) >>= fun base' => mulLoop L fuel acc' base' (k / 2)) := by
      rw [mulLoop, if_neg hk0, hacc', ok_bind]
    have hsplit : A + k • B = A + (k % 2) • B + (k / 2) • (B + B) := by
      conv_lhs => rw [← Nat.mod_add_div k 2, add_nsmul, mul_nsmul, two_nsmul, ← add_assoc]
    rw [hstep, hsplit]
    by_cases hlast : k / 2 = 0
    · rw [mulDouble, if_pos hlast, ok_bind, hlast, mulLoop_zero]
      exact ⟨acc', rfl, by rwa [zero_nsmul, add_zero]⟩
    · obtain ⟨base', hbase', hB'⟩ := dblPoint_denotes lev hb hbase
      rw [mulDouble, if_neg hlast, hbase', ok_bind]
      exact ih (by omega) hA' hB'

theorem mulPoint_inf_iff (lev : FieldLevel L φ) (hb : NoOrderTwo b) (k : Nat) (hP : Denotes φ P A) :
    ∃ R, mulPoint L k false P = .ok R ∧ (R.inf = true ↔ k • A = 0) := by
  have hinf : Denotes φ (infPoint L) (0 : (shortCurve b).Point) := rfl
  obtain ⟨R, hR, hden⟩ := mulLoop_denotes lev hb Nat.lt_log2_self hinf hP
  exact ⟨R, hR, by rw [hden.inf_iff, zero_add]⟩

/-- On a point of the curve the subgroup test never raises, and decides whether `r P` is zero. -/
theorem inSubgroup_denotes (lev : FieldLevel L φ) (hb : NoOrderTwo b) (hP : Denotes φ P A) :
    ∃ member, inSubgroup L P = .ok member ∧ (member = true ↔ Config.r • A = 0) := by
  obtain ⟨R, hR, hinf⟩ := mulPoint_inf_iff lev hb Config.r hP
  refine ⟨R.inf, ?_, hinf⟩
  rw [inSubgroup, hR]
  rfl

end Sys2Proof.Proofs
end

section
/-! The pairing never raises (45_pairing.md R546, R548; 60_exceptions.md R618). Neither curve has a point of order two, so the
subgroup checks are defined; a point of G2 that passes them has the prime order `r`, and the running point of the Miller loop
is a multiple of it by less than `r`: never infinity, and never the point itself where the secant is taken. -/

namespace Sys2Proof.Proofs

open Sys2Proof.Machine
open Sys2Proof.Reference
open Sys2Proof.Laws
open Sys2Proof.Config (p)

/-- A coordinate of a G2 point in Mathlib's quadratic algebra. -/
def coordK (a : Fp2) : K2 := toK (toF2 a)

section Fields

variable [Fact (Nat.Prime p)]

/-! ## The two curves -/

theorem fieldLevel1 : FieldLevel lv1 toF :=
  .of_curveLink curve1 (.id F) Function.injective_id rfl fun _ _ => rfl

theorem noOrderTwo_b1 : NoOrderTwo b1 := ⟨two_ne_zero_F, cube_ne_neg_four⟩

variable [Fact (∀ x : F, x ^ 2 ≠ -1 + 0 * x)]

theorem fieldLevel2 : FieldLevel lv2 coordK :=
  .of_curveLink curve2 (AddMonoidHom.mk' toK toK_add) toK_injective toK_one toK_mul

/-- By Fermat: the norm of `-4 (u + 1)` is `2 ^ 5`, and were it a cube, `2 ^ (5 (p - 1) / 3)` would be 1. -/
theorem cube_ne_neg_b2 (x : K2) : x ^ 3 ≠ -toK b2 := by
  intro hx
  have hnorm : QuadraticAlgebra.norm x ^ 3 = 2 ^ 5 := by
    rw [← map_pow, hx, QuadraticAlgebra.norm_def]
    simp only [toK, b2, QuadraticAlgebra.re_neg, QuadraticAlgebra.im_neg]
    norm_num
  have hne : QuadraticAlgebra.norm x ≠ 0 := by
    intro h0
    rw [h0, zero_pow three_ne_zero] at hnorm
    exact pow_ne_zero 5 two_ne_zero_F hnorm.symm
  apply two_pow_ne_one (5 * ((p - 1) / 3)) (by decide +kernel) (by decide +kernel)
  calc (2 : F) ^ (5 * ((p - 1) / 3)) = QuadraticAlgebra.norm x ^ (p - 1) := by
        rw [pow_mul, ← hnorm, ← pow_mul, show 3 * ((p - 1) / 3) = p - 1 by decide +kernel]
    _ = 1 := ZMod.pow_card_sub_one_eq_one hne

theorem noOrderTwo_b2 : NoOrderTwo (toK b2) where
  two_ne_zero h := two_ne_zero_F (congrArg QuadraticAlgebra.re h)
  cube_ne := cube_ne_neg_b2

/-! ## The line values on the twist (R543, R544) -/

variable {P : Point Fp} {Q R : Point Fp2} {A B : (shortCurve (toK b2)).Point}

theorem exists_dblEval (hP : P.inf = false) (hR : Denotes coordK R A) (hA : A ≠ 0) : ∃ l, dblEval R P = .ok l := by
  obtain ⟨hxy, -⟩ := hR.exists_some hA
  rcases dblEval_cases R P (hR.inf_eq_false hA) hP with ⟨l, hl, -⟩ | ⟨hy, -⟩
  · exact ⟨l, hl⟩
  · exact absurd (congrArg toK hy) (noOrderTwo_b2.y_ne_zero hxy.1)

theorem exists_addEval (hP : P.inf = false) (hR : Denotes coordK R A) (hQ : Denotes coordK Q B) (hA : A ≠ 0) (hB : B ≠ 0)
    (hne : A ≠ B) : ∃ l, addEval R Q P = .ok l := by
  rcases addEval_cases R Q P (hR.inf_eq_false hA) (hQ.inf_eq_false hB) hP with ⟨l, hl, -⟩ | ⟨hx, hy, -⟩
  · exact ⟨l, hl⟩
  obtain ⟨h₁, rfl⟩ := hR.exists_some hA
  obtain ⟨h₂, rfl⟩ := hQ.exists_some hB
  have hxK : coordK R.x = coordK Q.x := congrArg toK hx
  rcases WeierstrassCurve.Affine.Y_eq_of_X_eq h₁.1 h₂.1 hxK with hsame | hopposite
  · exact absurd (by simp only [hxK, hsame]) hne
  · rw [shortCurve_negY] at hopposite
    have hneg : toF2 R.y = -toF2 Q.y := toK_injective hopposite
    exact absurd hneg hy

/-! ## The Miller loop (R545) -/

/-- The loop runs from the `k`-th multiple of a point none of whose multiples below `r` is zero. The bound on `k` and the
bits that remain keeps every multiple ahead below `r`. -/
theorem exists_millerLoop (hP : P.inf = false) (hQ : Denotes coordK Q B)
    (horder : ∀ m, 0 < m → m < Config.r → m • B ≠ 0) (bits : List Bool) (f : Fp12) {k : Nat} (hk : 0 < k)
    (hbound : (k + 1) * 2 ^ bits.length ≤ Config.r) (hR : Denotes coordK R (k • B)) :
    ∃ g, millerLoop P Q bits f R = .ok g := by
  induction bits generalizing f R k with
  | nil => exact ⟨f, rfl⟩
  | cons b bs ih =>
    have hnext : (2 * k + 1 + 1) * 2 ^ bs.length ≤ Config.r := by
      rw [List.length_cons, pow_succ] at hbound
      linarith
    have hlt : 2 * k + 1 < Config.r := (Nat.le_mul_of_pos_right _ (Nat.two_pow_pos _)).trans hnext
    obtain ⟨l, hl⟩ := exists_dblEval hP hR (horder k hk (by omega))
    obtain ⟨R', hR', hden'⟩ := dblPoint_denotes fieldLevel2 noOrderTwo_b2 hR
    rw [← add_nsmul, ← two_mul] at hden'
    rw [millerLoop_cons P Q b bs f R l R' hl hR']
    cases b with
    | false =>
      exact ih _ (by omega) ((Nat.mul_le_mul_right _ (Nat.le_succ _)).trans hnext) hden'
    | true =>
      have hne : (2 * k) • B ≠ B := by
        intro heq
        apply horder (2 * k - 1) (by omega) (by omega)
        rw [← add_eq_right, ← succ_nsmul, Nat.sub_add_cancel (by omega), heq]
      have hB : B ≠ 0 := by simpa using horder 1 one_pos (by omega)
      obtain ⟨l', hl'⟩ := exists_addEval hP hden' hQ (horder (2 * k) (by omega) (by omega)) hB hne
      obtain ⟨R'', hR'', hden''⟩ := addPoint_denotes fieldLevel2 noOrderTwo_b2 hden' hQ
      rw [← succ_nsmul] at hden''
      rw [if_pos rfl, hl', ok_bind, hR'', ok_bind]
      exact ih _ (by omega) hnext hden''

/-- On a point of the prime order `r` the Miller function never raises. -/
theorem exists_millerFn (hP : P.inf = false) (hQ : Denotes coordK Q B) (hB : B ≠ 0) (hr : Config.r • B = 0) :
    ∃ f, millerFn P Q = .ok f := by
  have : Fact (Nat.Prime Config.r) := ⟨r_prime⟩
  have horder : addOrderOf B = Config.r := addOrderOf_eq_prime hr hB
  refine exists_millerLoop hP hQ (fun m hm hlt => ?_) millerBits fp12One one_pos ?_ (by rwa [one_nsmul])
  · exact nsmul_ne_zero_of_lt_addOrderOf hm.ne' (horder ▸ hlt)
  · rw [millerBits, List.length_map, List.length_range]
    decide +kernel

end Fields

/-! ## The pairing (R548, R618) -/

theorem exists_pairingFn (P : Point Fp) (Q : Point Fp2) : ∃ f, pairingFn P Q = .ok f := by
  have : Fact (Nat.Prime p) := ⟨p_prime⟩
  have : Fact (∀ x : F, x ^ 2 ≠ -1 + 0 * x) := ⟨neg_one_not_square⟩
  by_cases hcurve : onCurve lv1 curveB1 P = true ∧ onCurve lv2 curveB2 Q = true
  · obtain ⟨hP, hQ⟩ := hcurve
    obtain ⟨A, hA, -⟩ := exists_denotes_of_onCurve fieldLevel1 noOrderTwo_b1 toF_curveB1 hP
    obtain ⟨B, hB, hB0⟩ := exists_denotes_of_onCurve fieldLevel2 noOrderTwo_b2 (congrArg toK toF2_curveB2) hQ
    obtain ⟨memberP, hmemberP, -⟩ := inSubgroup_denotes fieldLevel1 noOrderTwo_b1 hA
    obtain ⟨memberQ, hmemberQ, horder⟩ := inSubgroup_denotes fieldLevel2 noOrderTwo_b2 hB
    cases memberP with
    | false => exact ⟨_, pairingFn_of_not_members (bothMembers_of_not_first hmemberP)⟩
    | true =>
      have hboth := (bothMembers_of_first hmemberP).trans hmemberQ
      cases memberQ with
      | false => exact ⟨_, pairingFn_of_not_members hboth⟩
      | true =>
        rw [pairingFn_of_onCurve hP hQ, hboth]
        exact exists_millerFn (inf_of_onCurve hP) hB hB0 (horder.mp rfl)
  · exact ⟨_, pairingFn_of_not_onCurve hcurve⟩

/-- Settles O50: the points are read, and the value of the pairing is defined on them. -/
theorem pairingNeverRaises : Obligations.PairingNeverRaises := by
  intro s rd ra rb hd hra hrb
  obtain ⟨P, Q, -, -, hgives⟩ := pairing_completes hd hra hrb
  obtain ⟨f, hf⟩ := exists_pairingFn P Q
  obtain ⟨-, t, hexec, hwrote⟩ := hgives f hf
  exact ⟨t, _, hexec, rfl, hwrote⟩

end Sys2Proof.Proofs
end

section
/-! Square roots (46_codec.md R570 to R573). At level 1 Euler's criterion is the machine's test. At level 2, in Mathlib's
quadratic algebra, raising to `p` is conjugation, so the machine's test value is `alpha ^ (p + 1)`, which is 1 or -1 for a
nonzero operand: -1 exactly when there is no root. -/

namespace Sys2Proof.Proofs

open Sys2Proof.Machine
open Sys2Proof.Reference
open Sys2Proof.Laws
open Sys2Proof.Config (p)

/-! ## The exponents -/

theorem half_p_pos : 0 < (p - 1) / 2 := by decide

theorem quarter_double : (p + 1) / 4 + (p + 1) / 4 = (p - 1) / 2 + 1 := by decide

theorem half_double : (p - 1) / 2 + (p - 1) / 2 = p - 1 := by decide

/-! ## Level 1 (R570) -/

theorem euler_iff (n : F) : n ^ ((p - 1) / 2) = 1 ↔ n ≠ 0 ∧ IsSquare n := by
  have : Fact (Nat.Prime p) := ⟨p_prime⟩
  rcases eq_or_ne n 0 with rfl | hn
  · simp [half_p_pos.ne']
  · rw [show (p - 1) / 2 = p / 2 by decide, ← ZMod.euler_criterion p hn]
    exact (and_iff_right hn).symm

/-- The square of the root is the value times Euler's power of it, which is 1. -/
theorem quarter_power_square {n : F} (h : n ^ ((p - 1) / 2) = 1) : n ^ ((p + 1) / 4) * n ^ ((p + 1) / 4) = n := by
  rw [← pow_add, quarter_double, pow_succ, h, one_mul]

/-- All that `ts_sqrt` does: the root of a nonzero square, else NoSquareRoot. -/
theorem tsSqrt_cases (n : Fp) :
    (∃ y, tsSqrt n = .ok y ∧ toF y = toF n ^ ((p + 1) / 4) ∧ toF y * toF y = toF n ∧ toF n ≠ 0 ∧ IsSquare (toF n)) ∨
    (tsSqrt n = .error .noSquareRoot ∧ ¬(toF n ≠ 0 ∧ IsSquare (toF n))) := by
  have htest : fpPow n ((p - 1) / 2) = fpOne ↔ toF n ^ ((p - 1) / 2) = 1 := by
    rw [← toF_injective.eq_iff, toF_pow, toF_one]
  by_cases h : fpPow n ((p - 1) / 2) = fpOne
  · have hpow := htest.mp h
    exact .inl ⟨_, if_pos h, toF_pow n _, by rw [toF_pow, quarter_power_square hpow], (euler_iff _).mp hpow⟩
  · exact .inr ⟨if_neg h, fun hsq => h (htest.mpr ((euler_iff _).mpr hsq))⟩

/-! ## Level 2 in the quadratic algebra (R572) -/

/-- The `alpha` of R572. -/
def alphaK (a : K2) : K2 := a ^ ((p - 1) / 2)

/-- The `x0` of R572. -/
def x0K (a : K2) : K2 := a ^ ((p + 1) / 4)

theorem x0K_square (a : K2) : x0K a * x0K a = alphaK a * a := by
  rw [x0K, alphaK, ← pow_add, quarter_double, pow_succ]

theorem alphaK_zero : alphaK 0 = 0 := zero_pow half_p_pos.ne'

section Quadratic

variable [Fact (Nat.Prime p)]

/-- `u ^ p = -u`, as `(p - 1) / 2` is odd. -/
theorem omega_pow_p : (QuadraticAlgebra.omega : K2) ^ p = -QuadraticAlgebra.omega := by
  have hsq : (QuadraticAlgebra.omega : K2) ^ 2 = -1 := by
    rw [sq, QuadraticAlgebra.omega_mul_omega_eq_add, zero_smul, add_zero, neg_one_smul]
  have hodd : Odd ((p - 1) / 2) := by decide
  calc (QuadraticAlgebra.omega : K2) ^ p = QuadraticAlgebra.omega ^ (2 * ((p - 1) / 2) + 1) := rfl
    _ = -QuadraticAlgebra.omega := by rw [pow_succ, pow_mul, hsq, hodd.neg_one_pow, neg_one_mul]

/-- The Frobenius map is conjugation. -/
theorem pow_p_eq_star (x : K2) : x ^ p = star x := by
  have : CharP K2 p := charP_of_injective_algebraMap (algebraMap F K2).injective p
  obtain ⟨a, b⟩ := x
  rw [QuadraticAlgebra.mk_eq_add_smul_omega, add_pow_char, ← map_pow, ZMod.pow_card, smul_pow, ZMod.pow_card, omega_pow_p]
  ext <;> simp

variable [Fact (∀ x : F, x ^ 2 ≠ -1 + 0 * x)]

theorem alphaK_square_mul (a : K2) : alphaK a * alphaK a * a = star a := by
  rw [← pow_p_eq_star, alphaK, ← pow_add, half_double, ← pow_succ]
  rfl

/-- The value that R572 tests is a sign: `a alpha^2 = a^p`, the conjugate of `a`. -/
theorem star_mul_alphaK {a : K2} (ha : a ≠ 0) : star (alphaK a) * alphaK a = 1 ∨ star (alphaK a) * alphaK a = -1 := by
  have hconj := alphaK_square_mul a
  have hback : star (alphaK a) * star (alphaK a) * star a = a := by
    rw [← star_mul', ← star_mul', hconj, star_star]
  rw [← mul_self_eq_one_iff]
  apply mul_right_cancel₀ ha
  calc star (alphaK a) * alphaK a * (star (alphaK a) * alphaK a) * a
      = star (alphaK a) * star (alphaK a) * (alphaK a * alphaK a * a) := by ring
    _ = 1 * a := by rw [hconj, hback, one_mul]

theorem two_ne_zero_K2 : (2 : K2) ≠ 0 := noOrderTwo_b2.two_ne_zero

/-- A nonzero square has test value 1: for `a = z^2`, `z alpha` is the conjugate of `z`. -/
theorem star_mul_alphaK_of_square {z : K2} (hz : z ≠ 0) : star (alphaK (z * z)) * alphaK (z * z) = 1 := by
  have hconj : alphaK (z * z) * z = star z := by
    rw [← pow_p_eq_star, alphaK, ← sq, ← pow_mul, ← pow_succ]
    rfl
  have hback : star (alphaK (z * z)) * star z = z := by rw [← star_mul', hconj, star_star]
  apply mul_right_cancel₀ (mul_ne_zero hz (star_ne_zero.mpr hz))
  calc star (alphaK (z * z)) * alphaK (z * z) * (z * star z)
      = star (alphaK (z * z)) * star z * (alphaK (z * z) * z) := by ring
    _ = 1 * (z * star z) := by rw [hconj, hback, one_mul]

theorem star_mul_alphaK_ne_of_square (z : K2) : star (alphaK (z * z)) * alphaK (z * z) ≠ -1 := by
  rcases eq_or_ne z 0 with rfl | hz
  · rw [mul_zero, alphaK_zero, mul_zero]
    exact (neg_ne_zero.mpr one_ne_zero).symm
  · rw [star_mul_alphaK_of_square hz]
    exact fun h => two_ne_zero_K2 (by linear_combination h)

/-- The rotation: multiplication by `u` negates the square. -/
theorem rotated_root_square {a : K2} (h : alphaK a = -1) :
    QuadraticAlgebra.omega * x0K a * (QuadraticAlgebra.omega * x0K a) = a := by
  rw [mul_mul_mul_comm, x0K_square, h, QuadraticAlgebra.omega_mul_omega_eq_add]
  simp

/-- With test value 1 and `alpha` other than -1, `(alpha + 1)^(p - 1)` is the inverse of `alpha`. -/
theorem general_root_square {a : K2} (h1 : star (alphaK a) * alphaK a = 1) (hne : alphaK a ≠ -1) :
    (alphaK a + 1) ^ ((p - 1) / 2) * x0K a * ((alphaK a + 1) ^ ((p - 1) / 2) * x0K a) = a := by
  have hsum : alphaK a + 1 ≠ 0 := fun h => hne (eq_neg_of_add_eq_zero_left h)
  have hinv : (alphaK a + 1) ^ (p - 1) * alphaK a = 1 := by
    apply mul_left_cancel₀ hsum
    calc (alphaK a + 1) * ((alphaK a + 1) ^ (p - 1) * alphaK a) = (alphaK a + 1) ^ p * alphaK a := by
          rw [← mul_assoc, ← pow_succ']; rfl
      _ = star (alphaK a) * alphaK a + alphaK a := by rw [pow_p_eq_star, star_add, star_one]; ring
      _ = (alphaK a + 1) * 1 := by rw [h1]; ring
  rw [mul_mul_mul_comm, x0K_square, ← pow_add, half_double, ← mul_assoc, hinv, one_mul]

end Quadratic

/-! ## Level 2 (R572) -/

/-- The conjugate, `alpha^p` of R572. -/
def conj2 (a : F2) : F2 := (a.1, -a.2)

theorem toF2_conj (a : Fp2) : toF2 (fp2Conj a) = conj2 (toF2 a) := by
  simp only [toF2, fp2Conj, conj2, toF_neg]

theorem toK_conj2 (a : F2) : toK (conj2 a) = star (toK a) := by
  ext <;> simp [toK, conj2]

theorem toK_power (a : F2) (n : Nat) : toK (power T2 a n) = toK a ^ n := by
  induction n with
  | zero => rfl
  | succ n ih => rw [pow_succ, ← ih]; exact toK_mul _ _

/-- The `alpha` of R572 at the reference level. -/
def alphaF2 (a : F2) : F2 := power T2 a ((p - 1) / 2)

/-- The `x0` of R572 at the reference level. -/
def x0F2 (a : F2) : F2 := power T2 a ((p + 1) / 4)

/-- The root of R572, whatever the test says. -/
def rootF2 (a : F2) : F2 :=
  if alphaF2 a = -T2.one then (-(x0F2 a).2, (x0F2 a).1)
  else mul2 (power T2 (alphaF2 a + T2.one) ((p - 1) / 2)) (x0F2 a)

/-- The test of R572 that there is no root. -/
def NoRoot2 (a : F2) : Prop := mul2 (conj2 (alphaF2 a)) (alphaF2 a) = -T2.one

theorem toK_neg_one : toK (-T2.one) = -1 := rfl

theorem toK_rotate (a : F2) : toK (-a.2, a.1) = QuadraticAlgebra.omega * toK a := by
  ext <;> simp [toK]

theorem toK_alphaF2 (a : F2) : toK (alphaF2 a) = alphaK (toK a) := toK_power a _

theorem toK_x0F2 (a : F2) : toK (x0F2 a) = x0K (toK a) := toK_power a _

theorem alphaF2_eq_iff (a : F2) : alphaF2 a = -T2.one ↔ alphaK (toK a) = -1 := by
  rw [← toK_injective.eq_iff, toK_alphaF2, toK_neg_one]

theorem noRoot2_iff (a : F2) : NoRoot2 a ↔ star (alphaK (toK a)) * alphaK (toK a) = -1 := by
  rw [NoRoot2, ← toK_injective.eq_iff, toK_mul, toK_conj2, toK_alphaF2, toK_neg_one]

theorem not_square_of_noRoot2 {a : F2} (h : NoRoot2 a) : ¬∃ z, mul2 z z = a := by
  have : Fact (Nat.Prime p) := ⟨p_prime⟩
  have : Fact (∀ x : F, x ^ 2 ≠ -1 + 0 * x) := ⟨neg_one_not_square⟩
  rintro ⟨z, rfl⟩
  rw [noRoot2_iff, toK_mul] at h
  exact star_mul_alphaK_ne_of_square _ h

theorem rootF2_square {a : F2} (h : ¬NoRoot2 a) : mul2 (rootF2 a) (rootF2 a) = a := by
  have : Fact (Nat.Prime p) := ⟨p_prime⟩
  have : Fact (∀ x : F, x ^ 2 ≠ -1 + 0 * x) := ⟨neg_one_not_square⟩
  rw [noRoot2_iff] at h
  apply toK_injective
  rw [toK_mul, rootF2]
  split
  case isTrue hrot =>
    rw [toK_rotate, toK_x0F2]
    exact rotated_root_square ((alphaF2_eq_iff a).mp hrot)
  case isFalse hrot =>
    rw [toK_mul, toK_power, toK_add, toK_x0F2, toK_alphaF2]
    rcases eq_or_ne (toK a) 0 with ha | ha
    · rw [ha, x0K, zero_pow (by decide), mul_zero, mul_zero]
    · exact general_root_square ((star_mul_alphaK ha).resolve_right h) (mt (alphaF2_eq_iff a).mpr hrot)

/-! ## The machine's root at level 2 -/

theorem toF2_pow (a : Fp2) (e : Nat) : toF2 (fp2Pow a e) = power T2 (toF2 a) e := pow_eq_power link2 a e

theorem toF2_minusOne : toF2 fp2MinusOne = -T2.one := by rw [fp2MinusOne, toF2_neg, toF2_one]

/-- The machine's `x0`, `alpha` and root. -/
def x0Fp2 (a : Fp2) : Fp2 := fp2Mul (fp2Pow a ((p - 3) / 4)) a

def alphaFp2 (a : Fp2) : Fp2 := fp2Mul (fp2Pow a ((p - 3) / 4)) (x0Fp2 a)

def rootFp2 (a : Fp2) : Fp2 :=
  if alphaFp2 a = fp2MinusOne then ⟨fpNeg (x0Fp2 a).a1, (x0Fp2 a).a0⟩
  else fp2Mul (fp2Pow (fp2Add (alphaFp2 a) fp2One) ((p - 1) / 2)) (x0Fp2 a)

theorem fp2Sqrt_eq (a : Fp2) :
    fp2Sqrt a = if fp2Mul (fp2Conj (alphaFp2 a)) (alphaFp2 a) = fp2MinusOne then .error .noSquareRoot
      else .ok (rootFp2 a) := by
  rw [rootFp2, apply_ite Except.ok]
  rfl

theorem toF2_x0Fp2 (a : Fp2) : toF2 (x0Fp2 a) = x0F2 (toF2 a) := by
  rw [x0Fp2, toF2_mul, toF2_pow]
  rfl

theorem toF2_alphaFp2 (a : Fp2) : toF2 (alphaFp2 a) = alphaF2 (toF2 a) := by
  rw [alphaFp2, toF2_mul, toF2_x0Fp2, toF2_pow]
  exact (power_add link2 _ _ _).symm

theorem alphaFp2_eq_iff (a : Fp2) : alphaFp2 a = fp2MinusOne ↔ alphaF2 (toF2 a) = -T2.one := by
  rw [← toF2_injective.eq_iff, toF2_alphaFp2, toF2_minusOne]

theorem noRootTest_iff (a : Fp2) :
    fp2Mul (fp2Conj (alphaFp2 a)) (alphaFp2 a) = fp2MinusOne ↔ NoRoot2 (toF2 a) := by
  rw [← toF2_injective.eq_iff, toF2_mul, toF2_conj, toF2_alphaFp2, toF2_minusOne, NoRoot2]

theorem toF2_rootFp2 (a : Fp2) : toF2 (rootFp2 a) = rootF2 (toF2 a) := by
  have hrotate : toF2 ⟨fpNeg (x0Fp2 a).a1, (x0Fp2 a).a0⟩ = (-(x0F2 (toF2 a)).2, (x0F2 (toF2 a)).1) := by
    rw [← toF2_x0Fp2, toF2, toF_neg]
    rfl
  simp only [rootFp2, rootF2, apply_ite toF2, alphaFp2_eq_iff, hrotate, toF2_mul, toF2_pow, toF2_add, toF2_one,
    toF2_alphaFp2, toF2_x0Fp2]

/-- All that `fp2_sqrt` does: the root of R572 for a square, zero included, else NoSquareRoot. -/
theorem fp2Sqrt_cases (a : Fp2) :
    (∃ y, fp2Sqrt a = .ok y ∧ toF2 y = rootF2 (toF2 a) ∧ mul2 (toF2 y) (toF2 y) = toF2 a) ∨
    (fp2Sqrt a = .error .noSquareRoot ∧ ¬∃ z, mul2 z z = toF2 a) := by
  rw [fp2Sqrt_eq]
  by_cases hno : NoRoot2 (toF2 a)
  · exact .inr ⟨if_pos ((noRootTest_iff a).mpr hno), not_square_of_noRoot2 hno⟩
  · exact .inl ⟨_, if_neg (mt (noRootTest_iff a).mp hno), toF2_rootFp2 a, by rw [toF2_rootFp2, rootF2_square hno]⟩

/-! ## The commands -/

/-- Settles O53: an operand in range is read, and `ts_sqrt` gives its root or raises, by Euler's criterion. -/
theorem squareRootOneGives : Obligations.SquareRootOneGives := by
  intro s rd ra hra
  obtain ⟨n, hn, hfn⟩ := rdF_ok link1 s ra.toNat hra.2
  have row : CommandRow (.sqrt1 rd ra) 0x30 0 rd ra 0 0 [(rd, 1), (ra, 1)] (unaryRule lv1 tsSqrt rd ra) := {}
  have hops : ∀ o ∈ [(rd, 1), (ra, 1)], o.1.toNat + o.2 ≤ 64 := by simpa using And.intro rd.isLt ra.isLt
  have hrule := unaryRule_ok (rd := rd) tsSqrt hn
  rw [← hfn]
  rcases tsSqrt_cases n with ⟨y, hy, hroot, hsq, hsquare⟩ | ⟨herr, hnone⟩
  · refine ⟨fun _ => row.completes hops ⟨toF y, hsq, hroot, ?_⟩, ?_⟩
    · rw [hrule, hy, ok_bind]
      exact wrote_wrF link1 s rd.isLt y
    · rintro (h0 | hno)
      · exact absurd h0 hsquare.1
      · exact absurd hsquare.2 hno
  · rw [herr, error_bind] at hrule
    exact ⟨fun h => absurd h hnone, fun _ => row.raises hops hrule⟩

/-- Settles O54: the machine's root is that of R572, and its test says whether there is one. -/
theorem squareRootTwoGives : Obligations.SquareRootTwoGives := by
  intro s rd ra hd hra
  obtain ⟨a, ha, hfa⟩ := rdF_ok link2 s ra.toNat hra.2
  have row : CommandRow (.sqrt2 rd ra) 0x30 1 rd ra 0 0 [(rd, 2), (ra, 2)] (unaryRule lv2 fp2Sqrt rd ra) := {}
  have hops : ∀ o ∈ [(rd, 2), (ra, 2)], o.1.toNat + o.2 ≤ 64 := by simpa using And.intro hd hra.1
  have hrule := unaryRule_ok (rd := rd) fp2Sqrt ha
  rw [← hfa]
  rcases fp2Sqrt_cases a with ⟨y, hy, hroot, hsq⟩ | ⟨herr, hnone⟩
  · refine ⟨fun _ => row.completes hops ⟨toF2 y, hsq, ?_, hroot⟩, fun hno => absurd ⟨_, hsq⟩ hno⟩
    rw [hrule, hy, ok_bind]
    exact wrote_wrF link2 s hd y
  · rw [herr, error_bind] at hrule
    exact ⟨fun h => absurd h hnone, fun _ => row.raises hops hrule⟩

end Sys2Proof.Proofs
end

section
/-! The encodings of points (46_codec.md R574 to R577) and `compress` (R580, R582): the words of an encoding as numbers, and
the command once for both levels, as the subgroup test followed by one write. -/

namespace Sys2Proof.Proofs

open Sys2Proof.Machine
open Sys2Proof.Reference
open Sys2Proof.Laws
open Sys2Proof.Config (p)

/-! ## Signs (R574) -/

theorem sign1Of_toF (y : Fp) : sign1Of (toF y) = (sign1 y).toNat := by
  rw [sign1Of, val_toF, sign1, Bool.toNat, Bool.cond_decide]

theorem sign2Of_toF2 (y : Fp2) : sign2Of (toF2 y) = (sign2 y).toNat := by
  rw [sign2Of, sign2, apply_ite Bool.toNat]
  exact if_congr toF_eq_zero (sign1Of_toF y.a0) (sign1Of_toF y.a1)

theorem sign1Of_le_one (y : F) : sign1Of y ≤ 1 := by
  rw [sign1Of]
  split <;> decide

theorem sign2Of_le_one (y : F2) : sign2Of y ≤ 1 := by
  rw [sign2Of]
  split
  · exact sign1Of_le_one y.1
  · exact sign1Of_le_one y.2

/-! ## The encoded words as numbers (R575 to R577) -/

theorem p_lt_two_pow : p < 2 ^ 381 := by decide +kernel

theorem toNat_encodedWord (b : Bool) (x : Fp) : (encodedWord b x).toNat = codeWord b.toNat (toF x) := by
  have hx : x.val < 2 ^ 381 := lt_trans x.isLt p_lt_two_pow
  have hsign : (if b then 2 ^ 381 else 0) = b.toNat * 2 ^ 381 := by
    cases b
    · rw [if_neg Bool.false_ne_true, Bool.toNat_false, Nat.zero_mul]
    · rw [if_pos rfl, Bool.toNat_true, Nat.one_mul]
  have hb : b.toNat ≤ 1 := Bool.toNat_le b
  rw [encodedWord, codeWord, val_toF, hsign, BitVec.toNat_ofNat, Nat.mod_eq_of_lt]
  omega

theorem toNat_infEncoding : infEncoding.toNat = 2 ^ 383 + 2 ^ 382 := by decide +kernel

/-- The words that `compress.1` writes. -/
def encode1 (P : Point Fp) : List Word := if P.inf then [infEncoding] else [encodedWord (sign1 P.y) P.x]

/-- The words that `compress.2` writes. -/
def encode2 (P : Point Fp2) : List Word :=
  if P.inf then [infEncoding, 0] else [encodedWord (sign2 P.y) P.x.a1, fpWord P.x.a0]

theorem encode1_length (P : Point Fp) : (encode1 P).length = 1 := by
  rw [encode1]
  split <;> rfl

theorem encode2_length (P : Point Fp2) : (encode2 P).length = 2 := by
  rw [encode2]
  split <;> rfl

theorem encode1_toNat (P : Point Fp) :
    (encode1 P).map BitVec.toNat = [if P.inf then 2 ^ 383 + 2 ^ 382 else codeWord (sign1Of (toF P.y)) (toF P.x)] := by
  rw [encode1]
  split
  · rw [List.map_singleton, toNat_infEncoding]
  · rw [List.map_singleton, toNat_encodedWord, sign1Of_toF]

theorem encode2_toNat (P : Point Fp2) :
    (encode2 P).map BitVec.toNat = if P.inf then [2 ^ 383 + 2 ^ 382, 0]
      else [codeWord (sign2Of (toF2 P.y)) (toF P.x.a1), (toF P.x.a0).val] := by
  rw [encode2]
  split
  · simp only [List.map_cons, List.map_nil, toNat_infEncoding, BitVec.ofNat_eq_ofNat, BitVec.toNat_zero]
  · rw [List.map_cons, List.map_singleton, toNat_encodedWord, sign2Of_toF2, fpWord_toNat, val_toF]

/-! ## The subgroup test, then the write -/

/-- Membership in the subgroup decides between the encoding and InvalidSubgroup. -/
def encodeMember (ws : List Word) (member : Bool) : Res (List Word) :=
  if member then .ok ws else .error .invalidSubgroup

theorem compressG1_eq (P : Point Fp) : compressG1 P = (inSubgroup lv1 P >>= encodeMember (encode1 P)) := by
  rw [compressG1]
  congr 1
  funext member
  cases member
  · rfl
  · exact (apply_ite Except.ok _ _ _).symm

theorem compressG2_eq (P : Point Fp2) : compressG2 P = (inSubgroup lv2 P >>= encodeMember (encode2 P)) := by
  rw [compressG2]
  congr 1
  funext member
  cases member
  · rfl
  · exact (apply_ite Except.ok _ _ _).symm

section Level

variable {α β : Type} [AddCommGroup β] [DecidableEq α] {L : Level α} {T : Tower β} {f : α → β} {P : Point α}

theorem inSubgroup_of_isMultiple (c : CurveLink L T f) {R : Point β}
    (h : IsMultiple T Config.r false (mapPoint f P) R) : inSubgroup L P = .ok R.inf :=
  (inSubgroup_iff c P R.inf).mpr ⟨R, h, rfl⟩

theorem inSubgroup_of_no_multiple (c : CurveLink L T f) (h : ¬∃ R, IsMultiple T Config.r false (mapPoint f P) R) :
    inSubgroup L P = .error .inverseOfZero := by
  cases hm : mulPoint L Config.r false P with
  | ok Q => exact absurd ⟨_, (mulPoint_iff c _ false P _).mpr ⟨Q, hm, rfl⟩⟩ h
  | error e => rw [inSubgroup, hm, error_bind, mulLoop_error c _ _ _ _ e hm]

/-- A command whose rule is the subgroup test, then a write of the words `ws`. -/
theorem compress_completes_or_raises (c : CurveLink L T f) {i : Instr} {op lv : Nat} {rd ra : Reg}
    {ops : List (Reg × Nat)} {rule : Regs → Res Effect} {s : State} {ws : List Word} {vs : List Nat}
    (row : CommandRow i op lv rd ra 0 0 ops rule) (hops : ∀ o ∈ ops, o.1.toNat + o.2 ≤ 64)
    (hd : rd.toNat + ws.length ≤ 64) (hvs : ws.map BitVec.toNat = vs)
    (hrule : rule s.w = (inSubgroup L P >>= encodeMember ws) >>= fun z => .ok (.regs rd.toNat z)) :
    (∀ R, IsMultiple T Config.r false (mapPoint f P) R → R.inf = true →
      Completes (commandWord op lv rd ra 0 0) i s fun t => Wrote s t rd.toNat vs) ∧
    (∀ R, IsMultiple T Config.r false (mapPoint f P) R → R.inf = false → ∃ t, exec i s = .next t ∧ Raised s t 1) ∧
    ((¬∃ R, IsMultiple T Config.r false (mapPoint f P) R) → ∃ t, exec i s = .next t ∧ Raised s t 9) := by
  refine ⟨fun R hR hinf => ?_, fun R hR hinf => ?_, fun hnone => ?_⟩
  · rw [inSubgroup_of_isMultiple c hR, hinf] at hrule
    refine row.completes hops ?_
    rw [hrule, ← hvs]
    exact wrote_of_regs s rd.toNat ws hd
  · rw [inSubgroup_of_isMultiple c hR, hinf] at hrule
    exact row.raises hops hrule
  · rw [inSubgroup_of_no_multiple c hnone] at hrule
    exact row.raises hops hrule

end Level

/-! ## The commands -/

theorem compress1Rule_eq {w : Regs} {rd ra : Reg} {P : Point Fp} (hP : rdPt lv1 w ra.toNat = .ok P) :
    compress1Rule rd ra w = (inSubgroup lv1 P >>= encodeMember (encode1 P)) >>= fun z => .ok (.regs rd.toNat z) := by
  rw [compress1Rule, hP, ok_bind, compressG1_eq]
  rfl

theorem compress2Rule_eq {w : Regs} {rd ra : Reg} {P : Point Fp2} (hP : rdPt lv2 w ra.toNat = .ok P) :
    compress2Rule rd ra w = (inSubgroup lv2 P >>= encodeMember (encode2 P)) >>= fun z => .ok (.regs rd.toNat z) := by
  rw [compress2Rule, hP, ok_bind, compressG2_eq]
  rfl

/-- Settles O55: the point is read, and the subgroup test decides. -/
theorem compressOneGives : Obligations.CompressOneGives := by
  intro s rd ra hra
  obtain ⟨P, hP, hPat⟩ := rdPt_ok link1 s ra.toNat hra
  have row : CommandRow (.compress1 rd ra) 0x31 0 rd ra 0 0 [(rd, 1), (ra, 3)] (compress1Rule rd ra) := {}
  rw [← hPat]
  exact compress_completes_or_raises curve1 row (by simpa using And.intro rd.isLt hra.1)
    (by rw [encode1_length]; exact rd.isLt) (encode1_toNat P) (compress1Rule_eq hP)

/-- Settles O56: the point is read, and the subgroup test decides. -/
theorem compressTwoGives : Obligations.CompressTwoGives := by
  intro s rd ra hd hra
  obtain ⟨P, hP, hPat⟩ := rdPt_ok link2 s ra.toNat hra
  have row : CommandRow (.compress2 rd ra) 0x31 1 rd ra 0 0 [(rd, 2), (ra, 5)] (compress2Rule rd ra) := {}
  rw [← hPat]
  exact compress_completes_or_raises curve2 row (by simpa using And.intro hd hra.1)
    (by rw [encode2_length]; exact hd) (encode2_toNat P) (compress2Rule_eq hP)

end Sys2Proof.Proofs
end

section
/-! `decompress` (46_codec.md R581, R583). The fields of a word decide between MalformedEncoding, infinity and a finite point;
for a finite point both levels take the root of the curve equation's right side and give it the encoded sign, which the root
or its negative has, as neither curve has a point with `y = 0`. -/

namespace Sys2Proof.Proofs

open Sys2Proof.Machine
open Sys2Proof.Reference
open Sys2Proof.Laws
open Sys2Proof.Config (p)

/-! ## The fields of an encoded word (R575, R576) -/

theorem flagC_toNat (z : Word) : (flagC z).toNat = z.toNat / 2 ^ 383 % 2 := by
  rw [flagC, BitVec.getLsbD, Nat.toNat_testBit]

theorem flagI_toNat (z : Word) : (flagI z).toNat = z.toNat / 2 ^ 382 % 2 := by
  rw [flagI, BitVec.getLsbD, Nat.toNat_testBit]

theorem flagS_toNat (z : Word) : (flagS z).toNat = z.toNat / 2 ^ 381 % 2 := by
  rw [flagS, BitVec.getLsbD, Nat.toNat_testBit]

theorem coordField_eq (z : Word) : coordField z = z.toNat % 2 ^ 381 := by
  rw [coordField, BitVec.extractLsb'_toNat, Nat.shiftRight_zero]

/-- The three top bits of the second word are 0 exactly when it is below `2^381`. -/
theorem topBits_bne_zero_iff (z : Word) : (z.extractLsb' 381 3 != 0) = true ↔ 2 ^ 381 ≤ z.toNat := by
  have hz := z.isLt
  rw [bne_iff_ne, ne_eq, ← BitVec.toNat_inj, BitVec.extractLsb'_toNat, Nat.shiftRight_eq_div_pow, BitVec.ofNat_eq_ofNat,
    BitVec.toNat_zero]
  omega

/-! ## The three outcomes of R581 -/

/-- The right side of the curve equation. -/
def rhs1 (x : Fp) : Fp := fpAdd (fpMul (fpMul x x) x) curveB1

theorem toF_rhs1 (x : Fp) : toF (rhs1 x) = toF x * toF x * toF x + 4 := by
  rw [rhs1, toF_add, toF_mul, toF_mul, toF_curveB1, b1]

section WordOne

variable {z : Word}

theorem decompressG1_malformed
    (h : flagC z = false ∨ (flagI z = true ∧ (flagS z = true ∨ coordField z ≠ 0)) ∨ (flagI z = false ∧ p ≤ coordField z)) :
    decompressG1 z = .error .malformedEncoding := by
  rw [decompressG1]
  split
  · rfl
  next hC =>
    have h := h.resolve_left (by simpa using hC)
    rcases h with ⟨hI, h⟩ | ⟨hI, h⟩
    · rw [if_pos hI, if_pos (by simpa using h)]
    · rw [if_neg (Bool.eq_false_iff.mp hI), dif_neg h.not_gt]

theorem decompressG1_infinity (hC : flagC z = true) (hI : flagI z = true) (hS : flagS z = false)
    (hx : coordField z = 0) : decompressG1 z = .ok (infPoint lv1) := by
  simp [decompressG1, hC, hI, hS, hx]

theorem decompressG1_finite (hC : flagC z = true) (hI : flagI z = false) (hx : coordField z < p) :
    decompressG1 z =
      (tsSqrt (rhs1 ⟨coordField z, hx⟩) >>= fun y => .ok ⟨⟨coordField z, hx⟩, withSign1 y (flagS z), false⟩) := by
  rw [decompressG1, hC, hI, dif_pos hx]
  rfl

end WordOne

/-! ## The three outcomes of R583 -/

/-- The right side of the twist's equation. -/
def rhs2 (x : Fp2) : Fp2 := fp2Add (fp2Mul (fp2Mul x x) x) curveB2

theorem toF2_rhs2 (x : Fp2) : toF2 (rhs2 x) = mul2 (mul2 (toF2 x) (toF2 x)) (toF2 x) + b2 := by
  rw [rhs2, toF2_add, toF2_mul, toF2_mul, toF2_curveB2]

section WordsTwo

variable {z1 z0 : Word}

theorem decompressG2_malformed
    (h : flagC z1 = false ∨ 2 ^ 381 ≤ z0.toNat ∨
      (flagI z1 = true ∧ (flagS z1 = true ∨ coordField z1 ≠ 0 ∨ z0.toNat ≠ 0)) ∨
      (flagI z1 = false ∧ (p ≤ coordField z1 ∨ p ≤ z0.toNat))) :
    decompressG2 z1 z0 = .error .malformedEncoding := by
  rw [decompressG2]
  split
  · rfl
  next hC =>
    split
    · rfl
    next htop =>
      have h := (h.resolve_left (by simpa using hC)).resolve_left (mt (topBits_bne_zero_iff z0).mpr htop)
      rcases h with ⟨hI, h⟩ | ⟨hI, h⟩
      · rw [if_pos hI, if_pos (by simpa [or_assoc] using h)]
      · rw [if_neg (Bool.eq_false_iff.mp hI), dif_neg (by omega)]

theorem decompressG2_infinity (hC : flagC z1 = true) (hI : flagI z1 = true) (hS : flagS z1 = false)
    (hx : coordField z1 = 0) (h0 : z0.toNat = 0) : decompressG2 z1 z0 = .ok (infPoint lv2) := by
  have hz0 : z0 = 0 := BitVec.eq_of_toNat_eq h0
  simp [decompressG2, hC, hI, hS, hx, hz0]

theorem decompressG2_finite (hC : flagC z1 = true) (hI : flagI z1 = false) (h1 : coordField z1 < p) (h0 : z0.toNat < p) :
    decompressG2 z1 z0 =
      (fp2Sqrt (rhs2 ⟨⟨z0.toNat, h0⟩, ⟨coordField z1, h1⟩⟩) >>= fun y =>
        .ok ⟨⟨⟨z0.toNat, h0⟩, ⟨coordField z1, h1⟩⟩, withSign2 y (flagS z1), false⟩) := by
  have htop : (z0.extractLsb' 381 3 != 0) = false := by
    rw [Bool.eq_false_iff, ne_eq, topBits_bne_zero_iff, not_le]
    exact h0.trans p_lt_two_pow
  rw [decompressG2, hC, hI, htop, dif_pos ⟨h1, h0⟩]
  rfl

end WordsTwo

/-! ## The root with the encoded sign -/

section Level

variable {α β : Type} [AddCommGroup β] {L : Level α} {T : Tower β} {f : α → β}

theorem mul_zero_of_link (link : Link L T f) (a : β) : T.mul a 0 = 0 := by
  have h := link.mulAdd a 0 0
  rwa [add_zero, left_eq_add] at h

theorem mul_neg_of_link (link : Link L T f) (a b : β) : T.mul a (-b) = -T.mul a b := by
  rw [eq_neg_iff_add_eq_zero, ← link.mulAdd, neg_add_cancel, mul_zero_of_link link]

theorem neg_mul_neg_of_link (link : Link L T f) (a : β) : T.mul (-a) (-a) = T.mul a a := by
  rw [mul_neg_of_link link, link.mulComm, mul_neg_of_link link, neg_neg]

/-- A level with square roots and a sign that tells a nonzero element from its negative (R570, R572, R574). -/
structure SignedRoots (L : Level α) (T : Tower β) (f : α → β) (sqrt : α → Res α) (sign : α → Bool) (sgn : β → Nat) :
    Prop where
  root : ∀ n, f n ≠ 0 → (∃ y, sqrt n = .ok y ∧ T.mul (f y) (f y) = f n) ∨
    (sqrt n = .error .noSquareRoot ∧ ¬∃ y, T.mul y y = f n)
  sign : ∀ y, sgn (f y) = (sign y).toNat
  neg : ∀ y, y ≠ 0 → sgn (-y) = 1 - sgn y
  eq_or_eq_neg : ∀ y z, T.mul y y = T.mul z z → y = z ∨ y = -z

variable {sqrt : α → Res α} {sign : α → Bool} {sgn : β → Nat}

/-- The root that has the sign `b` (R581, R583). -/
def rootOfSign (L : Level α) (sign : α → Bool) (y : α) (b : Bool) : α := if sign y = b then y else L.neg y

theorem SignedRoots.sgn_rootOfSign (roots : SignedRoots L T f sqrt sign sgn) (link : Link L T f) {y : α} (hy : f y ≠ 0)
    (b : Bool) : sgn (f (rootOfSign L sign y b)) = b.toNat := by
  rw [rootOfSign]
  split
  case isTrue h => rw [roots.sign, h]
  case isFalse h =>
    rw [link.neg, roots.neg _ hy, roots.sign, Bool.eq_not_of_ne h]
    cases b <;> rfl

theorem square_rootOfSign (link : Link L T f) (y : α) (b : Bool) :
    T.mul (f (rootOfSign L sign y b)) (f (rootOfSign L sign y b)) = T.mul (f y) (f y) := by
  rw [rootOfSign]
  split
  · rfl
  · rw [link.neg, neg_mul_neg_of_link link]

/-- A command whose rule writes the point with abscissa `x` and the root of `n` of sign `b`. -/
theorem decompress_completes_or_raises (roots : SignedRoots L T f sqrt sign sgn) (link : Link L T f) {i : Instr}
    {op lv : Nat} {rd ra : Reg} {ops : List (Reg × Nat)} {rule : Regs → Res Effect} {s : State} {n x : α} {m : β} {b : Bool}
    (row : CommandRow i op lv rd ra 0 0 ops rule) (hops : ∀ o ∈ ops, o.1.toNat + o.2 ≤ 64)
    (hd : rd.toNat + (2 * T.size + 1) ≤ 64) (hm : f n = m) (hm0 : m ≠ 0)
    (hrule : rule s.w = (sqrt n >>= fun y => .ok ⟨x, rootOfSign L sign y b, false⟩) >>= fun P => .ok (wrPt L rd P)) :
    ((∃ y, T.mul y y = m) → Completes (commandWord op lv rd ra 0 0) i s fun t =>
      ∃ y, T.mul y y = m ∧ sgn y = b.toNat ∧ Wrote s t rd.toNat (wordsOfPoint T ⟨f x, y, false⟩)) ∧
    ((¬∃ y, T.mul y y = m) → ∃ t, exec i s = .next t ∧ Raised s t 3) := by
  subst hm
  rcases roots.root n hm0 with ⟨y, hy, hsq⟩ | ⟨herr, hnone⟩
  · have hy0 : f y ≠ 0 := fun h0 => hm0 (by rw [← hsq, h0, mul_zero_of_link link])
    refine ⟨fun _ => row.completes hops ?_, fun hnone => absurd ⟨_, hsq⟩ hnone⟩
    refine ⟨f (rootOfSign L sign y b), by rw [square_rootOfSign link, hsq], roots.sgn_rootOfSign link hy0 b, ?_⟩
    rw [hrule, hy]
    exact wrote_wrPt link s hd ⟨x, rootOfSign L sign y b, false⟩
  · rw [herr] at hrule
    exact ⟨fun h => absurd h hnone, fun _ => row.raises hops hrule⟩

end Level

/-! ## The two levels -/

theorem sign1Of_neg {y : F} (hy : y ≠ 0) : sign1Of (-y) = 1 - sign1Of y := by
  have : Fact (Nat.Prime p) := ⟨p_prime⟩
  have : NeZero y := ⟨hy⟩
  have hodd : p % 2 = 1 := by decide
  have hlt : y.val < p := y.val_lt
  rw [sign1Of, sign1Of, ZMod.val_neg_of_ne_zero]
  split <;> split <;> omega

theorem sign2Of_neg {y : F2} (hy : y ≠ 0) : sign2Of (-y) = 1 - sign2Of y := by
  rw [sign2Of, sign2Of, Prod.snd_neg, Prod.fst_neg]
  by_cases h2 : y.2 = 0
  · rw [if_pos h2, if_pos (neg_eq_zero.mpr h2)]
    exact sign1Of_neg fun h1 => hy (Prod.ext h1 h2)
  · rw [if_neg h2, if_neg (neg_ne_zero.mpr h2)]
    exact sign1Of_neg h2

theorem signedRoots1 : SignedRoots lv1 T1 toF tsSqrt sign1 sign1Of where
  root n hn := by
    rcases tsSqrt_cases n with ⟨y, hy, -, hsq, -⟩ | ⟨herr, hnone⟩
    · exact .inl ⟨y, hy, hsq⟩
    · exact .inr ⟨herr, fun ⟨y, hy⟩ => hnone ⟨hn, y, hy.symm⟩⟩
  sign := sign1Of_toF
  neg _ := sign1Of_neg
  eq_or_eq_neg _ _ h := by
    have : Fact (Nat.Prime p) := ⟨p_prime⟩
    exact mul_self_eq_mul_self_iff.mp h

theorem signedRoots2 : SignedRoots lv2 T2 toF2 fp2Sqrt sign2 sign2Of where
  root n _ := by
    rcases fp2Sqrt_cases n with ⟨y, hy, -, hsq⟩ | hnone
    · exact .inl ⟨y, hy, hsq⟩
    · exact .inr hnone
  sign := sign2Of_toF2
  neg _ := sign2Of_neg
  eq_or_eq_neg y z h := by
    have : Fact (Nat.Prime p) := ⟨p_prime⟩
    have : Fact (∀ x : F, x ^ 2 ≠ -1 + 0 * x) := ⟨neg_one_not_square⟩
    have hK : toK y * toK y = toK z * toK z := by
      rw [← toK_mul, ← toK_mul]
      exact congrArg toK h
    rwa [mul_self_eq_mul_self_iff, ← toK_neg, toK_injective.eq_iff, toK_injective.eq_iff] at hK

/-- No point of G1's curve has `y = 0`: -4 is no cube. -/
theorem curve_rhs1_ne_zero (x : F) : x * x * x + 4 ≠ 0 := by
  have : Fact (Nat.Prime p) := ⟨p_prime⟩
  exact fun h => cube_ne_neg_four x (by linear_combination h)

/-- No point of G2's curve has `y = 0`: `-4 (u + 1)` is no cube. -/
theorem curve_rhs2_ne_zero (x : F2) : mul2 (mul2 x x) x + b2 ≠ 0 := by
  have : Fact (Nat.Prime p) := ⟨p_prime⟩
  have : Fact (∀ x : F, x ^ 2 ≠ -1 + 0 * x) := ⟨neg_one_not_square⟩
  intro h
  have hK := congrArg toK h
  rw [toK_add, toK_mul, toK_mul, toK_zero] at hK
  exact cube_ne_neg_b2 (toK x) (by linear_combination hK)

/-! ## The commands -/

theorem decompress1Rule_eq {w : Regs} {rd ra : Reg} {x : Res (Point Fp)} (h : decompressG1 (readWord w ra.toNat) = x) :
    decompress1Rule rd ra w = x >>= fun P => .ok (wrPt lv1 rd P) := by
  rw [decompress1Rule, h]
  rfl

theorem decompress2Rule_eq {w : Regs} {rd ra : Reg} {x : Res (Point Fp2)}
    (h : decompressG2 (readWord w ra.toNat) (readWord w (ra.toNat + 1)) = x) :
    decompress2Rule rd ra w = x >>= fun P => .ok (wrPt lv2 rd P) := by
  rw [decompress2Rule, h]
  rfl

theorem wordsOfPoint_finite1 (x y : F) : wordsOfPoint T1 ⟨x, y, false⟩ = [x.val, y.val, 0] := rfl

theorem wordsOfPoint_finite2 (x y : F2) :
    wordsOfPoint T2 ⟨x, y, false⟩ = [x.1.val, x.2.val, y.1.val, y.2.val, 0] := rfl

theorem wordsOfPoint_infPoint1 : wordsOfPoint T1 (mapPoint toF (infPoint lv1)) = [0, 0, 1] := by
  rw [mapPoint_infinity link1]
  rfl

theorem wordsOfPoint_infPoint2 : wordsOfPoint T2 (mapPoint toF2 (infPoint lv2)) = [0, 0, 0, 0, 1] := by
  rw [mapPoint_infinity link2]
  rfl

/-- Settles O57: the fields of the word decide, and on a finite point the root of the right side. -/
theorem decompressOneGives : Obligations.DecompressOneGives := by
  intro s rd ra hd
  have row : CommandRow (.decompress1 rd ra) 0x32 0 rd ra 0 0 [(rd, 3), (ra, 1)] (decompress1Rule rd ra) := {}
  have hops : ∀ o ∈ [(rd, 3), (ra, 1)], o.1.toNat + o.2 ≤ 64 := by simpa using And.intro hd ra.isLt
  simp only [wval, ← flagC_toNat, ← flagI_toNat, ← flagS_toNat, ← coordField_eq, Bool.toNat_eq_zero, Bool.toNat_eq_one]
  have hfinite (hC : flagC (readWord s.w ra.toNat) = true) (hI : flagI (readWord s.w ra.toNat) = false)
      (hx : coordField (readWord s.w ra.toNat) < p) :=
    decompress_completes_or_raises signedRoots1 link1 row hops hd (toF_rhs1 _) (curve_rhs1_ne_zero _)
      (decompress1Rule_eq (decompressG1_finite hC hI hx))
  refine ⟨fun hbad => ?_, ?_, ?_, ?_⟩
  · exact row.raises hops (decompress1Rule_eq (decompressG1_malformed hbad))
  · rintro ⟨hC, hI, hS, hx⟩
    refine row.completes hops ?_
    rw [decompress1Rule_eq (decompressG1_infinity hC hI hS hx), ← wordsOfPoint_infPoint1]
    exact wrote_wrPt link1 s hd (infPoint lv1)
  · rintro ⟨hC, hI, hx, r, hr⟩
    refine completes_mono ((hfinite hC hI hx).1 ⟨r, hr.symm⟩) fun t ⟨y, hy, hsign, hwrote⟩ => ⟨y, hy, hsign, ?_⟩
    rwa [wordsOfPoint_finite1, val_toF] at hwrote
  · rintro ⟨hC, hI, hx, hnone⟩
    exact (hfinite hC hI hx).2 fun ⟨y, hy⟩ => hnone ⟨y, hy.symm⟩

/-- Settles O58: the fields of the two words decide, and on a finite point the root of the right side. -/
theorem decompressTwoGives : Obligations.DecompressTwoGives := by
  intro s rd ra hd hra
  have row : CommandRow (.decompress2 rd ra) 0x32 1 rd ra 0 0 [(rd, 5), (ra, 2)] (decompress2Rule rd ra) := {}
  have hops : ∀ o ∈ [(rd, 5), (ra, 2)], o.1.toNat + o.2 ≤ 64 := by simpa using And.intro hd hra
  simp only [wval, ← flagC_toNat, ← flagI_toNat, ← flagS_toNat, ← coordField_eq, Bool.toNat_eq_zero, Bool.toNat_eq_one]
  have hfinite (hC : flagC (readWord s.w ra.toNat) = true) (hI : flagI (readWord s.w ra.toNat) = false)
      (h1 : coordField (readWord s.w ra.toNat) < p) (h0 : (readWord s.w (ra.toNat + 1)).toNat < p) :=
    decompress_completes_or_raises signedRoots2 link2 row hops hd (toF2_rhs2 _) (curve_rhs2_ne_zero _)
      (decompress2Rule_eq (decompressG2_finite hC hI h1 h0))
  refine ⟨fun hbad => ?_, ?_, ?_, ?_⟩
  · exact row.raises hops (decompress2Rule_eq (decompressG2_malformed hbad))
  · rintro ⟨hC, hI, hS, hx, h0⟩
    refine row.completes hops ?_
    rw [decompress2Rule_eq (decompressG2_infinity hC hI hS hx h0), ← wordsOfPoint_infPoint2]
    exact wrote_wrPt link2 s hd (infPoint lv2)
  · rintro ⟨hC, hI, h1, h0, r, hr⟩
    refine completes_mono ((hfinite hC hI h1 h0).1 ⟨r, hr⟩) fun t ⟨y, hy, hsign, hwrote⟩ => ⟨y, hy, hsign, ?_⟩
    rwa [wordsOfPoint_finite2, toF2, val_toF, val_toF] at hwrote
  · rintro ⟨hC, hI, h1, h0, hnone⟩
    exact (hfinite hC hI h1 h0).2 hnone

end Sys2Proof.Proofs
end

section
/-! Compression, then decompression (46_codec.md R584). The encoding keeps the abscissa and the sign of `y`; a root of the
curve equation's right side with that sign is `y` itself, as `y` is not zero. -/

namespace Sys2Proof.Proofs

open Sys2Proof.Machine
open Sys2Proof.Reference
open Sys2Proof.Laws
open Sys2Proof.Config (p)

/-- Square and sign determine a nonzero element. -/
theorem SignedRoots.eq_of_square_of_sign {α β : Type} [AddCommGroup β] {L : Level α} {T : Tower β} {f : α → β}
    {sqrt : α → Res α} {sign : α → Bool} {sgn : β → Nat} (roots : SignedRoots L T f sqrt sign sgn) {y z : β} (hz : z ≠ 0)
    (hsquare : T.mul y y = T.mul z z) (hsign : sgn y = sgn z) : y = z := by
  refine (roots.eq_or_eq_neg y z hsquare).resolve_right ?_
  rintro rfl
  have hneg := roots.neg z hz
  omega

/-- The fields of the first word of a finite point's encoding (R575). -/
theorem codeWord_fields {sg : Nat} (hsg : sg ≤ 1) (x : F) :
    codeWord sg x / 2 ^ 383 % 2 = 1 ∧ codeWord sg x / 2 ^ 382 % 2 = 0 ∧ codeWord sg x / 2 ^ 381 % 2 = sg ∧
      codeWord sg x % 2 ^ 381 = x.val := by
  have : NeZero p := ⟨by decide⟩
  have hx : x.val < 2 ^ 381 := x.val_lt.trans p_lt_two_pow
  rw [codeWord]
  refine ⟨?_, ?_, ?_, ?_⟩ <;> omega

theorem infinity_word_fields : (2 ^ 383 + 2 ^ 382) / 2 ^ 383 % 2 = 1 ∧ (2 ^ 383 + 2 ^ 382) / 2 ^ 382 % 2 = 1 ∧
    (2 ^ 383 + 2 ^ 382) / 2 ^ 381 % 2 = 0 ∧ (2 ^ 383 + 2 ^ 382) % 2 ^ 381 = 0 := by decide +kernel

variable {t : State} {re rd : Reg} {sg : Nat}

/-- Decompression of an encoding written by `compress.1` for a finite point of the curve. -/
theorem decompress1_codeWord (hre : re.toNat + 3 ≤ 64) {P : Point F} (hinf : P.inf = false)
    (hcurve : P.y * P.y = P.x * P.x * P.x + 4) (hz : wval t rd.toNat = codeWord (sign1Of P.y) P.x) :
    ∃ u, exec (.decompress1 re rd) t = .next u ∧ Wrote t u re.toNat (wordsOfPoint T1 P) := by
  have : NeZero p := ⟨by decide⟩
  obtain ⟨-, -, hfinite, -⟩ := decompressOneGives t re rd hre
  obtain ⟨hC, hI, hS, hX⟩ := codeWord_fields (sign1Of_le_one P.y) P.x
  simp only [hz, hC, hI, hS, hX, ZMod.natCast_zmod_val] at hfinite
  obtain ⟨-, u, hu, y, hy, hsign, hwrote⟩ := hfinite ⟨trivial, trivial, P.x.val_lt, P.y, hcurve.symm⟩
  have hy0 : P.y ≠ 0 := by
    intro h0
    rw [h0, mul_zero] at hcurve
    exact curve_rhs1_ne_zero P.x hcurve.symm
  have hyP : y = P.y := signedRoots1.eq_of_square_of_sign hy0 (hy.trans hcurve.symm) hsign
  obtain ⟨x, y', inf⟩ := P
  subst hyP hinf
  exact ⟨u, hu, hwrote⟩

/-- Decompression of an encoding written by `compress.2` for a finite point of the curve. -/
theorem decompress2_codeWord (hre : re.toNat + 5 ≤ 64) (hrd : rd.toNat + 2 ≤ 64) {P : Point F2} (hinf : P.inf = false)
    (hcurve : mul2 P.y P.y = mul2 (mul2 P.x P.x) P.x + b2) (hz1 : wval t rd.toNat = codeWord (sign2Of P.y) P.x.2)
    (hz0 : wval t (rd.toNat + 1) = P.x.1.val) :
    ∃ u, exec (.decompress2 re rd) t = .next u ∧ Wrote t u re.toNat (wordsOfPoint T2 P) := by
  have : NeZero p := ⟨by decide⟩
  obtain ⟨-, -, hfinite, -⟩ := decompressTwoGives t re rd hre hrd
  obtain ⟨hC, hI, hS, hX⟩ := codeWord_fields (sign2Of_le_one P.y) P.x.2
  simp only [hz1, hz0, hC, hI, hS, hX, ZMod.natCast_zmod_val] at hfinite
  obtain ⟨-, u, hu, y, hy, hsign, hwrote⟩ := hfinite ⟨trivial, trivial, P.x.2.val_lt, P.x.1.val_lt, P.y, hcurve⟩
  have hy0 : P.y ≠ 0 := by
    intro h0
    rw [h0, mul2_zero] at hcurve
    exact curve_rhs2_ne_zero P.x hcurve.symm
  have hyP : y = P.y := signedRoots2.eq_of_square_of_sign hy0 (hy.trans hcurve.symm) hsign
  obtain ⟨x, y', inf⟩ := P
  subst hyP hinf
  exact ⟨u, hu, hwrote⟩

/-- Decompression of the encoding of infinity (R577). -/
theorem decompress1_infinity_word (hre : re.toNat + 3 ≤ 64) (hz : wval t rd.toNat = 2 ^ 383 + 2 ^ 382) :
    ∃ u, exec (.decompress1 re rd) t = .next u ∧ Wrote t u re.toNat (wordsOfPoint T1 infinity) := by
  obtain ⟨-, hinfinity, -, -⟩ := decompressOneGives t re rd hre
  simp only [hz] at hinfinity
  obtain ⟨-, hu⟩ := hinfinity infinity_word_fields
  exact hu

theorem decompress2_infinity_word (hre : re.toNat + 5 ≤ 64) (hrd : rd.toNat + 2 ≤ 64)
    (hz1 : wval t rd.toNat = 2 ^ 383 + 2 ^ 382) (hz0 : wval t (rd.toNat + 1) = 0) :
    ∃ u, exec (.decompress2 re rd) t = .next u ∧ Wrote t u re.toNat (wordsOfPoint T2 infinity) := by
  obtain ⟨-, hinfinity, -, -⟩ := decompressTwoGives t re rd hre hrd
  simp only [hz1, hz0, and_true] at hinfinity
  obtain ⟨-, hu⟩ := hinfinity infinity_word_fields
  exact hu

/-! ## The two commands in a row -/

theorem roundTrip1 {s : State} {ra : Reg} {R : Point F} (hre : re.toNat + 3 ≤ 64) (hra : PointOk s ra.toNat 1)
    (hR : IsMultiple T1 Config.r false (pointAt T1 s ra.toNat) R) (hinf : R.inf = true)
    (hcurve : (pointAt T1 s ra.toNat).inf = true ∨ OnCurve T1 b1 (pointAt T1 s ra.toNat)) :
    ∃ t u, exec (.compress1 rd ra) s = .next t ∧ exec (.decompress1 re rd) t = .next u ∧
      Wrote t u re.toNat
        (wordsOfPoint T1 (if (pointAt T1 s ra.toNat).inf then infinity else pointAt T1 s ra.toNat)) := by
  obtain ⟨hgives, -⟩ := compressOneGives s rd ra hra
  obtain ⟨-, t, ht, hwrote⟩ := hgives R hR hinf
  have hz := hwrote.value 0 Nat.one_pos
  rcases hcurve with hPinf | ⟨hPinf, heq⟩
  · rw [if_pos hPinf] at hz ⊢
    obtain ⟨u, hu⟩ := decompress1_infinity_word hre hz
    exact ⟨t, u, ht, hu⟩
  · rw [if_neg (Bool.eq_false_iff.mp hPinf)] at hz ⊢
    obtain ⟨u, hu⟩ := decompress1_codeWord hre hPinf heq hz
    exact ⟨t, u, ht, hu⟩

theorem roundTrip2 {s : State} {ra : Reg} {R : Point F2} (hrd : rd.toNat + 2 ≤ 64) (hre : re.toNat + 5 ≤ 64)
    (hra : PointOk s ra.toNat 2) (hR : IsMultiple T2 Config.r false (pointAt T2 s ra.toNat) R) (hinf : R.inf = true)
    (hcurve : (pointAt T2 s ra.toNat).inf = true ∨ OnCurve T2 b2 (pointAt T2 s ra.toNat)) :
    ∃ t u, exec (.compress2 rd ra) s = .next t ∧ exec (.decompress2 re rd) t = .next u ∧
      Wrote t u re.toNat
        (wordsOfPoint T2 (if (pointAt T2 s ra.toNat).inf then infinity else pointAt T2 s ra.toNat)) := by
  obtain ⟨hgives, -⟩ := compressTwoGives s rd ra hrd hra
  obtain ⟨-, t, ht, hwrote⟩ := hgives R hR hinf
  rcases hcurve with hPinf | ⟨hPinf, heq⟩
  · rw [if_pos hPinf] at hwrote ⊢
    obtain ⟨u, hu⟩ := decompress2_infinity_word hre hrd (hwrote.value 0 Nat.two_pos) (hwrote.value 1 Nat.one_lt_two)
    exact ⟨t, u, ht, hu⟩
  · rw [if_neg (Bool.eq_false_iff.mp hPinf)] at hwrote ⊢
    obtain ⟨u, hu⟩ := decompress2_codeWord hre hrd hPinf heq (hwrote.value 0 Nat.two_pos) (hwrote.value 1 Nat.one_lt_two)
    exact ⟨t, u, ht, hu⟩

/-- Settles O59: `compress` leaves an encoding from which `decompress` finds the abscissa and, by its sign, the root `y`. -/
theorem roundTrip : Obligations.RoundTrip :=
  ⟨fun _ _ _ _ _ => roundTrip1, fun _ _ _ _ _ => roundTrip2⟩

end Sys2Proof.Proofs
end

section
/-! The errors of a command (60_exceptions.md R600 to R618): which words and which operands raise, what each command can
raise, and how long an error stays in STATUS. -/

namespace Sys2Proof.Proofs

open Sys2Proof.Machine
open Sys2Proof.Reference
open Sys2Proof.Laws
open Sys2Proof.Config (p)

/-! ## Illegal words (R608) -/

/-- Settles O6: a word outside the tables does not decode, and the sequencer then raises without a look at the registers. -/
theorem illegalCommandRaises : Obligations.IllegalCommandRaises := by
  intro s hbusy hs hillegal
  have hdec : decode s.cmdr = none := by
    rwa [← decodesIffLegal, Option.not_isSome_iff_eq_none] at hillegal
  refine ⟨_, ?_, raised_of_error s .illegalCommand⟩
  rw [step_nil s hs, sequencerStep_illegal s hbusy hdec]
  rfl

/-! ## A completion reports the error of its rule (R610) -/

/-- A completion after an acceptance, which cleared ERR, raises exactly when its rule does, with the code of that error. -/
theorem raised_complete_iff {s : State} (herr : s.err = false) (x : Res Effect) (c : Nat) :
    Raised s (complete s x) c ↔ ∃ e, x = .error e ∧ e.code.toNat = c := by
  cases x with
  | error e =>
    have hraised := raised_of_error s e
    constructor
    · exact fun h => ⟨e, rfl, hraised.errcode.symm.trans h.errcode⟩
    · rintro ⟨e', he, rfl⟩
      cases he
      exact hraised
  | ok e =>
    refine iff_of_false (fun h => ?_) (fun ⟨_, he, _⟩ => nomatch he)
    have hok := h.err
    rw [complete_ok_err, herr] at hok
    cases hok

/-! ## The table of errors (R601, R618) -/

theorem raisable_eq_codesOf {i : Instr} (h : ∀ rd ra rb, i ≠ .pairing rd ra rb) : raisable i = codesOf i := by
  cases i with
  | pairing rd ra rb => exact absurd rfl (h rd ra rb)
  | _ => rfl

/-- Settles O10: the error a legal command reports is one its rule raises, and those are of its line. -/
theorem errorsOfTheTable : Obligations.ErrorsOfTheTable := by
  intro i s t c hw herr hpairing hexec hraised
  rw [exec_wellFormed i s hw] at hexec
  cases hexec
  obtain ⟨e, he, rfl⟩ := (raised_complete_iff herr _ c).mp hraised
  exact raisable_eq_codesOf hpairing ▸ (ruleOf_spec i).raises s e he

/-! ## Range-checked reads (R609; 10_state.md R105 to R108) -/

section Reads

variable {γ δ : Type} {C D : State → Prop} {x : Regs → Res γ} {g : γ → Regs → Res δ}

/-- The read gives a value where `C` holds, and raises NonCanonicalOperand elsewhere. -/
def RangeChecked (C : State → Prop) (x : Regs → Res γ) : Prop :=
  ∀ s, (C s ∧ ∃ a, x s.w = .ok a) ∨ (¬C s ∧ x s.w = .error .nonCanonicalOperand)

theorem RangeChecked.ok (f : Regs → γ) : RangeChecked (fun _ => True) fun w => .ok (f w) :=
  fun _ => .inl ⟨trivial, _, rfl⟩

theorem RangeChecked.congr (h : RangeChecked C x) (hCD : ∀ s, C s ↔ D s) : RangeChecked D x :=
  funext (fun s => propext (hCD s)) ▸ h

theorem RangeChecked.bind (hx : RangeChecked C x) (hg : ∀ a, RangeChecked D (g a)) :
    RangeChecked (fun s => C s ∧ D s) fun w => x w >>= fun a => g a w := by
  intro s
  rcases hx s with ⟨hC, a, ha⟩ | ⟨hC, he⟩
  · simpa [ha, hC, ok_bind] using hg a s
  · exact .inr ⟨fun h => hC h.1, by simp only [he, error_bind]⟩

end Reads

section Level

variable {α β : Type} [AddCommGroup β] {L : Level α} {T : Tower β} {f : α → β} {b : Reg}

theorem rdF_rangeChecked (link : Link L T f) (b : Nat) :
    RangeChecked (fun s => ∀ k < T.size, wval s (b + k) < p) fun w => rdF L w b := by
  intro s
  rcases rdF_cases link s b with ⟨a, ha, -, hlt⟩ | ⟨he, k, hk, hge⟩
  · exact .inl ⟨hlt, a, ha⟩
  · exact .inr ⟨fun h => hge (h k hk), he⟩

theorem rdInf_rangeChecked (b : Nat) : RangeChecked (fun s => wval s b ≤ 1) fun w => rdInf w b := by
  intro s
  by_cases h : wval s b ≤ 1
  · exact .inl ⟨h, _, if_neg (Nat.not_lt.mpr h)⟩
  · exact .inr ⟨h, if_pos (Nat.not_le.mp h)⟩

/-- An element operand. -/
theorem rdElem_checked (link : Link L T f) (hT : isPointSize T.size = false) :
    RangeChecked (fun s => Canonical s b.toNat T.size) fun w => rdF L w b.toNat :=
  (rdF_rangeChecked link b.toNat).congr fun s => by rw [Canonical, if_neg (by simp [hT])]

/-- A point operand: its coordinates and its flag word are the words of the operand, in order. -/
theorem rdPt_checked (link : Link L T f) (hT : isPointSize (2 * T.size + 1) = true) :
    RangeChecked (fun s => Canonical s b.toNat (2 * T.size + 1)) fun w => rdPt L w b.toNat := by
  have hreads := (rdF_rangeChecked link b.toNat).bind fun x => (rdF_rangeChecked link (b.toNat + L.size)).bind fun y =>
    (rdInf_rangeChecked (b.toNat + 2 * L.size)).bind fun inf => .ok fun _ => (⟨x, y, inf⟩ : Point α)
  refine hreads.congr fun s => ?_
  rw [Canonical, if_pos hT, Nat.add_sub_cancel, link.size]
  constructor
  · rintro ⟨hx, hy, hinf, -⟩
    refine ⟨fun k hk => ?_, hinf⟩
    by_cases hkx : k < T.size
    · exact hx k hkx
    · have hky := hy (k - T.size) (by omega)
      rwa [Nat.add_assoc, Nat.add_sub_cancel' (Nat.not_lt.mp hkx)] at hky
  · rintro ⟨hxy, hinf⟩
    refine ⟨fun k hk => hxy k (by omega), fun k hk => ?_, hinf, trivial⟩
    rw [Nat.add_assoc]
    exact hxy _ (by omega)

end Level

/-! ## The rules raise NonCanonicalOperand in their reads only -/

/-- The codes of the errors that an operation can raise once its operands are read (R602 to R607, R612, R613). -/
def operationCodes : List Nat := [1, 2, 3, 6, 9, 10]

/-- The computation raises NonCanonicalOperand exactly when a word of one of these operands is out of range. -/
def ChecksOperands {γ : Type} (srcs : List (Reg × Nat)) (x : Regs → Res γ) : Prop :=
  ∀ s : State, x s.w = .error .nonCanonicalOperand ↔ ∃ o ∈ srcs, ¬Canonical s o.1.toNat o.2

section Checks

variable {γ δ : Type} {srcs : List (Reg × Nat)}

theorem ChecksOperands.operation {x : Regs → Res γ} (h : ∀ w, RaisesOnly operationCodes (x w)) :
    ChecksOperands [] x :=
  fun s => iff_of_false (fun he => absurd (h s.w _ he) (by decide)) (by simp)

/-- A checked read first: its operand decides, and when it is in range the operands read later do. -/
theorem ChecksOperands.read {o : Reg × Nat} {x : Regs → Res γ} {g : γ → Regs → Res δ}
    (hx : RangeChecked (fun s => Canonical s o.1.toNat o.2) x) (hg : ∀ a, ChecksOperands srcs (g a)) :
    ChecksOperands (o :: srcs) fun w => x w >>= fun a => g a w := by
  intro s
  rw [List.exists_mem_cons_iff]
  rcases hx s with ⟨hC, a, ha⟩ | ⟨hC, he⟩
  · simp only [ha, ok_bind]
    rw [hg a s, or_iff_right (not_not_intro hC)]
  · simp only [he, error_bind]
    exact iff_of_true trivial (.inl hC)

end Checks

section Level

variable {α β : Type} [AddCommGroup β] {L : Level α} {T : Tower β} {f : α → β} {rd ra rb rc : Reg}

theorem constRule_checks (c : α) : ChecksOperands [] (constRule L c rd) := .operation fun _ => .ok _

theorem unaryRule_checks (link : Link L T f) (hT : isPointSize T.size = false) {op : α → Res α}
    (hop : ∀ a, RaisesOnly operationCodes (op a)) : ChecksOperands [(ra, T.size)] (unaryRule L op rd ra) :=
  .read (rdElem_checked link hT) fun a => .operation fun _ => .bind (hop a) fun _ => .ok _

theorem binaryRule_checks (link : Link L T f) (hT : isPointSize T.size = false) (op : α → α → α) :
    ChecksOperands [(ra, T.size), (rb, T.size)] (binaryRule L op rd ra rb) :=
  .read (rdElem_checked link hT) fun _ => .read (rdElem_checked link hT) fun _ => .operation fun _ => .ok _

/-- The exponent register is not checked. -/
theorem powRule_checks (link : Link L T f) (hT : isPointSize T.size = false) :
    ChecksOperands [(ra, T.size)] (powRule L rd ra rb) :=
  .read (rdElem_checked link hT) fun _ => .operation fun _ => .ok _

theorem eqRule_checks [DecidableEq α] (link : Link L T f) (hT : isPointSize T.size = false) :
    ChecksOperands [(ra, T.size), (rb, T.size)] (eqRule L ra rb) :=
  .read (rdElem_checked link hT) fun _ => .read (rdElem_checked link hT) fun _ => .operation fun _ => .ok _

theorem isOneRule_checks [DecidableEq α] (link : Link L T f) (hT : isPointSize T.size = false) :
    ChecksOperands [(ra, T.size)] (isOneRule L ra) :=
  .read (rdElem_checked link hT) fun _ => .operation fun _ => .ok _

section Point

variable (link : Link L T f) (hT : isPointSize (2 * T.size + 1) = true)
  (hinv : ∀ a, RaisesOnly operationCodes (L.inv a))

include link hT in
theorem pnegRule_checks : ChecksOperands [(ra, 2 * T.size + 1)] (pnegRule L rd ra) :=
  .read (rdPt_checked link hT) fun _ => .operation fun _ => .ok _

include link hT hinv in
theorem pdblRule_checks : ChecksOperands [(ra, 2 * T.size + 1)] (pdblRule L rd ra) :=
  .read (rdPt_checked link hT) fun P => .operation fun _ => .bind (dblPoint_raisesOnly hinv P) fun _ => .ok _

variable [DecidableEq α]

include link hT hinv in
theorem paddRule_checks : ChecksOperands [(ra, 2 * T.size + 1), (rb, 2 * T.size + 1)] (paddRule L rd ra rb) :=
  .read (rdPt_checked link hT) fun P => .read (rdPt_checked link hT) fun Q => .operation fun _ =>
    .bind (addPoint_raisesOnly hinv P Q) fun _ => .ok _

include link hT hinv in
/-- The scalar register is not checked. -/
theorem pmulRule_checks (sn : Bool) : ChecksOperands [(rb, 2 * T.size + 1)] (pmulRule L rd ra rb sn) :=
  .read (rdPt_checked link hT) fun P => .operation fun _ => .bind (mulPoint_raisesOnly hinv _ sn P) fun _ => .ok _

include link hT in
theorem poncurveRule_checks (b : α) : ChecksOperands [(ra, 2 * T.size + 1)] (poncurveRule L b ra) :=
  .read (rdPt_checked link hT) fun _ => .operation fun _ => .ok _

include link hT hinv in
theorem pinsubgrpRule_checks : ChecksOperands [(ra, 2 * T.size + 1)] (pinsubgrpRule L ra) :=
  .read (rdPt_checked link hT) fun P => .operation fun _ => .bind (inSubgroup_raisesOnly hinv P) fun _ => .ok _

end Point

end Level

section Single

variable {rd ra rb rc b : Reg}

/-- A G1 operand. -/
theorem rdPt1_checked : RangeChecked (fun s => Canonical s b.toNat 3) fun w => rdPt lv1 w b.toNat :=
  rdPt_checked link1 rfl

/-- A G2 operand. -/
theorem rdPt2_checked : RangeChecked (fun s => Canonical s b.toNat 5) fun w => rdPt lv2 w b.toNat :=
  rdPt_checked link2 rfl

theorem untwistRule_checks : ChecksOperands [(ra, 5)] (untwistRule rd ra) :=
  .read rdPt2_checked fun Q => .operation fun _ =>
    .ite (.error (by decide)) (.bind (untwistPoint_raisesOnly Q) fun _ => .ok _)

theorem dblevalRule_checks : ChecksOperands [(ra, 5), (rb, 3)] (dblevalRule rd ra rb) :=
  .read rdPt2_checked fun R => .read rdPt1_checked fun P => .operation fun _ =>
    .bind (dblEval_raisesOnly (by decide) (by decide) R P) fun _ => .ok _

theorem addevalRule_checks : ChecksOperands [(ra, 5), (rb, 5), (rc, 3)] (addevalRule rd ra rb rc) :=
  .read rdPt2_checked fun R => .read rdPt2_checked fun Q => .read rdPt1_checked fun P => .operation fun _ =>
    .bind (addEval_raisesOnly (by decide) (by decide) R Q P) fun _ => .ok _

theorem millerRule_checks : ChecksOperands [(ra, 3), (rb, 5)] (millerRule rd ra rb) :=
  .read rdPt1_checked fun P => .read rdPt2_checked fun Q => .operation fun _ =>
    .ite (.error (by decide)) (.bind (millerFn_raisesOnly (by decide) (by decide) P Q) fun _ => .ok _)

theorem pairingRule_checks : ChecksOperands [(ra, 3), (rb, 5)] (pairingRule rd ra rb) :=
  .read rdPt1_checked fun P => .read rdPt2_checked fun Q => .operation fun _ =>
    .bind (pairingFn_raisesOnly (by decide) (by decide) P Q) fun _ => .ok _

theorem compress1Rule_checks : ChecksOperands [(ra, 3)] (compress1Rule rd ra) :=
  .read rdPt1_checked fun P => .operation fun _ =>
    .bind (compressG1_raisesOnly (by decide) (by decide) P) fun _ => .ok _

theorem compress2Rule_checks : ChecksOperands [(ra, 5)] (compress2Rule rd ra) :=
  .read rdPt2_checked fun P => .operation fun _ =>
    .bind (compressG2_raisesOnly (by decide) (by decide) P) fun _ => .ok _

/-- The words of an encoding are not checked. -/
theorem decompress1Rule_checks : ChecksOperands [] (decompress1Rule rd ra) :=
  .operation fun _ => .bind (decompressG1_raisesOnly (by decide) (by decide) _) fun _ => .ok _

theorem decompress2Rule_checks : ChecksOperands [] (decompress2Rule rd ra) :=
  .operation fun _ => .bind (decompressG2_raisesOnly (by decide) (by decide) _ _) fun _ => .ok _

end Single

/-- The rule of every command checks the operands of R609. -/
theorem ruleOf_checks (i : Instr) : ChecksOperands (checkedSources i) (ruleOf i) := by
  cases i with
  | fzero1 | fone1 | fzero2 | fone2 | fzero6 | fone6 | fzero12 | fone12 => exact constRule_checks _
  | fadd1 | fsub1 | fmul1 => exact binaryRule_checks link1 rfl _
  | fadd2 | fsub2 | fmul2 => exact binaryRule_checks link2 rfl _
  | fadd6 | fsub6 | fmul6 => exact binaryRule_checks link6 rfl _
  | fadd12 | fsub12 | fmul12 => exact binaryRule_checks link12 rfl _
  | fneg1 => exact unaryRule_checks link1 rfl fun _ => .ok _
  | fneg2 | fmulnr2 => exact unaryRule_checks link2 rfl fun _ => .ok _
  | fneg6 | fmulnr6 => exact unaryRule_checks link6 rfl fun _ => .ok _
  | fneg12 | finalexp => exact unaryRule_checks link12 rfl fun _ => .ok _
  | finv1 => exact unaryRule_checks link1 rfl (fpInv_raisesOnly (by decide))
  | finv2 => exact unaryRule_checks link2 rfl (fp2Inv_raisesOnly (by decide))
  | finv6 => exact unaryRule_checks link6 rfl (fp6Inv_raisesOnly (by decide))
  | finv12 => exact unaryRule_checks link12 rfl (fp12Inv_raisesOnly (by decide))
  | fmulnr12 => exact unaryRule_checks link12 rfl fun _ => .error (by decide)
  | sqrt1 => exact unaryRule_checks link1 rfl (tsSqrt_raisesOnly (by decide))
  | sqrt2 => exact unaryRule_checks link2 rfl (fp2Sqrt_raisesOnly (by decide))
  | fpow1 => exact powRule_checks link1 rfl
  | fpow2 => exact powRule_checks link2 rfl
  | fpow6 => exact powRule_checks link6 rfl
  | fpow12 => exact powRule_checks link12 rfl
  | feq1 => exact eqRule_checks link1 rfl
  | feq2 => exact eqRule_checks link2 rfl
  | feq6 => exact eqRule_checks link6 rfl
  | feq12 => exact eqRule_checks link12 rfl
  | fisone1 => exact isOneRule_checks link1 rfl
  | fisone2 => exact isOneRule_checks link2 rfl
  | fisone6 => exact isOneRule_checks link6 rfl
  | fisone12 => exact isOneRule_checks link12 rfl
  | padd1 => exact paddRule_checks link1 rfl (fpInv_raisesOnly (by decide))
  | padd2 => exact paddRule_checks link2 rfl (fp2Inv_raisesOnly (by decide))
  | padd12 => exact paddRule_checks link12 rfl (fp12Inv_raisesOnly (by decide))
  | pdbl1 => exact pdblRule_checks link1 rfl (fpInv_raisesOnly (by decide))
  | pdbl2 => exact pdblRule_checks link2 rfl (fp2Inv_raisesOnly (by decide))
  | pdbl12 => exact pdblRule_checks link12 rfl (fp12Inv_raisesOnly (by decide))
  | pneg1 => exact pnegRule_checks link1 rfl
  | pneg2 => exact pnegRule_checks link2 rfl
  | pneg12 => exact pnegRule_checks link12 rfl
  | pmul1 => exact pmulRule_checks link1 rfl (fpInv_raisesOnly (by decide)) _
  | pmul2 => exact pmulRule_checks link2 rfl (fp2Inv_raisesOnly (by decide)) _
  | pmul12 => exact pmulRule_checks link12 rfl (fp12Inv_raisesOnly (by decide)) _
  | poncurve1 => exact poncurveRule_checks link1 rfl _
  | poncurve2 => exact poncurveRule_checks link2 rfl _
  | poncurve12 => exact poncurveRule_checks link12 rfl _
  | pinsubgrp1 => exact pinsubgrpRule_checks link1 rfl (fpInv_raisesOnly (by decide))
  | pinsubgrp2 => exact pinsubgrpRule_checks link2 rfl (fp2Inv_raisesOnly (by decide))
  | pinsubgrp12 => exact pinsubgrpRule_checks link12 rfl (fp12Inv_raisesOnly (by decide))
  | untwist => exact untwistRule_checks
  | dbleval => exact dblevalRule_checks
  | addeval => exact addevalRule_checks
  | miller => exact millerRule_checks
  | pairing => exact pairingRule_checks
  | compress1 => exact compress1Rule_checks
  | compress2 => exact compress2Rule_checks
  | decompress1 => exact decompress1Rule_checks
  | decompress2 => exact decompress2Rule_checks

theorem code_eq_eight_iff (e : Err) : e.code.toNat = 8 ↔ e = .nonCanonicalOperand := by cases e <;> decide

/-- Settles O9: the completion reports code 8 exactly when the rule raises it, and the rule does so in its checked reads. -/
theorem nonCanonicalIffOutOfRange : Obligations.NonCanonicalIffOutOfRange := by
  intro i s hw herr
  rw [← ruleOf_checks i s, exec_wellFormed i s hw]
  simp only [Host.Outcome.next.injEq, exists_eq_left', raised_complete_iff herr, code_eq_eight_iff, exists_eq_right]

/-! ## How long an error stays (R617; 70_reset_and_hazards.md R712) -/

/-- STATUS and CMDR are the same. -/
def SameControl (s t : State) : Prop :=
  t.busy = s.busy ∧ t.done = s.done ∧ t.err = s.err ∧ t.errcode = s.errcode ∧ t.flag = s.flag ∧ t.cmdr = s.cmdr

theorem SameControl.refl (s : State) : SameControl s s := ⟨rfl, rfl, rfl, rfl, rfl, rfl⟩

theorem sameControl_hostRead (s : State) (a : Nat) : SameControl s (hostRead s a) := by
  simp [SameControl]

/-- A host write other than of CMD is ignored or stores a limb. -/
theorem sameControl_hostWrite {s : State} (hidle : s.busy = false) {a : Nat} (v : Limb) (h4 : a % 4 = 0) (hcmd : a ≠ 0) :
    SameControl s (hostWrite s a v) := by
  by_cases hlimb : 0x400 ≤ a
  · rw [hostWrite_limb s a v hlimb hidle]
    exact ⟨rfl, rfl, rfl, rfl, rfl, rfl⟩
  · rw [hostWrite_reserved s a v (by omega) (by omega)]
    exact .refl s

/-- No event changes STATUS of an idle core but an acceptance and the reset input. -/
theorem sameControl_eventStep {s t : State} (hidle : s.busy = false) {e : Event} (haccept : ∀ c, e ≠ .hostWrite 0 c)
    (hreset : e ≠ .reset) (hstep : eventStep s e = .next t) : SameControl s t := by
  cases e with
  | hostRead a =>
    rw [eventStep] at hstep
    split at hstep
    · cases hstep
      exact sameControl_hostRead s a
    · cases hstep
  | hostWrite a v =>
    rw [eventStep] at hstep
    split at hstep
    next hport =>
      cases hstep
      have hcmd : a ≠ 0 := fun ha => haccept v (by rw [ha])
      exact sameControl_hostWrite hidle v ((isTransaction_iff a).mp hport).1 hcmd
    next => cases hstep
  | sequencer =>
    rw [eventStep, sequencerStep_idle s hidle] at hstep
    cases hstep
    exact .refl s
  | reset => exact absurd rfl hreset

/-- Settles O24: an idle core does nothing by itself, and of the events only an acceptance and a reset change STATUS. -/
theorem statusPersistsWhileIdle : Obligations.StatusPersistsWhileIdle := by
  intro s t hidle haccept hreset hstep
  have hsame : SameControl s t := by
    cases hs : s.schedule with
    | nil =>
      rw [step_nil s hs, sequencerStep_idle s hidle] at hstep
      cases hstep
      exact .refl s
    | cons e rest =>
      rw [step_cons s e rest hs] at hstep
      exact sameControl_eventStep (s := popEvent s rest) hidle (fun c he => haccept c rest (by rw [hs, he]))
        (fun he => hreset rest (by rw [hs, he])) hstep
  rwa [SameControl, hidle] at hsame

end Sys2Proof.Proofs
end

section
/-! Reset and hazards (70_reset_and_hazards.md R700 to R721): the reset input, the host's accesses while a command runs, and the
completion of that command. -/

namespace Sys2Proof.Proofs

open Sys2Proof.Machine
open Sys2Proof.Reference
open Sys2Proof.Laws

/-! ## The reset input (R700) -/

theorem step_reset {s : State} {rest : List Event} (hs : s.schedule = .reset :: rest) :
    step s = .next (applyReset (popEvent s rest)) := by
  rw [step_cons s _ rest hs, eventStep]

theorem marks_applyReset (s : State) {i : Nat} (hi : i < 64) : marks (applyReset s) i = 0 := by
  simp [marks, hi]

/-- Settles O16: whatever was in progress, the reset event is the next step, and its fields are those of R116. -/
theorem resetEvent : Obligations.ResetEvent := by
  intro s rest hs
  exact ⟨_, step_reset hs, applyReset_cmdr _, applyReset_busy _, applyReset_done _, applyReset_err _, applyReset_flag _,
    applyReset_errcode _, fun _ hi => marks_applyReset _ hi, applyReset_schedule _⟩

/-! ## The completion of a command (R720, R721) -/

/-- Settles O22: a legal command is executed, and an illegal one raises; both ends leave the core idle. -/
theorem busyCoreCompletes : Obligations.BusyCoreCompletes := by
  intro s hbusy hs
  rw [step_nil s hs]
  cases hdec : decode s.cmdr with
  | none => exact ⟨_, sequencerStep_illegal s hbusy hdec, rfl, rfl, rfl⟩
  | some i =>
    obtain ⟨t, hexec, hidle, hdone, hcmdr, -⟩ := exec_next i s
    exact ⟨t, (sequencerStep_legal s i hbusy hdec).trans hexec, hidle, hdone, hcmdr⟩

/-! ## Host accesses while a command runs (R710) -/

theorem sameCore_popEvent (s : State) (rest : List Event) : SameCore s (popEvent s rest) := by
  simp [SameCore]

theorem sameCore_refl (s : State) : SameCore s s := by
  simp [SameCore]

theorem sameCore_trans {s t u : State} (hst : SameCore s t) (htu : SameCore t u) : SameCore s u := by
  simp_all [SameCore]

theorem busy_eq_of_sameCore {s t : State} (h : SameCore s t) : t.busy = s.busy := by
  obtain ⟨-, -, -, hbusy, -⟩ := h
  exact hbusy

theorem cmdr_eq_of_sameCore {s t : State} (h : SameCore s t) : t.cmdr = s.cmdr := by
  obtain ⟨-, -, hcmdr, -⟩ := h
  exact hcmdr

/-- A running command shuts every host write out, CMD included. -/
theorem step_hostWrite_of_busy {s : State} {a : Nat} {v : Limb} {rest : List Event} (hbusy : s.busy = true)
    (hs : s.schedule = .hostWrite a v :: rest) (h4 : a % 4 = 0) (ha : a < 4096) : step s = .next (popEvent s rest) := by
  rw [step_hostWrite hs h4 ha, hostWrite_busy (popEvent s rest) a v hbusy]

/-- While a command runs there is neither DONE nor an error, so that STATUS is BUSY and FLAG. -/
theorem statusNumber_of_busy {s : State} (h : StatusInv s) (hbusy : s.busy = true) :
    statusNumber s = 1 + if s.flag then 8 else 0 := by
  obtain ⟨hexcl, hdoneOfErr, hcode, -⟩ := h
  have hdone : s.done = false := Bool.eq_false_iff.mpr fun hd => hexcl ⟨hbusy, hd⟩
  have herr : s.err = false := Bool.eq_false_iff.mpr fun he => hexcl ⟨hbusy, hdoneOfErr he⟩
  simp [statusNumber, hbusy, hdone, herr, hcode.mp herr]

/-- Settles O20: a read is answered as always and changes nothing of the core; a write is ignored. -/
theorem busyHazard : Obligations.BusyHazard := by
  intro s e rest hinv hbusy hs he
  obtain ⟨a, rfl, h4, ha⟩ | ⟨a, v, rfl, h4, ha⟩ := he
  · obtain ⟨t, hstep, hcore, hsched, hcmd, hstatus, -⟩ := hostReadReturns s a rest hs h4 ha
    refine ⟨t, hstep, hcore, hsched, fun h => hcmd (Event.hostRead.inj h), fun h => ?_⟩
    rw [hstatus (Event.hostRead.inj h), statusNumber_of_busy hinv hbusy]
  · exact ⟨_, step_hostWrite_of_busy hbusy hs h4 ha, sameCore_popEvent s rest, rfl, nofun, nofun⟩

/-! ## A run of host accesses (R710, R721) -/

/-- One access is one step that keeps the core; the rest of STATUS need not be consistent. -/
theorem step_hostAccess_of_busy {s : State} {e : Event} {rest : List Event} (hbusy : s.busy = true)
    (hs : s.schedule = e :: rest) (he : IsHostAccess e) :
    ∃ t, step s = .next t ∧ SameCore s t ∧ t.schedule = rest := by
  obtain ⟨a, rfl, h4, ha⟩ | ⟨a, v, rfl, h4, ha⟩ := he
  · exact ⟨_, step_hostRead hs h4 ha, sameCore_hostRead (popEvent s rest) a, hostRead_schedule _ a⟩
  · exact ⟨_, step_hostWrite_of_busy hbusy hs h4 ha, sameCore_popEvent s rest, rfl⟩

/-- By induction on the accesses: each of them keeps the core, and BUSY with it. -/
theorem run_hostAccesses_of_busy (es : List Event) (hes : ∀ e ∈ es, IsHostAccess e) {s : State} (hbusy : s.busy = true)
    (hs : s.schedule = es) : ∃ u, Host.Core.run core es.length s = .next u ∧ SameCore s u ∧ u.schedule = [] := by
  induction es generalizing s with
  | nil => exact ⟨s, rfl, sameCore_refl s, hs⟩
  | cons e rest ih =>
    obtain ⟨he, hrest⟩ := List.forall_mem_cons.mp hes
    obtain ⟨t, hstep, hst, hsched⟩ := step_hostAccess_of_busy hbusy hs he
    obtain ⟨u, hrun, htu, hnil⟩ := ih hrest ((busy_eq_of_sameCore hst).trans hbusy) hsched
    exact ⟨u, (run_succ_of_step hstep rest.length).trans hrun, sameCore_trans hst htu, hnil⟩

/-- Settles O21: the accesses leave the command in CMDR running on the same core, and the sequencer then executes it. -/
theorem busyRunIsUndisturbed : Obligations.BusyRunIsUndisturbed := by
  intro s es i hbusy hdec hes hs
  obtain ⟨u, hrun, hcore, hnil⟩ := run_hostAccesses_of_busy es hes hbusy hs
  have hdecode : decode u.cmdr = some i := by rw [cmdr_eq_of_sameCore hcore, hdec]
  have hstep : step u = exec i u :=
    (stepRunsDecodedCommand u i ((busy_eq_of_sameCore hcore).trans hbusy) hdecode).1 hnil
  obtain ⟨t, hexec, hidle, hdone, -, -⟩ := exec_next i u
  exact ⟨u, t, hrun, hcore, hnil, hstep.trans hexec, hexec, hidle, hdone⟩

end Sys2Proof.Proofs
end
